-- ==== Sys2Proof/Word.lean ====
section
/-! DEFINITION. The words the block works on: the 32-bit registers (10_state R17) and the bytes of the streams and
of the window (20_memory R51). Cursors are 12-bit vectors, so that `wrap12` of 00_scope R13 is their arithmetic. -/
namespace Sys2Proof

/-- A host register, a counter, the checksum, a varint value: 32 bits (10_state R17, 00_scope R10). -/
abbrev Word := BitVec 32

/-- A byte of a stream or of the window (20_memory R51). -/
abbrev Byte := BitVec 8

/-- A window position `0..4095`; its arithmetic is modulo 4096 (10_state R26, `wrap12` of 00_scope R13). -/
abbrev Cursor := BitVec 12

end Sys2Proof
end

