-- ==== Sys2Proof/Syntax.lean ====
section
/-! DEFINITION. The instruction set of 00_scope R3: the six host commands and the six wire elements, one constructor
for each row of spec/opcode_table.json. -/
namespace Sys2Proof

/-- The twelve rows of the opcode table. A command's operands are implicit (30_encoding R60); a wire element carries
the values its bytes stand for (30_encoding R63 to R70). -/
inductive Instr
  /-- Command 0: acknowledge, back to `IDLE` (60_exceptions R133). -/
  | nop
  /-- Command 1: write the minimal varint of `ARG` (40_varint R78). -/
  | venc
  /-- Command 2: the length of the minimal varint of `ARG` (40_varint R79). -/
  | vlen
  /-- Command 3: read one varint (40_varint R80). -/
  | vdec
  /-- Command 4: read one compressed block, write `ARG` bytes (41_decompress R86). -/
  | decomp
  /-- Command 5: read the source to its end, write one compressed block (42_compress R102). -/
  | comp
  /-- The flag byte of a token group (30_encoding R63). -/
  | flag (f : Byte)
  /-- A literal token, flag bit 1 (30_encoding R64). -/
  | lit (d : Byte)
  /-- A reference token, flag bit 0: a distance back from the cursor and the number of bytes it stands for, `3..18`
  (30_encoding R65, 90_conflicts C1). -/
  | ref (offset : Cursor) (count : Nat)
  /-- The checksum trailer (30_encoding R66). -/
  | trailer (w : Word)
  /-- A varint byte that another byte follows (30_encoding R68). -/
  | vcont (p : BitVec 7)
  /-- The last byte of a varint (30_encoding R69). -/
  | vlast (p : BitVec 7)
  deriving DecidableEq, Repr

end Sys2Proof
end

