-- ==== Sys2Proof/WellFormed.lean ====
section
/-! DEFINITION. Which terms of `Instr` are instructions of the spec. Every field but one has exactly the width of its
encoding; the one check left is the range of a reference's count. -/
namespace Sys2Proof

/-- 00_scope R7: "the count of bytes a reference stands for is `count code + THRESHOLD + 1`, range `3..18`". -/
def Instr.wf : Instr → Bool
  | .nop => true
  | .venc => true
  | .vlen => true
  | .vdec => true
  | .decomp => true
  | .comp => true
  | .flag _ => true
  | .lit _ => true
  | .ref _ count => decide (3 ≤ count) && decide (count ≤ 18)
  | .trailer _ => true
  | .vcont _ => true
  | .vlast _ => true

/-- `i` is an instruction of the spec. -/
abbrev Instr.WellFormed (i : Instr) : Prop := i.wf = true

end Sys2Proof
end

