-- ==== Sys2Proof/Decode.lean ====
section
/-! DEFINITION. Decoding and encoding. A command is decoded from the 32-bit word written to `CMD` (30_encoding R59).
A wire element is decoded from the bytes of the source, in a context that the block's state selects, because the kind
of a token is not in the token (30_encoding R71). After the decoder stands the encoder, written from the same layouts
(30_encoding R63 to R70). -/
namespace Sys2Proof

/-! ## Bit fields of the wire bytes (30_encoding R63 to R70) -/

/-- `offset` of a reference: byte 0 is `offset[7:0]`, the high nibble of byte 1 is `offset[11:8]` (30_encoding R65). -/
def refOffset (b0 b1 : Byte) : Cursor := b1.extractLsb' 4 4 ++ b0

/-- `count = count_code + 3`; the count code is the low nibble of byte 1 (30_encoding R65, R70). -/
def refCount (b1 : Byte) : Nat := (b1.extractLsb' 0 4).toNat + 3

/-- The two bytes of a reference (30_encoding R70: `b1 = ((offset >> 4) & 0xF0) | (count - 3)`). -/
def refBytes (offset : Cursor) (count : Nat) : List Byte :=
  [offset.extractLsb' 0 8, offset.extractLsb' 8 4 ++ BitVec.ofNat 4 (count - 3)]

/-- The trailer's value, least significant byte first (30_encoding R66, 20_memory R49). -/
def wordOfBytes (t0 t1 t2 t3 : Byte) : Word := t3 ++ t2 ++ t1 ++ t0

/-- The trailer's bytes, least significant first (30_encoding R66, R70). -/
def bytesOfWord (w : Word) : List Byte :=
  [w.extractLsb' 0 8, w.extractLsb' 8 8, w.extractLsb' 16 8, w.extractLsb' 24 8]

/-- A `VCONT` byte: bit 7 set, payload below (30_encoding R68). -/
def vcontByte (p : BitVec 7) : Byte := (1#1) ++ p

/-- A `VLAST` byte: bit 7 clear, payload below (30_encoding R69). -/
def vlastByte (p : BitVec 7) : Byte := (0#1) ++ p

/-- A varint byte is `VCONT` or `VLAST` by its bit 7 (30_encoding R68, R69). -/
def decodeVarintByte (b : Byte) : Instr :=
  if b.getLsbD 7 then .vcont (b.extractLsb' 0 7) else .vlast (b.extractLsb' 0 7)

/-! ## The decoder -/

/-- Which wire element comes next; it is the block's state that says so, not the bytes (30_encoding R71). -/
inductive Select
  /-- `REM > 0` and `FCNT = 0`. -/
  | flag
  /-- `REM > 0` and `FCNT > 0`: a token of the kind of the flag bit taken. -/
  | token (flagBit : Bool)
  /-- `REM = 0`. -/
  | trailer
  /-- A varint is being read. -/
  | varint
  deriving DecidableEq, Repr

/-- Length in bytes of the element (30_encoding R71). -/
def Select.length : Select → Nat
  | .flag => 1
  | .token true => 1
  | .token false => 2
  | .trailer => 4
  | .varint => 1

/-- Why the decoder gives no instruction. -/
inductive DecodeError
  /-- A command word above 5: reserved, the block answers `BadCommand` (30_encoding R59, 60_exceptions R139). -/
  | reservedCommand (w : Word)
  /-- The source ends before the element's last byte: the block answers `Truncated` (60_exceptions R136). -/
  | endOfSource (sel : Select)
  deriving DecidableEq, Repr

/-- The command word: the whole word is the code (30_encoding R59). -/
def decodeCommand (w : Word) : Except DecodeError Instr :=
  match w.toNat with
  | 0 => .ok .nop
  | 1 => .ok .venc
  | 2 => .ok .vlen
  | 3 => .ok .vdec
  | 4 => .ok .decomp
  | 5 => .ok .comp
  | _ => .error (.reservedCommand w)

/-- The next wire element of a byte string, and the bytes after it. Every byte value is legal (30_encoding R74); the
only rejection is a string that is too short. -/
def decodeElement (sel : Select) (bytes : List Byte) : Except DecodeError (Instr × List Byte) :=
  match sel, bytes with
  | .flag, b :: rest => .ok (.flag b, rest)
  | .token true, b :: rest => .ok (.lit b, rest)
  | .token false, b0 :: b1 :: rest => .ok (.ref (refOffset b0 b1) (refCount b1), rest)
  | .trailer, t0 :: t1 :: t2 :: t3 :: rest => .ok (.trailer (wordOfBytes t0 t1 t2 t3), rest)
  | .varint, b :: rest => .ok (decodeVarintByte b, rest)
  | sel, _ => .error (.endOfSource sel)

/-- What the block is given to decode: a command word, or source bytes with the element its state selects. -/
inductive Encoding
  | command (w : Word)
  | element (sel : Select) (bytes : List Byte)
  deriving DecidableEq, Repr

/-- The decoder, total on every input. -/
def decode : Encoding → Except DecodeError (Instr × List Byte)
  | .command w =>
    match decodeCommand w with
    | .ok i => .ok (i, [])
    | .error e => .error e
  | .element sel bytes => decodeElement sel bytes

/-! ## The encoder -/

/-- The code of a command; a wire element has none (30_encoding R59). -/
def Instr.commandCode : Instr → Option Word
  | .nop => some 0
  | .venc => some 1
  | .vlen => some 2
  | .vdec => some 3
  | .decomp => some 4
  | .comp => some 5
  | .flag _ => none
  | .lit _ => none
  | .ref _ _ => none
  | .trailer _ => none
  | .vcont _ => none
  | .vlast _ => none

/-- The encoding of an instruction: the command word, or the element's bytes in stream order with the selection under
which they are read back (30_encoding R59, R63 to R70). -/
def encode : Instr → Encoding
  | .nop => .command 0
  | .venc => .command 1
  | .vlen => .command 2
  | .vdec => .command 3
  | .decomp => .command 4
  | .comp => .command 5
  | .flag f => .element .flag [f]
  | .lit d => .element (.token true) [d]
  | .ref offset count => .element (.token false) (refBytes offset count)
  | .trailer w => .element .trailer (bytesOfWord w)
  | .vcont p => .element .varint [vcontByte p]
  | .vlast p => .element .varint [vlastByte p]

/-! ## Words numbered as spec/opcode_table.json numbers them (log 14) -/

/-- The encoding that `nbits` bits of value `w` stand for. The table gives the command rows and `TRAILER` 32 bits and
`FLAG`, `VCONT`, `VLAST` 8 bits, and only the block's state tells them apart (30_encoding R71): here the rows with
fixed bits go first (the six command codes; `VCONT` and `VLAST`), so another 32-bit word is a `TRAILER`. The patterns
of `LIT` (9 bits) and `REF` (17 bits) carry the selecting flag bit in front (30_encoding R77). -/
def tableEncoding (nbits w : Nat) : Option Encoding :=
  if nbits = 8 then
    if w < 256 then some (.element .varint [BitVec.ofNat 8 w]) else none
  else if nbits = 9 ∨ nbits = 16 then
    if w / 256 = 1 then some (.element (.token true) [BitVec.ofNat 8 w]) else none
  else if nbits = 17 ∨ nbits = 24 then
    if w < 65536 then some (.element (.token false) [BitVec.ofNat 8 (w / 256), BitVec.ofNat 8 w]) else none
  else if nbits = 32 then
    if w < 6 then some (.command (BitVec.ofNat 32 w))
    else if w < 4294967296 then some (.element .trailer (bytesOfWord (BitVec.ofNat 32 w)))
    else none
  else none

/-- The instruction the decoder reads from an instruction whose bits are `w` (log 14). -/
def decodeTableWord (nbits w : Nat) : Option Instr :=
  match tableEncoding nbits w with
  | some e =>
    match decode e with
    | .ok (i, _) => some i
    | .error _ => none
  | none => none

end Sys2Proof
end

