-- ==== Sys2Proof/Config.lean ====
section
/-! DEFINITION. What is fixed for the machine and is no state (10_state R36): the constants of 00_scope R6 to R9, the
open parameter `TREE_ORDER` (43_match_finder R124) and the one free value of the spec (70_reset R160). -/
namespace Sys2Proof.Config

/-- `N = WindowSize` (00_scope R6). -/
abbrev windowSize : Nat := 4096
/-- `F = MatchMax` (00_scope R6). -/
abbrev matchMax : Nat := 18
/-- `THRESHOLD = MatchThreshold` (00_scope R6). -/
abbrev threshold : Nat := 2
/-- `FILL` (00_scope R6). -/
abbrev fill : Byte := 0x20
/-- `R_INIT = N - F` (00_scope R6). -/
abbrev cursorInit : Cursor := 4078
/-- Last index of `WIN`: `WIN_LEN = 4113` entries (00_scope R6). -/
abbrev winLast : Nat := 4112
/-- `NIL = N`, the sentinel of the tree arrays, a number and no absent value (00_scope R8, R9). -/
abbrev nil : Nat := 4096
/-- The same sentinel as an entry of the arrays. -/
abbrev nilEntry : BitVec 13 := 4096
/-- Last index of `LEFT` and `PARENT` (00_scope R8). -/
abbrev linkLast : Nat := 4096
/-- Last index of `RIGHT`, the root slot of byte 255 (00_scope R8). -/
abbrev rightLast : Nat := 4352
/-- `ROOT(c) = N + 1 + c` (00_scope R8). -/
abbrev root (c : Byte) : Nat := 4097 + c.toNat

/-- The two readings of the direction of descent (43_match_finder R124). -/
inductive TreeOrder
  /-- `NODE_GE_RIGHT`: to the right when the node's byte is larger or equal. -/
  | nodeGeRight
  /-- `NODE_LT_RIGHT`: to the right when the node's byte is smaller. -/
  | nodeLtRight
  deriving DecidableEq, Repr, Inhabited

/-- `TREE_ORDER` of this machine: OPEN in the spec (92_eei_decisions D12), so it has no body and a claim holds
whichever it is (log 1, DESIGN CHOICE, safe). -/
opaque treeOrder : TreeOrder

/-- How far between its start and its final value a host read of `CSUM`, `IN_COUNT` or `OUT_COUNT` answers while `BUSY`:
"some value ... with no promise which" (70_reset R160, 93 U7). A free value, one for each read, drawn by the counter
`port.fresh` (log 5, safe). -/
opaque busyRead : Nat → Word

end Sys2Proof.Config
end

