-- ==== Sys2Proof/Machine/State.lean ====
section
/-! DEFINITION. The state of the block (10_state), of the two streams it is attached to (20_memory R39, R41), and of
the host's side of the register port (log 2); the reasons a step can stop; the state after hard reset (70_reset R147). -/
namespace Sys2Proof.Machine

/-! ## Why a step stops -/

/-- The machine stops. None of these is an error of the block (those are `ErrKind`, and a failed operation is a next
state): each stands where no rule of the spec says what happens. -/
inductive Fault
  /-- Raised by a window read of the match finder at an index above 4112, which "is never formed by any rule"
  (20_memory R45). Safe (log 11). -/
  | windowIndex
  /-- Raised by a tree access outside `LEFT`, `RIGHT` or `PARENT`, or by a child link that holds neither a node nor
  `NIL` (20_memory R47, 43_match_finder R129). Safe (log 11). -/
  | treeIndex
  /-- Raised by the group buffer when an index is above 16 (10_state R33). Safe (log 11). -/
  | groupIndex
  /-- Raised by a walk down the links that has not ended after every node could have been met once: the links form no
  tree (43_match_finder R123 item 2), and the block would walk on for ever. A stuck state. Safe (log 10). -/
  | endlessDescent
  /-- Raised by a wire element that the block's state does not select (30_encoding R71); `step` never runs one.
  Safe (log 12). -/
  | notSelected
  /-- Raised by `step` when `STATUS.STATE` is `BUSY` and `CMD` holds no command that is run in steps (60_exceptions
  R131 starts none). Safe (log 12). -/
  | noOperation
  deriving DecidableEq, Repr

/-- No meaning is given. -/
inductive Refusal
  /-- Raised by `exec` for an instruction that has no meaning yet, by its mnemonic. Safe. -/
  | notModelled (mnemonic : String)
  /-- Raised by a stream access that would make `IN_COUNT` or `OUT_COUNT` pass 2^32 - 1: "outside this spec: a model
  ... gives no meaning otherwise" (10_state R21, 93 U3). Safe (log 6). -/
  | beyondCounters
  /-- Raised by the host action that attaches a new source while an operation is in progress: the source is "fixed
  before the operation starts" (20_memory R39). Safe (log 7). -/
  | sourceChangedWhileBusy
  deriving DecidableEq, Repr

/-- The two ways in which an inner operation of the block can end without a result. -/
inductive Stop
  /-- A fault. -/
  | fault (r : Fault)
  /-- A refusal. -/
  | refused (r : Refusal)
  deriving DecidableEq, Repr

/-! ## Host registers -/

/-- `STATUS.STATE` (10_state R19). -/
inductive OpState
  | idle
  | busy
  | done
  | failed
  deriving DecidableEq, Repr

/-- `STATUS.ERR`: the error kinds of 60_exceptions R135; the codes 5 to 7 are never produced (10_state R19). -/
inductive ErrKind
  | none
  | truncated
  | overflow
  | malformedStream
  | badCommand
  deriving DecidableEq, Repr

/-- The eight host registers by name, in the order of their numbers (10_state R17). -/
inductive Reg
  | cmd
  | mode
  | arg
  | result
  | status
  | csum
  | inCount
  | outCount
  deriving DecidableEq, Repr

/-- The host registers. `MODE` and `STATUS` are held by their fields, whose other bits read as zero (10_state R17, R19;
log 13). -/
structure Regs where
  cmd : Word
  /-- `MODE.SIGNED`. -/
  signed : Bool
  arg : Word
  result : Word
  /-- `STATUS.STATE`. -/
  state : OpState
  /-- `STATUS.ERR`. -/
  err : ErrKind
  /-- `STATUS.VWRAP`. -/
  vwrap : Bool
  csum : Word
  inCount : Word
  outCount : Word
  deriving DecidableEq, Repr

/-- What command start samples (60_exceptions R131, 70_reset R160). -/
structure Sampled where
  signed : Bool
  arg : Word
  deriving DecidableEq, Repr

/-! ## Engine state -/

/-- Decompression unit: the remaining-byte counter (10_state R28) and the flag shifter (10_state R23). -/
structure DU where
  rem : Word
  flags : Byte
  fcnt : BitVec 4
  deriving DecidableEq, Repr

/-- Match finder: the three link arrays (10_state R32) and the current match (10_state R31). An array is a list of
(index, entry) pairs in the canonical form of `Cells.wf`; an unlisted entry is `NIL`. -/
structure Finder where
  left : List (Nat × BitVec 13)
  right : List (Nat × BitVec 13)
  parent : List (Nat × BitVec 13)
  ml : BitVec 5
  mp : Cursor
  deriving DecidableEq, Repr

/-- Compression unit: the input cursor `S` (10_state R29), `LEN` (R30), the group buffer (R33), the match finder. -/
structure CU where
  curS : Cursor
  len : BitVec 5
  gbuf : Vector Byte 17
  gptr : BitVec 5
  gmask : Byte
  finder : Finder
  deriving DecidableEq, Repr

/-- Varint unit (10_state R35). -/
structure VU where
  vacc : Word
  vidx : BitVec 3
  vv : Word
  deriving DecidableEq, Repr

/-! ## Streams and the host -/

/-- The byte source `SRC` (20_memory R39). -/
structure Source where
  bytes : List Byte
  pos : Nat
  eos : Bool
  deriving DecidableEq, Repr

/-- The byte sink `SNK` (20_memory R41). -/
structure Sink where
  committed : List Byte
  pending : List Byte
  deriving DecidableEq, Repr

/-- What the host and the platform can do to the block (70_reset R147, R149, R153). -/
inductive HostAction
  /-- Write a register. -/
  | write (r : Reg) (v : Word)
  /-- Read a register into `port.data`. -/
  | read (r : Reg)
  /-- Wait until `STATUS.STATE` is not `BUSY` (70_reset R149 item 5). -/
  | wait
  /-- Let the block take one step of its operation, if one is in progress. -/
  | tick
  /-- Hard reset (70_reset R147). -/
  | hardReset
  /-- The platform presents a new source object (70_reset R149 item 2, R153). -/
  | attach (bytes : List Byte)
  deriving DecidableEq, Repr

/-- The host's side of the register port; the MODEL's own state (log 2). -/
structure Port where
  /-- The host's actions still to come. -/
  queue : List HostAction
  /-- What the last register read returned. -/
  data : Word
  /-- How many free values have been drawn (log 5). -/
  fresh : Nat
  deriving DecidableEq, Repr

/-- The whole state. `win` is the window in the canonical form of `Cells.wf`; an unlisted byte reads as the fill byte
`0x20` (log 3). -/
structure State where
  regs : Regs
  sampled : Sampled
  win : List Host.Cell
  curR : Cursor
  du : DU
  cu : CU
  vu : VU
  src : Source
  snk : Sink
  port : Port
  deriving DecidableEq, Repr

/-- The registers after hard reset (70_reset R147). -/
def Regs.reset : Regs :=
  { cmd := 0, signed := false, arg := 0, result := 0, state := .idle, err := .none, vwrap := false, csum := 0,
    inCount := 0, outCount := 0 }

/-- The block right after hard reset. Registers as 70_reset R147 gives them; the engine state, which R147 calls
unspecified, at the values of log 3 (DESIGN CHOICE); no source, nothing committed, no host action (log 7, log 2). -/
def State.reset : State :=
  { regs := Regs.reset
    sampled := { signed := false, arg := 0 }
    win := []
    curR := 0
    du := { rem := 0, flags := 0, fcnt := 0 }
    cu :=
      { curS := 0, len := 0, gbuf := Vector.replicate 17 0, gptr := 1, gmask := 1
        finder := { left := [], right := [], parent := [], ml := 0, mp := 0 } }
    vu := { vacc := 0, vidx := 0, vv := 0 }
    src := { bytes := [], pos := 0, eos := false }
    snk := { committed := [], pending := [] }
    port := { queue := [], data := 0, fresh := 0 } }

end Sys2Proof.Machine
end

