-- ==== Sys2Proof/Machine/Ops.lean ====
section
/-! DEFINITION. The named operations over storage, streams and host registers, and the ways an operation of the block
starts, completes and fails (60_exceptions R131, R132, R141). An inner operation answers a value or a `Stop`. -/
namespace Sys2Proof.Machine

/-- The answer of an inner operation: a value, or the reason it has none. -/
abbrev Res (α : Type) := Except Stop α

/-- An inner operation's answer as an outcome of the machine. -/
def Res.outcome (x : Res State) : Host.Outcome State Fault Refusal :=
  match x with
  | .ok s => .next s
  | .error (.fault r) => .fault r
  | .error (.refused r) => .refused r

/-! ## Sparse storage in one canonical form -/

/-- Entry `a` of an array; what is not listed reads as `d`. -/
def Cells.read {w : Nat} (d : BitVec w) (m : List (Nat × BitVec w)) (a : Nat) : BitVec w :=
  match m with
  | [] => d
  | (b, u) :: rest => if a = b then u else Cells.read d rest a

/-- Store `v` in entry `a`, keeping the canonical form: entries in rising order, none equal to `d`. -/
def Cells.write {w : Nat} (d : BitVec w) (m : List (Nat × BitVec w)) (a : Nat) (v : BitVec w) :
    List (Nat × BitVec w) :=
  match m with
  | [] => if v = d then [] else [(a, v)]
  | (b, u) :: rest =>
    if a < b then
      if v = d then (b, u) :: rest else (a, v) :: (b, u) :: rest
    else if a = b then
      if v = d then rest else (a, v) :: rest
    else (b, u) :: Cells.write d rest a v

/-- The canonical form: indices strictly rising and at most `last`, no entry equal to what an unlisted one reads as. -/
abbrev Cells.wf {w : Nat} (d : BitVec w) (last : Nat) (m : List (Nat × BitVec w)) : Prop :=
  m.Pairwise (fun x y => x.1 < y.1) ∧ ∀ x ∈ m, x.1 ≤ last ∧ x.2 ≠ d

/-- The window's canonical form (20_memory R45). -/
abbrev Memory.wf (m : List Host.Cell) : Prop := Cells.wf Config.fill Config.winLast m

/-- `WIN[a]` of a window list (20_memory R45). -/
def Memory.read (m : List Host.Cell) (a : Nat) : Byte := Cells.read Config.fill m a

/-- `WIN[a] <- v` on a window list (20_memory R45). -/
def Memory.write (m : List Host.Cell) (a : Nat) (v : Byte) : List Host.Cell := Cells.write Config.fill m a v

/-- A window read at an index that is not reduced modulo 4096; there is no entry above 4112 (20_memory R45). -/
def Memory.readChecked (m : List Host.Cell) (a : Nat) : Res Byte :=
  if a ≤ Config.winLast then .ok (Memory.read m a) else .error (.fault .windowIndex)

/-- `WIN[a]` at a circular index (20_memory R53). -/
def State.winAt (s : State) (a : Cursor) : Byte := Memory.read s.win a.toNat

/-! ## Outputs and the running operation -/

/-- An operation is in progress (10_state R19). -/
def State.busy (s : State) : Bool := s.regs.state == .busy

/-- The level output `done` (60_exceptions R144). -/
def State.doneOut (s : State) : Bool := s.regs.state == .done

/-- The level output `failed` (60_exceptions R144). -/
def State.failedOut (s : State) : Bool := s.regs.state == .failed

/-- The operations that run in steps after their start; `NOP`, `VLEN` and a reserved code end where they start. -/
inductive Operation
  | venc
  | vdec
  | decomp
  | comp
  deriving DecidableEq, Repr

/-- The operation in progress: while `BUSY` it is the one `CMD` names, since `CMD` holds the last accepted command and
a write of it is ignored until the operation ends (10_state R17, 70_reset R160). -/
def State.running (s : State) : Option Operation :=
  if s.busy then
    match s.regs.cmd.toNat with
    | 1 => some .venc
    | 3 => some .vdec
    | 4 => some .decomp
    | 5 => some .comp
    | _ => none
  else none

/-! ## Streams (20_memory R40, R42, R43, R44) -/

/-- The largest number of bytes of one direction of an operation, 2^32 - 1 (10_state R21). -/
abbrev countMax : Word := 0xFFFFFFFF

/-- The bytes of a source that are still to be read (20_memory R39). -/
def Source.unread (src : Source) : List Byte := src.bytes.drop src.pos

/-- The bytes that the operation in progress has read (10_state R22: `IN_COUNT` is the position relative to its first
byte). -/
def State.consumed (s : State) : List Byte := (s.src.bytes.take s.src.pos).drop (s.src.pos - s.regs.inCount.toNat)

/-- `StreamRead()`: the next byte, or `none` for `EOS` (20_memory R40). A byte that `IN_COUNT` could not count is
outside the spec (10_state R21; log 6). -/
def streamRead (s : State) : Res (Option Byte × State) :=
  match s.src.bytes[s.src.pos]? with
  | some b =>
    if s.regs.inCount = countMax then .error (.refused .beyondCounters)
    else
      .ok (some b, { s with
        src := { s.src with pos := s.src.pos + 1 }
        regs := { s.regs with inCount := s.regs.inCount + 1 } })
  | none => .ok (none, { s with src := { s.src with eos := true } })

/-- Up to `k` stream reads, stopping at the first `EOS`: the bytes read. -/
def readUpTo (k : Nat) (s : State) : Res (List Byte × State) :=
  match k with
  | 0 => .ok ([], s)
  | k + 1 => do
    let (b, s1) ← streamRead s
    match b with
    | none => .ok ([], s1)
    | some b => do
      let (bs, s2) ← readUpTo k s1
      .ok (b :: bs, s2)

/-- `StreamWrite(b)` (20_memory R42). A byte that `OUT_COUNT` could not count is outside the spec (10_state R21;
log 6). -/
def streamWrite (b : Byte) (s : State) : Res State :=
  if s.regs.outCount = countMax then .error (.refused .beyondCounters)
  else
    .ok { s with
      snk := { s.snk with pending := s.snk.pending ++ [b] }
      regs := { s.regs with outCount := s.regs.outCount + 1 } }

/-- Stream writes of all the bytes, first one first. -/
def streamWriteAll (bs : List Byte) (s : State) : Res State :=
  match bs with
  | [] => .ok s
  | b :: rest => do
    let s1 ← streamWrite b s
    streamWriteAll rest s1

/-- `Commit()` (20_memory R43). -/
def commit (s : State) : State :=
  { s with snk := { committed := s.snk.committed ++ s.snk.pending, pending := [] } }

/-- `Abort()` (20_memory R44). -/
def abort (s : State) : State := { s with snk := { s.snk with pending := [] } }

/-! ## Start, completion, failure and the way out of it -/

/-- What every accepted command does before its unit starts (60_exceptions R131). It is also the way out of `FAILED`:
there is no return from a failure but the next command (R142) or a hard reset. -/
def commandStart (w : Word) (s : State) : State :=
  { s with
    regs := { s.regs with
      cmd := w, result := 0, csum := 0, inCount := 0, outCount := 0, err := .none, vwrap := false, state := .busy }
    snk := { s.snk with pending := [] }
    sampled := { signed := s.regs.signed, arg := s.regs.arg } }

/-- Completion, `finish(v)`: `RESULT`, then `Commit()`, then `DONE` (60_exceptions R132). -/
def finish (v : Word) (s : State) : State :=
  let s1 := commit { s with regs := { s.regs with result := v } }
  { s1 with regs := { s1.regs with state := .done } }

/-- Failure entry, `raise K(info)`, the one operation by which every error is taken (60_exceptions R141): `Abort()`,
`RESULT`, `STATUS.ERR`, `STATUS.STATE`, in that order; all else is kept. -/
def raise (k : ErrKind) (info : Word) (s : State) : State :=
  let s1 := abort s
  { s1 with regs := { s1.regs with result := info, err := k, state := .failed } }

/-- Hard reset: the registers and the engine as right after reset, pending output discarded; the source keeps its
position, what was committed stays, and the host goes on with its actions (70_reset R147; log 3). -/
def hardReset (s : State) : State :=
  { State.reset with
    src := s.src
    snk := (abort s).snk
    port := s.port }

/-- The platform presents a new source object, at its first byte and with its latch clear (70_reset R149, R153;
20_memory R39). While an operation runs the source is fixed: no meaning is given (log 7). -/
def attachSource (bytes : List Byte) (s : State) : Res State :=
  if s.busy then .error (.refused .sourceChangedWhileBusy)
  else .ok { s with src := { bytes := bytes, pos := 0, eos := false } }

end Sys2Proof.Machine
end

