-- ==== Sys2Proof/Machine/MatchFinder.lean ====
section
/-! DEFINITION. The match finder (43_match_finder): 256 binary search trees over window positions, held in `LEFT`,
`RIGHT`, `PARENT`; `insert_node`, the splice and `delete_node`. The descent follows `TREE_ORDER`, an argument here.
Indices are numbers, as the spec's are; an index outside an array, or a link that is no node, faults (log 11). -/
namespace Sys2Proof.Machine

/-! ## The link arrays (20_memory R47) -/

/-- `LEFT[x]`. -/
def Finder.getLeft (t : Finder) (x : Nat) : Res Nat :=
  if x ≤ Config.linkLast then .ok (Cells.read Config.nilEntry t.left x).toNat else .error (.fault .treeIndex)

/-- `RIGHT[x]`. -/
def Finder.getRight (t : Finder) (x : Nat) : Res Nat :=
  if x ≤ Config.rightLast then .ok (Cells.read Config.nilEntry t.right x).toNat else .error (.fault .treeIndex)

/-- `PARENT[x]`. -/
def Finder.getParent (t : Finder) (x : Nat) : Res Nat :=
  if x ≤ Config.linkLast then .ok (Cells.read Config.nilEntry t.parent x).toNat else .error (.fault .treeIndex)

/-- `LEFT[x] <- v`. -/
def Finder.setLeft (t : Finder) (x v : Nat) : Res Finder :=
  if x ≤ Config.linkLast then .ok { t with left := Cells.write Config.nilEntry t.left x (BitVec.ofNat 13 v) }
  else .error (.fault .treeIndex)

/-- `RIGHT[x] <- v`. -/
def Finder.setRight (t : Finder) (x v : Nat) : Res Finder :=
  if x ≤ Config.rightLast then .ok { t with right := Cells.write Config.nilEntry t.right x (BitVec.ofNat 13 v) }
  else .error (.fault .treeIndex)

/-- `PARENT[x] <- v`; entry 4096 is a scratch cell (00_scope R9, 43_match_finder R128). -/
def Finder.setParent (t : Finder) (x v : Nat) : Res Finder :=
  if x ≤ Config.linkLast then .ok { t with parent := Cells.write Config.nilEntry t.parent x (BitVec.ofNat 13 v) }
  else .error (.fault .treeIndex)

/-- A position is a member exactly when its `PARENT` entry is not `NIL` (43_match_finder R123). -/
def Finder.member (t : Finder) (n : Nat) : Bool := Cells.read Config.nilEntry t.parent n != Config.nilEntry

/-! ## insert_node (43_match_finder R125) -/

/-- The direction of descent at `p`, `cmp` the last comparison: always right out of a root slot, else as `TREE_ORDER`
says (43_match_finder R124). -/
def goesRight (o : Config.TreeOrder) (p : Nat) (cmp : Int) : Bool :=
  if Config.nil < p then true
  else
    match o with
    | .nodeGeRight => decide (0 ≤ cmp)
    | .nodeLtRight => decide (cmp < 0)

/-- Compare the keys of `n` and `p` from index `i` on, `k` bytes at most: the index of the first difference, and the
signed difference of the two unsigned bytes there (43_match_finder R125, R122). Indices are not wrapped. -/
def compareKeys (win : List Host.Cell) (n p : Nat) (k i : Nat) : Res (Nat × Int) :=
  match k with
  | 0 => .ok (i, 0)
  | k + 1 => do
    let a ← Memory.readChecked win (n + i)
    let b ← Memory.readChecked win (p + i)
    if a = b then compareKeys win n p k (i + 1) else .ok (i, (a.toNat : Int) - (b.toNat : Int))

/-- The link to `p` in its parent is turned to `q`; the parent's right link is tested first (43_match_finder R126,
R127). -/
def Finder.relink (t : Finder) (p q : Nat) : Res Finder := do
  let up ← t.getParent p
  let r ← t.getRight up
  if r = p then t.setRight up q else t.setLeft up q

/-- The splice: `n` takes the place of `p`, which is no longer a member (43_match_finder R126). -/
def Finder.splice (t : Finder) (n p : Nat) : Res Finder := do
  let up ← t.getParent p
  let l ← t.getLeft p
  let r ← t.getRight p
  let t ← t.setParent n up
  let t ← t.setLeft n l
  let t ← t.setRight n r
  let t ← t.setParent l n
  let t ← t.setParent r n
  let t ← t.relink p n
  t.setParent p Config.nil

/-- The descent of `insert_node` from `p` with `cmp` the last comparison (43_match_finder R125). `fuel` bounds the
nodes met; a walk that uses it up meets some node twice (log 10). -/
def descend (o : Config.TreeOrder) (win : List Host.Cell) (n : Nat) (fuel : Nat) (p : Nat) (cmp : Int) (t : Finder) :
    Res Finder :=
  match fuel with
  | 0 => .error (.fault .endlessDescent)
  | fuel + 1 => do
    let right := goesRight o p cmp
    let q ← if right then t.getRight p else t.getLeft p
    if q = Config.nil then
      let t ← if right then t.setRight p n else t.setLeft p n
      t.setParent n p
    else if Config.nil < q then .error (.fault .treeIndex)
    else do
      let (i, cmp) ← compareKeys win n q 17 1
      if t.ml.toNat < i then
        let t := { t with mp := BitVec.ofNat 12 q, ml := BitVec.ofNat 5 i }
        if 18 ≤ i then t.splice n q else descend o win n fuel q cmp t
      else descend o win n fuel q cmp t

/-- How many nodes a walk can meet: the 4096 positions and the root slot it starts from. -/
abbrev walkMax : Nat := 4097

/-- `insert_node(n)` (43_match_finder R125). -/
def insertNode (o : Config.TreeOrder) (win : List Host.Cell) (n : Cursor) (t : Finder) : Res Finder := do
  let t ← t.setRight n.toNat Config.nil
  let t ← t.setLeft n.toNat Config.nil
  descend o win n.toNat walkMax (Config.root (Memory.read win n.toNat)) 1 { t with ml := 0 }

/-! ## delete_node (43_match_finder R127) -/

/-- `repeat q <- RIGHT[q] until RIGHT[q] = NIL`, from a `q` whose right link is not `NIL` (43_match_finder R127). -/
def rightmost (fuel : Nat) (t : Finder) (q : Nat) : Res Nat :=
  match fuel with
  | 0 => .error (.fault .endlessDescent)
  | fuel + 1 => do
    let r ← t.getRight q
    if r = Config.nil then .ok q else rightmost fuel t r

/-- The node promoted when the node to delete has two children `l` and `r`: the rightmost of the left subtree, unhooked
from its place and given both children (43_match_finder R127). -/
def Finder.promote (t : Finder) (l r : Nat) : Res (Nat × Finder) := do
  let lr ← t.getRight l
  let (q, t) ←
    if lr = Config.nil then Except.ok (l, t)
    else do
      let q ← rightmost walkMax t lr
      let up ← t.getParent q
      let c ← t.getLeft q
      let t ← t.setRight up c
      let t ← t.setParent c up
      let t ← t.setLeft q l
      let t ← t.setParent l q
      Except.ok (q, t)
  let t ← t.setRight q r
  let t ← t.setParent r q
  Except.ok (q, t)

/-- `delete_node(p)`; nothing happens when `p` is no member (43_match_finder R127). -/
def deleteNode (p : Cursor) (t : Finder) : Res Finder := do
  let up ← t.getParent p.toNat
  if up = Config.nil then .ok t
  else do
    let l ← t.getLeft p.toNat
    let r ← t.getRight p.toNat
    let (q, t) ←
      if r = Config.nil then Except.ok (l, t)
      else if l = Config.nil then Except.ok (r, t)
      else t.promote l r
    let t ← t.setParent q up
    let t ← t.relink p.toNat q
    t.setParent p.toNat Config.nil

end Sys2Proof.Machine
end

