-- ==== Sys2Proof/Machine/Flags.lean ====
section
/-! DEFINITION. Every flag and condition of the block: the fields of `STATUS` and `MODE` as words (10_state R17, R19),
the flag shifter of the decompression unit (10_state R23, 41_decompress R89, R90), the varint accumulator with its
`VWRAP` (40_varint R83), and the checksum (41_decompress R94). -/
namespace Sys2Proof.Machine

/-! ## Register words -/

/-- The code of `STATUS.STATE` (10_state R19). -/
def OpState.code : OpState → BitVec 2
  | .idle => 0
  | .busy => 1
  | .done => 2
  | .failed => 3

/-- The code of `STATUS.ERR` (10_state R19, 60_exceptions R135). -/
def ErrKind.code : ErrKind → BitVec 3
  | .none => 0
  | .truncated => 1
  | .overflow => 2
  | .malformedStream => 3
  | .badCommand => 4

/-- `STATUS` as the host reads it: `VWRAP`, `ERR`, `STATE` from bit 5 down, the bits above zero (10_state R19). -/
def Regs.statusWord (r : Regs) : Word := (0#26) ++ BitVec.ofBool r.vwrap ++ r.err.code ++ r.state.code

/-- `MODE` as the host reads it: bit 0 is `SIGNED`, the bits above zero (10_state R17). -/
def Regs.modeWord (r : Regs) : Word := (0#31) ++ BitVec.ofBool r.signed

/-! ## Flag shifter -/

/-- A flag byte is loaded: eight unconsumed bits (41_decompress R89). -/
def loadFlags (f : Byte) (s : State) : State := { s with du := { s.du with flags := f, fcnt := 8 } }

/-- Taking a flag bit: bit 0 is consumed, zero enters at bit 7 (41_decompress R90). -/
def takeFlagBit (s : State) : Bool × State :=
  (s.du.flags.getLsbD 0, { s with du := { s.du with flags := s.du.flags >>> 1, fcnt := s.du.fcnt - 1 } })

/-! ## Varint accumulator -/

/-- `Accumulate(p)` with the overflow policy `WRAP` (40_varint R83): the shift is made on unbounded numbers, so a group
beyond bit 31 contributes nothing; `VWRAP` is set when a dropped bit was 1; `VIDX` saturates at 5. -/
def accumulate (p : BitVec 7) (s : State) : State :=
  if s.vu.vidx < 5 then
    let full := p.toNat <<< (7 * s.vu.vidx.toNat)
    { s with
      vu := { s.vu with vacc := s.vu.vacc ||| BitVec.ofNat 32 full, vidx := s.vu.vidx + 1 }
      regs := { s.regs with vwrap := s.regs.vwrap || decide (2 ^ 32 ≤ full) } }
  else { s with regs := { s.regs with vwrap := s.regs.vwrap || decide (p ≠ 0) } }

/-! ## Checksum -/

/-- The 32-bit addend of a byte: zero-extended, or sign-extended when the mode is signed (41_decompress R94,
00_scope R13). -/
def csumAddend (signed : Bool) (b : Byte) : Word := if signed then b.signExtend 32 else b.setWidth 32

/-- `CsumAdd(acc, b)` modulo 2^32, in the mode sampled at operation start (41_decompress R94). -/
def csumAdd (signed : Bool) (acc : Word) (b : Byte) : Word := acc + csumAddend signed b

/-- The checksum of a byte string (00_scope R10, 41_decompress R94). -/
def checksum (signed : Bool) (bytes : List Byte) : Word := bytes.foldl (csumAdd signed) 0

/-- A byte is folded into `CSUM` (41_decompress R93, 42_compress R113). -/
def addToCsum (b : Byte) (s : State) : State :=
  { s with regs := { s.regs with csum := csumAdd s.sampled.signed s.regs.csum b } }

end Sys2Proof.Machine
end

