-- ==== Sys2Proof/Machine/Operands.lean ====
section
/-! DEFINITION. Where operands come from. A command's are the sampled `ARG` and `MODE.SIGNED` (30_encoding R60,
60_exceptions R131). A wire element of `VDEC` and `DECOMP` is read from the source, byte by byte and no further than
its last byte, as the element the block's state selects (30_encoding R71, 70_reset R156, R162); an element of `VENC`
and `COMP` is chosen by the unit that emits it (40_varint R78, 42_compress R102, R106, R107, R108). -/
namespace Sys2Proof.Machine

/-- The operand `v` or `expected_length` (30_encoding R60). -/
def State.argOperand (s : State) : Word := s.sampled.arg

/-- What the operation in progress runs next. -/
inductive Fetched
  /-- The element `i`, in the state after its selection and its reads. -/
  | element (i : Instr) (s : State)
  /-- The source ended inside the element: the operation has failed with `Truncated` (60_exceptions R136). -/
  | ended (s : State)
  deriving DecidableEq, Repr

/-- Read an element's bytes and decode them; a source that ends first is `Truncated`, with nothing recorded in
`RESULT` (60_exceptions R136, R135; 41_decompress R89, R91, R92, R95; 40_varint R80). -/
def fetchElement (sel : Select) (s : State) : Res Fetched := do
  let (bytes, s1) ← readUpTo sel.length s
  match decodeElement sel bytes with
  | .ok (i, _) => .ok (.element i s1)
  | .error _ => .ok (.ended (raise .truncated 0 s1))

/-- The next element of a `DECOMP`: the trailer when `REM = 0`, else a flag byte when `FCNT = 0`, else the token of
the flag bit, which is taken before the token is read (30_encoding R71, 41_decompress R86, R88, R90). -/
def duSelect (s : State) : Select × State :=
  if s.du.rem = 0 then (.trailer, s)
  else if s.du.fcnt = 0 then (.flag, s)
  else
    let (bit, s1) := takeFlagBit s
    (.token bit, s1)

/-- The next element of a `VENC`: `VCONT` with the low seven bits while `VV > 0x7F`, else `VLAST` (40_varint R78). The
comparison is unsigned. -/
def vencElement (s : State) : Instr :=
  if 0x7F#32 < s.vu.vv then .vcont (s.vu.vv.extractLsb' 0 7) else .vlast (s.vu.vv.extractLsb' 0 7)

/-- Clamp: `if ML > LEN: ML <- LEN` (42_compress R106). -/
def clamp (s : State) : State :=
  if s.cu.len < s.cu.finder.ml then { s with cu := { s.cu with finder := { s.cu.finder with ml := s.cu.len } } } else s

/-- The next element of a `COMP`: the trailer when `LEN = 0`; else, after the clamp, a literal of the byte at the
cursor when `ML <= 2`, and a reference to the match otherwise, at the circular distance from match to cursor
(42_compress R102, R106, R107, R108; 90_conflicts C2). -/
def cuElement (s : State) : Instr × State :=
  if s.cu.len = 0 then (.trailer s.regs.csum, s)
  else
    let s1 := clamp s
    if s1.cu.finder.ml ≤ 2 then (.lit (s1.winAt s1.curR), s1)
    else (.ref (s1.curR - s1.cu.finder.mp) s1.cu.finder.ml.toNat, s1)

/-- The element the operation in progress runs next. -/
def fetch (s : State) : Res Fetched :=
  match s.running with
  | some .venc => .ok (.element (vencElement s) s)
  | some .vdec => fetchElement .varint s
  | some .decomp => fetchElement (duSelect s).1 (duSelect s).2
  | some .comp => .ok (.element (cuElement s).1 (cuElement s).2)
  | none => .error (.fault .noOperation)

end Sys2Proof.Machine
end

