-- ==== Sys2Proof/Machine/Sequencing.lean ====
section
/-! DEFINITION. Command sequencing (60_exceptions R131 to R134): what a command's word does when it is written, the
`NOP` command, and the reserved codes. -/
namespace Sys2Proof.Machine

/-- A command's effect: when no operation is in progress the common start, then what the command's unit does; while
`BUSY` the write is ignored (60_exceptions R131, 70_reset R160). -/
def runCommand (w : Word) (unit : State → Res State) (s : State) : Res State :=
  if s.busy then .ok s else unit (commandStart w s)

/-- `NOP`: after the common start, `IDLE` (60_exceptions R133). -/
def execNop (s : State) : Host.Outcome State Fault Refusal :=
  (runCommand 0 (fun t => .ok { t with regs := { t.regs with state := .idle } }) s).outcome

/-- A reserved code: after the common start the operation fails at once with `BadCommand` (60_exceptions R139). -/
def badCommand (w : Word) (s : State) : Host.Outcome State Fault Refusal :=
  (runCommand w (fun t => .ok (raise .badCommand 0 t)) s).outcome

end Sys2Proof.Machine
end

