-- ==== Sys2Proof/Machine/Compress.lean ====
section
/-! DEFINITION. The compression unit (42_compress): the start and setup of `COMP`, the group buffer, the window advance,
and what each wire element does when the unit emits it, one token with its whole advance a step (42_compress R120). -/
namespace Sys2Proof.Machine

/-! ## Group buffer (10_state R33) -/

/-- `GBUF[i] <- b`. -/
def gbufSet (i : Nat) (b : Byte) (s : State) : Res State :=
  if h : i < 17 then .ok { s with cu := { s.cu with gbuf := s.cu.gbuf.set i b h } } else .error (.fault .groupIndex)

/-- Append token bytes at `GPTR` (42_compress R107, R108). -/
def gbufAppend (bs : List Byte) (s : State) : Res State :=
  match bs with
  | [] => .ok s
  | b :: rest => do
    let s1 ← gbufSet s.cu.gptr.toNat b s
    gbufAppend rest { s1 with cu := { s1.cu with gptr := s1.cu.gptr + 1 } }

/-- `for i in 0 .. GPTR-1: StreamWrite(GBUF[i])`: the flag byte first, then the token bytes (42_compress R109, R112). -/
def writeGroup (s : State) : Res State :=
  if s.cu.gptr.toNat ≤ 17 then streamWriteAll (s.cu.gbuf.toList.take s.cu.gptr.toNat) s
  else .error (.fault .groupIndex)

/-- Closing a token: the flag mask moves up; after eight tokens the group is written and reset (42_compress R109). The
flag byte reaches the sink here, first of its group. -/
def closeToken (s : State) : Res State :=
  let s1 := { s with cu := { s.cu with gmask := s.cu.gmask <<< 1 } }
  if s1.cu.gmask = 0 then do
    let s2 ← writeGroup s1
    let s3 ← gbufSet 0 0 s2
    .ok { s3 with cu := { s3.cu with gptr := 1, gmask := 1 } }
  else .ok s1

/-! ## Window advance (42_compress R110, R111) -/

/-- The input byte `b` is written at `S`, and mirrored when `S < 17`; both cursors advance (42_compress R110,
20_memory R46, 70_reset R158). -/
def windowInput (b : Byte) (s : State) : State :=
  let win1 := Memory.write s.win s.cu.curS.toNat b
  let win2 := if s.cu.curS.toNat < 17 then Memory.write win1 (s.cu.curS.toNat + 4096) b else win1
  { s with win := win2, curR := s.curR + 1, cu := { s.cu with curS := s.cu.curS + 1 } }

/-- `insert_node(R)` for the cursor as it stands. -/
def insertAtCursor (o : Config.TreeOrder) (s : State) : Res State := do
  let t ← insertNode o s.win s.curR s.cu.finder
  .ok { s with cu := { s.cu with finder := t } }

/-- `delete_node(S)` for the input cursor as it stands. -/
def deleteAtInput (s : State) : Res State := do
  let t ← deleteNode s.cu.curS s.cu.finder
  .ok { s with cu := { s.cu with finder := t } }

/-- An advance step with the input byte `b`, already read: checksum, delete, write, cursors, insert, in this order
(42_compress R110, 70_reset R157). -/
def advanceInput (o : Config.TreeOrder) (b : Byte) (s : State) : Res State := do
  let s1 ← deleteAtInput (addToCsum b s)
  insertAtCursor o (windowInput b s1)

/-- A drain step, once the input is exhausted: the window keeps its stale bytes, `LEN` falls, and the new cursor is
inserted unless nothing is left to encode (42_compress R111, 90_conflicts C3). -/
def drainStep (o : Config.TreeOrder) (s : State) : Res State := do
  let s1 ← deleteAtInput s
  let s2 : State := { s1 with curR := s1.curR + 1, cu := { s1.cu with curS := s1.cu.curS + 1, len := s1.cu.len - 1 } }
  if s2.cu.len = 0 then .ok s2 else insertAtCursor o s2

/-- One advance step: a step with input while the source gives a byte, a drain step after that (42_compress R110). -/
def advanceStep (o : Config.TreeOrder) (s : State) : Res State := do
  let (b, s1) ← streamRead s
  match b with
  | some b => advanceInput o b s1
  | none => drainStep o s1

/-- `k` advance steps; `k` was latched before the first (42_compress R110, 70_reset R157). -/
def advance (o : Config.TreeOrder) (k : Nat) (s : State) : Res State :=
  match k with
  | 0 => .ok s
  | k + 1 => do
    let s1 ← advanceStep o s
    advance o k s1

/-! ## Start and setup (42_compress R103, R104) -/

/-- State at the start of `COMP` (42_compress R103; the counters, `CSUM` and the sink are cleared by the common
start). `GBUF[1..16]` is left as it is. -/
def cuInit (s : State) : State :=
  { s with
    win := []
    curR := Config.cursorInit
    cu :=
      { curS := 0, len := 0, gbuf := s.cu.gbuf.set 0 0, gptr := 1, gmask := 1
        finder := { left := [], right := [], parent := [], ml := 0, mp := 0 } } }

/-- The first up to `k` input bytes go to the window from the initial cursor on, unmirrored (42_compress R104). -/
def fillLookahead (k : Nat) (s : State) : Res State :=
  match k with
  | 0 => .ok s
  | k + 1 => do
    let (b, s1) ← streamRead s
    match b with
    | none => .ok s1
    | some b =>
      let s2 := addToCsum b s1
      fillLookahead k { s2 with
        win := Memory.write s2.win (Config.cursorInit.toNat + s2.cu.len.toNat) b
        cu := { s2.cu with len := s2.cu.len + 1 } }

/-- `insert_node` of each position, first one first. -/
def insertAll (o : Config.TreeOrder) (ns : List Cursor) (s : State) : Res State :=
  match ns with
  | [] => .ok s
  | n :: rest => do
    let t ← insertNode o s.win n s.cu.finder
    insertAll o rest { s with cu := { s.cu with finder := t } }

/-- The positions the setup inserts: the 18 before the cursor, nearest first, then the cursor (42_compress R104,
92_eei_decisions D14). -/
def setupPositions : List Cursor :=
  [4077, 4076, 4075, 4074, 4073, 4072, 4071, 4070, 4069, 4068, 4067, 4066, 4065, 4064, 4063, 4062, 4061, 4060, 4078]

/-- The setup: all window writes, then all insertions, none when the input is empty (42_compress R104, 70_reset R157). -/
def cuSetup (o : Config.TreeOrder) (s : State) : Res State := do
  let s1 ← fillLookahead 18 s
  if s1.cu.len = 0 then .ok s1 else insertAll o setupPositions s1

/-- `COMP` starts and does its setup; each following step emits one token, and the last one the trailer (42_compress
R102, R120). -/
def execComp (s : State) : Host.Outcome State Fault Refusal :=
  (runCommand 5 (fun t => cuSetup Config.treeOrder (cuInit t)) s).outcome

/-! ## Elements as the unit emits them -/

/-- A literal: the token's flag bit is set, the byte joins the group, one position is advanced (42_compress R107). -/
def cuLit (o : Config.TreeOrder) (d : Byte) (s : State) : Res State :=
  if s.cu.len = 0 then .error (.fault .notSelected)
  else do
    let s1 := { s with cu := { s.cu with finder := { s.cu.finder with ml := 1 } } }
    let s2 ← gbufSet 0 (s1.cu.gbuf[0] ||| s1.cu.gmask) s1
    let s3 ← gbufAppend [d] s2
    let s4 ← closeToken s3
    advance o 1 s4

/-- A reference: its two bytes join the group, its flag bit stays 0, `count` positions are advanced (42_compress
R108). -/
def cuRef (o : Config.TreeOrder) (offset : Cursor) (count : Nat) (s : State) : Res State :=
  if 3 ≤ count ∧ count ≤ s.cu.len.toNat then do
    let s1 ← gbufAppend (refBytes offset count) s
    let s2 ← closeToken s1
    advance o count s2
  else .error (.fault .notSelected)

/-- The end of the block: a waiting group, the trailer, completion with the number of bytes written (42_compress
R112). -/
def cuTrailer (w : Word) (s : State) : Res State :=
  if s.cu.len = 0 then do
    let s1 ← if 1 < s.cu.gptr.toNat then writeGroup s else .ok s
    let s2 ← streamWriteAll (bytesOfWord w) s1
    .ok (finish s2.regs.outCount s2)
  else .error (.fault .notSelected)

end Sys2Proof.Machine
end

