-- ==== Sys2Proof/Machine/Decompress.lean ====
section
/-! DEFINITION. The decompression unit (41_decompress): the start of `DECOMP` and what each wire element does in it, one
element a step (41_decompress R101). -/
namespace Sys2Proof.Machine

/-- State at the start of `DECOMP` (41_decompress R87; the counters, `CSUM` and the sink are cleared by the common
start). -/
def duInit (s : State) : State :=
  { s with win := [], curR := Config.cursorInit, du := { rem := s.argOperand, flags := 0, fcnt := 0 } }

/-- `DECOMP` starts; each following step reads one element (41_decompress R86). -/
def execDecomp (s : State) : Host.Outcome State Fault Refusal :=
  (runCommand 4 (fun t => .ok (duInit t)) s).outcome

/-- `Emit(b)`: the byte is appended to the output, folded into the checksum, written into the window at the cursor;
the cursor advances and `REM` falls by one (41_decompress R93). -/
def emit (b : Byte) (s : State) : Res State := do
  let s1 ← streamWrite b s
  let s2 := addToCsum b s1
  .ok { s2 with
    win := Memory.write s2.win s2.curR.toNat b
    curR := s2.curR + 1
    du := { s2.du with rem := s2.du.rem - 1 } }

/-- The copy of a reference, one byte at a time: byte `k + 1` is read after byte `k` was written (41_decompress R92,
20_memory R55, 70_reset R154). -/
def copyRun (src : Cursor) (count : Nat) (s : State) : Res State :=
  match count with
  | 0 => .ok s
  | k + 1 => do
    let s1 ← emit (s.winAt src) s
    copyRun (src + 1) k s1

/-- `FLAG` in `DECOMP` (41_decompress R89). -/
def duFlag (f : Byte) (s : State) : Res State :=
  if s.du.rem ≠ 0 ∧ s.du.fcnt = 0 then .ok (loadFlags f s) else .error (.fault .notSelected)

/-- `LIT` in `DECOMP` (41_decompress R91). -/
def duLit (d : Byte) (s : State) : Res State :=
  if s.du.rem ≠ 0 then emit d s else .error (.fault .notSelected)

/-- `REF` in `DECOMP`: the budget test comes before anything of the token is written; the source index is computed
once, from the cursor at the start of the token (41_decompress R92, 70_reset R155). -/
def duRef (offset : Cursor) (count : Nat) (s : State) : Res State :=
  if s.du.rem ≠ 0 then
    if s.du.rem.toNat < count then .ok (raise .overflow (BitVec.ofNat 32 count) s)
    else copyRun (s.curR - offset) count s
  else .error (.fault .notSelected)

/-- `TRAILER` in `DECOMP`: equal to the checksum the operation completes with `ARG`, else it fails with
`MalformedStream` and the trailer in `RESULT` (41_decompress R95, R86). -/
def duTrailer (w : Word) (s : State) : Res State :=
  if s.du.rem = 0 then
    if w = s.regs.csum then .ok (finish s.argOperand s) else .ok (raise .malformedStream w s)
  else .error (.fault .notSelected)

end Sys2Proof.Machine
end

