-- ==== Sys2Proof/Machine/Elements.lean ====
section
/-! DEFINITION. The wire elements of the compressed block, each with what it does in the unit that reads it (`DECOMP`)
and in the unit that emits it (`COMP`). An element that no running unit's state selects has no effect in the spec
(30_encoding R71): a fault (log 12). -/
namespace Sys2Proof.Machine

/-- `FLAG` (41_decompress R89). The compression unit writes its flag byte as the first byte of a group, inside the step
of the group's last token or of the trailer (42_compress R109, R112, R120), so there it is no step of its own. -/
def execFlag (f : Byte) (s : State) : Host.Outcome State Fault Refusal :=
  Res.outcome <|
    match s.running with
    | some .decomp => duFlag f s
    | some .comp => .error (.fault .notSelected)
    | some .venc => .error (.fault .notSelected)
    | some .vdec => .error (.fault .notSelected)
    | none => .error (.fault .notSelected)

/-- `LIT` (41_decompress R91, 42_compress R107). -/
def execLit (d : Byte) (s : State) : Host.Outcome State Fault Refusal :=
  Res.outcome <|
    match s.running with
    | some .decomp => duLit d s
    | some .comp => cuLit Config.treeOrder d s
    | some .venc => .error (.fault .notSelected)
    | some .vdec => .error (.fault .notSelected)
    | none => .error (.fault .notSelected)

/-- `REF` (41_decompress R92, 42_compress R108). -/
def execRef (offset : Cursor) (count : Nat) (s : State) : Host.Outcome State Fault Refusal :=
  Res.outcome <|
    match s.running with
    | some .decomp => duRef offset count s
    | some .comp => cuRef Config.treeOrder offset count s
    | some .venc => .error (.fault .notSelected)
    | some .vdec => .error (.fault .notSelected)
    | none => .error (.fault .notSelected)

/-- `TRAILER` (41_decompress R95, 42_compress R112). -/
def execTrailer (w : Word) (s : State) : Host.Outcome State Fault Refusal :=
  Res.outcome <|
    match s.running with
    | some .decomp => duTrailer w s
    | some .comp => cuTrailer w s
    | some .venc => .error (.fault .notSelected)
    | some .vdec => .error (.fault .notSelected)
    | none => .error (.fault .notSelected)

end Sys2Proof.Machine
end

