-- ==== Sys2Proof/Machine/Varint.lean ====
section
/-! DEFINITION. The varint unit (40_varint): `VENC`, `VLEN`, `VDEC` and the wire elements `VCONT`, `VLAST`, which `VDEC`
reads and `VENC` writes, one byte a step (92_eei_decisions D31). -/
namespace Sys2Proof.Machine

/-- `VENC` starts: `VV <- ARG`; each following step writes one byte (40_varint R78). -/
def execVenc (s : State) : Host.Outcome State Fault Refusal :=
  (runCommand 1 (fun t => .ok { t with vu := { t.vu with vv := t.argOperand } }) s).outcome

/-- The loop of `VLEN`: the count and the working copy (40_varint R79). A 32-bit value leaves the loop after at most
four rounds; `fuel` bounds them. -/
def vlenLoop (fuel : Nat) (n : Nat) (vv : Word) : Nat × Word :=
  match fuel with
  | 0 => (n, vv)
  | fuel + 1 => if 0x7F#32 < vv then vlenLoop fuel (n + 1) (vv >>> 7) else (n, vv)

/-- `VLEN`: `RESULT <-` the length of the minimal varint of `ARG`; no stream access (40_varint R79). -/
def execVlen (s : State) : Host.Outcome State Fault Refusal :=
  (runCommand 2 (fun t =>
    .ok (finish (BitVec.ofNat 32 (vlenLoop 4 1 t.argOperand).1)
      { t with vu := { t.vu with vv := (vlenLoop 4 1 t.argOperand).2 } })) s).outcome

/-- `VDEC` starts: accumulator and group index are cleared; each following step reads one byte (40_varint R80). -/
def execVdec (s : State) : Host.Outcome State Fault Refusal :=
  (runCommand 3 (fun t => .ok { t with vu := { t.vu with vacc := 0, vidx := 0 } }) s).outcome

/-- `VCONT`. In `VDEC`: accumulate, and the next step reads another byte. In `VENC`, while `VV > 0x7F`: the byte is
written and `VV` loses seven bits (40_varint R81, R78). -/
def execVcont (p : BitVec 7) (s : State) : Host.Outcome State Fault Refusal :=
  Res.outcome <|
    match s.running with
    | some .vdec => .ok (accumulate p s)
    | some .venc =>
      if 0x7F#32 < s.vu.vv then do
        let s1 ← streamWrite (vcontByte p) s
        .ok { s1 with vu := { s1.vu with vv := s1.vu.vv >>> 7 } }
      else .error (.fault .notSelected)
    | some .decomp => .error (.fault .notSelected)
    | some .comp => .error (.fault .notSelected)
    | none => .error (.fault .notSelected)

/-- `VLAST`. In `VDEC`: accumulate, and the operation completes with the accumulated value. In `VENC`, when
`VV <= 0x7F`: the byte is written and the operation completes with the number of bytes (40_varint R82, R78). -/
def execVlast (p : BitVec 7) (s : State) : Host.Outcome State Fault Refusal :=
  Res.outcome <|
    match s.running with
    | some .vdec => .ok (finish (accumulate p s).vu.vacc (accumulate p s))
    | some .venc =>
      if 0x7F#32 < s.vu.vv then .error (.fault .notSelected)
      else do
        let s1 ← streamWrite (vlastByte p) s
        .ok (finish s1.regs.outCount s1)
    | some .decomp => .error (.fault .notSelected)
    | some .comp => .error (.fault .notSelected)
    | none => .error (.fault .notSelected)

end Sys2Proof.Machine
end

