-- ==== Sys2Proof/Machine/Dispatch.lean ====
section
/-! DEFINITION. One arm for each constructor of `Instr`, each one call of the instruction's meaning. -/
namespace Sys2Proof.Machine

def exec (i : Instr) (s : State) : Host.Outcome State Fault Refusal :=
  match i with
  | .nop => Sys2Proof.Machine.execNop s
  | .venc => Sys2Proof.Machine.execVenc s
  | .vlen => Sys2Proof.Machine.execVlen s
  | .vdec => Sys2Proof.Machine.execVdec s
  | .decomp => Sys2Proof.Machine.execDecomp s
  | .comp => Sys2Proof.Machine.execComp s
  | .flag f => Sys2Proof.Machine.execFlag f s
  | .lit d => Sys2Proof.Machine.execLit d s
  | .ref offset count => Sys2Proof.Machine.execRef offset count s
  | .trailer w => Sys2Proof.Machine.execTrailer w s
  | .vcont p => Sys2Proof.Machine.execVcont p s
  | .vlast p => Sys2Proof.Machine.execVlast p s

end Sys2Proof.Machine
end

