-- ==== Sys2Proof/Machine/HostPort.lean ====
section
/-! DEFINITION. The host's side of the block: register writes and reads (10_state R17, 60_exceptions R131, 70_reset
R160), hard reset (R147), and one step of the operation in progress. Here too the placing of an instruction where the
next step fetches it, for `withFetchWord` (log 15). -/
namespace Sys2Proof.Machine

/-- A register's number (10_state R17). -/
def Reg.number : Reg → Nat
  | .cmd => 0
  | .mode => 1
  | .arg => 2
  | .result => 3
  | .status => 4
  | .csum => 5
  | .inCount => 6
  | .outCount => 7

/-- What the host can read of a register when no operation runs, and of `CMD`, `MODE`, `ARG`, `STATUS` always
(10_state R17 to R21); `RESULT` reads 0 while `BUSY` (10_state R18). -/
def State.readReg (s : State) (r : Reg) : Word :=
  match r with
  | .cmd => s.regs.cmd
  | .mode => s.regs.modeWord
  | .arg => s.regs.arg
  | .result => if s.busy then 0 else s.regs.result
  | .status => s.regs.statusWord
  | .csum => s.regs.csum
  | .inCount => s.regs.inCount
  | .outCount => s.regs.outCount

/-- The registers whose value while `BUSY` the spec only bounds, "with no promise which" (70_reset R160). -/
def Reg.openWhileBusy : Reg → Bool
  | .csum => true
  | .inCount => true
  | .outCount => true
  | .cmd => false
  | .mode => false
  | .arg => false
  | .result => false
  | .status => false

/-- A write of `CMD`: the command it encodes runs, a reserved word is a `BadCommand` (60_exceptions R131, R139). -/
def hostCommand (w : Word) (s : State) : Host.Outcome State Fault Refusal :=
  match decodeCommand w with
  | .ok i => exec i s
  | .error _ => badCommand w s

/-- A host write: `CMD` starts an operation; `MODE` (bit 0) and `ARG` change when the block is not `BUSY`; every other
write is ignored (10_state R17, 70_reset R160). -/
def hostWrite (r : Reg) (v : Word) (s : State) : Host.Outcome State Fault Refusal :=
  match r with
  | .cmd => hostCommand v s
  | .mode => .next (if s.busy then s else { s with regs := { s.regs with signed := v.getLsbD 0 } })
  | .arg => .next (if s.busy then s else { s with regs := { s.regs with arg := v } })
  | .result => .next s
  | .status => .next s
  | .csum => .next s
  | .inCount => .next s
  | .outCount => .next s

/-- One step of the block on its own: the element its state selects runs; without an operation in progress it waits
(60_exceptions R131, 70_reset R147). -/
def engineStep (s : State) : Host.Outcome State Fault Refusal :=
  if s.busy then
    match fetch s with
    | .ok (.element i s1) => exec i s1
    | .ok (.ended s1) => .next s1
    | .error (.fault r) => .fault r
    | .error (.refused r) => .refused r
  else .next s

/-! ## Reads while an operation runs (70_reset R160; log 5) -/

/-- The last state of the operation in progress in which it is still `BUSY`, at most `fuel` steps on: what the operation
comes to by itself. -/
def lastBusy (fuel : Nat) (s : State) : State :=
  match fuel with
  | 0 => s
  | fuel + 1 =>
    match engineStep s with
    | .next t => if t.busy then lastBusy fuel t else s
    | .fault _ => s
    | .refused _ => s

/-- A bound of the steps left to an operation: each takes a byte of the source, encodes a byte of the lookahead, or writes
a byte of a varint (60_exceptions R143). -/
def State.stepsLeft (s : State) : Nat := s.src.unread.length + 32

/-- The registers after the block's next step, here its last one. -/
def State.finalRegs (s : State) : Regs :=
  match engineStep s with
  | .next t => t.regs
  | .fault _ => s.regs
  | .refused _ => s.regs

/-- The bytes that the operation in progress has summed: those it has produced, in a `DECOMP`; those it has read, in a
`COMP` (10_state R20). -/
def State.summed (s : State) : List Byte :=
  match s.running with
  | some .decomp => s.snk.pending
  | some .comp => s.consumed
  | some .venc => []
  | some .vdec => []
  | none => []

/-- What a read answers while `BUSY`. The three open registers answer a value between their start value, 0, and the one
that the operation, left alone by the host, ends with: a count up to the final one, the sum of the first bytes that are
summed in the end; `m` says how far (70_reset R160; log 5). -/
def State.readBusy (s : State) (r : Reg) (m : Nat) : Word :=
  let last := lastBusy s.stepsLeft { s with port := { s.port with queue := [] } }
  match r with
  | .csum => checksum s.sampled.signed (last.summed.take m)
  | .inCount => BitVec.ofNat 32 (min m last.finalRegs.inCount.toNat)
  | .outCount => BitVec.ofNat 32 (min m last.finalRegs.outCount.toNat)
  | .cmd => s.readReg .cmd
  | .mode => s.readReg .mode
  | .arg => s.readReg .arg
  | .result => s.readReg .result
  | .status => s.readReg .status

/-- A host read: the value goes to the port; nothing in the block changes (20_memory R51). While `BUSY` the three open
registers draw a free value, bounded as `State.readBusy` says. -/
def hostRead (r : Reg) (s : State) : State :=
  if s.busy && r.openWhileBusy then
    { s with port := { s.port with
      data := s.readBusy r (Config.busyRead s.port.fresh).toNat, fresh := s.port.fresh + 1 } }
  else { s with port := { s.port with data := s.readReg r } }

/-- One action of the host, already taken from its queue. -/
def hostStep (a : HostAction) (s : State) : Host.Outcome State Fault Refusal :=
  match a with
  | .write r v => hostWrite r v s
  | .read r => .next (hostRead r s)
  | .wait =>
    if s.busy then engineStep { s with port := { s.port with queue := .wait :: s.port.queue } } else .next s
  | .tick => engineStep s
  | .hardReset => .next (hardReset s)
  | .attach bytes => (attachSource bytes s).outcome

/-! ## Placing an instruction (log 15) -/

/-- The source with `bytes` as its next bytes. -/
def Source.place (bytes : List Byte) (src : Source) : Source :=
  { src with
    bytes := src.bytes.take src.pos ++ bytes ++ src.bytes.drop (src.pos + bytes.length)
    pos := (src.bytes.take src.pos).length }

/-- The operation whose state selects an element, just started, with its `ARG` set to `n`; and the block's own step
first in the queue. -/
def placeOperation (w n : Word) (bytes : List Byte) (s : State) : State :=
  let s1 := commandStart w { s with regs := { s.regs with arg := n } }
  { s1 with
    vu := { s1.vu with vacc := 0, vidx := 0 }
    src := s1.src.place bytes
    port := { s1.port with queue := .tick :: s1.port.queue } }

/-- `s` with the encoding placed where the next step fetches it: a command as the host's next action, in a block that
is not `BUSY`; an element as the next bytes of the source, in the operation and state that select it. A token gets
`REM = 18`, enough for the longest. -/
def placeEncoding (e : Encoding) (s : State) : State :=
  match e with
  | .command w =>
    { s with
      regs := { s.regs with state := if s.busy then .idle else s.regs.state }
      port := { s.port with queue := .write .cmd w :: s.port.queue } }
  | .element .varint bytes => placeOperation 3 s.regs.arg bytes s
  | .element .flag bytes => duInit (placeOperation 4 18 bytes s)
  | .element (.token bit) bytes =>
    let s1 := duInit (placeOperation 4 18 bytes s)
    { s1 with du := { s1.du with flags := if bit then 1 else 0, fcnt := 1 } }
  | .element .trailer bytes => duInit (placeOperation 4 0 bytes s)

/-- `s` with the instruction whose bits are `w` placed where the next step fetches it; `s` itself when the word is no
instruction. -/
def placeTableWord (nbits w : Nat) (s : State) : State :=
  match tableEncoding nbits w with
  | some e => placeEncoding e s
  | none => s

end Sys2Proof.Machine
end

