-- ==== Sys2Proof/Machine/Step.lean ====
section
/-! DEFINITION. One step of the machine: the host's next action if it has one, else a step of the block (log 2). -/
namespace Sys2Proof.Machine

/-- The host's first action is taken from its queue and done; with no action left the block goes on by itself. -/
def step (s : State) : Host.Outcome State Fault Refusal :=
  match s.port.queue with
  | [] => engineStep s
  | a :: rest => hostStep a { s with port := { s.port with queue := rest } }

/-- The instruction whose bits are `w` stored where `step` fetches its next instruction (log 15). -/
def State.withFetchWord (s : State) (nbits w : Nat) : State := placeTableWord nbits w s

end Sys2Proof.Machine
end

