-- ==== Sys2Proof/Safety.lean ====
section
/-! DEFINITION. The terms in which claims about the block are stated: what a byte string's checksum and a varint's value
are, what a run is, which outcomes are safe, and the invariants that the spec's prose gives for the states between
steps (10_state, 20_memory R46, 41_decompress R101, 42_compress R114, R115, 43_match_finder R123). -/
namespace Sys2Proof.Machine

/-! ## Values -/

/-- The number that 7-bit groups stand for, least significant group first, before any reduction (30_encoding R67). -/
def varintSum (groups : List (BitVec 7)) : Nat :=
  match groups with
  | [] => 0
  | p :: rest => p.toNat + 128 * varintSum rest

/-- Length of the minimal varint of a value (30_encoding R72). -/
def varintLength (v : Word) : Nat :=
  if v.toNat ≤ 127 then 1
  else if v.toNat ≤ 16383 then 2
  else if v.toNat ≤ 2097151 then 3
  else if v.toNat ≤ 268435455 then 4
  else 5

/-- The 7-bit group `i` of a value (30_encoding R70). -/
def varintGroup (v : Word) (i : Nat) : BitVec 7 := BitVec.ofNat 7 (v.toNat >>> (7 * i))

/-- The minimal varint of a value: every byte but the last is a `VCONT` (30_encoding R67, R70). -/
def varintBytes (v : Word) : List Byte :=
  (List.range (varintLength v - 1)).map (fun i => vcontByte (varintGroup v i)) ++
    [vlastByte (varintGroup v (varintLength v - 1))]

/-- Byte `k` of the run that a reference stands for, in the state before it: a byte of the window, or, once the run
overlaps itself, a byte that the same token has produced (41_decompress R92, 20_memory R55). -/
def State.runByte (s : State) (offset : Cursor) (k : Nat) : Byte :=
  if offset.toNat = 0 then s.winAt (s.curR + BitVec.ofNat 12 k)
  else s.winAt (s.curR - offset + BitVec.ofNat 12 (k % offset.toNat))

/-- The whole run of a reference. -/
def State.runBytes (s : State) (offset : Cursor) (count : Nat) : List Byte :=
  (List.range count).map (s.runByte offset)

/-- The group under construction: its flag byte and the token bytes so far, `GBUF[0..GPTR-1]` (10_state R33). -/
def CU.groupBytes (c : CU) : List Byte := c.gbuf.toList.take c.gptr.toNat

/-! ## States written out -/

/-- The state after the common start of the command word `w` (60_exceptions R131). -/
def State.started (s : State) (w : Word) : State :=
  { s with
    regs :=
      { cmd := w, signed := s.regs.signed, arg := s.regs.arg, result := 0, state := .busy, err := .none, vwrap := false,
        csum := 0, inCount := 0, outCount := 0 }
    sampled := { signed := s.regs.signed, arg := s.regs.arg }
    snk := { committed := s.snk.committed, pending := [] } }

/-- The state after a failure of kind `k` that records `info` (60_exceptions R141). -/
def State.failedWith (s : State) (k : ErrKind) (info : Word) : State :=
  { s with
    regs := { s.regs with result := info, err := k, state := .failed }
    snk := { committed := s.snk.committed, pending := [] } }

/-- The state after a completion with the result `v`, what was pending being committed (60_exceptions R132). -/
def State.doneWith (s : State) (v : Word) : State :=
  { s with
    regs := { s.regs with result := v, state := .done }
    snk := { committed := s.snk.committed ++ s.snk.pending, pending := [] } }

/-- The state after `n` bytes have been read from the source (20_memory R40). -/
def State.afterReading (s : State) (n : Nat) : State :=
  { s with
    src := { s.src with pos := s.src.pos + n }
    regs := { s.regs with inCount := s.regs.inCount + BitVec.ofNat 32 n } }

/-- The state after the bytes have been written to the sink (20_memory R42). -/
def State.afterWriting (s : State) (bytes : List Byte) : State :=
  { s with
    snk := { s.snk with pending := s.snk.pending ++ bytes }
    regs := { s.regs with outCount := s.regs.outCount + BitVec.ofNat 32 bytes.length } }

/-! ## Runs and outcomes -/

/-- `k` steps from `s` end in `t`. -/
def Reaches (k : Nat) (s t : State) : Prop := Host.Core.run Sys2Proof.core k s = .next t

/-- `s` with the given actions of the host to come. -/
def State.withQueue (s : State) (q : List HostAction) : State := { s with port := { s.port with queue := q } }

/-- The element that the state of the decompression unit, or a running `VDEC`, selects, and the state after the
selection: a token takes its flag bit (30_encoding R71, 41_decompress R88, R90). -/
def State.Selects (s : State) (sel : Select) (t : State) : Prop :=
  (s.running = some .vdec ∧ sel = .varint ∧ t = s) ∨
    (s.running = some .decomp ∧
      ((s.du.rem = 0 ∧ sel = .trailer ∧ t = s) ∨
        (s.du.rem ≠ 0 ∧ s.du.fcnt = 0 ∧ sel = .flag ∧ t = s) ∨
          (s.du.rem ≠ 0 ∧ s.du.fcnt ≠ 0 ∧ sel = .token (s.du.flags.getLsbD 0) ∧
            t = { s with du := { rem := s.du.rem, flags := s.du.flags >>> 1, fcnt := s.du.fcnt - 1 } })))

/-- The outcome is no fault: a next state, or a refusal that says no meaning is given (10_state R21). -/
def SafeOutcome (o : Host.Outcome State Fault Refusal) : Prop := ∀ r, o ≠ .fault r

/-! ## Invariants between steps -/

/-- The storage arrays are in canonical form and have no entry outside their index spaces (20_memory R45, R47). -/
def State.StorageOk (s : State) : Prop :=
  Memory.wf s.win ∧
    Cells.wf Config.nilEntry Config.linkLast s.cu.finder.left ∧
    Cells.wf Config.nilEntry Config.rightLast s.cu.finder.right ∧
    Cells.wf Config.nilEntry Config.linkLast s.cu.finder.parent

/-- Status and streams: `ERR` is nonzero exactly when `FAILED` (10_state R19); while `BUSY` a unit runs, `RESULT` is 0
(R18), what is pending is what `OUT_COUNT` counts (20_memory R42) and `IN_COUNT` bytes have been read of the source
(R40); otherwise nothing is pending (R41); the source stands in its range, at its end once the latch is set (R39,
R40). -/
def State.StatusOk (s : State) : Prop :=
  (s.regs.err ≠ .none ↔ s.regs.state = .failed) ∧
    (s.busy = true →
      s.running ≠ none ∧ s.regs.result = 0 ∧ s.snk.pending.length = s.regs.outCount.toNat ∧
        s.regs.inCount.toNat ≤ s.src.pos) ∧
    (s.busy = false → s.snk.pending = []) ∧
    s.src.pos ≤ s.src.bytes.length ∧ (s.src.eos = true → s.src.pos = s.src.bytes.length)

/-- During a `VDEC`: nothing is written or summed, the group index stays in its range (40_varint R80, R83, 10_state
R35). -/
def State.VdecOk (s : State) : Prop :=
  s.running = some .vdec → s.regs.outCount = 0 ∧ s.regs.csum = 0 ∧ s.vu.vidx ≤ 5

/-- During a `DECOMP`: `ARG - OUT_COUNT = REM` (10_state R28), the flag shifter's count is in its range (R23), `CSUM` is
the sum of the bytes produced (R20), and the cursor has advanced once for each of them (R26, 41_decompress R93). -/
def State.DecompOk (s : State) : Prop :=
  s.running = some .decomp →
    s.regs.outCount.toNat + s.du.rem.toNat = s.sampled.arg.toNat ∧ s.du.fcnt ≤ 8 ∧
      s.regs.csum = checksum s.sampled.signed s.snk.pending ∧
      s.curR = Config.cursorInit + BitVec.ofNat 12 s.regs.outCount.toNat

/-- During a `DECOMP` the window "holds the last `WindowSize` emitted bytes", the fill byte where fewer were emitted:
the byte `k + 1` places behind the cursor is the one emitted `k` before the last (10_state R25). -/
def State.DecompWindowOk (s : State) : Prop :=
  s.running = some .decomp →
    ∀ k < 4096, s.winAt (s.curR - 1 - BitVec.ofNat 12 k) = s.snk.pending.reverse.getD k Config.fill

/-- The group buffer between tokens, `t` of them in the group: the mask is the flag bit of the next, each token has one
or two bytes, the flag bits of tokens to come are 0 (10_state R33, 30_encoding R62, R74). -/
def CU.GroupOk (c : CU) : Prop :=
  ∃ t < 8, c.gmask = 1#8 <<< t ∧ 1 + t ≤ c.gptr.toNat ∧ c.gptr.toNat ≤ 1 + 2 * t ∧ c.gbuf[0].toNat < 2 ^ t

/-- Between steps of a `COMP`: `S` is 18 ahead of `R` (10_state R29, 42_compress R114); at most 18 bytes are unencoded,
fewer only after the source has ended (R115 item 1); `CSUM` is the sum of the bytes read (R113); the mirror equals its
twin (20_memory R46, R115 item 3). -/
def State.CompOk (s : State) : Prop :=
  s.running = some .comp →
    s.cu.curS = s.curR + 18 ∧ s.cu.len ≤ 18 ∧ (s.cu.len < 18 → s.src.eos = true) ∧ s.cu.finder.ml ≤ 18 ∧
      s.cu.GroupOk ∧ s.regs.csum = checksum s.sampled.signed s.consumed ∧
      ∀ j < 17, Memory.read s.win (4096 + j) = Memory.read s.win j

/-- The bytes that a `COMP` has encoded: those read but for the last `LEN` (42_compress R115 items 2 and 4). -/
def State.encoded (s : State) : List Byte := s.consumed.take (s.consumed.length - s.cu.len.toNat)

/-- During a `COMP` the lookahead holds the next unencoded bytes, the last `LEN` of the bytes read (42_compress R115
item 2), and the 4078 places behind the cursor hold the last encoded bytes, the fill byte where fewer were encoded, as
in the window of a `DECOMP` that has decoded the tokens so far (R115 item 4). -/
def State.CompWindowOk (s : State) : Prop :=
  s.running = some .comp →
    s.cu.len.toNat ≤ s.consumed.length ∧
      (∀ j < s.cu.len.toNat,
        s.winAt (s.curR + BitVec.ofNat 12 j) = s.consumed.getD (s.consumed.length - s.cu.len.toNat + j) 0) ∧
      ∀ k < 4078, s.winAt (s.curR - 1 - BitVec.ofNat 12 k) = s.encoded.reverse.getD k Config.fill

/-! ### The forest (43_match_finder R121, R123) -/

/-- `LEFT[x]`, `RIGHT[x]`, `PARENT[x]` as numbers. -/
def Finder.leftAt (t : Finder) (x : Nat) : Nat := (Cells.read Config.nilEntry t.left x).toNat
/-- `RIGHT[x]`. -/
def Finder.rightAt (t : Finder) (x : Nat) : Nat := (Cells.read Config.nilEntry t.right x).toNat
/-- `PARENT[x]`. -/
def Finder.parentAt (t : Finder) (x : Nat) : Nat := (Cells.read Config.nilEntry t.parent x).toNat

/-- Position `n` is a member (43_match_finder R123). -/
def Finder.Member (t : Finder) (n : Nat) : Prop := n < 4096 ∧ t.parentAt n ≠ Config.nil

/-- The links form, under each root, a binary tree without cycles in which `PARENT` is the inverse of `LEFT` and `RIGHT`
(43_match_finder R123 item 2), and the first byte of a member's key is that of its root (R121). -/
structure Finder.TreeOk (t : Finder) (win : List Host.Cell) : Prop where
  /-- A left child is a member whose parent this is. -/
  left : ∀ n, t.Member n → t.leftAt n ≠ Config.nil → t.Member (t.leftAt n) ∧ t.parentAt (t.leftAt n) = n
  /-- A right child is a member whose parent this is. -/
  right : ∀ n, t.Member n → t.rightAt n ≠ Config.nil → t.Member (t.rightAt n) ∧ t.parentAt (t.rightAt n) = n
  /-- The top node of a tree is a member whose parent is the root slot. -/
  top : ∀ c : Byte, t.rightAt (Config.root c) ≠ Config.nil →
    t.Member (t.rightAt (Config.root c)) ∧ t.parentAt (t.rightAt (Config.root c)) = Config.root c
  /-- A member hangs under the root slot of its first byte, or under a member with the same first byte. -/
  parent : ∀ n, t.Member n →
    (t.parentAt n = Config.root (Memory.read win n) ∧ t.rightAt (t.parentAt n) = n) ∨
      (t.Member (t.parentAt n) ∧ Memory.read win n = Memory.read win (t.parentAt n) ∧
        (t.leftAt (t.parentAt n) = n ∨ t.rightAt (t.parentAt n) = n))
  /-- The two children of a member differ. -/
  distinct : ∀ n, t.Member n → t.leftAt n ≠ Config.nil → t.leftAt n ≠ t.rightAt n
  /-- There is no cycle: some rank rises from every parent to its child. -/
  acyclic : ∃ rank : Nat → Nat, ∀ n, t.Member n → t.Member (t.parentAt n) → rank (t.parentAt n) < rank n

/-! ### Keys and their order (43_match_finder R122, R124) -/

/-- The keys of `n` and `p` agree in their first `k` bytes; a key is read "with plain (not wrapped) indices" (43_match_finder
R122). -/
abbrev KeysAgree (win : List Host.Cell) (n p k : Nat) : Prop :=
  ∀ i < k, Memory.read win (n + i) = Memory.read win (p + i)

/-- The key of `n` comes before that of `p`: lexicographically, as unsigned bytes (43_match_finder R122). -/
abbrev KeyLess (win : List Host.Cell) (n p : Nat) : Prop :=
  ∃ i < 18, KeysAgree win n p i ∧ (Memory.read win (n + i)).toNat < (Memory.read win (p + i)).toNat

/-- A node with the key of `n` belongs on the right of `p`: where the larger keys are under `NODE_GE_RIGHT`, the smaller
ones under `NODE_LT_RIGHT` (43_match_finder R124). -/
def KeyRight (o : Config.TreeOrder) (win : List Host.Cell) (n p : Nat) : Prop :=
  match o with
  | .nodeGeRight => KeyLess win p n
  | .nodeLtRight => KeyLess win n p

/-- The length of the common prefix of two keys, 0 to 18 (43_match_finder R125). -/
def commonPrefix (win : List Host.Cell) (n p : Nat) : Nat :=
  ((List.range 18).takeWhile fun i => Memory.read win (n + i) == Memory.read win (p + i)).length

/-- `m` lies in the subtree of `q`: the way up from `m`, parent by parent, meets `q`. -/
inductive Finder.Under (t : Finder) (q : Nat) : Nat → Prop
  | self : t.Under q q
  | up (m : Nat) : t.Member m → t.Under q (t.parentAt m) → t.Under q m

/-- "Each tree is ordered by key according to rule R124, and no two members of one tree have equal 18-byte keys"
(43_match_finder R123 item 3); members of different trees differ in the first byte. -/
structure Finder.Ordered (t : Finder) (o : Config.TreeOrder) (win : List Host.Cell) : Prop where
  /-- Every member in the left subtree of `p` belongs on the left of `p`. -/
  left : ∀ p m, t.Member p → t.Member m → t.Under (t.leftAt p) m → KeyRight o win p m
  /-- Every member in the right subtree of `p` belongs on the right of `p`. -/
  right : ∀ p m, t.Member p → t.Member m → t.Under (t.rightAt p) m → KeyRight o win m p
  /-- No two members have equal keys. -/
  keys : ∀ p m, t.Member p → t.Member m → p ≠ m → ¬ KeysAgree win p m 18

/-- `c` is candidate number `k` on the descent of `insert_node(n)`: the top node of the tree of `n`'s first byte is number
0, and on from a candidate with another key the descent goes to the child on `n`'s side (43_match_finder R124, R125). -/
inductive Finder.Met (t : Finder) (o : Config.TreeOrder) (win : List Host.Cell) (n : Nat) : Nat → Nat → Prop
  | top : t.rightAt (Config.root (Memory.read win n)) ≠ Config.nil →
      t.Met o win n 0 (t.rightAt (Config.root (Memory.read win n)))
  | right (k c : Nat) : t.Met o win n k c → KeyRight o win n c → t.rightAt c ≠ Config.nil →
      t.Met o win n (k + 1) (t.rightAt c)
  | left (k c : Nat) : t.Met o win n k c → KeyRight o win c n → t.leftAt c ≠ Config.nil →
      t.Met o win n (k + 1) (t.leftAt c)

/-! ### The finder during a `COMP` -/

/-- How far `n` lies behind the cursor, on the circle (42_compress R114). -/
def State.behind (s : State) (n : Cursor) : Nat := (s.curR - n).toNat

/-- How many bytes a `COMP` has encoded: those read but for the last `LEN` (42_compress R115 item 2). -/
def State.encodedCount (s : State) : Nat := s.regs.inCount.toNat - s.cu.len.toNat

/-- What the insertions so far leave to be found; the last `LEN` bytes read are still to be encoded (42_compress R115 item
2). Each position from the first cursor on that is at most 4078 behind the
cursor is a member, or a member since then has its key; so is each of the 18 before the first cursor, while all of them
are within reach (42_compress R104, R110, R111, 43_match_finder R123 item 4, R126). -/
def State.Retained (s : State) : Prop :=
  s.cu.len.toNat ≤ s.regs.inCount.toNat ∧
    (∀ x : Cursor, s.behind x ≤ 4078 → s.behind x ≤ s.encodedCount →
      ∃ m : Cursor, s.cu.finder.Member m.toNat ∧ s.behind m ≤ s.behind x ∧ KeysAgree s.win m.toNat x.toNat 18) ∧
    (s.encodedCount + 18 ≤ 4078 → ∀ x : Cursor, s.behind x ≤ s.encodedCount + 18 →
      ∃ m : Cursor, s.cu.finder.Member m.toNat ∧ s.behind m ≤ s.encodedCount + 18 ∧
        KeysAgree s.win m.toNat x.toNat 18)

/-- `ML`, `MP` tell a longest match of the cursor among all the members: no other member shares a longer prefix, and
where there is a match, `MP` is 1 to 4078 behind the cursor and shares exactly `ML` bytes (42_compress R114, R115 item 5,
43_match_finder R125). -/
def State.LongestMatch (s : State) : Prop :=
  (∀ m : Cursor, s.cu.finder.Member m.toNat → m ≠ s.curR →
      commonPrefix s.win s.curR.toNat m.toNat ≤ s.cu.finder.ml.toNat) ∧
    (s.cu.finder.ml ≠ 0 →
      1 ≤ s.behind s.cu.finder.mp ∧ s.behind s.cu.finder.mp ≤ 4078 ∧
        commonPrefix s.win s.curR.toNat s.cu.finder.mp.toNat = s.cu.finder.ml.toNat)

/-- Between steps of a `COMP` the forest is one, ordered by key, its members in the circular interval from `S` to `R`
(43_match_finder R123 items 1, 2, 3); while bytes are left to encode, every position inserted can be found (item 4) and
`ML`, `MP` tell a longest match. -/
def State.ForestOk (s : State) : Prop :=
  s.running = some .comp →
    s.cu.finder.TreeOk s.win ∧ s.cu.finder.Ordered Config.treeOrder s.win ∧
      (∀ n : Cursor, s.cu.finder.Member n.toNat → (n - s.cu.curS).toNat ≤ 4078) ∧
      (s.cu.len ≠ 0 → s.Retained ∧ s.LongestMatch)

/-- Everything the spec says of a state between steps. -/
structure State.Inv (s : State) : Prop where
  storage : s.StorageOk
  status : s.StatusOk
  vdec : s.VdecOk
  decomp : s.DecompOk
  decompWindow : s.DecompWindowOk
  comp : s.CompOk
  compWindow : s.CompWindowOk
  forest : s.ForestOk

end Sys2Proof.Machine
end

