-- ==== Sys2Proof/Certificates/Slice0/Obligations.lean ====
section
/-! DEFINITION. The statements for the provers. Each docstring names the rules of spec/ it formalises. That the host's
actions are a queue and `port` its side of the register port is the model's (log 2), so is what one step is (log 9). -/
open Sys2Proof Sys2Proof.Machine

/-! ## Encoding -/

/-- 30_encoding R59, R63 to R70: decoding what an instruction encodes to gives the instruction back; an element's bytes
decode to it whatever follows them in the source. -/
def Obligations.DecodeOfEncodeIsIdentity : Prop :=
  ∀ i : Instr, i.WellFormed →
    decode (encode i) = .ok (i, []) ∧
      ∀ sel bytes rest, encode i = .element sel bytes → decode (.element sel (bytes ++ rest)) = .ok (i, rest)

/-- 30_encoding R70 ("the inverses"), R74: what the decoder reads with nothing left over is a well-formed instruction
whose encoding is what was read. -/
def Obligations.EncodeOfDecodeIsIdentity : Prop :=
  ∀ (e : Encoding) (i : Instr), decode e = .ok (i, []) → i.WellFormed ∧ encode i = e

/-- 30_encoding R71, R74: an element takes exactly its length in bytes, every byte value is legal, and only a string that
is too short is refused, by name. -/
def Obligations.EveryFullLengthElementDecodes : Prop :=
  ∀ (sel : Select) (bytes : List Byte),
    (sel.length ≤ bytes.length →
        ∃ i, decodeElement sel bytes = .ok (i, bytes.drop sel.length) ∧ i.WellFormed ∧
          encode i = .element sel (bytes.take sel.length)) ∧
      (bytes.length < sel.length → decodeElement sel bytes = .error (.endOfSource sel))

/-- 30_encoding R59, R63 to R69: the command word 4 is `DECOMP` (R59); the other words are written out from the layouts of
the elements and their examples in 95_test_vectors X7. -/
def Obligations.SampleWordsDecodeAsWrittenOut : Prop :=
  decodeCommand 0b00000000000000000000000000000100 = .ok .decomp ∧
    decodeElement .flag [0b00010111] = .ok (.flag 0x17, []) ∧
    decodeElement (.token true) [0b01100001] = .ok (.lit 0x61, []) ∧
    decodeElement (.token false) [0b00100011, 0b00010000] = .ok (.ref 0x123 3, []) ∧
    decodeElement (.token false) [0b00000001, 0b00001111] = .ok (.ref 1 18, []) ∧
    decodeElement .trailer [0x26, 0x01, 0x00, 0x00] = .ok (.trailer 0x126, []) ∧
    decodeElement .varint [0b10101100, 0b00000010] = .ok (.vcont 0x2C, [0b00000010]) ∧
    decodeElement .varint [0b00000010] = .ok (.vlast 2, [])

/-! ## A step runs the decoded instruction -/

/-- 60_exceptions R131: a write of `CMD` runs the instruction that the written word decodes to, in the state in which the
host's action has been taken from its queue (log 2). -/
def Obligations.StepRunsTheCommandWritten : Prop :=
  ∀ (s : State) (w : Word) (i : Instr) (rest : List HostAction),
    s.port.queue = .write .cmd w :: rest → decodeCommand w = .ok i → step s = exec i (s.withQueue rest)

/-- 30_encoding R71, 41_decompress R86, R90, 40_varint R80, 70_reset R162: in a `VDEC` or `DECOMP` the block's step runs
the element that the next bytes of the source decode to under the selection of the block's state, its flag bit taken and
exactly its bytes read. -/
def Obligations.StepRunsTheElementRead : Prop :=
  ∀ (s s1 : State) (sel : Select) (i : Instr) (rest : List Byte),
    s.port.queue = [] → s.Selects sel s1 → decodeElement sel s.src.unread = .ok (i, rest) →
      s.regs.inCount.toNat + sel.length < 2 ^ 32 → step s = exec i (s1.afterReading sel.length)

/-- 40_varint R78, 42_compress R102, R106, R107, R108: in a `VENC` or `COMP` the block's step runs the element that the
unit emits next: the low seven bits of `VV`, a `VCONT` while more remain; the trailer at the end of the data, else, `ML`
clamped to `LEN`, a literal of the byte at the cursor or a reference to the match. -/
def Obligations.StepRunsTheElementEmitted : Prop :=
  ∀ s : State, s.port.queue = [] →
    (s.running = some .venc → 127 < s.vu.vv.toNat → step s = exec (.vcont (BitVec.ofNat 7 s.vu.vv.toNat)) s) ∧
      (s.running = some .venc → s.vu.vv.toNat ≤ 127 → step s = exec (.vlast (BitVec.ofNat 7 s.vu.vv.toNat)) s) ∧
      (s.running = some .comp → s.cu.len = 0 → step s = exec (.trailer s.regs.csum) s) ∧
      (s.running = some .comp → s.cu.len ≠ 0 →
        ∃ s1 : State,
          s1 = { s with cu := { s.cu with finder := { s.cu.finder with
            ml := if s.cu.len.toNat < s.cu.finder.ml.toNat then s.cu.len else s.cu.finder.ml } } } ∧
          (s1.cu.finder.ml.toNat ≤ 2 → step s = exec (.lit (Memory.read s.win s.curR.toNat)) s1) ∧
          (2 < s1.cu.finder.ml.toNat →
            step s = exec (.ref (s.curR - s.cu.finder.mp) s1.cu.finder.ml.toNat) s1))

/-! ## Reset and the host port -/

/-- 70_reset R147: the registers right after hard reset, its outputs; a hard reset during an operation discards what is
pending, keeps what was committed and what was read of the source, and records no error. The host's queue is the model's
(log 2). -/
def Obligations.HardResetClearsTheRegisters : Prop :=
  (∀ r : Reg, State.reset.readReg r = 0) ∧ State.reset.doneOut = false ∧ State.reset.failedOut = false ∧
    ∀ (s : State) (rest : List HostAction), s.port.queue = .hardReset :: rest →
      ∃ t, step s = .next t ∧ (∀ r : Reg, t.readReg r = 0) ∧ t.regs.state = .idle ∧ t.regs.err = .none ∧
        t.doneOut = false ∧ t.failedOut = false ∧ t.snk.pending = [] ∧ t.snk.committed = s.snk.committed ∧
        t.src = s.src ∧ t.port.queue = rest

/-- 70_reset R160, 10_state R17: a write of any register while `BUSY` changes nothing: no operation starts, the register
keeps its value; and a write of a read-only register is ignored in every state. -/
def Obligations.WritesWhileBusyAreIgnored : Prop :=
  ∀ (s : State) (r : Reg) (v : Word) (rest : List HostAction),
    s.port.queue = .write r v :: rest → (s.busy = true ∨ (r ≠ .cmd ∧ r ≠ .mode ∧ r ≠ .arg)) →
      step s = .next (s.withQueue rest)

/-- 10_state R17: while no operation is in progress a write of `ARG` sets it and a write of `MODE` sets `SIGNED` from bit 0,
the bits above being ignored; `MODE` then reads back that bit alone. -/
def Obligations.ModeAndArgAreWrittenWhenNotBusy : Prop :=
  ∀ (s : State) (v : Word) (rest : List HostAction), s.busy = false →
    (s.port.queue = .write .arg v :: rest →
        step s = .next { s.withQueue rest with regs := { s.regs with arg := v } }) ∧
      (s.port.queue = .write .mode v :: rest →
        step s = .next { s.withQueue rest with regs := { s.regs with signed := v.getLsbD 0 } }) ∧
      ∀ r : Regs, ({ r with signed := v.getLsbD 0 } : Regs).modeWord = v &&& 1

/-- 10_state R19: the word `STATUS` reads as: `STATE` in bits 1:0, `ERR` in bits 4:2, `VWRAP` in bit 5, zero above. -/
def Obligations.StatusWordLayout : Prop :=
  ∀ r : Regs,
    r.statusWord.toNat =
      (match r.state with
        | .idle => 0
        | .busy => 1
        | .done => 2
        | .failed => 3) +
      4 * (match r.err with
        | .none => 0
        | .truncated => 1
        | .overflow => 2
        | .malformedStream => 3
        | .badCommand => 4) +
      32 * r.vwrap.toNat

/-- 20_memory R51, 70_reset R160, 10_state R17, R18, R19: a host read changes nothing in the block; it returns the register's
value, while `BUSY` too, with `RESULT` 0 then. Only `CSUM`, `IN_COUNT` and `OUT_COUNT` have no promised value while `BUSY`:
they answer something between their start value, 0, and the one the operation ends with, `last` being its last state while
`BUSY` if the host leaves it alone: a count is at most the final one, `CSUM` is the sum of the first so many of the bytes
that are summed in the end. That between is meant so for `CSUM`, whose sum wraps, is the model's reading (log 5). -/
def Obligations.HostReadsChangeNothing : Prop :=
  ∀ (s : State) (r : Reg) (rest : List HostAction), s.port.queue = .read r :: rest →
    ∃ p : Port, step s = .next { s with port := p } ∧ p.queue = rest ∧
      (s.busy = false →
        p.data =
          match r with
          | .cmd => s.regs.cmd
          | .mode => s.regs.modeWord
          | .arg => s.regs.arg
          | .result => s.regs.result
          | .status => s.regs.statusWord
          | .csum => s.regs.csum
          | .inCount => s.regs.inCount
          | .outCount => s.regs.outCount) ∧
      (s.busy = true →
        (r = .cmd → p.data = s.regs.cmd) ∧ (r = .mode → p.data = s.regs.modeWord) ∧ (r = .arg → p.data = s.regs.arg) ∧
          (r = .result → p.data = 0) ∧ (r = .status → p.data = s.regs.statusWord) ∧
          ∀ (k : Nat) (last final : State), Reaches k (s.withQueue []) last → last.busy = true →
            step last = .next final → final.busy = false →
              (r = .inCount → p.data.toNat ≤ final.regs.inCount.toNat) ∧
                (r = .outCount → p.data.toNat ≤ final.regs.outCount.toNat) ∧
                (r = .csum → ∃ m, p.data = checksum s.sampled.signed
                  ((match s.running with
                    | some .decomp => last.snk.pending
                    | some .comp => last.consumed
                    | some .venc => []
                    | some .vdec => []
                    | none => []).take m)))

/-- 70_reset R147, R149: with no operation in progress and no action of the host the block waits; a host that waits for
the end of an operation goes on when it has ended. That a block that waits takes a step to itself is the model's choice
(log 2). -/
def Obligations.TheBlockWaitsWhenNotBusy : Prop :=
  ∀ (s : State) (rest : List HostAction), s.busy = false →
    (s.port.queue = [] → step s = .next s) ∧ (s.port.queue = .wait :: rest → step s = .next (s.withQueue rest))

/-! ## Commands -/

/-- 60_exceptions R133: `NOP`. -/
def Obligations.NopReturnsToIdle : Prop :=
  ∀ s : State, s.busy = false →
    exec .nop s = .next { s.started 0 with regs := { (s.started 0).regs with state := .idle } }

/-- 40_varint R79 with the lengths of 30_encoding R72: `VLEN` completes at once; nothing is read or written. -/
def Obligations.VlenGivesTheMinimalLength : Prop :=
  ∀ s : State, s.busy = false →
    ∃ vv : Word, exec .vlen s =
      .next (({ s.started 2 with vu := { s.vu with vv := vv } } : State).doneWith
        (BitVec.ofNat 32 (varintLength s.regs.arg)))

/-- 60_exceptions R131, 70_reset R148, 40_varint R78, R80, 41_decompress R87: `VENC`, `VDEC` and `DECOMP` start: the common
start, then the state their unit reads. The window is the fill byte everywhere. That the state of the other units stays
as it was is the model's choice (log 4), that the start is a step of its own too (log 9). -/
def Obligations.UnitsStartInitialised : Prop :=
  ∀ s : State, s.busy = false →
    exec .venc s = .next { s.started 1 with vu := { s.vu with vv := s.regs.arg } } ∧
      exec .vdec s = .next { s.started 3 with vu := { s.vu with vacc := 0, vidx := 0 } } ∧
      ∃ win, exec .decomp s =
          .next { s.started 4 with
            win := win, curR := 4078, du := { rem := s.regs.arg, flags := 0, fcnt := 0 } } ∧
        ∀ a, Memory.read win a = 0x20

/-- 42_compress R103, R104: `COMP` starts and does its setup: up to 18 bytes are read, summed and laid in the window from
4078 on, all other window bytes are the fill byte, `R = 4078`, `S = 0`, the group is empty, `SRC.eos` is set when there
were fewer than 18; nothing is written. That the other units' state stays as it was (log 4) and that start and setup are
one step (log 9) are the model's choices. -/
def Obligations.CompStartsWithItsLookahead : Prop :=
  ∀ s : State, s.busy = false →
    ∃ t : State, exec .comp s = .next t ∧
      t.cu.len.toNat = min 18 s.src.unread.length ∧ t.curR = 4078 ∧ t.cu.curS = 0 ∧
      t.cu.gmask = 1 ∧ t.cu.groupBytes = [0] ∧
      (∀ a, Memory.read t.win a = if 4078 ≤ a then (s.src.unread.take 18).getD (a - 4078) 0x20 else 0x20) ∧
      t.regs = { (s.started 5).regs with
        csum := checksum s.regs.signed (s.src.unread.take 18)
        inCount := BitVec.ofNat 32 (min 18 s.src.unread.length) } ∧
      t.src = { bytes := s.src.bytes, pos := s.src.pos + min 18 s.src.unread.length,
                eos := s.src.eos || decide (s.src.unread.length < 18) } ∧
      t.sampled = (s.started 5).sampled ∧ t.snk = (s.started 5).snk ∧ t.du = s.du ∧ t.vu = s.vu ∧ t.port = s.port

/-- 60_exceptions R131, 70_reset R160: while `BUSY` no command starts. -/
def Obligations.CommandsWhileBusyDoNothing : Prop :=
  ∀ s : State, s.busy = true →
    ∀ i ∈ [Instr.nop, .venc, .vlen, .vdec, .decomp, .comp], exec i s = .next s

/-- 60_exceptions R139: a reserved command word fails at once with `BadCommand`, after the common start, with no stream
access; `CMD` reads back the word. -/
def Obligations.ReservedCommandsFailWithBadCommand : Prop :=
  ∀ (s : State) (w : Word) (rest : List HostAction), s.busy = false → 5 < w.toNat →
    s.port.queue = .write .cmd w :: rest → step s = .next (((s.withQueue rest).started w).failedWith .badCommand 0)

/-! ## Varint elements -/

/-- 40_varint R81, R82, R83: in a `VDEC`, `VCONT` and `VLAST` accumulate their payload at bit `7 * VIDX`, dropping what lies
above bit 31 and recording in `VWRAP` that something was dropped; `VLAST` then completes with the accumulated value. -/
def Obligations.VarintBytesAccumulate : Prop :=
  ∀ (s : State) (p : BitVec 7), s.running = some .vdec →
    let full := if s.vu.vidx.toNat < 5 then p.toNat * 2 ^ (7 * s.vu.vidx.toNat) else 0
    let dropped := if s.vu.vidx.toNat < 5 then decide (2 ^ 32 ≤ full) else decide (p ≠ 0)
    let t : State :=
      { s with
        vu := { s.vu with
          vacc := s.vu.vacc ||| BitVec.ofNat 32 full
          vidx := if s.vu.vidx.toNat < 5 then s.vu.vidx + 1 else s.vu.vidx }
        regs := { s.regs with vwrap := s.regs.vwrap || dropped } }
    exec (.vcont p) s = .next t ∧ exec (.vlast p) s = .next (t.doneWith t.vu.vacc)

/-- 40_varint R78: in a `VENC`, `VCONT` is written while `VV > 0x7F` and `VV` loses seven bits; then `VLAST` is written and
the operation completes with the number of bytes. -/
def Obligations.VencWritesOneByteAStep : Prop :=
  ∀ (s : State) (p : BitVec 7), s.running = some .venc → s.regs.outCount.toNat + 1 < 2 ^ 32 →
    (127 < s.vu.vv.toNat →
        exec (.vcont p) s =
          .next { s.afterWriting [BitVec.ofNat 8 (0x80 + p.toNat)] with
            vu := { s.vu with vv := BitVec.ofNat 32 (s.vu.vv.toNat / 128) } }) ∧
      (s.vu.vv.toNat ≤ 127 →
        exec (.vlast p) s =
          .next ((s.afterWriting [BitVec.ofNat 8 p.toNat]).doneWith (s.regs.outCount + 1)))

/-- 40_varint R78, R85, 30_encoding R70: a whole `VENC` commits the minimal varint of `ARG`, one byte a step, and its
`RESULT` and `OUT_COUNT` are the number of bytes; the source is untouched. It ends on the proviso of 60_exceptions R143, that
the sink accepts (log 8). -/
def Obligations.VencCommitsTheMinimalVarint : Prop :=
  ∀ s : State, s.busy = false →
    ∃ t : State, Reaches (1 + varintLength s.regs.arg) (s.withQueue [.write .cmd 1]) t ∧
      t.regs = { (s.started 1).regs with
        result := BitVec.ofNat 32 (varintLength s.regs.arg)
        outCount := BitVec.ofNat 32 (varintLength s.regs.arg)
        state := .done } ∧
      t.snk = { committed := s.snk.committed ++ varintBytes s.regs.arg, pending := [] } ∧ t.src = s.src

/-- 40_varint R80, R83, 30_encoding R67: a whole `VDEC` over any continuation bytes and a last one ends `DONE` with the value
modulo 2^32, `VWRAP` set exactly when a payload bit at position 32 or above was 1, and exactly those bytes read. It ends on
the proviso of 60_exceptions R143, that the source answers (log 8). -/
def Obligations.VdecDecodesAnyVarint : Prop :=
  ∀ (s : State) (groups : List (BitVec 7)) (last : BitVec 7) (rest : List Byte),
    s.busy = false → groups.length + 1 < 2 ^ 32 →
    s.src.unread = groups.map vcontByte ++ vlastByte last :: rest →
      ∃ t : State, Reaches (groups.length + 2) (s.withQueue [.write .cmd 3]) t ∧
        t.regs = { (s.started 3).regs with
          result := BitVec.ofNat 32 (varintSum (groups ++ [last]))
          vwrap := decide (2 ^ 32 ≤ varintSum (groups ++ [last]))
          inCount := BitVec.ofNat 32 (groups.length + 1)
          state := .done } ∧
        t.src.unread = rest ∧ t.snk = { committed := s.snk.committed, pending := [] }

/-- 40_varint R84: what `VENC` writes for a value, `VDEC` reads back, with `VWRAP = 0` and as many bytes read as `VLEN`
says. Both operations end on the proviso of 60_exceptions R143, that the source answers and the sink accepts (log 8). -/
def Obligations.VarintRoundTrip : Prop :=
  ∀ (s u : State) (rest : List Byte), s.busy = false → u.busy = false →
    ∃ (t : State) (bytes : List Byte) (n k m : Nat),
      Reaches n (s.withQueue [.write .cmd 1]) t ∧ t.regs.state = .done ∧
      t.snk.committed = s.snk.committed ++ bytes ∧
      ∃ l : State, exec .vlen s = .next l ∧ l.regs.result.toNat = m ∧
        (u.src.unread = bytes ++ rest →
          ∃ v : State, Reaches k (u.withQueue [.write .cmd 3]) v ∧ v.regs.state = .done ∧
            v.regs.result = s.regs.arg ∧ v.regs.vwrap = false ∧ v.regs.inCount.toNat = m ∧ v.src.unread = rest)

/-! ## Decompression elements -/

/-- 41_decompress R89: with `REM > 0` and `FCNT = 0` the next byte is a flag byte; it loads the shifter and touches nothing
else; a source that has ended is `Truncated`. -/
def Obligations.FlagByteLoadsTheShifter : Prop :=
  ∀ (s : State) (f : Byte), s.running = some .decomp → s.du.rem ≠ 0 → s.du.fcnt = 0 →
    exec (.flag f) s = .next { s with du := { rem := s.du.rem, flags := f, fcnt := 8 } } ∧
      (s.port.queue = [] → s.src.bytes[s.src.pos]? = some f → s.regs.inCount.toNat + 1 < 2 ^ 32 →
        step s = .next { s.afterReading 1 with du := { rem := s.du.rem, flags := f, fcnt := 8 } }) ∧
      (s.port.queue = [] → s.src.bytes[s.src.pos]? = none →
        step s = .next (({ s with src := { s.src with eos := true } } : State).failedWith .truncated 0))

/-- 41_decompress R91, R93: a literal emits its byte: output, checksum, window at the cursor, cursor, `REM`; nothing else
changes. -/
def Obligations.LiteralEmitsItsByte : Prop :=
  ∀ (s : State) (d : Byte), s.running = some .decomp → s.du.rem ≠ 0 → s.regs.outCount.toNat + 1 < 2 ^ 32 →
    exec (.lit d) s =
      .next { s with
        snk := { s.snk with pending := s.snk.pending ++ [d] }
        regs := { s.regs with
          outCount := s.regs.outCount + 1
          csum := csumAdd s.sampled.signed s.regs.csum d }
        win := Memory.write s.win s.curR.toNat d
        curR := s.curR + 1
        du := { s.du with rem := s.du.rem - 1 } }

/-- 41_decompress R92, R93, 20_memory R55: a reference within the budget emits its run, overlapping itself where the offset
is smaller than the count; the run is written to the window from the cursor on and no other window byte changes. -/
def Obligations.ReferenceCopiesItsRun : Prop :=
  ∀ (s : State) (offset : Cursor) (count : Nat), s.running = some .decomp → Memory.wf s.win →
    3 ≤ count → count ≤ 18 → count ≤ s.du.rem.toNat → s.regs.outCount.toNat + count < 2 ^ 32 →
      ∃ win, exec (.ref offset count) s =
          .next { s with
            snk := { s.snk with pending := s.snk.pending ++ s.runBytes offset count }
            regs := { s.regs with
              outCount := s.regs.outCount + BitVec.ofNat 32 count
              csum := (s.runBytes offset count).foldl (csumAdd s.sampled.signed) s.regs.csum }
            win := win
            curR := s.curR + BitVec.ofNat 12 count
            du := { s.du with rem := s.du.rem - BitVec.ofNat 32 count } } ∧
        (∀ k < count, Memory.read win (s.curR + BitVec.ofNat 12 k).toNat = s.runByte offset k) ∧
        ∀ a, (∀ k < count, a ≠ (s.curR + BitVec.ofNat 12 k).toNat) → Memory.read win a = Memory.read s.win a

/-- 41_decompress R92, 60_exceptions R137, 70_reset R155: a reference beyond the budget fails with `Overflow` before anything
of it is written; `RESULT` is its count, and `WIN`, `R`, `CSUM`, `REM`, `OUT_COUNT` are as before the token. -/
def Obligations.ReferenceBeyondTheBudgetOverflows : Prop :=
  ∀ (s : State) (offset : Cursor) (count : Nat), s.running = some .decomp → s.du.rem ≠ 0 →
    s.du.rem.toNat < count → count ≤ 18 →
      exec (.ref offset count) s = .next (s.failedWith .overflow (BitVec.ofNat 32 count))

/-- 41_decompress R95, R86, 60_exceptions R138: the trailer. Equal to the checksum, the operation completes with `ARG`; else
it fails with `MalformedStream`, the trailer in `RESULT` and the computed value kept in `CSUM`. -/
def Obligations.TrailerDecidesTheDecode : Prop :=
  ∀ (s : State) (w : Word), s.running = some .decomp → s.du.rem = 0 →
    (w = s.regs.csum → exec (.trailer w) s = .next (s.doneWith s.sampled.arg)) ∧
      (w ≠ s.regs.csum → exec (.trailer w) s = .next (s.failedWith .malformedStream w))

/-- 60_exceptions R136, R140, R141: a source that ends inside the element that `VDEC` or `DECOMP` reads fails the operation
with `Truncated`: the bytes there were stay read, the latch is set, `RESULT` is 0, nothing is tested on the part. -/
def Obligations.SourceEndingInsideAnElementIsTruncated : Prop :=
  ∀ (s s1 : State) (sel : Select), s.port.queue = [] → s.Selects sel s1 → s.src.unread.length < sel.length →
    s.regs.inCount.toNat + s.src.unread.length < 2 ^ 32 →
      step s =
        .next (({ s1.afterReading s.src.unread.length with
          src := { bytes := s.src.bytes, pos := s.src.pos + s.src.unread.length, eos := true } } : State).failedWith
            .truncated 0)

/-- 41_decompress R94: `CsumAdd` adds a byte's unsigned value, or `b + 0xFFFFFF00` for a byte of 128 or more in signed mode,
modulo 2^32; the two modes give the same sum exactly when 256 times the number of such bytes is a multiple of 2^32. -/
def Obligations.ChecksumIsAdditiveInBothModes : Prop :=
  (∀ (acc : Word) (b : Byte),
      (csumAdd false acc b).toNat = (acc.toNat + b.toNat) % 2 ^ 32 ∧
        (csumAdd true acc b).toNat =
          (acc.toNat + (if b.toNat < 128 then b.toNat else b.toNat + 0xFFFFFF00)) % 2 ^ 32) ∧
    ∀ bytes : List Byte, checksum false bytes = checksum true bytes ↔
      2 ^ 32 ∣ 256 * (bytes.filter fun b => decide (128 ≤ b.toNat)).length

/-- 41_decompress R97: `DECOMP` with `ARG = 0` reads four bytes and no flag byte: all zero it is done and commits nothing,
else `MalformedStream`; the window is filled and `R` is 4078. -/
def Obligations.DecompOfNothingReadsOnlyTheTrailer : Prop :=
  ∀ (s : State) (t0 t1 t2 t3 : Byte) (rest : List Byte), s.busy = false → s.regs.arg = 0 →
    s.src.unread = t0 :: t1 :: t2 :: t3 :: rest →
      ∃ t : State, Reaches 2 (s.withQueue [.write .cmd 4]) t ∧
        t.snk = { committed := s.snk.committed, pending := [] } ∧ t.src.unread = rest ∧ t.curR = 4078 ∧
        (∀ a, Memory.read t.win a = 0x20) ∧ t.regs.csum = 0 ∧ t.regs.inCount = 4 ∧ t.regs.outCount = 0 ∧
        (([t0, t1, t2, t3] : List Byte) = [0, 0, 0, 0] → t.regs.state = .done ∧ t.regs.result = 0) ∧
        (([t0, t1, t2, t3] : List Byte) ≠ [0, 0, 0, 0] → t.regs.state = .failed ∧ t.regs.err = .malformedStream ∧
          t.regs.result.toNat = t0.toNat + 256 * t1.toNat + 65536 * t2.toNat + 16777216 * t3.toNat)

/-- 41_decompress R86, R100, 60_exceptions R138: a `DECOMP` ends `DONE` only by a trailer equal to the sum of the `ARG` bytes
it produced, and then these bytes are what it commits. -/
def Obligations.DecompIsDoneOnlyWithArgBytesOfTheRightSum : Prop :=
  ∀ s t : State, s.Inv → s.running = some .decomp → s.port.queue = [] → step s = .next t → t.regs.state = .done →
    ∃ out : List Byte, t.snk.committed = s.snk.committed ++ out ∧ out.length = s.sampled.arg.toNat ∧
      t.regs.result = s.sampled.arg ∧ t.regs.outCount = s.sampled.arg ∧
      t.regs.csum = checksum s.sampled.signed out ∧ 4 ≤ s.src.unread.length ∧
      s.src.unread.take 4 = bytesOfWord (checksum s.sampled.signed out) ∧ t.src.unread = s.src.unread.drop 4

/-- 41_decompress R99, 60_exceptions R143, 70_reset R164: `DECOMP` is total. From every state of one it ends `DONE` or
`FAILED` after at most one step for each byte left in the source and one more, having taken no byte that was not there;
the premise is that of 10_state R21, fewer than 2^32 bytes. It ends on the proviso of R143, which R164 wants stated: the
source answers every read and the sink takes every byte, as the model assumes (log 8). -/
def Obligations.DecompAlwaysEnds : Prop :=
  ∀ s : State, s.Inv → s.running = some .decomp → s.port.queue = [] → s.src.bytes.length < 2 ^ 32 →
    ∃ (k : Nat) (t : State), k ≤ s.src.unread.length + 1 ∧ Reaches k s t ∧
      (t.regs.state = .done ∨ t.regs.state = .failed) ∧ t.src.bytes = s.src.bytes ∧ t.src.pos ≤ s.src.bytes.length ∧
      t.regs.outCount.toNat ≤ s.sampled.arg.toNat ∧
      (t.regs.state = .failed → t.snk.committed = s.snk.committed)

/-! ## Compression elements -/

/-- 42_compress R107, R108, R109: what a token does to the group. A literal sets its flag bit and appends its byte; a
reference appends its two bytes and leaves its flag bit 0; after the eighth token the group goes to the sink, flag byte
first, and a new one begins. -/
def Obligations.TokensGatherInGroupsOfEight : Prop :=
  ∀ (s t : State) (i : Instr) (bytes : List Byte), s.running = some .comp → s.cu.GroupOk →
    ((∃ d, i = .lit d ∧ bytes = (s.cu.gbuf[0] ||| s.cu.gmask) :: s.cu.groupBytes.tail ++ [d]) ∨
      (∃ offset count, i = .ref offset count ∧ i.WellFormed ∧
        bytes = s.cu.gbuf[0] :: s.cu.groupBytes.tail ++
          [BitVec.ofNat 8 offset.toNat, BitVec.ofNat 8 (offset.toNat / 256 * 16 + (count - 3))])) →
    exec i s = .next t →
      (s.cu.gmask ≠ 0x80 → t.cu.groupBytes = bytes ∧ t.cu.gmask.toNat = 2 * s.cu.gmask.toNat ∧
        t.snk = s.snk ∧ t.regs.outCount = s.regs.outCount) ∧
      (s.cu.gmask = 0x80 → t.cu.groupBytes = [0] ∧ t.cu.gmask = 1 ∧
        t.snk = { s.snk with pending := s.snk.pending ++ bytes } ∧
        t.regs.outCount = s.regs.outCount + BitVec.ofNat 32 bytes.length)

/-- 42_compress R110, R111, R113, 20_memory R46, 10_state R29: what a token does to the window. It advances by one position
for a literal and by its count for a reference: that many bytes are read, or as many as the source still has, each summed
and written at `S` with its mirror; both cursors advance all the way, `LEN` falls by what the source did not give. -/
def Obligations.TokensAdvanceTheWindow : Prop :=
  ∀ (s t : State) (i : Instr) (n : Nat), s.running = some .comp → Memory.wf s.win →
    ((∃ d, i = .lit d ∧ n = 1) ∨ ∃ offset count, i = .ref offset count ∧ i.WellFormed ∧ n = count) →
    exec i s = .next t →
      let input := s.src.unread.take n
      t.curR = s.curR + BitVec.ofNat 12 n ∧ t.cu.curS = s.cu.curS + BitVec.ofNat 12 n ∧
      t.src = { bytes := s.src.bytes, pos := s.src.pos + input.length,
                eos := s.src.eos || decide (input.length < n) } ∧
      t.regs.inCount = s.regs.inCount + BitVec.ofNat 32 input.length ∧
      t.regs.csum = input.foldl (csumAdd s.sampled.signed) s.regs.csum ∧
      t.cu.len = s.cu.len - BitVec.ofNat 5 (n - input.length) ∧
      (∀ j < input.length, t.winAt (s.cu.curS + BitVec.ofNat 12 j) = input.getD j 0) ∧
      (∀ a : Cursor, (∀ j < input.length, a ≠ s.cu.curS + BitVec.ofNat 12 j) → t.winAt a = s.winAt a) ∧
      ∀ j < 17, Memory.read s.win (4096 + j) = Memory.read s.win j → Memory.read t.win (4096 + j) = Memory.read t.win j

/-- 42_compress R102, R107 to R111: the frame of a token in a `COMP`: of the registers only `CSUM` and the two counters can
change, and what was sampled, what was committed, the other units and the host's port do not. -/
def Obligations.TokensOfCompLeaveTheRestAlone : Prop :=
  ∀ (s t : State) (i : Instr), s.running = some .comp → ((∃ d, i = .lit d) ∨ ∃ offset count, i = .ref offset count) →
    exec i s = .next t →
      t.regs = { s.regs with csum := t.regs.csum, inCount := t.regs.inCount, outCount := t.regs.outCount } ∧
      t.sampled = s.sampled ∧ t.du = s.du ∧ t.vu = s.vu ∧ t.port = s.port ∧ t.snk.committed = s.snk.committed ∧
      t.src.bytes = s.src.bytes

/-- 42_compress R102, 43_match_finder R129, 60_exceptions R143: in every state of a `COMP` that the invariants allow, a token
completes; the premise is that of 10_state R21. -/
def Obligations.TokensOfCompComplete : Prop :=
  ∀ (s : State) (i : Instr), s.Inv → s.running = some .comp → s.src.bytes.length < 2 ^ 32 →
    s.regs.outCount.toNat + 17 < 2 ^ 32 →
    ((∃ d, i = .lit d ∧ s.cu.len ≠ 0) ∨
      ∃ offset count, i = .ref offset count ∧ i.WellFormed ∧ count ≤ s.cu.len.toNat) →
      ∃ t, exec i s = .next t

/-- 42_compress R112: when nothing is left to encode, a waiting group, then the trailer, least significant byte first, are
written, and the operation completes with the number of bytes written, trailer included (10_state R18). -/
def Obligations.TrailerEndsTheBlock : Prop :=
  ∀ (s : State) (w : Word), s.running = some .comp → s.cu.len = 0 → s.cu.GroupOk →
    s.regs.outCount.toNat + 21 < 2 ^ 32 →
      let bytes := (if 1 < s.cu.gptr.toNat then s.cu.groupBytes else []) ++
        [BitVec.ofNat 8 w.toNat, BitVec.ofNat 8 (w.toNat / 2 ^ 8), BitVec.ofNat 8 (w.toNat / 2 ^ 16),
          BitVec.ofNat 8 (w.toNat / 2 ^ 24)]
      exec (.trailer w) s =
        .next ((s.afterWriting bytes).doneWith (s.regs.outCount + BitVec.ofNat 32 bytes.length))

/-- 42_compress R116: `COMP` of nothing commits `00 00 00 00`, in either mode. -/
def Obligations.CompOfNothingIsTheTrailerAlone : Prop :=
  ∀ s : State, s.busy = false → s.src.unread = [] →
    ∃ t : State, Reaches 2 (s.withQueue [.write .cmd 5]) t ∧ t.regs.state = .done ∧
      t.snk = { committed := s.snk.committed ++ [0, 0, 0, 0], pending := [] } ∧ t.regs.result = 4 ∧
      t.regs.inCount = 0 ∧ t.regs.csum = 0

/-! ## Match finder -/

/-- 43_match_finder R123, R124, R125, R126, R129: `insert_node` of a position that is no member completes: the forest stays
one, and stays ordered by key as `TREE_ORDER` says, with no two equal keys, where it was (R123 item 3); the position becomes
a member, and the only member it can cost is the one a full match replaces. -/
def Obligations.InsertNodeKeepsTheForest : Prop :=
  ∀ (o : Config.TreeOrder) (win : List Host.Cell) (n : Cursor) (f : Finder),
    Cells.wf Config.nilEntry Config.linkLast f.left → Cells.wf Config.nilEntry Config.rightLast f.right →
    Cells.wf Config.nilEntry Config.linkLast f.parent → f.TreeOk win → ¬ f.Member n.toNat →
      ∃ g, insertNode o win n f = .ok g ∧ g.TreeOk win ∧ g.Member n.toNat ∧
        (∀ m, m ≠ n.toNat → (g.Member m ↔ f.Member m ∧ ¬ (g.ml = 18 ∧ m = g.mp.toNat))) ∧
        (f.Ordered o win → g.Ordered o win)

/-- 43_match_finder R122, R124, R125: the match that `insert_node` reports. `ML` is 0 exactly when the root slot of the first
byte holds `NIL`, and then `MP` keeps its value. Else `MP` is a member met on the descent whose key shares exactly `ML` bytes
with `n`'s; no candidate met shares a longer prefix, and those met before `MP` share a shorter one. In a forest ordered by
key no member at all shares a longer prefix. -/
def Obligations.InsertNodeReportsATrueMatch : Prop :=
  ∀ (o : Config.TreeOrder) (win : List Host.Cell) (n : Cursor) (f g : Finder),
    Cells.wf Config.nilEntry Config.linkLast f.left → Cells.wf Config.nilEntry Config.rightLast f.right →
    Cells.wf Config.nilEntry Config.linkLast f.parent → f.TreeOk win → ¬ f.Member n.toNat →
    insertNode o win n f = .ok g →
      g.ml ≤ 18 ∧ (g.ml = 0 ↔ f.rightAt (Config.root (Memory.read win n.toNat)) = Config.nil) ∧
        (g.ml = 0 → g.mp = f.mp) ∧
        (g.ml ≠ 0 → f.Member g.mp.toNat ∧ commonPrefix win n.toNat g.mp.toNat = g.ml.toNat ∧
          ∃ k, f.Met o win n.toNat k g.mp.toNat ∧ ∀ j c, f.Met o win n.toNat j c →
            commonPrefix win n.toNat c ≤ g.ml.toNat ∧ (j < k → commonPrefix win n.toNat c < g.ml.toNat)) ∧
        (f.Ordered o win → ∀ m, f.Member m → commonPrefix win n.toNat m ≤ g.ml.toNat)

/-- 43_match_finder R123, R124, R127: `delete_node` completes: the forest stays one, and stays ordered by key where it was;
the position is no member any more and no other membership changes; the match is untouched, and for a position that is no
member nothing changes at all. -/
def Obligations.DeleteNodeKeepsTheForest : Prop :=
  ∀ (win : List Host.Cell) (p : Cursor) (f : Finder),
    Cells.wf Config.nilEntry Config.linkLast f.left → Cells.wf Config.nilEntry Config.rightLast f.right →
    Cells.wf Config.nilEntry Config.linkLast f.parent → f.TreeOk win →
      ∃ g, deleteNode p f = .ok g ∧ g.TreeOk win ∧ ¬ g.Member p.toNat ∧
        (∀ m, m ≠ p.toNat → (g.Member m ↔ f.Member m)) ∧ g.ml = f.ml ∧ g.mp = f.mp ∧
        (¬ f.Member p.toNat → g = f) ∧ ∀ o, f.Ordered o win → g.Ordered o win

/-! ## Invariants of every step -/

/-- 70_reset R147, 10_state R19, 20_memory R41, R45, R47: the invariants hold right after hard reset, the engine state at the
values that the model names (log 3). -/
def Obligations.InvariantsHoldAtReset : Prop := State.reset.Inv

/-- 20_memory R45, R47: every step keeps the arrays in their canonical form and inside their index spaces. -/
def Obligations.EveryStepKeepsStorageCanonical : Prop :=
  ∀ s t : State, s.StorageOk → step s = .next t → t.StorageOk

/-- 10_state R18, R19, 20_memory R39, R40, R41, R42: every step keeps the status and stream invariants. -/
def Obligations.EveryStepKeepsStatusAndStreams : Prop :=
  ∀ s t : State, s.StatusOk → step s = .next t → t.StatusOk

/-- 10_state R20, R23, R28, R35, 41_decompress R93, 40_varint R80, R83: every step keeps the counters, the shifter, the
checksum and the cursor of a `DECOMP` in step with what was produced; and in a `VDEC` it keeps `VIDX` at most 5, with nothing
written and nothing summed. -/
def Obligations.EveryStepKeepsTheDecodeCounters : Prop :=
  ∀ s t : State, s.StatusOk → s.DecompOk → s.VdecOk → step s = .next t → t.DecompOk ∧ t.VdecOk

/-- 10_state R25: every step keeps the window of a `DECOMP` equal to the last 4096 bytes emitted, the fill byte before
them. -/
def Obligations.EveryStepKeepsTheDictionary : Prop :=
  ∀ s t : State, s.StorageOk → s.StatusOk → s.DecompWindowOk → step s = .next t → t.DecompWindowOk

/-- 10_state R29, R30, R33, 42_compress R113, R115 items 1 and 3, 20_memory R46: every step keeps the cursors, `LEN`, the
group, the checksum and the mirror of a `COMP`. -/
def Obligations.EveryStepKeepsTheEncoderState : Prop :=
  ∀ s t : State, s.StorageOk → s.StatusOk → s.CompOk → step s = .next t → t.CompOk

/-- 42_compress R115 items 2 and 4: every step of a `COMP` keeps the next unencoded bytes in the window at the cursor and
the last encoded ones behind it. -/
def Obligations.EveryStepKeepsTheEncoderWindow : Prop :=
  ∀ s t : State, s.StorageOk → s.StatusOk → s.CompOk → s.CompWindowOk → step s = .next t → t.CompWindowOk

/-- 43_match_finder R123, R124, R126, 42_compress R104, R114, R115 item 5: every step keeps the forest of a `COMP` one and
ordered by key, its members in the circular interval from `S` to `R`; and while bytes are left to encode, every position
inserted stays to be found, itself or in a member with its key, and the match is a longest one among the members, 1 to 4078
behind the cursor. -/
def Obligations.EveryStepKeepsTheForest : Prop :=
  ∀ s t : State, s.StorageOk → s.StatusOk → s.CompOk → s.ForestOk → step s = .next t → t.ForestOk

/-- 10_state R18, R19, R20, R25, R28, R29, 20_memory R46, 41_decompress R93, 42_compress R114, R115, 43_match_finder
R123: every step keeps all the invariants at once. -/
def Obligations.EveryStepKeepsTheInvariants : Prop := ∀ s t : State, s.Inv → step s = .next t → t.Inv

/-- 60_exceptions R143, 20_memory R45, 43_match_finder R129: from a state that meets the invariants no step faults: no index
leaves its array, no walk is endless, no element runs where it is not selected. -/
def Obligations.NoStepFaults : Prop := ∀ s : State, s.Inv → SafeOutcome (step s)

/-! ## Rules of the whole machine -/

/-- 60_exceptions R132, 70_reset R160, 20_memory R39, 10_state R22: a step of the block itself never changes `CMD`, `MODE`,
`ARG`, what was sampled, the source's bytes or the host's port, and never moves the source back. -/
def Obligations.TheBlockNeverWritesItsOperands : Prop :=
  ∀ s t : State, s.port.queue = [] → step s = .next t →
    t.regs.cmd = s.regs.cmd ∧ t.regs.signed = s.regs.signed ∧ t.regs.arg = s.regs.arg ∧ t.sampled = s.sampled ∧
      t.src.bytes = s.src.bytes ∧ s.src.pos ≤ t.src.pos ∧ t.port = s.port

/-- 20_memory R43, R44, 42_compress R119, 70_reset R161: output becomes visible only when an operation ends `DONE`, and then
begins with all that was pending; any other step leaves what was committed as it was. -/
def Obligations.OutputIsVisibleOnlyWhenDone : Prop :=
  ∀ s t : State, s.StatusOk → step s = .next t →
    t.snk.committed = s.snk.committed ∨
      (t.regs.state = .done ∧ s.busy = true ∧ ∃ more, t.snk.committed = s.snk.committed ++ s.snk.pending ++ more)

/-- 60_exceptions R134, R142: an operation in progress ends only `DONE`, `FAILED` or by a hard reset; `FAILED` is left only by
a command or a hard reset. -/
def Obligations.OnlyTheseEventsLeaveBusyAndFailed : Prop :=
  ∀ s t : State, step s = .next t →
    (s.regs.state = .busy → t.regs.state ≠ .busy →
        t.regs.state = .done ∨ t.regs.state = .failed ∨ s.port.queue.head? = some .hardReset) ∧
      (s.regs.state = .failed → t.regs.state ≠ .failed →
        s.port.queue.head? = some .hardReset ∨ ∃ w, s.port.queue.head? = some (.write .cmd w))

/-- 70_reset R148: what a command does depends on its word, `MODE`, `ARG` and the unread bytes of the source, and on nothing
else that was there before: from two states that agree on these it goes the same way, step by step, to the same registers,
the same rest of the source and the same output. -/
def Obligations.OperationsDependOnlyOnTheirOperands : Prop :=
  ∀ (s1 s2 t1 : State) (w : Word) (k : Nat), s1.busy = false → s2.busy = false →
    s1.regs.signed = s2.regs.signed → s1.regs.arg = s2.regs.arg → s1.src.unread = s2.src.unread →
    Reaches (k + 1) (s1.withQueue [.write .cmd w]) t1 →
      ∃ (t2 : State) (out : List Byte), Reaches (k + 1) (s2.withQueue [.write .cmd w]) t2 ∧ t1.regs = t2.regs ∧
        t1.src.unread = t2.src.unread ∧ t1.snk.pending = t2.snk.pending ∧
        t1.snk.committed = s1.snk.committed ++ out ∧ t2.snk.committed = s2.snk.committed ++ out

/-! ## Whole operations -/

/-- 42_compress R102, R112, R118, 60_exceptions R143, 70_reset R164: `COMP` always ends `DONE`: it reads the source to
its end and commits a block of at most `n + ceil(n / 8) + 4` bytes for `n` bytes of data, whose length is `RESULT` and
whose last four bytes are the checksum of the data; the premise is that of 10_state R21. It ends on the proviso of R143,
which R164 wants stated: the source answers every read and the sink takes every byte, as the model assumes (log 8). -/
def Obligations.CompAlwaysCommitsABlock : Prop :=
  ∀ s : State, s.StatusOk → s.busy = false → s.src.bytes.length < 2 ^ 32 →
    s.src.unread.length + (s.src.unread.length + 7) / 8 + 4 < 2 ^ 32 →
      ∃ (k : Nat) (t : State) (tokens : List Byte), Reaches k (s.withQueue [.write .cmd 5]) t ∧ t.regs.state = .done ∧
        t.snk.committed = s.snk.committed ++ tokens ++ bytesOfWord (checksum s.regs.signed s.src.unread) ∧
        t.regs.result = t.regs.outCount ∧ t.regs.outCount.toNat = tokens.length + 4 ∧
        tokens.length ≤ s.src.unread.length + (s.src.unread.length + 7) / 8 ∧
        t.regs.inCount.toNat = s.src.unread.length ∧ t.regs.csum = checksum s.regs.signed s.src.unread ∧
        t.src.eos = true ∧ t.src.unread = []

/-- 41_decompress R98: the round trip. What `COMP` commits for the bytes of a source, `DECOMP` turns back into them, given
their number in `ARG` and the same `MODE.SIGNED`; it reads exactly the block and ends with the same `CSUM` and `R`. It holds
for either value of `TREE_ORDER`, which has no value here (log 1); the premise is that of 10_state R21. Both operations
end on the proviso of 60_exceptions R143 and 70_reset R164, that the source answers and the sink accepts (log 8). -/
def Obligations.DecompUndoesComp : Prop :=
  ∀ s : State, s.StatusOk → s.busy = false → s.src.bytes.length < 2 ^ 32 →
    s.src.unread.length + (s.src.unread.length + 7) / 8 + 4 < 2 ^ 32 →
      ∃ (k : Nat) (t : State) (block : List Byte), Reaches k (s.withQueue [.write .cmd 5]) t ∧ t.regs.state = .done ∧
        t.snk.committed = s.snk.committed ++ block ∧
        ∀ (u : State) (rest : List Byte), u.busy = false → u.regs.signed = s.regs.signed →
          u.regs.arg.toNat = s.src.unread.length → u.src.unread = block ++ rest →
            ∃ (m : Nat) (v : State), Reaches m (u.withQueue [.write .cmd 4]) v ∧ v.regs.state = .done ∧
              v.snk.committed = u.snk.committed ++ s.src.unread ∧ v.regs.inCount.toNat = block.length ∧
              v.regs.csum = t.regs.csum ∧ v.curR = t.curR ∧ v.src.unread = rest

/-- 42_compress R117, the size it gives: `n` bytes of data in which no 3-byte string occurs twice, counting the fill bytes
before it as text, compress to a block of `n + ceil(n / 8) + 4` bytes, the number in `RESULT`. Which bytes these are is not
said here. It ends on the proviso of 60_exceptions R143 and 70_reset R164, that the source answers and the sink accepts
(log 8). The premise on the lengths is that of 10_state R21. -/
def Obligations.IncompressibleDataGrowsByItsFlags : Prop :=
  ∀ s : State, s.StatusOk → s.busy = false → s.src.bytes.length < 2 ^ 32 →
    s.src.unread.length + (s.src.unread.length + 7) / 8 + 4 < 2 ^ 32 →
    (∀ i j : Nat, i < j → j ≤ s.src.unread.length →
      (([0x20, 0x20, 0x20] ++ s.src.unread : List Byte).drop i).take 3 ≠
        (([0x20, 0x20, 0x20] ++ s.src.unread : List Byte).drop j).take 3) →
      ∃ (k : Nat) (t : State), Reaches k (s.withQueue [.write .cmd 5]) t ∧ t.regs.state = .done ∧
        t.regs.result.toNat = s.src.unread.length + (s.src.unread.length + 7) / 8 + 4
end

