-- ==== Sys2Proof/Laws/Keys.lean ====
section
/-! SUPPORT. The keys of the match finder: their common prefix, their order as an order, and what the descent's comparison
says of it (43_match_finder R122, R124, R125). -/
namespace Sys2Proof.Machine

variable {win : List Host.Cell} {n p m : Nat} {o : Config.TreeOrder}

/-- Where a walk along the first `k` indices stops. -/
theorem length_takeWhile_range (f : Nat → Bool) (k : Nat) :
    ((List.range k).takeWhile f).length ≤ k ∧ (∀ i < ((List.range k).takeWhile f).length, f i = true) ∧
      (((List.range k).takeWhile f).length < k → f ((List.range k).takeWhile f).length = false) := by
  have hp : (List.range k).takeWhile f <+: List.range k := List.takeWhile_prefix f
  obtain ⟨rest, he⟩ := hp
  have hlen := congrArg List.length he
  simp only [List.length_append, List.length_range] at hlen
  refine ⟨by omega, fun i hi => ?_, fun hlt => ?_⟩
  · have hm : ((List.range k).takeWhile f)[i] ∈ (List.range k).takeWhile f := List.getElem_mem _
    have h1 := List.mem_takeWhile_imp hm
    have h2 : ((List.range k).takeWhile f)[i] = i := by
      rw [(List.takeWhile_prefix (l := List.range k) f).getElem hi]
      simp
    rwa [h2] at h1
  · have hr := List.takeWhile_append_dropWhile (p := f) (l := List.range k)
    have hd : (List.range k).dropWhile f ≠ [] := by
      intro e
      rw [e, List.append_nil] at hr
      rw [hr] at hlt
      simp at hlt
    have hh := List.head_dropWhile_not f hd
    have h3 : ((List.range k).dropWhile f).head hd = ((List.range k).takeWhile f).length := by
      have h4 : (List.range k)[((List.range k).takeWhile f).length]? = ((List.range k).dropWhile f).head? := by
        conv_lhs => arg 1; rw [← hr]
        rw [List.getElem?_append_right (Nat.le_refl _), Nat.sub_self, List.head?_eq_getElem?]
      rw [List.getElem?_range hlt, List.head?_eq_some_head hd] at h4
      exact (Option.some.inj h4).symm
    rwa [h3] at hh

/-- What the common prefix is: as long as the keys agree, and no longer. -/
theorem commonPrefix_spec (win : List Host.Cell) (n p : Nat) :
    commonPrefix win n p ≤ 18 ∧ KeysAgree win n p (commonPrefix win n p) ∧
      (commonPrefix win n p < 18 →
        Memory.read win (n + commonPrefix win n p) ≠ Memory.read win (p + commonPrefix win n p)) := by
  obtain ⟨h1, h2, h3⟩ := length_takeWhile_range (fun i => Memory.read win (n + i) == Memory.read win (p + i)) 18
  exact ⟨h1, fun i hi => by simpa using h2 i hi, fun h => by
    have := beq_eq_false_iff_ne.1 (h3 h)
    exact this⟩

/-- Keys that differ at `j` agree in at most `j` bytes. -/
theorem commonPrefix_le {j : Nat} (h : Memory.read win (n + j) ≠ Memory.read win (p + j)) : commonPrefix win n p ≤ j := by
  obtain ⟨-, h2, -⟩ := commonPrefix_spec win n p
  by_contra hc
  exact h (h2 j (by omega))

/-- Keys that agree in `j` bytes agree in at least `j` bytes. -/
theorem le_commonPrefix {j : Nat} (hj : j ≤ 18) (h : KeysAgree win n p j) : j ≤ commonPrefix win n p := by
  obtain ⟨-, -, h3⟩ := commonPrefix_spec win n p
  by_contra hc
  exact h3 (by omega) (h _ (by omega))

theorem commonPrefix_eq {j : Nat} (hj : j ≤ 18) (h : KeysAgree win n p j)
    (hd : j < 18 → Memory.read win (n + j) ≠ Memory.read win (p + j)) : commonPrefix win n p = j := by
  have h1 := le_commonPrefix hj h
  by_cases e : j < 18
  · exact Nat.le_antisymm (commonPrefix_le (hd e)) h1
  · have := (commonPrefix_spec win n p).1
    omega

theorem commonPrefix_eq_18 : commonPrefix win n p = 18 ↔ KeysAgree win n p 18 :=
  ⟨fun h => h ▸ (commonPrefix_spec win n p).2.1, fun h => commonPrefix_eq (by omega) h (by omega)⟩

theorem KeysAgree.symm {k : Nat} (h : KeysAgree win n p k) : KeysAgree win p n k := fun i hi => (h i hi).symm

theorem KeysAgree.trans {k : Nat} (h : KeysAgree win n p k) (h' : KeysAgree win p m k) : KeysAgree win n m k :=
  fun i hi => (h i hi).trans (h' i hi)

theorem commonPrefix_congr {win' : List Host.Cell} (hn : ∀ i < 18, Memory.read win' (n + i) = Memory.read win (n + i))
    (hp : ∀ i < 18, Memory.read win' (p + i) = Memory.read win (p + i)) : commonPrefix win' n p = commonPrefix win n p := by
  obtain ⟨h1, h2, h3⟩ := commonPrefix_spec win n p
  refine commonPrefix_eq h1 (fun i hi => ?_) (fun h => ?_)
  · rw [hn i (by omega), hp i (by omega)]
    exact h2 i hi
  · rw [hn _ h, hp _ h]
    exact h3 h

theorem KeyLess.irrefl : ¬ KeyLess win n n := fun ⟨_, _, _, h⟩ => Nat.lt_irrefl _ h

theorem KeyLess.trans (h : KeyLess win n p) (h' : KeyLess win p m) : KeyLess win n m := by
  obtain ⟨i, hi, ai, di⟩ := h
  obtain ⟨j, hj, aj, dj⟩ := h'
  rcases Nat.lt_trichotomy i j with c | c | c
  · exact ⟨i, hi, fun x hx => (ai x hx).trans (aj x (by omega)), by rw [← aj i c]; exact di⟩
  · subst c
    exact ⟨i, hi, fun x hx => (ai x hx).trans (aj x hx), by omega⟩
  · exact ⟨j, hj, fun x hx => (ai x (by omega)).trans (aj x hx), by rw [ai j c]; exact dj⟩

/-- A key between two others shares with each at least what they share. -/
theorem KeyLess.between (h : KeyLess win m p) (h' : KeyLess win p n) : commonPrefix win n m ≤ commonPrefix win n p := by
  obtain ⟨i, hi, ai, di⟩ := h
  obtain ⟨j, hj, aj, dj⟩ := h'
  have hpn : commonPrefix win n p = j :=
    commonPrefix_eq (by omega) (fun x hx => (aj x hx).symm) (fun _ e => by rw [e] at dj; omega)
  rw [hpn]
  rcases Nat.lt_trichotomy i j with c | c | c
  · have h1 : commonPrefix win n m ≤ i := by
      refine commonPrefix_le fun e => ?_
      rw [← aj i c] at e
      rw [e] at di
      omega
    omega
  · subst c
    refine commonPrefix_le fun e => ?_
    rw [e] at dj
    omega
  · refine commonPrefix_le fun e => ?_
    rw [ai j c] at e
    rw [e] at dj
    omega

theorem KeyLess.between' (h : KeyLess win n p) (h' : KeyLess win p m) : commonPrefix win n m ≤ commonPrefix win n p := by
  obtain ⟨i, hi, ai, di⟩ := h
  obtain ⟨j, hj, aj, dj⟩ := h'
  have hpn : commonPrefix win n p = i :=
    commonPrefix_eq (by omega) ai (fun _ e => by rw [e] at di; omega)
  rw [hpn]
  rcases Nat.lt_trichotomy i j with c | c | c
  · refine commonPrefix_le fun e => ?_
    rw [← aj i c] at e
    rw [e] at di
    omega
  · subst c
    refine commonPrefix_le fun e => ?_
    rw [e] at di
    omega
  · have h1 : commonPrefix win n m ≤ j := by
      refine commonPrefix_le fun e => ?_
      rw [ai j c] at e
      rw [e] at dj
      omega
    omega

theorem KeyRight.irrefl : ¬ KeyRight o win n n := by cases o <;> exact KeyLess.irrefl

theorem KeyRight.trans (h : KeyRight o win n p) (h' : KeyRight o win p m) : KeyRight o win n m := by
  cases o
  · exact KeyLess.trans h' h
  · exact KeyLess.trans h h'

/-- What lies on the other side of `p` than `n` shares no more with `n` than `p` does. -/
theorem KeyRight.between (h : KeyRight o win p m) (h' : KeyRight o win n p) :
    commonPrefix win n m ≤ commonPrefix win n p := by
  cases o
  · exact KeyLess.between h h'
  · exact KeyLess.between' h' h

theorem KeyRight.between' (h : KeyRight o win m p) (h' : KeyRight o win p n) :
    commonPrefix win n m ≤ commonPrefix win n p := by
  cases o
  · exact KeyLess.between' h' h
  · exact KeyLess.between h h'

/-- Equal keys lie on neither side of one another. -/
theorem KeyRight.not_agree (h : KeyRight o win n p) : ¬ KeysAgree win n p 18 := by
  cases o
  · obtain ⟨i, hi, -, d⟩ := h
    intro e
    rw [e i hi] at d
    omega
  · obtain ⟨i, hi, -, d⟩ := h
    intro e
    rw [e i hi] at d
    omega

/-- Equal keys lie on the same side of every other. -/
theorem KeyLess.congr {n' p' : Nat} (hn : KeysAgree win n n' 18) (hp : KeysAgree win p p' 18) (h : KeyLess win n p) :
    KeyLess win n' p' := by
  obtain ⟨i, hi, a, d⟩ := h
  exact ⟨i, hi, fun x hx => (hn x (by omega)).symm.trans ((a x hx).trans (hp x (by omega))), by
    rw [← hn i hi, ← hp i hi]; exact d⟩

theorem KeyRight.congr {n' p' : Nat} (hn : KeysAgree win n n' 18) (hp : KeysAgree win p p' 18)
    (h : KeyRight o win n p) : KeyRight o win n' p' := by
  cases o
  · exact KeyLess.congr hp hn h
  · exact KeyLess.congr hn hp h

/-- A window that holds the same keys orders them in the same way. -/
theorem KeyRight.congr_window {win' : List Host.Cell} (hn : ∀ i < 18, Memory.read win' (n + i) = Memory.read win (n + i))
    (hp : ∀ i < 18, Memory.read win' (p + i) = Memory.read win (p + i)) (h : KeyRight o win n p) :
    KeyRight o win' n p := by
  have key : ∀ n p : Nat, (∀ i < 18, Memory.read win' (n + i) = Memory.read win (n + i)) →
      (∀ i < 18, Memory.read win' (p + i) = Memory.read win (p + i)) → KeyLess win n p → KeyLess win' n p := by
    intro n p hn hp ⟨i, hi, a, d⟩
    refine ⟨i, hi, fun x hx => ?_, ?_⟩
    · rw [hn x (by omega), hp x (by omega)]
      exact a x hx
    · rw [hn i hi, hp i hi]
      exact d
  cases o
  · exact key p n hp hn h
  · exact key n p hn hp h

/-- What the comparison of the descent says: it goes right exactly to the side on which `n` belongs, and keys that differ
lie on one side or the other (43_match_finder R124). -/
theorem goesRight_iff (hp : p ≤ Config.nil) (hlt : commonPrefix win n p < 18) :
    (goesRight o p ((Memory.read win (n + commonPrefix win n p)).toNat - (Memory.read win (p + commonPrefix win n p)).toNat)
        = true → KeyRight o win n p) ∧
      (goesRight o p ((Memory.read win (n + commonPrefix win n p)).toNat - (Memory.read win (p + commonPrefix win n p)).toNat)
        = false → KeyRight o win p n) := by
  obtain ⟨-, a, d⟩ := commonPrefix_spec win n p
  have d := d hlt
  have dn : (Memory.read win (n + commonPrefix win n p)).toNat ≠ (Memory.read win (p + commonPrefix win n p)).toNat :=
    fun e => d (BitVec.eq_of_toNat_eq e)
  generalize commonPrefix win n p = i at *
  have l1 : (Memory.read win (n + i)).toNat < (Memory.read win (p + i)).toNat → KeyLess win n p :=
    fun h => ⟨i, hlt, a, h⟩
  have l2 : (Memory.read win (p + i)).toNat < (Memory.read win (n + i)).toNat → KeyLess win p n :=
    fun h => ⟨i, hlt, a.symm, h⟩
  unfold goesRight
  rw [if_neg (by omega)]
  cases o <;> simp only [KeyRight, decide_eq_true_eq, decide_eq_false_iff_not]
  · exact ⟨fun h => l2 (by clear l1 l2; omega), fun h => l1 (by clear l1 l2; omega)⟩
  · exact ⟨fun h => l1 (by clear l1 l2; omega), fun h => l2 (by clear l1 l2; omega)⟩

end Sys2Proof.Machine
end

