-- ==== Sys2Proof/Laws/State.lean ====
section
/-! SUPPORT. What every named update of the state leaves in every field: one lemma per field per update. -/
namespace Sys2Proof.Machine

/-! ### commandStart -/

@[simp] theorem commandStart_cmd (w : Word) (s : State) : (commandStart w s).regs.cmd = w := rfl
@[simp] theorem commandStart_signed (w : Word) (s : State) : (commandStart w s).regs.signed = s.regs.signed := rfl
@[simp] theorem commandStart_arg (w : Word) (s : State) : (commandStart w s).regs.arg = s.regs.arg := rfl
@[simp] theorem commandStart_result (w : Word) (s : State) : (commandStart w s).regs.result = 0 := rfl
@[simp] theorem commandStart_state (w : Word) (s : State) : (commandStart w s).regs.state = .busy := rfl
@[simp] theorem commandStart_err (w : Word) (s : State) : (commandStart w s).regs.err = .none := rfl
@[simp] theorem commandStart_vwrap (w : Word) (s : State) : (commandStart w s).regs.vwrap = false := rfl
@[simp] theorem commandStart_csum (w : Word) (s : State) : (commandStart w s).regs.csum = 0 := rfl
@[simp] theorem commandStart_inCount (w : Word) (s : State) : (commandStart w s).regs.inCount = 0 := rfl
@[simp] theorem commandStart_outCount (w : Word) (s : State) : (commandStart w s).regs.outCount = 0 := rfl
@[simp] theorem commandStart_sampled (w : Word) (s : State) : (commandStart w s).sampled = { signed := s.regs.signed, arg := s.regs.arg } := rfl
@[simp] theorem commandStart_win (w : Word) (s : State) : (commandStart w s).win = s.win := rfl
@[simp] theorem commandStart_curR (w : Word) (s : State) : (commandStart w s).curR = s.curR := rfl
@[simp] theorem commandStart_du (w : Word) (s : State) : (commandStart w s).du = s.du := rfl
@[simp] theorem commandStart_cu (w : Word) (s : State) : (commandStart w s).cu = s.cu := rfl
@[simp] theorem commandStart_vu (w : Word) (s : State) : (commandStart w s).vu = s.vu := rfl
@[simp] theorem commandStart_src (w : Word) (s : State) : (commandStart w s).src = s.src := rfl
@[simp] theorem commandStart_snk (w : Word) (s : State) : (commandStart w s).snk = { s.snk with pending := [] } := rfl
@[simp] theorem commandStart_port (w : Word) (s : State) : (commandStart w s).port = s.port := rfl

/-! ### commit -/

@[simp] theorem commit_regs (s : State) : (commit s).regs = s.regs := rfl
@[simp] theorem commit_sampled (s : State) : (commit s).sampled = s.sampled := rfl
@[simp] theorem commit_win (s : State) : (commit s).win = s.win := rfl
@[simp] theorem commit_curR (s : State) : (commit s).curR = s.curR := rfl
@[simp] theorem commit_du (s : State) : (commit s).du = s.du := rfl
@[simp] theorem commit_cu (s : State) : (commit s).cu = s.cu := rfl
@[simp] theorem commit_vu (s : State) : (commit s).vu = s.vu := rfl
@[simp] theorem commit_src (s : State) : (commit s).src = s.src := rfl
@[simp] theorem commit_snk (s : State) : (commit s).snk = { committed := s.snk.committed ++ s.snk.pending, pending := [] } := rfl
@[simp] theorem commit_port (s : State) : (commit s).port = s.port := rfl

/-! ### abort -/

@[simp] theorem abort_regs (s : State) : (abort s).regs = s.regs := rfl
@[simp] theorem abort_sampled (s : State) : (abort s).sampled = s.sampled := rfl
@[simp] theorem abort_win (s : State) : (abort s).win = s.win := rfl
@[simp] theorem abort_curR (s : State) : (abort s).curR = s.curR := rfl
@[simp] theorem abort_du (s : State) : (abort s).du = s.du := rfl
@[simp] theorem abort_cu (s : State) : (abort s).cu = s.cu := rfl
@[simp] theorem abort_vu (s : State) : (abort s).vu = s.vu := rfl
@[simp] theorem abort_src (s : State) : (abort s).src = s.src := rfl
@[simp] theorem abort_snk (s : State) : (abort s).snk = { s.snk with pending := [] } := rfl
@[simp] theorem abort_port (s : State) : (abort s).port = s.port := rfl

/-! ### finish -/

@[simp] theorem finish_cmd (v : Word) (s : State) : (finish v s).regs.cmd = s.regs.cmd := rfl
@[simp] theorem finish_signed (v : Word) (s : State) : (finish v s).regs.signed = s.regs.signed := rfl
@[simp] theorem finish_arg (v : Word) (s : State) : (finish v s).regs.arg = s.regs.arg := rfl
@[simp] theorem finish_result (v : Word) (s : State) : (finish v s).regs.result = v := rfl
@[simp] theorem finish_state (v : Word) (s : State) : (finish v s).regs.state = .done := rfl
@[simp] theorem finish_err (v : Word) (s : State) : (finish v s).regs.err = s.regs.err := rfl
@[simp] theorem finish_vwrap (v : Word) (s : State) : (finish v s).regs.vwrap = s.regs.vwrap := rfl
@[simp] theorem finish_csum (v : Word) (s : State) : (finish v s).regs.csum = s.regs.csum := rfl
@[simp] theorem finish_inCount (v : Word) (s : State) : (finish v s).regs.inCount = s.regs.inCount := rfl
@[simp] theorem finish_outCount (v : Word) (s : State) : (finish v s).regs.outCount = s.regs.outCount := rfl
@[simp] theorem finish_sampled (v : Word) (s : State) : (finish v s).sampled = s.sampled := rfl
@[simp] theorem finish_win (v : Word) (s : State) : (finish v s).win = s.win := rfl
@[simp] theorem finish_curR (v : Word) (s : State) : (finish v s).curR = s.curR := rfl
@[simp] theorem finish_du (v : Word) (s : State) : (finish v s).du = s.du := rfl
@[simp] theorem finish_cu (v : Word) (s : State) : (finish v s).cu = s.cu := rfl
@[simp] theorem finish_vu (v : Word) (s : State) : (finish v s).vu = s.vu := rfl
@[simp] theorem finish_src (v : Word) (s : State) : (finish v s).src = s.src := rfl
@[simp] theorem finish_snk (v : Word) (s : State) : (finish v s).snk = { committed := s.snk.committed ++ s.snk.pending, pending := [] } := rfl
@[simp] theorem finish_port (v : Word) (s : State) : (finish v s).port = s.port := rfl

/-! ### raise -/

@[simp] theorem raise_cmd (k : ErrKind) (info : Word) (s : State) : (raise k info s).regs.cmd = s.regs.cmd := rfl
@[simp] theorem raise_signed (k : ErrKind) (info : Word) (s : State) : (raise k info s).regs.signed = s.regs.signed := rfl
@[simp] theorem raise_arg (k : ErrKind) (info : Word) (s : State) : (raise k info s).regs.arg = s.regs.arg := rfl
@[simp] theorem raise_result (k : ErrKind) (info : Word) (s : State) : (raise k info s).regs.result = info := rfl
@[simp] theorem raise_state (k : ErrKind) (info : Word) (s : State) : (raise k info s).regs.state = .failed := rfl
@[simp] theorem raise_err (k : ErrKind) (info : Word) (s : State) : (raise k info s).regs.err = k := rfl
@[simp] theorem raise_vwrap (k : ErrKind) (info : Word) (s : State) : (raise k info s).regs.vwrap = s.regs.vwrap := rfl
@[simp] theorem raise_csum (k : ErrKind) (info : Word) (s : State) : (raise k info s).regs.csum = s.regs.csum := rfl
@[simp] theorem raise_inCount (k : ErrKind) (info : Word) (s : State) : (raise k info s).regs.inCount = s.regs.inCount := rfl
@[simp] theorem raise_outCount (k : ErrKind) (info : Word) (s : State) : (raise k info s).regs.outCount = s.regs.outCount := rfl
@[simp] theorem raise_sampled (k : ErrKind) (info : Word) (s : State) : (raise k info s).sampled = s.sampled := rfl
@[simp] theorem raise_win (k : ErrKind) (info : Word) (s : State) : (raise k info s).win = s.win := rfl
@[simp] theorem raise_curR (k : ErrKind) (info : Word) (s : State) : (raise k info s).curR = s.curR := rfl
@[simp] theorem raise_du (k : ErrKind) (info : Word) (s : State) : (raise k info s).du = s.du := rfl
@[simp] theorem raise_cu (k : ErrKind) (info : Word) (s : State) : (raise k info s).cu = s.cu := rfl
@[simp] theorem raise_vu (k : ErrKind) (info : Word) (s : State) : (raise k info s).vu = s.vu := rfl
@[simp] theorem raise_src (k : ErrKind) (info : Word) (s : State) : (raise k info s).src = s.src := rfl
@[simp] theorem raise_snk (k : ErrKind) (info : Word) (s : State) : (raise k info s).snk = { s.snk with pending := [] } := rfl
@[simp] theorem raise_port (k : ErrKind) (info : Word) (s : State) : (raise k info s).port = s.port := rfl

/-! ### hardReset -/

@[simp] theorem hardReset_regs (s : State) : (hardReset s).regs = Regs.reset := rfl
@[simp] theorem hardReset_sampled (s : State) : (hardReset s).sampled = State.reset.sampled := rfl
@[simp] theorem hardReset_win (s : State) : (hardReset s).win = [] := rfl
@[simp] theorem hardReset_curR (s : State) : (hardReset s).curR = 0 := rfl
@[simp] theorem hardReset_du (s : State) : (hardReset s).du = State.reset.du := rfl
@[simp] theorem hardReset_cu (s : State) : (hardReset s).cu = State.reset.cu := rfl
@[simp] theorem hardReset_vu (s : State) : (hardReset s).vu = State.reset.vu := rfl
@[simp] theorem hardReset_src (s : State) : (hardReset s).src = s.src := rfl
@[simp] theorem hardReset_snk (s : State) : (hardReset s).snk = { s.snk with pending := [] } := rfl
@[simp] theorem hardReset_port (s : State) : (hardReset s).port = s.port := rfl

/-! ### loadFlags -/

@[simp] theorem loadFlags_regs (f : Byte) (s : State) : (loadFlags f s).regs = s.regs := rfl
@[simp] theorem loadFlags_sampled (f : Byte) (s : State) : (loadFlags f s).sampled = s.sampled := rfl
@[simp] theorem loadFlags_win (f : Byte) (s : State) : (loadFlags f s).win = s.win := rfl
@[simp] theorem loadFlags_curR (f : Byte) (s : State) : (loadFlags f s).curR = s.curR := rfl
@[simp] theorem loadFlags_du (f : Byte) (s : State) : (loadFlags f s).du = { s.du with flags := f, fcnt := 8 } := rfl
@[simp] theorem loadFlags_cu (f : Byte) (s : State) : (loadFlags f s).cu = s.cu := rfl
@[simp] theorem loadFlags_vu (f : Byte) (s : State) : (loadFlags f s).vu = s.vu := rfl
@[simp] theorem loadFlags_src (f : Byte) (s : State) : (loadFlags f s).src = s.src := rfl
@[simp] theorem loadFlags_snk (f : Byte) (s : State) : (loadFlags f s).snk = s.snk := rfl
@[simp] theorem loadFlags_port (f : Byte) (s : State) : (loadFlags f s).port = s.port := rfl

/-! ### takeFlagBit -/

@[simp] theorem takeFlagBit_regs (s : State) : (takeFlagBit s).2.regs = s.regs := rfl
@[simp] theorem takeFlagBit_sampled (s : State) : (takeFlagBit s).2.sampled = s.sampled := rfl
@[simp] theorem takeFlagBit_win (s : State) : (takeFlagBit s).2.win = s.win := rfl
@[simp] theorem takeFlagBit_curR (s : State) : (takeFlagBit s).2.curR = s.curR := rfl
@[simp] theorem takeFlagBit_du (s : State) : (takeFlagBit s).2.du = { s.du with flags := s.du.flags >>> 1, fcnt := s.du.fcnt - 1 } := rfl
@[simp] theorem takeFlagBit_cu (s : State) : (takeFlagBit s).2.cu = s.cu := rfl
@[simp] theorem takeFlagBit_vu (s : State) : (takeFlagBit s).2.vu = s.vu := rfl
@[simp] theorem takeFlagBit_src (s : State) : (takeFlagBit s).2.src = s.src := rfl
@[simp] theorem takeFlagBit_snk (s : State) : (takeFlagBit s).2.snk = s.snk := rfl
@[simp] theorem takeFlagBit_port (s : State) : (takeFlagBit s).2.port = s.port := rfl

/-! ### addToCsum -/

@[simp] theorem addToCsum_cmd (b : Byte) (s : State) : (addToCsum b s).regs.cmd = s.regs.cmd := rfl
@[simp] theorem addToCsum_signed (b : Byte) (s : State) : (addToCsum b s).regs.signed = s.regs.signed := rfl
@[simp] theorem addToCsum_arg (b : Byte) (s : State) : (addToCsum b s).regs.arg = s.regs.arg := rfl
@[simp] theorem addToCsum_result (b : Byte) (s : State) : (addToCsum b s).regs.result = s.regs.result := rfl
@[simp] theorem addToCsum_state (b : Byte) (s : State) : (addToCsum b s).regs.state = s.regs.state := rfl
@[simp] theorem addToCsum_err (b : Byte) (s : State) : (addToCsum b s).regs.err = s.regs.err := rfl
@[simp] theorem addToCsum_vwrap (b : Byte) (s : State) : (addToCsum b s).regs.vwrap = s.regs.vwrap := rfl
@[simp] theorem addToCsum_csum (b : Byte) (s : State) : (addToCsum b s).regs.csum = csumAdd s.sampled.signed s.regs.csum b := rfl
@[simp] theorem addToCsum_inCount (b : Byte) (s : State) : (addToCsum b s).regs.inCount = s.regs.inCount := rfl
@[simp] theorem addToCsum_outCount (b : Byte) (s : State) : (addToCsum b s).regs.outCount = s.regs.outCount := rfl
@[simp] theorem addToCsum_sampled (b : Byte) (s : State) : (addToCsum b s).sampled = s.sampled := rfl
@[simp] theorem addToCsum_win (b : Byte) (s : State) : (addToCsum b s).win = s.win := rfl
@[simp] theorem addToCsum_curR (b : Byte) (s : State) : (addToCsum b s).curR = s.curR := rfl
@[simp] theorem addToCsum_du (b : Byte) (s : State) : (addToCsum b s).du = s.du := rfl
@[simp] theorem addToCsum_cu (b : Byte) (s : State) : (addToCsum b s).cu = s.cu := rfl
@[simp] theorem addToCsum_vu (b : Byte) (s : State) : (addToCsum b s).vu = s.vu := rfl
@[simp] theorem addToCsum_src (b : Byte) (s : State) : (addToCsum b s).src = s.src := rfl
@[simp] theorem addToCsum_snk (b : Byte) (s : State) : (addToCsum b s).snk = s.snk := rfl
@[simp] theorem addToCsum_port (b : Byte) (s : State) : (addToCsum b s).port = s.port := rfl

/-! ### accumulate -/

@[simp] theorem accumulate_cmd (p : BitVec 7) (s : State) : (accumulate p s).regs.cmd = s.regs.cmd := by unfold accumulate; split <;> rfl
@[simp] theorem accumulate_signed (p : BitVec 7) (s : State) : (accumulate p s).regs.signed = s.regs.signed := by unfold accumulate; split <;> rfl
@[simp] theorem accumulate_arg (p : BitVec 7) (s : State) : (accumulate p s).regs.arg = s.regs.arg := by unfold accumulate; split <;> rfl
@[simp] theorem accumulate_result (p : BitVec 7) (s : State) : (accumulate p s).regs.result = s.regs.result := by unfold accumulate; split <;> rfl
@[simp] theorem accumulate_state (p : BitVec 7) (s : State) : (accumulate p s).regs.state = s.regs.state := by unfold accumulate; split <;> rfl
@[simp] theorem accumulate_err (p : BitVec 7) (s : State) : (accumulate p s).regs.err = s.regs.err := by unfold accumulate; split <;> rfl
@[simp] theorem accumulate_csum (p : BitVec 7) (s : State) : (accumulate p s).regs.csum = s.regs.csum := by unfold accumulate; split <;> rfl
@[simp] theorem accumulate_inCount (p : BitVec 7) (s : State) : (accumulate p s).regs.inCount = s.regs.inCount := by unfold accumulate; split <;> rfl
@[simp] theorem accumulate_outCount (p : BitVec 7) (s : State) : (accumulate p s).regs.outCount = s.regs.outCount := by unfold accumulate; split <;> rfl
@[simp] theorem accumulate_sampled (p : BitVec 7) (s : State) : (accumulate p s).sampled = s.sampled := by unfold accumulate; split <;> rfl
@[simp] theorem accumulate_win (p : BitVec 7) (s : State) : (accumulate p s).win = s.win := by unfold accumulate; split <;> rfl
@[simp] theorem accumulate_curR (p : BitVec 7) (s : State) : (accumulate p s).curR = s.curR := by unfold accumulate; split <;> rfl
@[simp] theorem accumulate_du (p : BitVec 7) (s : State) : (accumulate p s).du = s.du := by unfold accumulate; split <;> rfl
@[simp] theorem accumulate_cu (p : BitVec 7) (s : State) : (accumulate p s).cu = s.cu := by unfold accumulate; split <;> rfl
@[simp] theorem accumulate_src (p : BitVec 7) (s : State) : (accumulate p s).src = s.src := by unfold accumulate; split <;> rfl
@[simp] theorem accumulate_snk (p : BitVec 7) (s : State) : (accumulate p s).snk = s.snk := by unfold accumulate; split <;> rfl
@[simp] theorem accumulate_port (p : BitVec 7) (s : State) : (accumulate p s).port = s.port := by unfold accumulate; split <;> rfl

/-! ### duInit -/

@[simp] theorem duInit_regs (s : State) : (duInit s).regs = s.regs := rfl
@[simp] theorem duInit_sampled (s : State) : (duInit s).sampled = s.sampled := rfl
@[simp] theorem duInit_win (s : State) : (duInit s).win = [] := rfl
@[simp] theorem duInit_curR (s : State) : (duInit s).curR = Config.cursorInit := rfl
@[simp] theorem duInit_du (s : State) : (duInit s).du = { rem := s.argOperand, flags := 0, fcnt := 0 } := rfl
@[simp] theorem duInit_cu (s : State) : (duInit s).cu = s.cu := rfl
@[simp] theorem duInit_vu (s : State) : (duInit s).vu = s.vu := rfl
@[simp] theorem duInit_src (s : State) : (duInit s).src = s.src := rfl
@[simp] theorem duInit_snk (s : State) : (duInit s).snk = s.snk := rfl
@[simp] theorem duInit_port (s : State) : (duInit s).port = s.port := rfl

/-! ### clamp -/

@[simp] theorem clamp_regs (s : State) : (clamp s).regs = s.regs := by unfold clamp; split <;> rfl
@[simp] theorem clamp_sampled (s : State) : (clamp s).sampled = s.sampled := by unfold clamp; split <;> rfl
@[simp] theorem clamp_win (s : State) : (clamp s).win = s.win := by unfold clamp; split <;> rfl
@[simp] theorem clamp_curR (s : State) : (clamp s).curR = s.curR := by unfold clamp; split <;> rfl
@[simp] theorem clamp_du (s : State) : (clamp s).du = s.du := by unfold clamp; split <;> rfl
@[simp] theorem clamp_vu (s : State) : (clamp s).vu = s.vu := by unfold clamp; split <;> rfl
@[simp] theorem clamp_src (s : State) : (clamp s).src = s.src := by unfold clamp; split <;> rfl
@[simp] theorem clamp_snk (s : State) : (clamp s).snk = s.snk := by unfold clamp; split <;> rfl
@[simp] theorem clamp_port (s : State) : (clamp s).port = s.port := by unfold clamp; split <;> rfl

/-! ### cuInit -/

@[simp] theorem cuInit_regs (s : State) : (cuInit s).regs = s.regs := rfl
@[simp] theorem cuInit_sampled (s : State) : (cuInit s).sampled = s.sampled := rfl
@[simp] theorem cuInit_win (s : State) : (cuInit s).win = [] := rfl
@[simp] theorem cuInit_curR (s : State) : (cuInit s).curR = Config.cursorInit := rfl
@[simp] theorem cuInit_du (s : State) : (cuInit s).du = s.du := rfl
@[simp] theorem cuInit_cu (s : State) : (cuInit s).cu = 
      { curS := 0, len := 0, gbuf := s.cu.gbuf.set 0 0, gptr := 1, gmask := 1
        finder := { left := [], right := [], parent := [], ml := 0, mp := 0 } } := rfl
@[simp] theorem cuInit_vu (s : State) : (cuInit s).vu = s.vu := rfl
@[simp] theorem cuInit_src (s : State) : (cuInit s).src = s.src := rfl
@[simp] theorem cuInit_snk (s : State) : (cuInit s).snk = s.snk := rfl
@[simp] theorem cuInit_port (s : State) : (cuInit s).port = s.port := rfl

/-! ### windowInput -/

@[simp] theorem windowInput_regs (b : Byte) (s : State) : (windowInput b s).regs = s.regs := rfl
@[simp] theorem windowInput_sampled (b : Byte) (s : State) : (windowInput b s).sampled = s.sampled := rfl
@[simp] theorem windowInput_curR (b : Byte) (s : State) : (windowInput b s).curR = s.curR + 1 := rfl
@[simp] theorem windowInput_du (b : Byte) (s : State) : (windowInput b s).du = s.du := rfl
@[simp] theorem windowInput_cu (b : Byte) (s : State) : (windowInput b s).cu = { s.cu with curS := s.cu.curS + 1 } := rfl
@[simp] theorem windowInput_vu (b : Byte) (s : State) : (windowInput b s).vu = s.vu := rfl
@[simp] theorem windowInput_src (b : Byte) (s : State) : (windowInput b s).src = s.src := rfl
@[simp] theorem windowInput_snk (b : Byte) (s : State) : (windowInput b s).snk = s.snk := rfl
@[simp] theorem windowInput_port (b : Byte) (s : State) : (windowInput b s).port = s.port := rfl

end Sys2Proof.Machine
end

