-- ==== Sys2Proof/Laws/Storage.lean ====
section
/-! SUPPORT. The laws of the sparse arrays: a read after a write, and the canonical form that every write keeps. -/
namespace Sys2Proof.Machine

variable {w : Nat} (d : BitVec w)

@[simp] theorem Cells.read_nil (a : Nat) : Cells.read d [] a = d := rfl

/-- What is not listed reads as the default. -/
theorem Cells.read_of_not_listed (m : List (Nat × BitVec w)) (a : Nat) (h : ∀ x ∈ m, x.1 ≠ a) :
    Cells.read d m a = d := by
  induction m with
  | nil => rfl
  | cons x rest ih =>
    have hx := h x (by simp)
    simp only [Cells.read]
    rw [if_neg (fun e => hx e.symm)]
    exact ih fun y hy => h y (by simp [hy])

/-- In a rising list an index below the first is not listed. -/
theorem Cells.read_of_below (m : List (Nat × BitVec w)) (a : Nat) (h : ∀ x ∈ m, a < x.1) :
    Cells.read d m a = d :=
  Cells.read_of_not_listed d m a fun x hx e => by have := h x hx; omega

/-- A read of the entry just written gives the value written. -/
theorem Cells.read_write_same (m : List (Nat × BitVec w)) (a : Nat) (v : BitVec w)
    (h : m.Pairwise fun x y => x.1 < y.1) : Cells.read d (Cells.write d m a v) a = v := by
  induction m with
  | nil => by_cases hv : v = d <;> simp [Cells.write, Cells.read, hv]
  | cons x rest ih =>
    obtain ⟨b, u⟩ := x
    obtain ⟨hb, hr⟩ := List.pairwise_cons.1 h
    simp only [Cells.write]
    split
    · rename_i hlt
      split
      · rename_i hv
        rw [hv]
        refine Cells.read_of_below d _ a fun y hy => ?_
        rcases List.mem_cons.1 hy with rfl | hy
        · exact hlt
        · exact Nat.lt_trans hlt (hb y hy)
      · simp [Cells.read]
    · split
      · rename_i he
        split
        · rename_i hv
          rw [hv]
          exact Cells.read_of_below d _ a fun y hy => by have := hb y hy; simp at this; omega
        · simp [Cells.read]
      · rename_i hn he
        simp only [Cells.read, if_neg he]
        exact ih hr

/-- A write leaves every other entry alone. -/
theorem Cells.read_write_other (m : List (Nat × BitVec w)) (a c : Nat) (v : BitVec w)
    (h : m.Pairwise fun x y => x.1 < y.1) (hc : c ≠ a) :
    Cells.read d (Cells.write d m a v) c = Cells.read d m c := by
  induction m with
  | nil => by_cases hv : v = d <;> simp [Cells.write, Cells.read, hv, hc]
  | cons x rest ih =>
    obtain ⟨b, u⟩ := x
    obtain ⟨hb, hr⟩ := List.pairwise_cons.1 h
    simp only [Cells.write]
    split
    · split
      · rfl
      · simp [Cells.read, hc]
    · split
      · rename_i he
        split
        · simp [Cells.read, he ▸ hc]
        · simp [Cells.read, hc, he ▸ hc]
      · simp only [Cells.read]
        split
        · rfl
        · exact ih hr

/-- One law for both: a write changes its own entry only. -/
theorem Cells.read_write (m : List (Nat × BitVec w)) (a c : Nat) (v : BitVec w)
    (h : m.Pairwise fun x y => x.1 < y.1) :
    Cells.read d (Cells.write d m a v) c = if c = a then v else Cells.read d m c := by
  split
  · rename_i hc
    rw [hc]
    exact Cells.read_write_same d m a v h
  · rename_i hc
    exact Cells.read_write_other d m a c v h hc

/-- What a written list lists: the entry written, or an entry that stood before. -/
theorem Cells.mem_write (m : List (Nat × BitVec w)) (a : Nat) (v : BitVec w) (x : Nat × BitVec w)
    (hx : x ∈ Cells.write d m a v) : (x = (a, v) ∧ v ≠ d) ∨ x ∈ m := by
  induction m with
  | nil =>
    simp only [Cells.write] at hx
    split at hx
    · simp at hx
    · rename_i hv
      left
      exact ⟨by simpa using hx, hv⟩
  | cons y rest ih =>
    obtain ⟨b, u⟩ := y
    simp only [Cells.write] at hx
    split at hx
    · split at hx
      · exact .inr hx
      · rename_i hv
        rcases List.mem_cons.1 hx with rfl | hx
        · exact .inl ⟨rfl, hv⟩
        · exact .inr hx
    · split at hx
      · split at hx
        · exact .inr (List.mem_cons_of_mem _ hx)
        · rename_i hv
          rcases List.mem_cons.1 hx with rfl | hx
          · exact .inl ⟨rfl, hv⟩
          · exact .inr (List.mem_cons_of_mem _ hx)
      · rcases List.mem_cons.1 hx with rfl | hx
        · exact .inr (by simp)
        · rcases ih hx with h | h
          · exact .inl h
          · exact .inr (List.mem_cons_of_mem _ h)

/-- A write keeps the list rising. -/
theorem Cells.write_pairwise (m : List (Nat × BitVec w)) (a : Nat) (v : BitVec w)
    (h : m.Pairwise fun x y => x.1 < y.1) : (Cells.write d m a v).Pairwise fun x y => x.1 < y.1 := by
  induction m with
  | nil =>
    simp only [Cells.write]
    split <;> simp
  | cons x rest ih =>
    obtain ⟨b, u⟩ := x
    obtain ⟨hb, hr⟩ := List.pairwise_cons.1 h
    simp only [Cells.write]
    split
    · rename_i hlt
      split
      · exact h
      · refine List.pairwise_cons.2 ⟨fun y hy => ?_, h⟩
        rcases List.mem_cons.1 hy with rfl | hy
        · exact hlt
        · exact Nat.lt_trans hlt (hb y hy)
    · split
      · rename_i he
        split
        · exact hr
        · exact List.pairwise_cons.2 ⟨fun y hy => by have := hb y hy; simp at this; simp; omega, hr⟩
      · rename_i hn he
        refine List.pairwise_cons.2 ⟨fun y hy => ?_, ih hr⟩
        rcases Cells.mem_write d rest a v y hy with ⟨rfl, _⟩ | hy
        · simp
          omega
        · exact hb y hy

/-- A write at an index the array has keeps the canonical form. -/
theorem Cells.write_wf (last : Nat) (m : List (Nat × BitVec w)) (a : Nat) (v : BitVec w) (ha : a ≤ last)
    (h : Cells.wf d last m) : Cells.wf d last (Cells.write d m a v) := by
  refine ⟨Cells.write_pairwise d m a v h.1, fun x hx => ?_⟩
  rcases Cells.mem_write d m a v x hx with ⟨rfl, hv⟩ | hx
  · exact ⟨ha, hv⟩
  · exact h.2 x hx

@[simp] theorem Cells.nil_wf (last : Nat) : Cells.wf d last ([] : List (Nat × BitVec w)) :=
  ⟨List.Pairwise.nil, fun _ h => by simp at h⟩

/-! ### The window -/

@[simp] theorem Memory.read_nil (a : Nat) : Memory.read [] a = Config.fill := rfl

theorem Memory.nil_wf : Memory.wf [] := Cells.nil_wf _ _

/-- `MemWrite` keeps the window's canonical form at every index it has (20_memory R45). -/
theorem Memory.write_wf (m : List Host.Cell) (a : Nat) (v : Byte) (ha : a ≤ Config.winLast) (h : Memory.wf m) :
    Memory.wf (Memory.write m a v) :=
  Cells.write_wf _ _ m a v ha h

/-- `MemRead` after `MemWrite` (20_memory R54). -/
theorem Memory.read_write (m : List Host.Cell) (a c : Nat) (v : Byte) (h : Memory.wf m) :
    Memory.read (Memory.write m a v) c = if c = a then v else Memory.read m c :=
  Cells.read_write _ m a c v h.1

end Sys2Proof.Machine
end

