-- ==== Sys2Proof/Laws/Ops.lean ====
section
/-! SUPPORT. One law for each shared operation over streams, registers and commands: when it answers, and what. -/
namespace Sys2Proof.Machine

/-! ## Answers and outcomes -/

@[simp] theorem Res.outcome_ok (s : State) : Res.outcome (.ok s) = .next s := rfl
@[simp] theorem Res.outcome_fault (r : Fault) : Res.outcome (.error (.fault r)) = .fault r := rfl
@[simp] theorem Res.outcome_refused (r : Refusal) : Res.outcome (.error (.refused r)) = .refused r := rfl

/-- An inner operation ends in a next state exactly when it answers that state. -/
@[simp] theorem Res.outcome_eq_next (x : Res State) (t : State) : x.outcome = .next t ↔ x = .ok t := by
  rcases x with (r | r) | s <;> simp [Res.outcome]

/-- An inner operation ends in a fault exactly when it answers that fault. -/
theorem Res.outcome_eq_fault (x : Res State) (r : Fault) : x.outcome = .fault r ↔ x = .error (.fault r) := by
  rcases x with (q | q) | s <;> simp [Res.outcome]

/-- A chain of inner operations answers exactly when its parts do. -/
theorem Res.bind_eq_ok {α β : Type} (x : Res α) (f : α → Res β) (b : β) :
    (x >>= f) = .ok b ↔ ∃ a, x = .ok a ∧ f a = .ok b := by
  cases x <;> simp [bind, Except.bind]

/-- A chain of inner operations stops where one of its parts stops. -/
theorem Res.bind_eq_error {α β : Type} (x : Res α) (f : α → Res β) (e : Stop) :
    (x >>= f) = .error e ↔ x = .error e ∨ ∃ a, x = .ok a ∧ f a = .error e := by
  cases x <;> simp [bind, Except.bind]

@[simp] theorem Res.ok_bind {α β : Type} (a : α) (f : α → Res β) : ((Except.ok a : Res α) >>= f) = f a := rfl
@[simp] theorem Res.error_bind {α β : Type} (e : Stop) (f : α → Res β) :
    ((Except.error e : Res α) >>= f) = .error e := rfl

/-! ## Streams -/

/-- A stream read with a byte there (20_memory R40). -/
theorem streamRead_some {s : State} {b : Byte} (h : s.src.bytes[s.src.pos]? = some b)
    (hc : s.regs.inCount.toNat + 1 < 2 ^ 32) : streamRead s = .ok (some b, s.afterReading 1) := by
  have : s.regs.inCount ≠ countMax := by
    intro e
    rw [e] at hc
    simp [countMax] at hc
  simp only [streamRead, h, if_neg this]
  rfl

/-- A stream read at the end of the source (20_memory R40). -/
theorem streamRead_none {s : State} (h : s.src.bytes[s.src.pos]? = none) :
    streamRead s = .ok (none, { s with src := { s.src with eos := true } }) := by
  simp [streamRead, h]

/-- Everything a stream read can answer. -/
theorem streamRead_cases {s : State} {r : Option Byte × State} (h : streamRead s = .ok r) :
    (∃ b, s.src.bytes[s.src.pos]? = some b ∧ s.regs.inCount.toNat + 1 < 2 ^ 32 ∧ r = (some b, s.afterReading 1)) ∨
      (s.src.bytes[s.src.pos]? = none ∧ r = (none, { s with src := { s.src with eos := true } })) := by
  cases hb : s.src.bytes[s.src.pos]? with
  | none =>
    rw [streamRead_none hb] at h
    exact .inr ⟨rfl, (Except.ok.inj h).symm⟩
  | some b =>
    by_cases hc : s.regs.inCount = countMax
    · simp [streamRead, hb, hc] at h
    · have hlt : s.regs.inCount.toNat + 1 < 2 ^ 32 := by
        have h2 : s.regs.inCount.toNat ≠ 0xFFFFFFFF := fun e => hc (BitVec.eq_of_toNat_eq (by rw [e]; rfl))
        omega
      rw [streamRead_some hb hlt] at h
      exact .inl ⟨b, rfl, hlt, (Except.ok.inj h).symm⟩

/-- A stream read never faults. -/
theorem streamRead_error {s : State} {e : Stop} (h : streamRead s = .error e) : e = .refused .beyondCounters := by
  unfold streamRead at h
  split at h
  · split at h
    · simpa using h.symm
    · simp at h
  · simp at h

/-- A stream write (20_memory R42). -/
theorem streamWrite_ok {s : State} (b : Byte) (hc : s.regs.outCount.toNat + 1 < 2 ^ 32) :
    streamWrite b s = .ok (s.afterWriting [b]) := by
  have : s.regs.outCount ≠ countMax := by
    intro e
    rw [e] at hc
    simp [countMax] at hc
  simp only [streamWrite, if_neg this]
  rfl

/-- Everything a stream write can answer. -/
theorem streamWrite_cases {s t : State} {b : Byte} (h : streamWrite b s = .ok t) :
    s.regs.outCount.toNat + 1 < 2 ^ 32 ∧ t = s.afterWriting [b] := by
  by_cases hc : s.regs.outCount = countMax
  · simp [streamWrite, hc] at h
  · have hlt : s.regs.outCount.toNat + 1 < 2 ^ 32 := by
      have h2 : s.regs.outCount.toNat ≠ 0xFFFFFFFF := fun e => hc (BitVec.eq_of_toNat_eq (by rw [e]; rfl))
      omega
    rw [streamWrite_ok b hlt] at h
    exact ⟨hlt, (Except.ok.inj h).symm⟩

/-- A stream write never faults. -/
theorem streamWrite_error {s : State} {b : Byte} {e : Stop} (h : streamWrite b s = .error e) :
    e = .refused .beyondCounters := by
  unfold streamWrite at h
  split at h
  · simpa using h.symm
  · simp at h

@[simp] theorem State.afterReading_zero (s : State) : s.afterReading 0 = s := by simp [State.afterReading]

theorem State.afterReading_add (s : State) (m n : Nat) :
    (s.afterReading m).afterReading n = s.afterReading (m + n) := by
  simp [State.afterReading, Nat.add_assoc, BitVec.add_assoc, BitVec.ofNat_add]

@[simp] theorem State.afterWriting_nil (s : State) : s.afterWriting [] = s := by simp [State.afterWriting]

theorem State.afterWriting_append (s : State) (a b : List Byte) :
    (s.afterWriting a).afterWriting b = s.afterWriting (a ++ b) := by
  simp [State.afterWriting, BitVec.add_assoc, BitVec.ofNat_add]

theorem State.afterReading_inCount {s : State} {n : Nat} (h : s.regs.inCount.toNat + n < 2 ^ 32) :
    (s.afterReading n).regs.inCount.toNat = s.regs.inCount.toNat + n := by
  simp [State.afterReading, BitVec.toNat_add, BitVec.toNat_ofNat]
  omega

theorem State.afterWriting_outCount {s : State} {bs : List Byte} (h : s.regs.outCount.toNat + bs.length < 2 ^ 32) :
    (s.afterWriting bs).regs.outCount.toNat = s.regs.outCount.toNat + bs.length := by
  simp [State.afterWriting, BitVec.toNat_add, BitVec.toNat_ofNat]
  omega

/-- Stream writes of a whole byte string. -/
theorem streamWriteAll_ok {s : State} (bs : List Byte) (hc : s.regs.outCount.toNat + bs.length < 2 ^ 32) :
    streamWriteAll bs s = .ok (s.afterWriting bs) := by
  induction bs generalizing s with
  | nil => simp [streamWriteAll]
  | cons b rest ih =>
    simp only [List.length_cons] at hc
    simp only [streamWriteAll]
    rw [streamWrite_ok b (by omega), Res.ok_bind, ih, State.afterWriting_append]
    · rfl
    · rw [State.afterWriting_outCount (by simp; omega)]
      simp
      omega

/-- Everything the writes of a byte string can answer. -/
theorem streamWriteAll_cases {s t : State} {bs : List Byte} (h : streamWriteAll bs s = .ok t) :
    s.regs.outCount.toNat + bs.length < 2 ^ 32 ∧ t = s.afterWriting bs := by
  induction bs generalizing s with
  | nil =>
    refine ⟨by simpa using s.regs.outCount.isLt, ?_⟩
    simpa [streamWriteAll] using h.symm
  | cons b rest ih =>
    simp only [streamWriteAll, Res.bind_eq_ok] at h
    obtain ⟨s1, h1, h2⟩ := h
    obtain ⟨hc, rfl⟩ := streamWrite_cases h1
    obtain ⟨hc2, rfl⟩ := ih h2
    rw [State.afterWriting_outCount (by simpa using hc)] at hc2
    simp only [List.length_cons, List.length_nil] at hc2 ⊢
    exact ⟨by omega, by rw [State.afterWriting_append]; rfl⟩

/-- The writes of a byte string never fault. -/
theorem streamWriteAll_error {s : State} {bs : List Byte} {e : Stop} (h : streamWriteAll bs s = .error e) :
    e = .refused .beyondCounters := by
  induction bs generalizing s with
  | nil => simp [streamWriteAll] at h
  | cons b rest ih =>
    simp only [streamWriteAll, Res.bind_eq_error] at h
    rcases h with h | ⟨s1, _, h⟩
    · exact streamWrite_error h
    · exact ih h

/-- The state after up to `k` reads: the bytes there were, and the latch set when there were fewer (20_memory R40). -/
def State.afterReadUpTo (s : State) (k : Nat) : State :=
  { s.afterReading (s.src.unread.take k).length with
    src :=
      { bytes := s.src.bytes, pos := s.src.pos + (s.src.unread.take k).length
        eos := s.src.eos || decide (s.src.unread.length < k) } }

@[simp] theorem State.afterReading_unread (s : State) (n : Nat) :
    (s.afterReading n).src.unread = s.src.unread.drop n := by
  simp [State.afterReading, Source.unread]

/-- With a byte to read, the unread bytes are that byte and those after it. -/
theorem State.unread_of_some {s : State} {b : Byte} (h : s.src.bytes[s.src.pos]? = some b) :
    s.src.unread = b :: (s.afterReading 1).src.unread := by
  obtain ⟨hlt, rfl⟩ := List.getElem?_eq_some_iff.1 h
  exact List.drop_eq_getElem_cons hlt

/-- At the end of the source nothing is unread. -/
theorem State.unread_of_none {s : State} (h : s.src.bytes[s.src.pos]? = none) : s.src.unread = [] := by
  rw [List.getElem?_eq_none_iff] at h
  simpa [Source.unread] using h

theorem State.afterReadUpTo_succ {s : State} {b : Byte} (k : Nat) (h : s.src.bytes[s.src.pos]? = some b) :
    (s.afterReading 1).afterReadUpTo k = s.afterReadUpTo (k + 1) := by
  have hu := State.unread_of_some h
  simp only [State.afterReadUpTo, hu, List.take_succ_cons, List.length_cons, Nat.add_lt_add_iff_right]
  rw [State.afterReading_add, Nat.add_comm 1]
  simp [State.afterReading, Nat.add_assoc, Nat.add_comm]

/-- Up to `k` reads: what they answer, and that they answer while the counter has room (20_memory R40). -/
theorem readUpTo_ok {s : State} (k : Nat) (hc : s.regs.inCount.toNat + (s.src.unread.take k).length < 2 ^ 32) :
    readUpTo k s = .ok (s.src.unread.take k, s.afterReadUpTo k) := by
  induction k generalizing s with
  | zero => simp [readUpTo, State.afterReadUpTo]
  | succ k ih =>
    simp only [readUpTo]
    cases hb : s.src.bytes[s.src.pos]? with
    | none =>
      rw [streamRead_none hb]
      simp [State.afterReadUpTo, State.unread_of_none hb]
    | some b =>
      have hu := State.unread_of_some hb
      rw [hu] at hc
      simp only [List.take_succ_cons, List.length_cons] at hc
      rw [streamRead_some hb (by omega), Res.ok_bind]
      simp only
      rw [ih, Res.ok_bind, State.afterReadUpTo_succ k hb, hu, List.take_succ_cons]
      rw [State.afterReading_inCount (by omega)]
      omega

/-- Everything up to `k` reads can answer. -/
theorem readUpTo_cases {s : State} {k : Nat} {r : List Byte × State} (h : readUpTo k s = .ok r) :
    s.regs.inCount.toNat + (s.src.unread.take k).length < 2 ^ 32 ∧ r = (s.src.unread.take k, s.afterReadUpTo k) := by
  by_cases hc : s.regs.inCount.toNat + (s.src.unread.take k).length < 2 ^ 32
  · rw [readUpTo_ok k hc] at h
    exact ⟨hc, (Except.ok.inj h).symm⟩
  · exfalso
    induction k generalizing s r with
    | zero => simp at hc; have := s.regs.inCount.isLt; omega
    | succ k ih =>
      simp only [readUpTo, Res.bind_eq_ok] at h
      obtain ⟨⟨b, s1⟩, h1, h2⟩ := h
      rcases streamRead_cases h1 with ⟨b, hb, hlt, he⟩ | ⟨hb, he⟩
      · obtain ⟨rfl, rfl⟩ := Prod.mk.inj he
        simp only [Res.bind_eq_ok] at h2
        obtain ⟨⟨bs, s2⟩, h3, _⟩ := h2
        refine ih h3 ?_
        rw [State.unread_of_some hb] at hc
        rw [State.afterReading_inCount (by omega)]
        simp only [List.take_succ_cons, List.length_cons] at hc
        omega
      · rw [State.unread_of_none hb] at hc
        simp at hc
        have := s.regs.inCount.isLt
        omega

/-- Reads never fault. -/
theorem readUpTo_error {s : State} {k : Nat} {e : Stop} (h : readUpTo k s = .error e) :
    e = .refused .beyondCounters := by
  induction k generalizing s with
  | zero => simp [readUpTo] at h
  | succ k ih =>
    simp only [readUpTo, Res.bind_eq_error] at h
    rcases h with h | ⟨⟨b, s1⟩, _, h⟩
    · exact streamRead_error h
    · cases b with
      | none => simp at h
      | some b =>
        simp only [Res.bind_eq_error] at h
        rcases h with h | ⟨a, _, h⟩
        · exact ih h
        · simp at h

/-! ## Start, completion, failure -/

/-- The common start, written out (60_exceptions R131). -/
theorem commandStart_eq (w : Word) (s : State) : commandStart w s = s.started w := rfl

/-- Completion, written out (60_exceptions R132). -/
theorem finish_eq (v : Word) (s : State) : finish v s = s.doneWith v := rfl

/-- The failure entry, written out (60_exceptions R141). -/
theorem raise_eq (k : ErrKind) (info : Word) (s : State) : raise k info s = s.failedWith k info := rfl

theorem runCommand_idle {w : Word} {unit : State → Res State} {s : State} (h : s.busy = false) :
    runCommand w unit s = unit (s.started w) := by
  simp [runCommand, h, commandStart_eq]

theorem runCommand_busy {w : Word} {unit : State → Res State} {s : State} (h : s.busy = true) :
    runCommand w unit s = .ok s := by
  simp [runCommand, h]

/-! ## The operation in progress -/

theorem State.busy_iff (s : State) : s.busy = true ↔ s.regs.state = .busy := by simp [State.busy]

theorem State.not_busy_iff (s : State) : s.busy = false ↔ s.regs.state ≠ .busy := by simp [State.busy]

/-- A running operation, in terms of the registers. -/
theorem State.running_iff (s : State) (op : Operation) :
    s.running = some op ↔
      s.regs.state = .busy ∧
        s.regs.cmd = (match op with | .venc => 1 | .vdec => 3 | .decomp => 4 | .comp => 5) := by
  have key : ∀ c : Word, (match c.toNat with
      | 1 => some Operation.venc
      | 3 => some .vdec
      | 4 => some .decomp
      | 5 => some .comp
      | _ => none) = some op ↔ c = (match op with | .venc => 1 | .vdec => 3 | .decomp => 4 | .comp => 5) := by
    intro c
    constructor
    · intro h
      apply BitVec.eq_of_toNat_eq
      split at h <;> first | (cases h; simp_all) | simp at h
    · intro h
      rw [h]
      cases op <;> rfl
  by_cases hb : s.busy = true
  · have : s.regs.state = .busy := by simpa [State.busy] using hb
    simp only [State.running, hb, if_true, this, true_and]
    exact key _
  · have : s.regs.state ≠ .busy := by simpa [State.busy] using hb
    simp [State.running, hb, this]

theorem State.busy_of_running {s : State} {op : Operation} (h : s.running = some op) : s.busy = true := by
  rw [State.busy_iff]
  exact ((State.running_iff s op).1 h).1

theorem State.running_of_not_busy {s : State} (h : s.busy = false) : s.running = none := by
  simp [State.running, h]

/-- The operation in progress depends on `CMD` and `STATUS.STATE` alone. -/
theorem State.running_congr {s t : State} (hc : t.regs.cmd = s.regs.cmd) (hs : t.regs.state = s.regs.state) :
    t.running = s.running := by
  simp [State.running, State.busy, hc, hs]

end Sys2Proof.Machine
end

