-- ==== Sys2Proof/Laws/Forest.lean ====
section
/-! SUPPORT. The forest of the match finder, over plain functions: `L`, `R`, `P` are the three link arrays, `key` is the
first byte of a position's key, 4096 is `NIL`, `4097 + c` is the root slot of byte `c` (43_match_finder R121, R123). What
a new leaf, a splice and a deletion do to it (R125, R126, R127). -/
namespace Sys2Proof.Machine

/-- The array `f` with `v` in entry `x`. -/
def upd (f : Nat → Nat) (x v y : Nat) : Nat := if y = x then v else f y

/-- Position `n` is a member: its `PARENT` entry is not `NIL`. -/
def Mem (P : Nat → Nat) (n : Nat) : Prop := n < 4096 ∧ P n ≠ 4096

/-- The links form a forest: the conditions of `Finder.TreeOk`. -/
structure Forest (key : Nat → Byte) (L R P : Nat → Nat) : Prop where
  left : ∀ n, Mem P n → L n ≠ 4096 → Mem P (L n) ∧ P (L n) = n
  right : ∀ n, Mem P n → R n ≠ 4096 → Mem P (R n) ∧ P (R n) = n
  top : ∀ c : Byte, R (4097 + c.toNat) ≠ 4096 → Mem P (R (4097 + c.toNat)) ∧ P (R (4097 + c.toNat)) = 4097 + c.toNat
  parent : ∀ n, Mem P n → (P n = 4097 + (key n).toNat ∧ R (P n) = n) ∨
      (Mem P (P n) ∧ key n = key (P n) ∧ (L (P n) = n ∨ R (P n) = n))
  distinct : ∀ n, Mem P n → L n ≠ 4096 → L n ≠ R n
  acyclic : ∃ rank : Nat → Nat, ∀ n, Mem P n → Mem P (P n) → rank (P n) < rank n

/-- A new node under an empty root slot. -/
theorem Forest.leafRoot {key L R P} (h : Forest key L R P) {n : Nat} (hn : n < 4096) (hP : P n = 4096)
   (hL : L n = 4096) (hR : R n = 4096) (ht : R (4097 + (key n).toNat) = 4096) :
   Forest key L (upd R (4097 + (key n).toNat) n) (upd P n (4097 + (key n).toNat)) := by
  obtain ⟨h1,h2,h3,h4,h5,rank,h6⟩ := h
  simp only [Mem] at *
  constructor
  · intro x; have := h1 x; clear h1 h2 h3 h4 h5 h6; grind [Mem, upd]
  · intro x; have := h2 x; clear h1 h2 h3 h4 h5 h6; grind [Mem, upd]
  · intro c
    have : c ≠ key n → c.toNat ≠ (key n).toNat := fun h e => h (BitVec.eq_of_toNat_eq e)
    have := h3 c
    clear h1 h2 h3 h4 h5 h6; grind [Mem, upd]
  · intro x; have := h4 x; clear h1 h2 h3 h4 h5 h6; grind [Mem, upd]
  · intro x; have := h5 x; clear h1 h2 h3 h4 h5 h6; grind [Mem, upd]
  · refine ⟨rank, ?_⟩
    intro x
    have := h6 x; have := h4 x; clear h1 h2 h3 h4 h5 h6; grind [Mem, upd]

/-- A new node as a right child. -/
theorem Forest.leafRight {key L R P} (h : Forest key L R P) {n p: Nat} (hn : n < 4096) (hP : P n = 4096)
   (hL : L n = 4096) (hR : R n = 4096) (hp : Mem P p) (hk : key p = key n) (ht : R p = 4096) :
   Forest key L (upd R p n) (upd P n p) := by
  obtain ⟨h1,h2,h3,h4,h5,rank,h6⟩ := h
  simp only [Mem] at *
  constructor
  · intro x; have := h1 x; clear h1 h2 h3 h4 h5 h6; grind [Mem, upd]
  · intro x; have := h2 x; clear h1 h2 h3 h4 h5 h6; grind [Mem, upd]
  · intro c
    have := h3 c
    clear h1 h2 h3 h4 h5 h6; grind [Mem, upd]
  · intro x; have := h4 x; clear h1 h2 h3 h4 h5 h6; grind [Mem, upd]
  · intro x; have := h5 x; have := h1 x; clear h1 h2 h3 h4 h5 h6; grind [Mem, upd]
  · refine ⟨upd rank n (rank p + 1), ?_⟩
    intro x
    have := h6 x; have := h4 x; clear h1 h2 h3 h4 h5 h6; grind [Mem, upd]

/-- A new node as a left child. -/
theorem Forest.leafLeft {key L R P} (h : Forest key L R P) {n p: Nat} (hn : n < 4096) (hP : P n = 4096)
   (hL : L n = 4096) (hR : R n = 4096) (hp : Mem P p) (hk : key p = key n) (ht : L p = 4096) :
   Forest key (upd L p n) R (upd P n p) := by
  obtain ⟨h1,h2,h3,h4,h5,rank,h6⟩ := h
  simp only [Mem] at *
  constructor
  · intro x; have := h1 x; clear h1 h2 h3 h4 h5 h6; grind [Mem, upd]
  · intro x; have := h2 x; clear h1 h2 h3 h4 h5 h6; grind [Mem, upd]
  · intro c
    have := h3 c
    clear h1 h2 h3 h4 h5 h6; grind [Mem, upd]
  · intro x; have := h4 x; clear h1 h2 h3 h4 h5 h6; grind [Mem, upd]
  · intro x; have := h5 x; have := h2 x; clear h1 h2 h3 h4 h5 h6; grind [Mem, upd]
  · refine ⟨upd rank n (rank p + 1), ?_⟩
    intro x
    have := h6 x; have := h4 x; clear h1 h2 h3 h4 h5 h6; grind [Mem, upd]

/-- `n` has taken the place of `q`: what named `q` names `n`, and `n` has the links of `q`. -/
structure Renamed (L R P L' R' P' : Nat → Nat) (n q : Nat) : Prop where
  mem : ∀ y, Mem P' y ↔ y = n ∨ (Mem P y ∧ y ≠ q)
  leftNew : L' n = L q
  rightNew : R' n = R q
  parentNew : P' n = P q
  parent : ∀ y, Mem P y → y ≠ q → P' y = if P y = q then n else P y
  left : ∀ y, Mem P y → y ≠ q → L' y = if L y = q then n else L y
  right : ∀ y, Mem P y → y ≠ q → R' y = if R y = q then n else R y
  top : ∀ c : Byte, R' (4097 + c.toNat) = if R (4097 + c.toNat) = q then n else R (4097 + c.toNat)

/-- `p`, with at most the one child `q`, has been replaced by it: what named `p` names `q`. -/
structure Unhooked (L R P L' R' P' : Nat → Nat) (p q : Nat) : Prop where
  mem : ∀ y, Mem P' y ↔ Mem P y ∧ y ≠ p
  parent : ∀ y, Mem P y → y ≠ p → P' y = if P y = p then P p else P y
  left : ∀ y, Mem P y → y ≠ p → L' y = if L y = p then q else L y
  right : ∀ y, Mem P y → y ≠ p → R' y = if R y = p then q else R y

/-- A node takes another's place. -/
theorem Forest.rename {key L R P L' R' P'} (h : Forest key L R P) {n q : Nat} (hn : n < 4096) (hP : P n = 4096)
    (hq : Mem P q) (hk : key q = key n) (hx : Renamed L R P L' R' P' n q) : Forest key L' R' P' := by
  obtain ⟨mE, Ln, Rn, Pn, pE, lE, rE, tE⟩ := hx
  obtain ⟨h1,h2,h3,h4,h5,rank,h6⟩ := h
  have a1 := h1 q hq; have a2 := h2 q hq; have a4 := h4 q hq; have a5 := h5 q hq; have a6 := h6 q hq
  have nm : ¬ Mem P n := by simp [Mem, hP]
  have qn : q ≠ n := by grind
  have q4 : q ≠ 4096 := by unfold Mem at hq; omega
  have n4 : n ≠ 4096 := by omega
  constructor
  · intro x
    rw [mE, mE]
    rintro (rfl | ⟨hx, hxq⟩)
    · clear h1 h2 h3 h4 h5 h6
      rw [Ln]
      intro hl
      obtain ⟨b1, b2⟩ := a1 hl
      have := pE _ b1
      grind
    · rw [lE x hx hxq]
      have b1 := h1 x hx
      clear h1 h2 h3 h4 h5 h6
      split
      · grind
      · intro hl
        obtain ⟨b1, b2⟩ := b1 hl
        have := pE _ b1
        grind
  · intro x
    rw [mE, mE]
    rintro (rfl | ⟨hx, hxq⟩)
    · clear h1 h2 h3 h4 h5 h6
      rw [Rn]
      intro hl
      obtain ⟨b1, b2⟩ := a2 hl
      have := pE _ b1
      grind
    · rw [rE x hx hxq]
      have b1 := h2 x hx
      clear h1 h2 h3 h4 h5 h6
      split
      · grind
      · intro hl
        obtain ⟨b1, b2⟩ := b1 hl
        have := pE _ b1
        grind
  · intro c
    rw [tE, mE]
    have b1 := h3 c
    have hq' := hq.1
    clear h1 h2 h3 h4 h5 h6
    split
    · grind
    · intro hl
      obtain ⟨b1, b2⟩ := b1 hl
      have := pE _ b1
      grind
  · intro x
    rw [mE, mE]
    rintro (rfl | ⟨hx, hxq⟩)
    · rw [Pn]
      have t := tE (key q)
      have l := lE (P q); have r := rE (P q)
      clear h1 h2 h3 h4 h5 h6 lE rE tE pE mE
      grind
    · rw [pE x hx hxq]
      have b4 := h4 x hx
      have t := tE (key x)
      have l := lE (P x); have r := rE (P x)
      clear h1 h2 h3 h4 h5 h6 lE rE tE pE mE
      by_cases e : P x = q
      · rw [if_pos e, Ln, Rn]
        rw [e] at b4
        have := hq.1
        rcases b4 with b4 | b4
        · omega
        · exact .inr ⟨.inl rfl, b4.2.1.trans hk, b4.2.2⟩
      · rw [if_neg e]
        grind
  · intro x
    rw [mE]
    rintro (rfl | ⟨hx, hxq⟩)
    · grind
    · rw [lE x hx hxq, rE x hx hxq]
      have := h5 x hx
      have := h1 x hx
      have := h2 x hx
      clear h1 h2 h3 h4 h5 h6 lE rE tE pE mE
      grind
  · refine ⟨upd rank n (rank q), ?_⟩
    intro x
    rw [mE, mE]
    rintro (rfl | ⟨hx, hxq⟩)
    · rw [Pn]
      clear h1 h2 h3 h4 h5 h6 lE rE tE pE mE
      grind [upd]
    · rw [pE x hx hxq]
      have := h6 x hx
      have := h4 x hx
      clear h1 h2 h3 h4 h5 h6 lE rE tE pE mE
      grind [upd]

/-- The splice: `n` takes the place of `q` (43_match_finder R126). -/
theorem Forest.splice {key L R P L' R' P'} (h : Forest key L R P) {n q : Nat} (hn : n < 4096) (hP : P n = 4096)
    (hq : Mem P q) (hk : key q = key n)
    (hL' : ∀ y, L' y = if y = P q ∧ R (P q) ≠ q then n else if y = n then L q else L y)
    (hR' : ∀ y, R' y = if y = P q ∧ R (P q) = q then n else if y = n then R q else R y)
    (hP' : ∀ y, P' y = if y = q then 4096 else if y = R q then n else if y = L q then n else if y = n then P q else P y) :
    Forest key L' R' P' ∧ Renamed L R P L' R' P' n q := by
  have h' := h
  obtain ⟨h1,h2,h3,h4,h5,rank,h6⟩ := h
  have a1 := h1 q hq; have a2 := h2 q hq; have a4 := h4 q hq; have a5 := h5 q hq; have a6 := h6 q hq
  have nm : ¬ Mem P n := by simp [Mem, hP]
  have qn : q ≠ n := by grind
  have q4 : q < 4096 := hq.1
  have n4 : n ≠ 4096 := by omega
  have hPq : P q ≠ q := by grind
  have hPn : P q ≠ n := by clear h1 h2 h3 h4 h5 h6; grind
  have hLq : L q ≠ n := by clear h1 h2 h3 h4 h5 h6; grind
  have hRq : R q ≠ n := by clear h1 h2 h3 h4 h5 h6; grind
  have mE : ∀ y, Mem P' y ↔ y = n ∨ (Mem P y ∧ y ≠ q) := by
    intro y
    have := hP' y
    have := hq.2
    clear h1 h2 h3 h4 h5 h6 hL' hR' hP'
    simp only [Mem] at *
    grind
  have hx : Renamed L R P L' R' P' n q := by
    refine ⟨mE, ?_, ?_, ?_, ?_, ?_, ?_, ?_⟩
    · clear h1 h2 h3 h4 h5 h6 hR' hP'; grind
    · clear h1 h2 h3 h4 h5 h6 hL' hP'; grind
    · clear h1 h2 h3 h4 h5 h6 hL' hR'; grind
    · intro y hy hyq
      have := h4 y hy
      rw [hP']
      have := hy.1
      have : y ≠ n := by grind
      clear h1 h2 h3 h4 h5 h6 hL' hR' hP'; grind
    · intro y hy hyq
      have := h1 y hy; have := h5 y hy
      rw [hL']
      have : y ≠ n := by grind
      clear h1 h2 h3 h4 h5 h6 hL' hR' hP'; grind
    · intro y hy hyq
      have := h2 y hy; have := h5 y hy
      rw [hR']
      have : y ≠ n := by grind
      clear h1 h2 h3 h4 h5 h6 hL' hR' hP'; grind
    · intro c
      have := h3 c
      rw [hR']
      clear h1 h2 h3 h4 h5 h6 hL' hR' hP'; grind
  exact ⟨h'.rename hn hP hq hk hx, hx⟩

/-- A node with at most one child is replaced by that child, or by nothing (43_match_finder R127). -/
theorem Forest.unhook {key L R P L' R' P'} (h : Forest key L R P) {p q : Nat} (hp : Mem P p)
    (hq : (R p = 4096 ∧ q = L p) ∨ (L p = 4096 ∧ q = R p))
    (hL' : ∀ y, L' y = if y = P p ∧ R (P p) ≠ p then q else L y)
    (hR' : ∀ y, R' y = if y = P p ∧ R (P p) = p then q else R y)
    (hP' : ∀ y, P' y = if y = p then 4096 else if y = q then P p else P y) :
    Forest key L' R' P' ∧ Unhooked L R P L' R' P' p q := by
  obtain ⟨h1,h2,h3,h4,h5,rank,h6⟩ := h
  have a1 := h1 p hp; have a2 := h2 p hp; have a4 := h4 p hp; have a5 := h5 p hp; have a6 := h6 p hp
  have p4 : p < 4096 := hp.1
  have Pp4 : P p ≠ 4096 := hp.2
  have hPp : P p ≠ p := by clear h1 h2 h3 h4 h5; grind
  have qp : q ≠ p := by clear h1 h2 h3 h4 h5 h6; grind
  have qm : q ≠ 4096 → Mem P q ∧ P q = p := by clear h1 h2 h3 h4 h5 h6; grind
  have mE : ∀ y, Mem P' y ↔ Mem P y ∧ y ≠ p := by
    intro y
    have := hP' y
    clear h1 h2 h3 h4 h5 h6 hL' hR' hP'
    simp only [Mem] at *
    grind
  have pE : ∀ y, Mem P y → y ≠ p → P' y = if P y = p then P p else P y := by
    intro y hy hyp
    have := h4 y hy
    have := hy.1
    rw [hP']
    clear h1 h2 h3 h4 h5 h6 hL' hR' hP'
    grind
  have lE : ∀ y, Mem P y → y ≠ p → L' y = if L y = p then q else L y := by
    intro y hy hyp
    have := h1 y hy; have := h5 y hy
    rw [hL']
    clear h1 h2 h3 h4 h5 h6 hL' hR' hP'; grind
  have rE : ∀ y, Mem P y → y ≠ p → R' y = if R y = p then q else R y := by
    intro y hy hyp
    have := h2 y hy; have := h5 y hy
    rw [hR']
    clear h1 h2 h3 h4 h5 h6 hL' hR' hP'; grind
  have tE : ∀ c : Byte, R' (4097 + c.toNat) = if R (4097 + c.toNat) = p then q else R (4097 + c.toNat) := by
    intro c
    have := h3 c
    rw [hR']
    clear h1 h2 h3 h4 h5 h6 hL' hR' hP'; grind
  have qP : q ≠ 4096 → P' q = P p := by
    intro hq; have := pE q (qm hq).1 qp; rw [this, if_pos (qm hq).2]
  clear hL' hR' hP'
  refine ⟨⟨?_, ?_, ?_, ?_, ?_, ?_⟩, mE, pE, lE, rE⟩
  · intro x
    rw [mE, mE]
    rintro ⟨hx, hxq⟩
    rw [lE x hx hxq]
    have b1 := h1 x hx
    clear h1 h2 h3 h4 h5 h6 lE rE tE mE
    split
    · grind
    · intro hl
      obtain ⟨b1, b2⟩ := b1 hl
      have := pE _ b1
      grind
  · intro x
    rw [mE, mE]
    rintro ⟨hx, hxq⟩
    rw [rE x hx hxq]
    have b1 := h2 x hx
    clear h1 h2 h3 h4 h5 h6 lE rE tE mE
    split
    · grind
    · intro hl
      obtain ⟨b1, b2⟩ := b1 hl
      have := pE _ b1
      grind
  · intro c
    rw [tE, mE]
    have b1 := h3 c
    clear h1 h2 h3 h4 h5 h6 lE rE tE mE
    split
    · grind
    · intro hl
      obtain ⟨b1, b2⟩ := b1 hl
      have := pE _ b1
      grind
  · intro x
    rw [mE, mE]
    rintro ⟨hx, hxq⟩
    rw [pE x hx hxq]
    have b4 := h4 x hx
    have t := tE (key x)
    have l := lE (P x); have r := rE (P x)
    have l2 := lE (P p); have r2 := rE (P p)
    by_cases e : P x = p
    · rw [if_pos e]
      rw [e] at b4
      have hxq : x = q := by have := hx.1; clear h1 h2 h3 h4 h5 h6 lE rE tE pE mE; grind
      have kx : key x = key p := by
        rcases b4 with b4 | b4
        · omega
        · exact b4.2.1
      rw [kx] at t ⊢
      clear h1 h2 h3 h4 h5 h6 lE rE tE pE mE
      rcases a4 with ⟨a, b⟩ | ⟨a, b, c⟩
      · left; rw [← a] at t; refine ⟨a, ?_⟩; rw [t, if_pos b, hxq]
      · right; refine ⟨⟨a, hPp⟩, b, ?_⟩; rw [l2 a hPp, r2 a hPp, hxq]
        rcases c with c | c
        · left; rw [if_pos c]
        · right; rw [if_pos c]
    · rw [if_neg e]
      clear h1 h2 h3 h4 h5 h6 lE rE tE pE mE
      rcases b4 with ⟨a, b⟩ | ⟨a, b, c⟩
      · left; rw [← a] at t; refine ⟨a, ?_⟩; rw [t, b, if_neg hxq]
      · right; refine ⟨⟨a, e⟩, b, ?_⟩; rw [l a e, r a e]
        rcases c with c | c
        · left; rw [c, if_neg hxq]
        · right; rw [c, if_neg hxq]
  · intro x
    rw [mE]
    rintro ⟨hx, hxq⟩
    rw [lE x hx hxq, rE x hx hxq]
    have := h5 x hx
    have := h1 x hx
    have := h2 x hx
    clear h1 h2 h3 h4 h5 h6 lE rE tE pE mE
    grind
  · refine ⟨rank, ?_⟩
    intro x
    rw [mE, mE]
    rintro ⟨hx, hxq⟩
    rw [pE x hx hxq]
    have := h6 x hx
    clear h1 h2 h3 h4 h5 h6 lE rE tE pE mE
    grind

/-- A member and its parent member have the same first byte. -/
theorem Forest.key_eq {key L R P} (h : Forest key L R P) {x} (hx : Mem P x) (hp : Mem P (P x)) : key x = key (P x) := by
  rcases h.parent x hx with a | a
  · have := hp.1; omega
  · exact a.2.1

/-- A node with two children is replaced by its left child, when that has no right child (43_match_finder R127). -/
theorem Forest.promoteLeft {key L R P L' R' P'} (h : Forest key L R P) {p q : Nat} (hp : Mem P p)
    (hl : L p = q) (hq : q ≠ 4096) (hr : R p ≠ 4096) (hqr : R q = 4096)
    (hL' : ∀ y, L' y = if y = P p ∧ R (P p) ≠ p then q else L y)
    (hR' : ∀ y, R' y = if y = P p ∧ R (P p) = p then q else if y = q then R p else R y)
    (hP' : ∀ y, P' y = if y = p then 4096 else if y = q then P p else if y = R p then q else P y) :
    Forest key L' R' P' ∧ (∀ y, Mem P' y ↔ Mem P y ∧ y ≠ p) ∧
      ∃ L1 R1 P1, Forest key L1 R1 P1 ∧ Unhooked L R P L1 R1 P1 q (L q) ∧ Renamed L1 R1 P1 L' R' P' q p := by
  obtain ⟨mq, Pq⟩ := hl ▸ h.left p hp (hl ▸ hq)
  obtain ⟨mr, Pr⟩ := h.right p hp hr
  have kq := h.key_eq mq (Pq ▸ hp)
  rw [Pq] at kq
  have dist := h.distinct p hp (hl ▸ hq)
  obtain ⟨f, hu1⟩ := h.unhook (p := q) (q := L q) mq (.inl ⟨hqr, rfl⟩) (fun y => rfl) (fun y => rfl) (fun y => rfl)
  have m := hu1.mem
  obtain ⟨rank, h6⟩ := h.acyclic
  have a6 := h6 p hp; have b6 := h6 q mq
  have a4 := h.parent p hp
  have p4 := hp.1; have q4 := mq.1
  have qp : q ≠ p := by grind
  have Pp : P p ≠ q := by clear h h6 f m hu1; grind
  have Ppp : P p ≠ p := by clear h h6 f m hu1; grind
  have a1 := h.left q mq
  have mE : ∀ y, Mem P' y ↔ Mem P y ∧ y ≠ p := by
    intro y
    have := hP' y
    have := hp.2
    clear h h6 f m hu1 hL' hR' hP'
    simp only [Mem] at *
    grind
  have hx := fun hx => Forest.rename f (L' := L') (R' := R') (P' := P') (n := q) (q := p) q4 (by simp)
    ((m p).2 ⟨hp, qp.symm⟩) kq.symm hx
  suffices hy : Renamed _ _ _ L' R' P' q p from ⟨hx hy, mE, _, _, _, f, hu1, hy⟩
  constructor
  · intro y
    rw [mE, m]
    grind
  · clear h h6 f m hu1 hx mE hR' hP'; grind
  · clear h h6 f m hu1 hx mE hL' hP'; grind
  · clear h h6 f m hu1 hx mE hL' hR'; grind
  · intro y my yp
    obtain ⟨my, yq⟩ := (m y).1 my
    rw [hP']
    have c4 := h.parent y my
    have := hp.2
    have := my.1
    clear h h6 f m hu1 hx mE hL' hR' hP'; grind
  · intro y my yp
    obtain ⟨my, yq⟩ := (m y).1 my
    have c1 := h.left y my; have c5 := h.distinct y my
    rw [hL']
    clear h h6 f m hu1 hx mE hL' hR' hP'; grind
  · intro y my yp
    obtain ⟨my, yq⟩ := (m y).1 my
    have c1 := h.right y my; have c5 := h.distinct y my
    rw [hR']
    clear h h6 f m hu1 hx mE hL' hR' hP'; grind
  · intro c
    have c1 := h.top c
    rw [hR']
    clear h h6 f m hu1 hx mE hL' hR' hP'; grind

/-- A node with two children is replaced by the rightmost node of its left subtree (43_match_finder R127). -/
theorem Forest.promoteRightmost {key L R P L' R' P'} (h : Forest key L R P) {p q : Nat} (hp : Mem P p)
    (hl : L p ≠ 4096) (hr : R p ≠ 4096) (mq : Mem P q) (hqr : R q = 4096)
    (kq : key q = key p) (mu : Mem P (P q)) (hu : R (P q) = q)
    (qp : q ≠ p) (qu : P q ≠ p) (ql : q ≠ L p) (uPp : P q ≠ P p) (qPp : q ≠ P p)
    (hL' : ∀ y, L' y = if y = P p ∧ R (P p) ≠ p then q else if y = q then L p else L y)
    (hR' : ∀ y, R' y = if y = P p ∧ R (P p) = p then q else if y = q then R p else if y = P q then L q else R y)
    (hP' : ∀ y, P' y = if y = p then 4096 else if y = q then P p else if y = R p then q else if y = L p then q else
      if y = L q then P q else P y) :
    Forest key L' R' P' ∧ (∀ y, Mem P' y ↔ Mem P y ∧ y ≠ p) ∧
      ∃ L1 R1 P1, Forest key L1 R1 P1 ∧ Unhooked L R P L1 R1 P1 q (L q) ∧ Renamed L1 R1 P1 L' R' P' q p := by
  obtain ⟨ml, Pl⟩ := h.left p hp hl
  obtain ⟨mr, Pr⟩ := h.right p hp hr
  have dist := h.distinct p hp hl
  obtain ⟨f, hu1⟩ := h.unhook (p := q) (q := L q) mq (.inl ⟨hqr, rfl⟩) (fun y => rfl) (fun y => rfl) (fun y => rfl)
  have m := hu1.mem
  obtain ⟨rank, h6⟩ := h.acyclic
  have a6 := h6 p hp; have b6 := h6 q mq
  have a4 := h.parent p hp
  have p4 := hp.1; have q4 := mq.1
  have Ppp : P p ≠ p := by clear h h6 f m hu1; grind
  have Pqq : P q ≠ q := by clear h h6 f m hu1; grind
  have a1 := h.left q mq
  have qr : q ≠ R p := by rintro rfl; exact qu Pr
  have mE : ∀ y, Mem P' y ↔ Mem P y ∧ y ≠ p := by
    intro y
    have := hP' y
    have := hp.2; have := mq.2
    clear h h6 f m hu1 hL' hR' hP'
    simp only [Mem] at *
    grind
  have hx := fun hx => Forest.rename f (L' := L') (R' := R') (P' := P') (n := q) (q := p) q4 (by simp)
    ((m p).2 ⟨hp, qp.symm⟩) kq.symm hx
  suffices hy : Renamed _ _ _ L' R' P' q p from ⟨hx hy, mE, _, _, _, f, hu1, hy⟩
  constructor
  · intro y
    rw [mE, m]
    grind
  · clear h h6 f m hu1 hx mE hR' hP'; grind
  · clear h h6 f m hu1 hx mE hL' hP'; grind
  · clear h h6 f m hu1 hx mE hL' hR'; grind
  · intro y my yp
    obtain ⟨my, yq⟩ := (m y).1 my
    rw [hP']
    have c4 := h.parent y my
    have := hp.2
    have := my.1
    clear h h6 f m hu1 hx mE hL' hR' hP'; grind
  · intro y my yp
    obtain ⟨my, yq⟩ := (m y).1 my
    have c1 := h.left y my; have c5 := h.distinct y my
    rw [hL']
    clear h h6 f m hu1 hx mE hL' hR' hP'; grind
  · intro y my yp
    obtain ⟨my, yq⟩ := (m y).1 my
    have c1 := h.right y my; have c5 := h.distinct y my
    rw [hR']
    clear h h6 f m hu1 hx mE hL' hR' hP'; grind
  · intro c
    have c1 := h.top c
    rw [hR']
    clear h h6 f m hu1 hx mE hL' hR' hP'; grind

/-- The bounds of a member's links. -/
theorem Forest.bounds {key L R P} (h : Forest key L R P) {p : Nat} (hp : Mem P p) :
    L p ≤ 4096 ∧ R p ≤ 4096 ∧ P p ≤ 4352 ∧ (R (P p) ≠ p → P p < 4096) := by
  refine ⟨?_, ?_, ?_, ?_⟩
  · by_cases e : L p = 4096
    · omega
    · have := (h.left p hp e).1.1; omega
  · by_cases e : R p = 4096
    · omega
    · have := (h.right p hp e).1.1; omega
  · rcases h.parent p hp with a | a
    · have := (key p).isLt; omega
    · have := a.1.1; omega
  · intro e
    rcases h.parent p hp with a | a
    · exact absurd a.2 e
    · exact a.1.1

/-! ## Walks end -/

/-- How many members have rank `b` or more: what bounds a walk down the links. -/
def below (P rank : Nat → Nat) (b : Nat) : Nat :=
  ((Finset.range 4096).filter fun m => P m ≠ 4096 ∧ b ≤ rank m).card

theorem below_le (P rank : Nat → Nat) (b : Nat) : below P rank b ≤ 4096 := by
  unfold below
  exact (Finset.card_filter_le _ _).trans (by simp)

theorem below_mono {P rank : Nat → Nat} {a b : Nat} (h : a ≤ b) : below P rank b ≤ below P rank a := by
  unfold below
  apply Finset.card_le_card
  intro m
  simp only [Finset.mem_filter]
  rintro ⟨h1, h2, h3⟩
  exact ⟨h1, h2, by omega⟩

theorem below_lt {P rank : Nat → Nat} {b q : Nat} (hq : Mem P q) (h : b ≤ rank q) :
    below P rank (rank q + 1) < below P rank b := by
  unfold below
  apply Finset.card_lt_card
  rw [Finset.ssubset_iff_of_subset]
  · refine ⟨q, ?_, ?_⟩
    · simp only [Finset.mem_filter, Finset.mem_range]
      exact ⟨hq.1, hq.2, h⟩
    · simp
  · intro m
    simp only [Finset.mem_filter]
    rintro ⟨h1, h2, h3⟩
    exact ⟨h1, h2, by omega⟩

end Sys2Proof.Machine
end

