-- ==== Sys2Proof/Laws/Order.lean ====
section
/-! SUPPORT. The order of the trees, over plain functions: `lt m p` says that `m` belongs on the left of `p`
(43_match_finder R123 item 3, R124). A new leaf, a splice and a deletion keep it (R125, R126, R127). -/
namespace Sys2Proof.Machine

/-- `m` lies in the subtree of `q`: the way up from `m` meets `q`. -/
inductive Und (P : Nat → Nat) (q : Nat) : Nat → Prop
  | self : Und P q q
  | up (m : Nat) : Mem P m → Und P q (P m) → Und P q m

/-- The members on the left of a member belong there, and so do those on its right. -/
structure InOrder (lt : Nat → Nat → Prop) (L R P : Nat → Nat) : Prop where
  left : ∀ p m, Mem P p → Mem P m → Und P (L p) m → lt m p
  right : ∀ p m, Mem P p → Mem P m → Und P (R p) m → lt p m

variable {key : Nat → Byte} {L R P L' R' P' : Nat → Nat} {lt : Nat → Nat → Prop}

theorem Und.trans {a b c : Nat} (h : Und P a b) (h' : Und P b c) : Und P a c := by
  induction h' with
  | self => exact h
  | up m hm _ ih => exact .up m hm ih

/-- Below a node is a child of it. -/
theorem Und.down {c m : Nat} (h : Und P c m) : m = c ∨ ∃ x, Mem P x ∧ P x = c ∧ Und P x m := by
  induction h with
  | self => exact .inl rfl
  | up m hm _ ih =>
    rcases ih with e | ⟨x, hx, hp, hu⟩
    · exact .inr ⟨m, hm, e, .self⟩
    · exact .inr ⟨x, hx, hp, .up m hm hu⟩

/-- Nothing is below `NIL`. -/
theorem Und.nil {m : Nat} (h : Und P 4096 m) (hm : Mem P m) : False := by
  rcases h.down with e | ⟨x, hx, hp, _⟩
  · have := hm.1; omega
  · exact hx.2 hp

/-- Below a member are itself, its left and its right subtree. -/
theorem Und.cases_member {p m : Nat} (h : Und P p m) (f : Forest key L R P) (hp : Mem P p) :
    m = p ∨ Und P (L p) m ∨ Und P (R p) m := by
  rcases h.down with e | ⟨x, hx, e, hu⟩
  · exact .inl e
  · right
    rcases f.parent x hx with a | a
    · rw [e] at a
      have := hp.1
      omega
    · rw [e] at a
      rcases a.2.2 with b | b
      · exact .inl (b ▸ hu)
      · exact .inr (b ▸ hu)

/-- Below a root slot is what is below its top node. -/
theorem Und.cases_root {c : Byte} {m : Nat} (h : Und P (4097 + c.toNat) m) (f : Forest key L R P) (hm : Mem P m) :
    Und P (R (4097 + c.toNat)) m := by
  rcases h.down with e | ⟨x, hx, e, hu⟩
  · have := hm.1
    omega
  · rcases f.parent x hx with a | a
    · rw [e] at a
      rw [a.2]
      exact hu
    · rw [e] at a
      have := a.1.1
      omega

/-- The subtree of a child lies in that of its parent. -/
theorem Und.of_child {p q m : Nat} (hq : Mem P q) (e : P q = p) (h : Und P q m) : Und P p m :=
  (Und.up q hq (e ▸ .self)).trans h

/-- Every member is below the root slot of its first byte. -/
theorem Forest.und_root (f : Forest key L R P) {m : Nat} (hm : Mem P m) : Und P (4097 + (key m).toNat) m := by
  obtain ⟨rank, hr⟩ := f.acyclic
  induction hk : rank m using Nat.strong_induction_on generalizing m with
  | _ k ih =>
    rcases f.parent m hm with a | a
    · exact .up m hm (a.1 ▸ .self)
    · have := hr m hm a.1
      rw [a.2.1]
      exact .up m hm (ih _ (by omega) a.1 rfl)

/-- What is below a link `K` of a member once `n` is a leaf under `p`. -/
theorem Und.leaf {K K' : Nat → Nat} {n p a m : Nat} (f : Forest key L R P) (hn : n < 4096) (hP : P n = 4096)
    (hp : Mem P p ∨ 4096 < p) (hK : K n = 4096) (ck : ∀ y, Mem P y → K y = 4096 ∨ Mem P (K y))
    (hk : ∀ y, K' y = K y ∨ (y = p ∧ K' y = n)) (ha : Mem (upd P n p) a) (hm : Mem (upd P n p) m)
    (hu : Und (upd P n p) (K' a) m) :
    Mem P a ∧ ((m = n ∧ a = p ∧ K' p = n) ∨ (m = n ∧ Und P (K a) p) ∨ (Mem P m ∧ Und P (K a) m)) := by
  have nm : ¬ Mem P n := by simp [Mem, hP]
  have pnn : p ≠ n := by
    rcases hp with hp | hp
    · rintro rfl; exact nm hp
    · omega
  have mE : ∀ y, Mem (upd P n p) y → y = n ∨ (y ≠ n ∧ Mem P y) := by
    intro y hy
    by_cases e : y = n
    · exact .inl e
    · unfold Mem upd at hy
      rw [if_neg e] at hy
      exact .inr ⟨e, hy⟩
  have pn : ∀ x, Mem P x → P x ≠ n := by
    intro x hx e
    rcases f.parent x hx with b | b
    · omega
    · exact nm (e ▸ b.1)
  have und : ∀ c x, Und (upd P n p) c x → (x = n → c = n ∨ Und P c p) ∧ (x ≠ n → Und P c x) := by
    intro c x hu
    induction hu with
    | self => exact ⟨fun e => .inl e, fun _ => .self⟩
    | up x hx _ ih =>
      rcases mE x hx with e | ⟨e, hx⟩
      · subst e
        simp only [upd, if_true] at ih
        exact ⟨fun _ => .inr (ih.2 pnn), fun e => absurd rfl e⟩
      · simp only [upd, if_neg e] at ih
        exact ⟨fun e' => absurd e' e, fun _ => .up x hx (ih.2 (pn x hx))⟩
  obtain ⟨u1, u2⟩ := und _ _ hu
  have Kn : K' n = 4096 := by
    rcases hk n with e | e
    · rw [e, hK]
    · exact absurd e.1.symm pnn
  rcases mE a ha with an | ⟨an, ma⟩
  · rw [an, Kn] at hu
    exact absurd hm fun hm => Und.nil hu hm
  · refine ⟨ma, ?_⟩
    rcases mE m hm with mn | ⟨mn, mm⟩
    · rcases u1 mn with e | e
      · rcases hk a with e' | e'
        · rw [e'] at e
          rcases ck a ma with e4 | e4
          · omega
          · exact absurd (e ▸ e4) nm
        · exact .inl ⟨mn, e'.1, e'.1 ▸ e⟩
      · rcases hk a with e' | e'
        · rw [e'] at e
          exact .inr (.inl ⟨mn, e⟩)
        · exact .inl ⟨mn, e'.1, e'.1 ▸ e'.2⟩
    · have u := u2 mn
      rcases hk a with e' | e'
      · rw [e'] at u
        exact .inr (.inr ⟨mm, u⟩)
      · rw [e'.2] at u
        rcases u.down with e | ⟨x, hx, e, _⟩
        · exact absurd e mn
        · exact absurd e (pn x hx)

/-- The links of a member are `NIL` or members. -/
theorem Forest.links (f : Forest key L R P) {y : Nat} (hy : Mem P y) :
    (L y = 4096 ∨ Mem P (L y)) ∧ (R y = 4096 ∨ Mem P (R y)) := by
  refine ⟨?_, ?_⟩
  · by_cases e : L y = 4096
    · exact .inl e
    · exact .inr (f.left y hy e).1
  · by_cases e : R y = 4096
    · exact .inl e
    · exact .inr (f.right y hy e).1

/-- A new leaf `n` under `p`, on the side of each member above it where it belongs. -/
theorem InOrder.leaf {n p : Nat} (h : InOrder lt L R P) (f : Forest key L R P) (hn : n < 4096) (hP : P n = 4096)
    (hL : L n = 4096) (hR : R n = 4096) (hp : Mem P p ∨ 4096 < p)
    (hl : ∀ y, L' y = L y ∨ (y = p ∧ L' y = n)) (hr : ∀ y, R' y = R y ∨ (y = p ∧ R' y = n))
    (la : Mem P p → L' p = n → lt n p) (ra : Mem P p → R' p = n → lt p n)
    (ab : ∀ a, Mem P a → (Und P (L a) p → lt n a) ∧ (Und P (R a) p → lt a n)) : InOrder lt L' R' (upd P n p) := by
  constructor
  · intro a m ha hm hu
    obtain ⟨ma, c⟩ := Und.leaf f hn hP hp hL (fun y hy => (f.links hy).1) hl ha hm hu
    rcases c with ⟨rfl, rfl, e⟩ | ⟨rfl, u⟩ | ⟨mm, u⟩
    · exact la ma e
    · exact (ab a ma).1 u
    · exact h.left a m ma mm u
  · intro a m ha hm hu
    obtain ⟨ma, c⟩ := Und.leaf f hn hP hp hR (fun y hy => (f.links hy).2) hr ha hm hu
    rcases c with ⟨rfl, rfl, e⟩ | ⟨rfl, u⟩ | ⟨mm, u⟩
    · exact ra ma e
    · exact (ab a ma).2 u
    · exact h.right a m ma mm u

/-- `n` takes the place of `q`: it belongs there when it lies between the subtrees of `q`, on the side of each member above
`q` where it belongs. -/
theorem InOrder.rename {n q : Nat} (h : InOrder lt L R P) (f : Forest key L R P) (hn : n < 4096) (hP : P n = 4096)
    (hq : Mem P q) (irr : ∀ x, ¬ lt x x) (hx : Renamed L R P L' R' P' n q)
    (dn : ∀ y, Mem P y → y ≠ q → (Und P (L q) y → lt y n) ∧ (Und P (R q) y → lt n y))
    (ab : ∀ a, Mem P a → a ≠ q → (Und P (L a) q → lt n a) ∧ (Und P (R a) q → lt a n)) : InOrder lt L' R' P' := by
  obtain ⟨mE, Ln, Rn, Pn, pE, lE, rE, -⟩ := hx
  have nm : ¬ Mem P n := by simp [Mem, hP]
  have pn : ∀ x, Mem P x → P x ≠ n := by
    intro x hx e
    rcases f.parent x hx with b | b
    · omega
    · exact nm (e ▸ b.1)
  have ln : ∀ x, Mem P x → L x ≠ n ∧ R x ≠ n := by
    intro x hx
    obtain ⟨b1, b2⟩ := f.links hx
    refine ⟨fun e => ?_, fun e => ?_⟩
    · rw [e] at b1
      exact b1.elim (by omega) nm
    · rw [e] at b2
      exact b2.elim (by omega) nm
  -- the names before the change
  have und : ∀ c m, Und P' c m → Und P (if c = n then q else c) (if m = n then q else m) := by
    intro c m hu
    induction hu with
    | self => exact .self
    | up m hm _ ih =>
      rcases (mE m).1 hm with e | ⟨hm, hmq⟩
      · rw [if_pos e]
        rw [e, Pn, if_neg (pn q hq)] at ih
        exact .up q hq ih
      · have mn : m ≠ n := by rintro rfl; exact nm hm
        rw [if_neg mn]
        refine .up m hm ?_
        rw [pE m hm hmq] at ih
        by_cases e : P m = q
        · rw [if_pos e, if_pos rfl] at ih
          rw [e]
          exact ih
        · rw [if_neg e, if_neg (pn m hm)] at ih
          exact ih
  have side : ∀ (K K' : Nat → Nat), K' n = K q → (∀ y, Mem P y → y ≠ q → K' y = if K y = q then n else K y) →
      (∀ x, Mem P x → K x ≠ n) → ∀ a m, Mem P' a → Mem P' m → Und P' (K' a) m →
        (a = n ∧ m = n ∧ Und P (K q) q) ∨ (a = n ∧ Mem P m ∧ m ≠ q ∧ Und P (K q) m) ∨
          (Mem P a ∧ a ≠ q ∧ m = n ∧ Und P (K a) q) ∨ (Mem P a ∧ Mem P m ∧ Und P (K a) m) := by
    intro K K' hKn hK hKx a m ha hm hu
    have u := und _ _ hu
    rcases (mE a).1 ha with ea | ⟨ha, haq⟩
    · rw [ea, hKn, if_neg (hKx q hq)] at u
      rcases (mE m).1 hm with em | ⟨hm, hmq⟩
      · rw [if_pos em] at u
        exact .inl ⟨ea, em, u⟩
      · rw [if_neg (by rintro rfl; exact nm hm)] at u
        exact .inr (.inl ⟨ea, hm, hmq, u⟩)
    · rw [hK a ha haq] at u
      have hc : (if (if K a = q then n else K a) = n then q else (if K a = q then n else K a)) = K a := by
        by_cases e : K a = q
        · rw [if_pos e, if_pos rfl, e]
        · rw [if_neg e, if_neg (hKx a ha)]
      rw [hc] at u
      rcases (mE m).1 hm with em | ⟨hm, hmq⟩
      · rw [if_pos em] at u
        exact .inr (.inr (.inl ⟨ha, haq, em, u⟩))
      · rw [if_neg (by rintro rfl; exact nm hm)] at u
        exact .inr (.inr (.inr ⟨ha, hm, u⟩))
  constructor
  · intro a m ha hm hu
    rcases side L L' Ln lE (fun x hx => (ln x hx).1) a m ha hm hu with ⟨_, _, u⟩ | ⟨rfl, mm, mq, u⟩ | ⟨ma, aq, rfl, u⟩ |
      ⟨ma, mm, u⟩
    · exact absurd (h.left q q hq hq u) (irr q)
    · exact (dn m mm mq).1 u
    · exact (ab a ma aq).1 u
    · exact h.left a m ma mm u
  · intro a m ha hm hu
    rcases side R R' Rn rE (fun x hx => (ln x hx).2) a m ha hm hu with ⟨_, _, u⟩ | ⟨rfl, mm, mq, u⟩ | ⟨ma, aq, rfl, u⟩ |
      ⟨ma, mm, u⟩
    · exact absurd (h.right q q hq hq u) (irr q)
    · exact (dn m mm mq).2 u
    · exact (ab a ma aq).2 u
    · exact h.right a m ma mm u

/-- A node with at most one child is replaced by that child, or by nothing. What is below a member was below it. -/
theorem InOrder.unhook {p q : Nat} (h : InOrder lt L R P) (f : Forest key L R P) (hp : Mem P p)
    (hq : (R p = 4096 ∧ q = L p) ∨ (L p = 4096 ∧ q = R p))
    (hx : Unhooked L R P L' R' P' p q) : InOrder lt L' R' P' ∧ ∀ c m, Und P' c m → Und P c m := by
  obtain ⟨mE, pE, lE, rE⟩ := hx
  have und : ∀ c m, Und P' c m → Und P c m := by
    intro c m hu
    induction hu with
    | self => exact .self
    | up m hm _ ih =>
      obtain ⟨hm, hmp⟩ := (mE m).1 hm
      rw [pE m hm hmp] at ih
      by_cases e : P m = p
      · rw [if_pos e] at ih
        exact .up m hm (e ▸ .up p hp ih)
      · rw [if_neg e] at ih
        exact .up m hm ih
  have toP : ∀ m, Mem P m → Und P q m → Und P p m := by
    intro m hm u
    by_cases e : q = 4096
    · rw [e] at u
      exact absurd hm fun hm => Und.nil u hm
    · rcases hq with ⟨_, rfl⟩ | ⟨_, rfl⟩
      · obtain ⟨a, b⟩ := f.left p hp e
        exact u.of_child a b
      · obtain ⟨a, b⟩ := f.right p hp e
        exact u.of_child a b
  refine ⟨⟨?_, ?_⟩, und⟩
  · intro a m ha hm hu
    obtain ⟨ha, hap⟩ := (mE a).1 ha
    obtain ⟨hm, hmp⟩ := (mE m).1 hm
    have u := und _ _ hu
    rw [lE a ha hap] at u
    by_cases e : L a = p
    · rw [if_pos e] at u
      exact h.left a m ha hm (e ▸ toP m hm u)
    · rw [if_neg e] at u
      exact h.left a m ha hm u
  · intro a m ha hm hu
    obtain ⟨ha, hap⟩ := (mE a).1 ha
    obtain ⟨hm, hmp⟩ := (mE m).1 hm
    have u := und _ _ hu
    rw [rE a ha hap] at u
    by_cases e : R a = p
    · rw [if_pos e] at u
      exact h.right a m ha hm (e ▸ toP m hm u)
    · rw [if_neg e] at u
      exact h.right a m ha hm u

/-- The splice: `n` has the place of a node that has the same place in the order (43_match_finder R126). -/
theorem InOrder.splice {n q : Nat} (h : InOrder lt L R P) (f : Forest key L R P) (hn : n < 4096) (hP : P n = 4096)
    (hq : Mem P q) (irr : ∀ x, ¬ lt x x) (hx : Renamed L R P L' R' P' n q)
    (same : ∀ y, (lt y q → lt y n) ∧ (lt q y → lt n y)) : InOrder lt L' R' P' :=
  h.rename f hn hP hq irr hx (fun y hy _ => ⟨fun u => (same y).1 (h.left q y hq hy u), fun u =>
    (same y).2 (h.right q y hq hy u)⟩) fun a ha _ =>
      ⟨fun u => (same a).2 (h.left a q ha hq u), fun u => (same a).1 (h.right a q ha hq u)⟩

/-- A promotion: `q`, the last of the left subtree of `p` in the order, is unhooked from its place and takes that of `p`
(43_match_finder R127). -/
theorem InOrder.promote {p q : Nat} {L1 R1 P1 : Nat → Nat} (h : InOrder lt L R P) (f : Forest key L R P)
    (irr : ∀ x, ¬ lt x x) (trans : ∀ x y z, lt x y → lt y z → lt x z) (hp : Mem P p) (hq : Mem P q) (hqp : q ≠ p)
    (hu : Und P (L p) q) (hR : R q = 4096) (last : ∀ y, Mem P y → y ≠ q → Und P (L p) y → lt y q)
    (f1 : Forest key L1 R1 P1) (h1 : Unhooked L R P L1 R1 P1 q (L q)) (h2 : Renamed L1 R1 P1 L' R' P' q p)
    (h3 : P1 q = 4096) : InOrder lt L' R' P' := by
  obtain ⟨o1, und⟩ := h.unhook f hq (.inl ⟨hR, rfl⟩) h1
  have hp1 : Mem P1 p := (h1.mem p).2 ⟨hp, hqp.symm⟩
  have hL4 : L p ≠ 4096 := fun e => Und.nil (e ▸ hu) hq
  obtain ⟨ml, pl⟩ := f.left p hp hL4
  have upq : Und P p q := hu.of_child ml pl
  have ltq : lt q p := h.left p q hp hq hu
  refine o1.rename f1 hq.1 h3 hp1 irr h2 ?_ ?_
  · intro y hy hyp
    obtain ⟨my, yq⟩ := (h1.mem y).1 hy
    refine ⟨fun u => ?_, fun u => ?_⟩
    · have u := und _ _ u
      rw [h1.left p hp hqp.symm] at u
      by_cases e : L p = q
      · rw [if_pos e] at u
        exact h.left q y hq my u
      · rw [if_neg e] at u
        exact last y my yq u
    · have u := und _ _ u
      rw [h1.right p hp hqp.symm] at u
      by_cases e : R p = q
      · exact absurd (trans _ _ _ ltq (h.right p q hp hq (e ▸ .self))) (irr q)
      · rw [if_neg e] at u
        exact trans _ _ _ ltq (h.right p y hp my u)
  · intro a ha hap
    obtain ⟨ma, aq⟩ := (h1.mem a).1 ha
    refine ⟨fun u => ?_, fun u => ?_⟩
    · have u := und _ _ u
      rw [h1.left a ma aq] at u
      by_cases e : L a = q
      · rw [if_pos e] at u
        exact absurd (h.left q q hq hq (u.trans upq)) (irr q)
      · rw [if_neg e] at u
        exact h.left a q ma hq (u.trans upq)
    · have u := und _ _ u
      rw [h1.right a ma aq] at u
      by_cases e : R a = q
      · rw [if_pos e] at u
        exact absurd (h.left q q hq hq (u.trans upq)) (irr q)
      · rw [if_neg e] at u
        exact h.right a q ma hq (u.trans upq)

end Sys2Proof.Machine
end

