-- ==== Sys2Proof/Laws/Finder.lean ====
section
/-! SUPPORT. One law for each operation of the match finder: from arrays that form a forest it answers, and what it
answers (43_match_finder R125, R126, R127). The descent of `insert_node` is a path, `Visit`; what it finds is said of the
path. -/
namespace Sys2Proof.Machine

/-- The three arrays are canonical and read as the functions `L`, `R`, `P`; the match is `ml`, `mp`. -/
structure Finder.Sees (t : Finder) (L R P : Nat → Nat) (ml : BitVec 5) (mp : Cursor) : Prop where
  wfl : Cells.wf Config.nilEntry Config.linkLast t.left
  wfr : Cells.wf Config.nilEntry Config.rightLast t.right
  wfp : Cells.wf Config.nilEntry Config.linkLast t.parent
  left : ∀ y, t.leftAt y = L y
  right : ∀ y, t.rightAt y = R y
  parent : ∀ y, t.parentAt y = P y
  ml_eq : t.ml = ml
  mp_eq : t.mp = mp

variable {t : Finder} {L R P : Nat → Nat} {ml : BitVec 5} {mp : Cursor} {key : Nat → Byte}

theorem Finder.Sees.getLeft (h : t.Sees L R P ml mp) {x : Nat} (hx : x ≤ 4096) : t.getLeft x = .ok (L x) := by
  rw [← h.left]; simp [Finder.getLeft, Finder.leftAt, hx, Config.linkLast]

theorem Finder.Sees.getRight (h : t.Sees L R P ml mp) {x : Nat} (hx : x ≤ 4352) : t.getRight x = .ok (R x) := by
  rw [← h.right]; simp [Finder.getRight, Finder.rightAt, hx, Config.rightLast]

theorem Finder.Sees.getParent (h : t.Sees L R P ml mp) {x : Nat} (hx : x ≤ 4096) : t.getParent x = .ok (P x) := by
  rw [← h.parent]; simp [Finder.getParent, Finder.parentAt, hx, Config.linkLast]

/-- A written array reads as the updated function. -/
theorem cells_upd {m : List (Nat × BitVec 13)} {f : Nat → Nat} (last : Nat) (hw : Cells.wf Config.nilEntry last m)
    (hf : ∀ y, (Cells.read Config.nilEntry m y).toNat = f y) {x v : Nat} (hv : v < 8192) (y : Nat) :
    (Cells.read Config.nilEntry (Cells.write Config.nilEntry m x (BitVec.ofNat 13 v)) y).toNat = upd f x v y := by
  rw [Cells.read_write _ _ _ _ _ hw.1]
  unfold upd
  split
  · simp only [BitVec.toNat_ofNat]; omega
  · exact hf y

theorem Finder.Sees.setLeft (h : t.Sees L R P ml mp) {x v : Nat} (hx : x ≤ 4096) (hv : v < 8192) :
    ∃ g, t.setLeft x v = .ok g ∧ g.Sees (upd L x v) R P ml mp :=
  ⟨_, if_pos hx, Cells.write_wf _ _ _ _ _ hx h.wfl, h.wfr, h.wfp,
    cells_upd _ h.wfl h.left hv, h.right, h.parent, h.ml_eq, h.mp_eq⟩

theorem Finder.Sees.setRight (h : t.Sees L R P ml mp) {x v : Nat} (hx : x ≤ 4352) (hv : v < 8192) :
    ∃ g, t.setRight x v = .ok g ∧ g.Sees L (upd R x v) P ml mp :=
  ⟨_, if_pos hx, h.wfl, Cells.write_wf _ _ _ _ _ hx h.wfr, h.wfp,
    h.left, cells_upd _ h.wfr h.right hv, h.parent, h.ml_eq, h.mp_eq⟩

theorem Finder.Sees.setParent (h : t.Sees L R P ml mp) {x v : Nat} (hx : x ≤ 4096) (hv : v < 8192) :
    ∃ g, t.setParent x v = .ok g ∧ g.Sees L R (upd P x v) ml mp :=
  ⟨_, if_pos hx, h.wfl, h.wfr, Cells.write_wf _ _ _ _ _ hx h.wfp,
    h.left, h.right, cells_upd _ h.wfp h.parent hv, h.ml_eq, h.mp_eq⟩

theorem Finder.Sees.congr {L' R' P'} (h : t.Sees L R P ml mp) (hl : ∀ y, L y = L' y) (hr : ∀ y, R y = R' y) (hp : ∀ y, P y = P' y) :
   t.Sees L' R' P' ml mp := ⟨h.wfl, h.wfr, h.wfp, fun y => (h.left y).trans (hl y), fun y => (h.right y).trans (hr y), fun y => (h.parent y).trans (hp y), h.ml_eq, h.mp_eq⟩

/-- The link to `p` is turned to `q`. -/
theorem Finder.Sees.relink (h : t.Sees L R P ml mp) {p q : Nat} (hp : p ≤ 4096) (hu : P p ≤ 4352) (hl : R (P p) ≠ p → P p ≤ 4096) (hq : q < 8192) :
    ∃ g, t.relink p q = .ok g ∧ g.Sees (fun y => if y = P p ∧ R (P p) ≠ p then q else L y)
      (fun y => if y = P p ∧ R (P p) = p then q else R y) P ml mp := by
  rw [Finder.relink, h.getParent hp, Res.ok_bind, h.getRight hu, Res.ok_bind]
  by_cases hc : R (P p) = p
  · rw [if_pos hc]
    obtain ⟨g, e, hg⟩ := h.setRight hu hq
    exact ⟨g, e, hg.congr (by intro y; simp [hc]) (by intro y; simp [hc, upd]) (fun _ => rfl)⟩
  · rw [if_neg hc]
    obtain ⟨g, e, hg⟩ := h.setLeft (hl hc) hq
    exact ⟨g, e, hg.congr (by intro y; simp [hc, upd]) (by intro y; simp [hc]) (fun _ => rfl)⟩

/-- The splice (43_match_finder R126). -/
theorem Finder.Sees.splice (h : t.Sees L R P ml mp) (f : Forest key L R P) {n q : Nat} (hn : n < 4096) (hP : P n = 4096)
    (hq : Mem P q) (hk : key q = key n) :
    ∃ g L' R' P', t.splice n q = .ok g ∧ g.Sees L' R' P' ml mp ∧ Forest key L' R' P' ∧
      Renamed L R P L' R' P' n q := by
  have q4 := hq.1
  obtain ⟨bl, br, bp, bq⟩ := f.bounds hq
  have a4 := f.parent q hq
  obtain ⟨rank, h6⟩ := f.acyclic
  have a6 := h6 q hq
  have a1 := f.left q hq
  have a2 := f.right q hq
  have nm : ¬ Mem P n := by simp [Mem, hP]
  have qn : q ≠ n := by grind
  have hPq : P q ≠ q := by clear f h h6; grind
  have hPn : P q ≠ n := by clear f h h6; grind
  have hLq : L q ≠ q := by clear f h h6; grind
  have hRq : R q ≠ q := by clear f h h6; grind
  clear a4 a6 a1 a2 h6
  obtain ⟨t1, e1, s1⟩ := h.setParent (x := n) (v := P q) (by omega) (by omega)
  obtain ⟨t2, e2, s2⟩ := s1.setLeft (x := n) (v := L q) (by omega) (by omega)
  obtain ⟨t3, e3, s3⟩ := s2.setRight (x := n) (v := R q) (by omega) (by omega)
  obtain ⟨t4, e4, s4⟩ := s3.setParent (x := L q) (v := n) (by omega) (by omega)
  obtain ⟨t5, e5, s5⟩ := s4.setParent (x := R q) (v := n) (by omega) (by omega)
  have P5 : upd (upd (upd P n (P q)) (L q) n) (R q) n q = P q := by unfold upd; grind
  have R5 : upd R n (R q) (P q) = R (P q) := by unfold upd; grind
  obtain ⟨t6, e6, s6⟩ := s5.relink (p := q) (q := n) (by omega) (by rw [P5]; omega) (by rw [P5, R5]; omega) (by omega)
  rw [P5, R5] at s6
  obtain ⟨t7, e7, s7⟩ := s6.setParent (x := q) (v := 4096) (by omega) (by omega)
  have hs := f.splice hn hP hq hk (fun y => rfl) (fun y => rfl) (fun y => rfl)
  refine ⟨t7, _, _, _, ?_, s7.congr ?_ ?_ ?_, hs⟩
  · rw [Finder.splice, h.getParent (by omega), Res.ok_bind, h.getLeft (by omega), Res.ok_bind, h.getRight (by omega), Res.ok_bind,
      e1, Res.ok_bind, e2, Res.ok_bind, e3, Res.ok_bind, e4, Res.ok_bind, e5, Res.ok_bind, e6, Res.ok_bind, e7]
  · intro y; unfold upd; rfl
  · intro y; unfold upd; rfl
  · intro y; unfold upd; rfl

/-- The walk to the rightmost node ends (43_match_finder R127). -/
theorem Finder.Sees.rightmost (h : t.Sees L R P ml mp) (f : Forest key L R P) {rank : Nat → Nat}
    (hr : ∀ n, Mem P n → Mem P (P n) → rank (P n) < rank n) (fuel : Nat) {q : Nat} (hq : Mem P q) (hu : Mem P (P q))
    (hRu : R (P q) = q) (hf : below P rank (rank q) ≤ fuel) :
    ∃ z, Machine.rightmost fuel t q = .ok z ∧ Mem P z ∧ R z = 4096 ∧ Mem P (P z) ∧ R (P z) = z ∧ key z = key (P q) ∧
      rank (P q) ≤ rank (P z) ∧ Und P q z ∧
      ∀ lt : Nat → Nat → Prop, (∀ x y z, lt x y → lt y z → lt x z) → InOrder lt L R P →
        ∀ y, Mem P y → y ≠ z → Und P q y → lt y z := by
  induction fuel generalizing q with
  | zero =>
    have := below_lt (b := rank q) hq (Nat.le_refl _)
    omega
  | succ fuel ih =>
    have q4 := hq.1
    have kq := f.key_eq hq hu
    have rq := hr q hq hu
    rw [Machine.rightmost, h.getRight (by omega), Res.ok_bind]
    by_cases e : R q = Config.nil
    · rw [if_pos e]
      refine ⟨q, rfl, hq, e, hu, hRu, kq, Nat.le_refl _, .self, fun lt _ o y my yq u => ?_⟩
      rcases u.cases_member f hq with c | c | c
      · exact absurd c yq
      · exact o.left q y hq my c
      · exact absurd my fun my => Und.nil (show Und P 4096 y from (show R q = 4096 from e) ▸ c) my
    · rw [if_neg e]
      obtain ⟨m, Pe⟩ := f.right q hq e
      have r2 := hr _ m (by rw [Pe]; exact hq)
      rw [Pe] at r2
      have b1 := below_lt (b := rank q) hq (Nat.le_refl _)
      have b2 : below P rank (rank (R q)) ≤ below P rank (rank q + 1) := below_mono r2
      obtain ⟨z, e1, m1, e2, m2, e3, k, r3, u3, last⟩ := ih m (by rw [Pe]; exact hq) (by rw [Pe]) (by omega)
      rw [Pe] at k r3
      refine ⟨z, e1, m1, e2, m2, e3, k.trans kq, by omega, u3.of_child m Pe, fun lt tr o y my yz u => ?_⟩
      have qz := o.right q z hq m1 u3
      rcases u.cases_member f hq with c | c | c
      · exact c ▸ qz
      · exact tr _ _ _ (o.left q y hq my c) qz
      · exact last lt tr o y my yz c

/-- `delete_node` (43_match_finder R127). -/
theorem Finder.Sees.deleteNode (h : t.Sees L R P ml mp) (f : Forest key L R P) (p : Cursor) :
    ∃ g L' R' P', Machine.deleteNode p t = .ok g ∧ g.Sees L' R' P' ml mp ∧ Forest key L' R' P' ∧
      (∀ y, Mem P' y ↔ Mem P y ∧ y ≠ p.toNat) ∧ (¬ Mem P p.toNat → g = t) ∧
      ∀ lt : Nat → Nat → Prop, (∀ x, ¬ lt x x) → (∀ x y z, lt x y → lt y z → lt x z) → InOrder lt L R P →
        InOrder lt L' R' P' := by
  have p4 := p.isLt
  generalize hp : p.toNat = p at p4
  rw [Machine.deleteNode, hp, h.getParent (by omega), Res.ok_bind]
  by_cases e : P p = Config.nil
  · rw [if_pos e]
    have nm : ¬ Mem P p := fun m => m.2 e
    exact ⟨t, L, R, P, rfl, h, f, fun y => ⟨fun m => ⟨m, fun e => nm (e ▸ m)⟩, fun m => m.1⟩, fun _ => rfl,
      fun _ _ _ o => o⟩
  rw [if_neg e]
  have mpp : Mem P p := ⟨by omega, e⟩
  obtain ⟨bl, br, bp, bq⟩ := f.bounds mpp
  obtain ⟨rank, hr⟩ := f.acyclic
  have a1 := f.left p mpp
  have a2 := f.right p mpp
  have a4 := f.parent p mpp
  have a5 := f.distinct p mpp
  have a6 := hr p mpp
  have Ppp : P p ≠ p := by clear f h hr; grind
  have hLp : L p ≠ p := by clear f h hr; grind
  have hRp : R p ≠ p := by clear f h hr; grind
  rw [h.getLeft (by omega), Res.ok_bind, h.getRight (by omega), Res.ok_bind]
  -- the last three writes
  have last : ∀ (u : Finder) (Lu Ru Pu : Nat → Nat) (q : Nat), u.Sees Lu Ru Pu ml mp → q ≤ 4096 → Pu p = P p → q ≠ p →
      (Ru (P p) = p → P p ≤ 4352) → (Ru (P p) ≠ p → P p ≤ 4096) →
      ∃ g, (u.setParent q (P p) >>= fun t => t.relink p q >>= fun t => t.setParent p Config.nil) = .ok g ∧
        g.Sees (fun y => if y = P p ∧ Ru (P p) ≠ p then q else Lu y) (fun y => if y = P p ∧ Ru (P p) = p then q else Ru y)
          (fun y => if y = p then 4096 else if y = q then P p else Pu y) ml mp := by
    intro u Lu Ru Pu q su hq hP hqp _ hb
    obtain ⟨t1, e1, s1⟩ := su.setParent (x := q) (v := P p) hq (by omega)
    have P1 : upd Pu q (P p) p = P p := by unfold upd; rw [if_neg hqp.symm, hP]
    obtain ⟨t2, e2, s2⟩ := s1.relink (p := p) (q := q) (by omega) (by rw [P1]; omega) (by rw [P1]; omega) (by omega)
    rw [P1] at s2
    obtain ⟨t3, e3, s3⟩ := s2.setParent (x := p) (v := 4096) (by omega) (by omega)
    refine ⟨t3, ?_, s3.congr (fun _ => rfl) (fun _ => rfl) (fun y => by unfold upd; rfl)⟩
    rw [e1, Res.ok_bind, e2, Res.ok_bind]
    exact e3
  by_cases er : R p = Config.nil
  · rw [if_pos er]
    obtain ⟨g, eg, sg⟩ := last t L R P (L p) h (by omega) rfl hLp (fun _ => bp) (fun x => (bq x).le)
    obtain ⟨fg, hx⟩ := f.unhook mpp (q := L p) (.inl ⟨er, rfl⟩) (fun y => rfl) (fun y => rfl) (fun y => rfl)
    exact ⟨g, _, _, _, eg, sg, fg, hx.mem, fun n => absurd mpp n, fun _ _ _ o =>
      (o.unhook f mpp (.inl ⟨er, rfl⟩) hx).1⟩
  rw [if_neg er]
  by_cases el : L p = Config.nil
  · rw [if_pos el]
    obtain ⟨g, eg, sg⟩ := last t L R P (R p) h (by omega) rfl hRp (fun _ => bp) (fun x => (bq x).le)
    obtain ⟨fg, hx⟩ := f.unhook mpp (q := R p) (.inr ⟨el, rfl⟩) (fun y => rfl) (fun y => rfl) (fun y => rfl)
    exact ⟨g, _, _, _, eg, sg, fg, hx.mem, fun n => absurd mpp n, fun _ _ _ o =>
      (o.unhook f mpp (.inr ⟨el, rfl⟩) hx).1⟩
  rw [if_neg el]
  obtain ⟨ml', Pl⟩ := a1 el
  obtain ⟨mr', Pr⟩ := a2 er
  have l4 := ml'.1
  have r4 := mr'.1
  have dist := a5 el
  have kl := f.key_eq ml' (by rw [Pl]; exact mpp)
  rw [Pl] at kl
  have rl := hr _ ml' (by rw [Pl]; exact mpp)
  rw [Pl] at rl
  obtain ⟨bll, blr, _, _⟩ := f.bounds ml'
  rw [Finder.promote, h.getRight (by omega), Res.ok_bind]
  by_cases elr : R (L p) = Config.nil
  · rw [if_pos elr, Res.ok_bind]
    obtain ⟨t1, e1, s1⟩ := h.setRight (x := L p) (v := R p) (by omega) (by omega)
    obtain ⟨t2, e2, s2⟩ := s1.setParent (x := R p) (v := L p) (by omega) (by omega)
    have hPl : P p ≠ L p := by clear last f h hr; grind
    have R1 : upd R (L p) (R p) (P p) = R (P p) := by unfold upd; rw [if_neg hPl]
    obtain ⟨g, eg, sg⟩ := last t2 _ _ _ (L p) s2 (by omega) (by unfold upd; rw [if_neg hRp.symm]) hLp
      (fun _ => bp) (by rw [R1]; exact fun x => (bq x).le)
    rw [R1] at sg
    obtain ⟨fg, mg, L1, R1, P1, f1, h1, h2⟩ := f.promoteLeft mpp rfl el er elr (fun y => rfl) (fun y => rfl) (fun y => rfl)
    refine ⟨g, _, _, _, ?_, sg.congr (fun _ => rfl) (fun y => by unfold upd; rfl) (fun y => by unfold upd; rfl), fg, mg,
      fun n => absurd mpp n, fun lt irr tr o => o.promote f irr tr mpp ml' hLp .self elr (fun y my yl u => ?_) f1 h1 h2 ?_⟩
    rotate_left
    · rcases u.cases_member f ml' with c | c | c
      · exact absurd c yl
      · exact o.left _ y ml' my c
      · exact absurd my fun my => Und.nil (show Und P 4096 y from (show R (L p) = 4096 from elr) ▸ c) my
    · by_contra e
      exact ((h1.mem (L p)).1 ⟨l4, e⟩).2 rfl
    simp only [e1, e2, Res.ok_bind]
    exact eg
  · rw [if_neg elr]
    obtain ⟨mlr, Plr⟩ := f.right _ ml' elr
    obtain ⟨q, eq, mq, Rq, mu, Ru, kq, rq, uq, lastq⟩ := h.rightmost f hr walkMax mlr (by rw [Plr]; exact ml') (by rw [Plr])
      (Nat.le_trans (below_le _ _ _) (by simp [walkMax]))
    rw [Plr] at rq kq
    have q4 := mq.1
    have u4 := mu.1
    obtain ⟨bql, bqr, _, _⟩ := f.bounds mq
    have rqu := hr q mq mu
    have rlp : Mem P (P p) → rank (P p) < rank p := a6
    have qp : q ≠ p := by rintro rfl; omega
    have qu : P q ≠ p := by intro x; rw [x] at rq; omega
    have ql : q ≠ L p := by rintro rfl; rw [Pl] at qu; exact qu rfl
    have uPp : P q ≠ P p := by intro x; rw [← x] at rlp; have := rlp mu; omega
    have qPp : q ≠ P p := by intro x; rw [← x] at rlp; have := rlp mq; omega
    have mql := f.left q mq
    have lqp : L q ≠ p := by intro x; rw [x] at mql; have := (mql (by omega)).2; exact qPp this.symm
    have hqr : q ≠ R p := by rintro rfl; exact qu Pr
    have lqR : L q ≠ R p := by
      intro x; rw [x] at mql; have := (mql (by omega)).2; rw [Pr] at this; exact qp this.symm
    have lqL : L q ≠ L p := by
      intro x; rw [x] at mql; have := (mql (by omega)).2; rw [Pl] at this; exact qp this.symm
    have lqq : L q ≠ q := by
      intro x; rw [x] at mql; have := (mql (by omega)).2; rw [this] at rqu; omega
    obtain ⟨t1, e1, s1⟩ := h.setRight (x := P q) (v := L q) (by omega) (by omega)
    obtain ⟨t2, e2, s2⟩ := s1.setParent (x := L q) (v := P q) (by omega) (by omega)
    obtain ⟨t3, e3, s3⟩ := s2.setLeft (x := q) (v := L p) (by omega) (by omega)
    obtain ⟨t4, e4, s4⟩ := s3.setParent (x := L p) (v := q) (by omega) (by omega)
    obtain ⟨t5, e5, s5⟩ := s4.setRight (x := q) (v := R p) (by omega) (by omega)
    obtain ⟨t6, e6, s6⟩ := s5.setParent (x := R p) (v := q) (by omega) (by omega)
    have R1 : upd (upd R (P q) (L q)) q (R p) (P p) = R (P p) := by
      unfold upd; rw [if_neg qPp.symm, if_neg uPp.symm]
    obtain ⟨g, eg, sg⟩ := last t6 _ _ _ q s6 (by omega)
      (by unfold upd; rw [if_neg hRp.symm, if_neg hLp.symm, if_neg lqp.symm]) qp
      (fun _ => bp) (by rw [R1]; exact fun x => (bq x).le)
    rw [R1] at sg
    obtain ⟨fg, mg, L1, R1, P1, f1, h1, h2⟩ := f.promoteRightmost mpp el er mq Rq (kq.trans kl) mu Ru qp qu ql uPp qPp
      (fun y => rfl) (fun y => rfl) (fun y => rfl)
    refine ⟨g, _, _, _, ?_, sg.congr (fun y => by unfold upd; rfl) (fun y => by unfold upd; rfl) (fun y => by unfold upd; rfl), fg, mg,
      fun n => absurd mpp n, fun lt irr tr o => o.promote f irr tr mpp mq qp (uq.of_child mlr Plr) Rq (fun y my yq u => ?_)
        f1 h1 h2 ?_⟩
    rotate_left
    · have lq := o.right _ q ml' mq uq
      rcases u.cases_member f ml' with c | c | c
      · exact c ▸ lq
      · exact tr _ _ _ (o.left _ y ml' my c) lq
      · exact lastq lt tr o y my yq c
    · by_contra e
      exact ((h1.mem q).1 ⟨q4, e⟩).2 rfl
    simp only [eq, h.getParent (x := q) (by omega), h.getLeft (x := q) (by omega), e1, e2, e3, e4, e5, e6, Res.ok_bind]
    exact eg

/-- A window read inside the window answers. -/
theorem readChecked_ok (win : List Host.Cell) {a : Nat} (h : a ≤ 4112) : Memory.readChecked win a = .ok (Memory.read win a) := by
  simp [Memory.readChecked, Config.winLast, h]

/-- The comparison of two keys answers the first difference. -/
theorem compareKeys_ok (win : List Host.Cell) (n p k i : Nat) (hn : n + i + k ≤ 4113) (hp : p + i + k ≤ 4113) :
    ∃ j c, compareKeys win n p k i = .ok (j, c) ∧ i ≤ j ∧ j ≤ i + k ∧
      (∀ x, i ≤ x → x < j → Memory.read win (n + x) = Memory.read win (p + x)) ∧
      (j < i + k → Memory.read win (n + j) ≠ Memory.read win (p + j) ∧
        c = ((Memory.read win (n + j)).toNat : Int) - ((Memory.read win (p + j)).toNat : Int)) := by
  induction k generalizing i with
  | zero => exact ⟨i, 0, rfl, by omega, by omega, fun x h1 h2 => by omega, fun h => by omega⟩
  | succ k ih =>
    rw [compareKeys, readChecked_ok win (by omega), Res.ok_bind, readChecked_ok win (by omega), Res.ok_bind]
    by_cases e : Memory.read win (n + i) = Memory.read win (p + i)
    · rw [if_pos e]
      obtain ⟨j, c, h1, h2, h3, h4, h5⟩ := ih (i + 1) (by omega) (by omega)
      refine ⟨j, c, h1, by omega, by omega, fun x hx hj => ?_, fun h => h5 (by omega)⟩
      by_cases hxi : x = i
      · rw [hxi, e]
      · exact h4 x (by omega) hj
    · rw [if_neg e]
      exact ⟨i, _, rfl, by omega, by omega, fun x h1 h2 => by omega, fun _ => ⟨e, rfl⟩⟩

/-- The comparison of `insert_node`, from the second byte on, of keys whose first bytes are equal: the length of the common
prefix, and the signed difference where they differ (43_match_finder R125). -/
theorem compareKeys_eq (win : List Host.Cell) {n p : Nat} (hn : n < 4096) (hp : p < 4096)
    (h0 : Memory.read win p = Memory.read win n) :
    ∃ c, compareKeys win n p 17 1 = .ok (commonPrefix win n p, c) ∧ 1 ≤ commonPrefix win n p ∧
      (commonPrefix win n p < 18 → c = ((Memory.read win (n + commonPrefix win n p)).toNat : Int) -
        ((Memory.read win (p + commonPrefix win n p)).toNat : Int)) := by
  obtain ⟨j, c, e, h1, h2, ag, df⟩ := compareKeys_ok win n p 17 1 (by omega) (by omega)
  have hj : commonPrefix win n p = j := by
    refine commonPrefix_eq (by omega) (fun x hx => ?_) fun h => (df h).1
    by_cases hx0 : x = 0
    · subst hx0; exact h0.symm
    · exact ag x (by omega) hx
  rw [hj]
  exact ⟨c, e, h1, fun h => (df h).2⟩

/-- One round of the descent. -/
theorem descend_succ (o : Config.TreeOrder) (win : List Host.Cell) (n fuel p : Nat) (cmp : Int) (t : Finder) :
    Machine.descend o win n (fuel + 1) p cmp t =
      ((if goesRight o p cmp then t.getRight p else t.getLeft p) >>= fun q =>
        if q = Config.nil then
          (if goesRight o p cmp then t.setRight p n else t.setLeft p n) >>= fun t => t.setParent n p
        else if Config.nil < q then .error (.fault .treeIndex)
        else
          compareKeys win n q 17 1 >>= fun r =>
            if t.ml.toNat < r.1 then
              if 18 ≤ r.1 then
                ({ t with mp := BitVec.ofNat 12 q, ml := BitVec.ofNat 5 r.1 } : Finder).splice n q
              else Machine.descend o win n fuel q r.2 { t with mp := BitVec.ofNat 12 q, ml := BitVec.ofNat 5 r.1 }
            else Machine.descend o win n fuel q r.2 t) := by
  rw [Machine.descend]
  cases goesRight o p cmp <;> rfl

/-! ### The path of the descent (43_match_finder R125) -/

/-- The descent of `insert_node(n)` comes to `p` with the direction `right` and the best match `ml`, `mp` so far. -/
inductive Visit (o : Config.TreeOrder) (win : List Host.Cell) (n : Nat) (L R : Nat → Nat) (mp0 : Cursor) :
    Nat → Bool → BitVec 5 → Cursor → Prop
  | root : Visit o win n L R mp0 (4097 + (Memory.read win n).toNat) true 0 mp0
  | step (p q : Nat) (right : Bool) (ml : BitVec 5) (mp : Cursor) : Visit o win n L R mp0 p right ml mp →
      q = (if right then R p else L p) → q ≠ 4096 → commonPrefix win n q < 18 →
      Visit o win n L R mp0 q
        (goesRight o q ((Memory.read win (n + commonPrefix win n q)).toNat -
          (Memory.read win (q + commonPrefix win n q)).toNat))
        (if ml.toNat < commonPrefix win n q then BitVec.ofNat 5 (commonPrefix win n q) else ml)
        (if ml.toNat < commonPrefix win n q then BitVec.ofNat 12 q else mp)

section Path
variable {o : Config.TreeOrder} {win : List Host.Cell} {n p : Nat} {right : Bool} {mp0 : Cursor}

/-- Where the descent can be: at the root slot with no match, or at a member of the tree with the match of a member. -/
structure AtMember (o : Config.TreeOrder) (win : List Host.Cell) (P : Nat → Nat) (n p : Nat) (right : Bool) (ml : BitVec 5)
    (mp : Cursor) : Prop where
  mem : Mem P p
  first : Memory.read win p = Memory.read win n
  goRight : right = true → KeyRight o win n p
  goLeft : right = false → KeyRight o win p n
  seen : commonPrefix win n p ≤ ml.toNat
  pos : ml ≠ 0
  matched : Mem P mp.toNat
  prefix_eq : commonPrefix win n mp.toNat = ml.toNat
  short : ml.toNat < 18

/-- The child that the descent goes to from where it is. -/
theorem child_mem (f : Forest (Memory.read win) L R P) {q : Nat}
    (hp : (p = 4097 + (Memory.read win n).toNat ∧ right = true) ∨ (Mem P p ∧ Memory.read win p = Memory.read win n))
    (hq : q = (if right then R p else L p)) (h4 : q ≠ 4096) :
    Mem P q ∧ P q = p ∧ Memory.read win q = Memory.read win n := by
  have hm : Mem P q ∧ P q = p := by
    rcases hp with ⟨rfl, rfl⟩ | ⟨hp, _⟩
    · simp only [if_true] at hq
      subst hq
      exact f.top _ h4
    · cases right
      · simp only [Bool.false_eq_true, if_false] at hq
        subst hq
        exact f.left p hp h4
      · simp only [if_true] at hq
        subst hq
        exact f.right p hp h4
  obtain ⟨mq, Pq⟩ := hm
  refine ⟨mq, Pq, ?_⟩
  rcases f.parent q mq with a | a <;> rw [Pq] at a
  · rcases hp with ⟨hp, _⟩ | ⟨hp, hk⟩
    · exact (BitVec.eq_of_toNat_eq (by omega) : Memory.read win n = Memory.read win q).symm
    · have := hp.1
      omega
  · rcases hp with ⟨hp, _⟩ | ⟨hp, hk⟩
    · have := a.1.1
      omega
    · exact a.2.1.trans hk

theorem toNat_ofNat_prefix (win : List Host.Cell) (n q : Nat) :
    (BitVec.ofNat 5 (commonPrefix win n q)).toNat = commonPrefix win n q := by
  have := (commonPrefix_spec win n q).1
  rw [BitVec.toNat_ofNat]
  omega

theorem toNat_ofNat_member {q : Nat} (hq : Mem P q) : (BitVec.ofNat 12 q).toNat = q := by
  have := hq.1
  rw [BitVec.toNat_ofNat]
  omega

/-- Keys with the same first byte have a common prefix. -/
theorem commonPrefix_pos {q : Nat} (h : Memory.read win q = Memory.read win n) : 1 ≤ commonPrefix win n q :=
  le_commonPrefix (by omega) fun i hi => by
    rw [show i = 0 by omega]
    exact h.symm

theorem Visit.place {ml : BitVec 5} {mp : Cursor} (f : Forest (Memory.read win) L R P)
    (h : Visit o win n L R mp0 p right ml mp) :
    (p = 4097 + (Memory.read win n).toNat ∧ right = true ∧ ml = 0 ∧ mp = mp0) ∨ AtMember o win P n p right ml mp := by
  induction h with
  | root => exact .inl ⟨rfl, rfl, rfl, rfl⟩
  | step p q right ml mp _ hq h4 h18 ih =>
    right
    obtain ⟨mq, Pq, kq⟩ := child_mem f (ih.imp (fun h => ⟨h.1, h.2.1⟩) fun h => ⟨h.mem, h.first⟩) hq h4
    have h1 := commonPrefix_pos kq
    have hd := goesRight_iff (o := o) (by have := mq.1; simp [Config.nil]; omega) h18
    by_cases hi : ml.toNat < commonPrefix win n q
    · simp only [if_pos hi]
      refine ⟨mq, kq, hd.1, hd.2, ?_, ?_, ?_, ?_, ?_⟩
      · rw [toNat_ofNat_prefix]
      · intro e
        have := congrArg BitVec.toNat e
        rw [toNat_ofNat_prefix] at this
        simp at this
        omega
      · rw [toNat_ofNat_member mq]
        exact mq
      · rw [toNat_ofNat_member mq, toNat_ofNat_prefix]
      · rw [toNat_ofNat_prefix]
        exact h18
    · simp only [if_neg hi]
      rcases ih with ⟨_, _, hz, _⟩ | ih
      · rw [hz] at hi
        simp at hi
        omega
      · exact ⟨mq, kq, hd.1, hd.2, by omega, ih.pos, ih.matched, ih.prefix_eq, ih.short⟩

/-- The place of the descent, for `child_mem`. -/
theorem Visit.spot {ml : BitVec 5} {mp : Cursor} (f : Forest (Memory.read win) L R P)
    (h : Visit o win n L R mp0 p right ml mp) :
    (p = 4097 + (Memory.read win n).toNat ∧ right = true) ∨ (Mem P p ∧ Memory.read win p = Memory.read win n) :=
  (h.place f).imp (fun h => ⟨h.1, h.2.1⟩) fun h => ⟨h.mem, h.first⟩

/-- `n` lies, of each member above the place of the descent, on the side where it belongs. -/
theorem Visit.above {ml : BitVec 5} {mp : Cursor} (f : Forest (Memory.read win) L R P)
    (h : Visit o win n L R mp0 p right ml mp) (a : Nat) (ha : Mem P a) :
    (Und P (L a) p → KeyRight o win a n) ∧ (Und P (R a) p → KeyRight o win n a) := by
  induction h with
  | root =>
    have hno : ∀ x, x ≤ 4096 → ¬ Und P x (4097 + (Memory.read win n).toNat) := by
      intro x hx hu
      cases hu with
      | self => omega
      | up m hm _ => have := hm.1; omega
    obtain ⟨b1, b2, _, _⟩ := f.bounds ha
    exact ⟨fun u => absurd u (hno _ b1), fun u => absurd u (hno _ b2)⟩
  | step p q right ml mp hv hq h4 h18 ih =>
    obtain ⟨mq, Pq, kq⟩ := child_mem f (hv.spot f) hq h4
    have ap : Mem P p → (L a = q → KeyRight o win a n) ∧ (R a = q → KeyRight o win n a) := by
      intro hp
      have pl := hv.place f
      rcases pl with ⟨e, _⟩ | pl
      · have := hp.1
        omega
      · refine ⟨fun e => ?_, fun e => ?_⟩
        · have hap : a = p := by rw [← Pq, ← e]; exact (f.left a ha (e ▸ h4)).2.symm
          subst hap
          refine pl.goLeft ?_
          cases hr : right with
          | false => rfl
          | true =>
            rw [hr, if_pos rfl] at hq
            exact absurd (e.trans hq) (f.distinct a ha (e ▸ h4))
        · have hap : a = p := by rw [← Pq, ← e]; exact (f.right a ha (e ▸ h4)).2.symm
          subst hap
          refine pl.goRight ?_
          cases hr : right with
          | true => rfl
          | false =>
            rw [hr, if_neg (by simp)] at hq
            exact absurd (hq.symm.trans e.symm) (f.distinct a ha (hq ▸ h4))
    have mp' : (L a = q ∨ R a = q) → Mem P p := by
      rintro (e | e)
      · have := (f.left a ha (e ▸ h4)).2
        rw [e, Pq] at this
        exact this ▸ ha
      · have := (f.right a ha (e ▸ h4)).2
        rw [e, Pq] at this
        exact this ▸ ha
    refine ⟨fun u => ?_, fun u => ?_⟩
    · cases u with
      | self => exact (ap (mp' (.inl rfl))).1 rfl
      | up _ _ hu => exact ih.1 (Pq ▸ hu)
    · cases u with
      | self => exact (ap (mp' (.inr rfl))).2 rfl
      | up _ _ hu => exact ih.2 (Pq ▸ hu)

/-- Every member of the tree that is not below the place of the descent shares no more with `n` than the best match. -/
theorem Visit.longest {ml : BitVec 5} {mp : Cursor} (f : Forest (Memory.read win) L R P)
    (ho : InOrder (fun m p => KeyRight o win p m) L R P) (h : Visit o win n L R mp0 p right ml mp) (m : Nat)
    (hm : Mem P m) : Und P (if right then R p else L p) m ∨ commonPrefix win n m ≤ ml.toNat := by
  have here : ∀ {p right ml mp}, Visit o win n L R mp0 p right ml mp →
      (Und P p m → Und P (if right then R p else L p) m ∨ commonPrefix win n m ≤ ml.toNat) := by
    intro p right ml mp h u
    rcases h.place f with ⟨e, hr, _, _⟩ | pl
    · subst e
      subst hr
      exact .inl (u.cases_root f hm)
    · rcases u.cases_member f pl.mem with c | c | c
      · exact .inr (c ▸ pl.seen)
      · cases hr : right with
        | false => exact .inl c
        | true =>
          right
          exact ((ho.left p m pl.mem hm c).between (pl.goRight hr)).trans pl.seen
      · cases hr : right with
        | true => exact .inl c
        | false =>
          right
          exact (KeyRight.between' (ho.right p m pl.mem hm c) (pl.goLeft hr)).trans pl.seen
  induction h with
  | root =>
    by_cases e : Memory.read win m = Memory.read win n
    · exact here .root (e ▸ f.und_root hm)
    · right
      have := commonPrefix_le (win := win) (n := n) (p := m) (j := 0) (fun h => e h.symm)
      omega
  | step p q right ml mp hv hq h4 h18 ih =>
    rw [← hq] at ih
    rcases ih with ih | ih
    · exact here (.step p q right ml mp hv hq h4 h18) ih
    · right
      split
      · rw [toNat_ofNat_prefix]
        omega
      · exact ih

/-! ### The candidates met -/

variable {t : Finder}

theorem Finder.Met.unique {k c c' : Nat} (h : t.Met o win n k c) (h' : t.Met o win n k c') : c = c' := by
  induction h generalizing c' with
  | top => cases h'; rfl
  | right k c _ hk _ ih =>
    cases h' with
    | right _ c1 h1 _ _ => rw [ih h1]
    | left _ c1 h1 hk1 _ => exact absurd (hk.trans (ih h1 ▸ hk1)) KeyRight.irrefl
  | left k c _ hk _ ih =>
    cases h' with
    | left _ c1 h1 _ _ => rw [ih h1]
    | right _ c1 h1 hk1 _ => exact absurd (hk.trans (ih h1 ▸ hk1)) KeyRight.irrefl

theorem Finder.Met.earlier {k c j : Nat} (h : t.Met o win n k c) (hj : j ≤ k) : ∃ c', t.Met o win n j c' := by
  induction h with
  | top hz =>
    obtain rfl : j = 0 := by omega
    exact ⟨_, .top hz⟩
  | right k c h hk hz ih =>
    by_cases e : j = k + 1
    · subst e
      exact ⟨_, .right k c h hk hz⟩
    · exact ih (by omega)
  | left k c h hk hz ih =>
    by_cases e : j = k + 1
    · subst e
      exact ⟨_, .left k c h hk hz⟩
    · exact ih (by omega)

/-- The best match so far is that of the first among the candidates met that share most with `n`. -/
structure BestOf (t : Finder) (o : Config.TreeOrder) (win : List Host.Cell) (n k : Nat) (ml : BitVec 5) (mp : Cursor) :
    Prop where
  best : ∃ j ≤ k, t.Met o win n j mp.toNat ∧ commonPrefix win n mp.toNat = ml.toNat ∧
    ∀ i c, i ≤ k → t.Met o win n i c → commonPrefix win n c ≤ ml.toNat ∧ (i < j → commonPrefix win n c < ml.toNat)

/-- One candidate more. -/
theorem BestOf.step {k q : Nat} {ml : BitVec 5} {mp : Cursor} (h : BestOf t o win n k ml mp) (hq : q < 4096)
    (hm : t.Met o win n (k + 1) q) :
    BestOf t o win n (k + 1) (if ml.toNat < commonPrefix win n q then BitVec.ofNat 5 (commonPrefix win n q) else ml)
      (if ml.toNat < commonPrefix win n q then BitVec.ofNat 12 q else mp) := by
  obtain ⟨j, hj, mj, ej, all⟩ := h.best
  by_cases hi : ml.toNat < commonPrefix win n q
  · simp only [if_pos hi]
    refine ⟨⟨k + 1, Nat.le_refl _, ?_, ?_, fun i c hik hc => ?_⟩⟩
    · rw [BitVec.toNat_ofNat, Nat.mod_eq_of_lt (by omega)]
      exact hm
    · rw [BitVec.toNat_ofNat, Nat.mod_eq_of_lt (by omega), toNat_ofNat_prefix]
    · rw [toNat_ofNat_prefix]
      by_cases e : i = k + 1
      · subst e
        rw [hc.unique hm]
        exact ⟨Nat.le_refl _, fun h => by omega⟩
      · have := (all i c (by omega) hc).1
        exact ⟨by omega, fun _ => by omega⟩
  · simp only [if_neg hi]
    refine ⟨⟨j, by omega, mj, ej, fun i c hik hc => ?_⟩⟩
    by_cases e : i = k + 1
    · subst e
      rw [hc.unique hm]
      exact ⟨by omega, fun h => by omega⟩
    · exact all i c (by omega) hc

/-- The first candidate. -/
theorem BestOf.first {q : Nat} (hq : q < 4096) (h1 : 1 ≤ commonPrefix win n q) (hm : t.Met o win n 0 q) :
    BestOf t o win n 0 (if (0 : BitVec 5).toNat < commonPrefix win n q then BitVec.ofNat 5 (commonPrefix win n q) else 0)
      (if (0 : BitVec 5).toNat < commonPrefix win n q then BitVec.ofNat 12 q else mp0) := by
  have hi : (0 : BitVec 5).toNat < commonPrefix win n q := by simp; omega
  simp only [if_pos hi]
  refine ⟨⟨0, Nat.le_refl _, ?_, ?_, fun i c hik hc => ?_⟩⟩
  · rw [BitVec.toNat_ofNat, Nat.mod_eq_of_lt (by omega)]
    exact hm
  · rw [BitVec.toNat_ofNat, Nat.mod_eq_of_lt (by omega), toNat_ofNat_prefix]
  · obtain rfl : i = 0 := by omega
    rw [hc.unique hm, toNat_ofNat_prefix]
    exact ⟨Nat.le_refl _, fun h => by omega⟩

/-- The child that the descent goes to from the place where it is, is the next candidate met. -/
theorem Visit.met_child {ml0 : BitVec 5} {mp1 : Cursor} (hs : t.Sees L R P ml0 mp1)
    (f : Forest (Memory.read win) L R P) {ml : BitVec 5} {mp : Cursor} (h : Visit o win n L R mp0 p right ml mp) {q : Nat}
    (hq : q = (if right then R p else L p)) (h4 : q ≠ 4096) :
    (∀ k, t.Met o win n k p → Mem P p → t.Met o win n (k + 1) q) ∧
      (p = 4097 + (Memory.read win n).toNat → t.Met o win n 0 q) := by
  refine ⟨fun k hk hp => ?_, fun e => ?_⟩
  · rcases h.place f with ⟨e, _⟩ | pl
    · have := hp.1
      omega
    · cases hr : right with
      | true =>
        rw [hr, if_pos rfl, ← hs.right] at hq
        rw [hq]
        exact .right k p hk (pl.goRight hr) (hq ▸ h4)
      | false =>
        rw [hr, if_neg (by simp), ← hs.left] at hq
        rw [hq]
        exact .left k p hk (pl.goLeft hr) (hq ▸ h4)
  · rcases h.place f with ⟨_, hr, _⟩ | pl
    · rw [hr, if_pos rfl, e, ← hs.right] at hq
      rw [hq]
      exact .top (hq ▸ h4)
    · have := pl.mem.1
      omega

theorem Visit.met {ml0 : BitVec 5} {mp1 : Cursor} (hs : t.Sees L R P ml0 mp1) (f : Forest (Memory.read win) L R P)
    {ml : BitVec 5} {mp : Cursor} (h : Visit o win n L R mp0 p right ml mp) :
    p = 4097 + (Memory.read win n).toNat ∨ ∃ k, t.Met o win n k p ∧ BestOf t o win n k ml mp := by
  induction h with
  | root => exact .inl rfl
  | step p q right ml mp hv hq h4 h18 ih =>
    right
    obtain ⟨mq, Pq, kq⟩ := child_mem f (hv.spot f) hq h4
    obtain ⟨c1, c2⟩ := hv.met_child hs f hq h4
    rcases hv.place f with ⟨e, _, e0, e1⟩ | pl
    · subst e0
      exact ⟨0, c2 e, BestOf.first mq.1 (commonPrefix_pos kq) (c2 e)⟩
    · rcases ih with e | ⟨k, hk, hb⟩
      · have := pl.mem.1
        omega
      · exact ⟨k + 1, c1 k hk pl.mem, hb.step mq.1 (c1 k hk pl.mem)⟩

end Path

/-- How the descent ends: `n` is attached to an empty slot, or takes the place of a member with its key. -/
inductive Ended (o : Config.TreeOrder) (win : List Host.Cell) (n : Nat) (L R P : Nat → Nat) (mp0 : Cursor)
    (L' R' P' : Nat → Nat) (ml' : BitVec 5) (mp' : Cursor) : Prop
  | attached (p : Nat) (right : Bool) : Visit o win n L R mp0 p right ml' mp' → (if right then R p else L p) = 4096 →
      L' = (if right then L else upd L p n) → R' = (if right then upd R p n else R) → P' = upd P n p →
      Ended o win n L R P mp0 L' R' P' ml' mp'
  | spliced (p q : Nat) (right : Bool) (ml : BitVec 5) (mp : Cursor) : Visit o win n L R mp0 p right ml mp →
      q = (if right then R p else L p) → q ≠ 4096 → commonPrefix win n q = 18 → Renamed L R P L' R' P' n q →
      ml' = 18 → mp' = BitVec.ofNat 12 q → Ended o win n L R P mp0 L' R' P' ml' mp'

/-- The descent (43_match_finder R125). -/
theorem Finder.Sees.descend (o : Config.TreeOrder) (win : List Host.Cell) (h : t.Sees L R P ml mp)
    (f : Forest (Memory.read win) L R P) {rank : Nat → Nat} (hr : ∀ n, Mem P n → Mem P (P n) → rank (P n) < rank n)
    {n : Nat} (hn : n < 4096) (hP : P n = 4096) (hL : L n = 4096) (hR : R n = 4096) (fuel p b : Nat) (cmp : Int)
    {right : Bool} {mp0 : Cursor} (hg : goesRight o p cmp = right) (hv : Visit o win n L R mp0 p right ml mp)
    (hb : ∀ q, Mem P q → P q = p → b ≤ rank q) (hf : below P rank b < fuel) :
    ∃ g L' R' P' ml' mp', Machine.descend o win n fuel p cmp t = .ok g ∧ g.Sees L' R' P' ml' mp' ∧
      Forest (Memory.read win) L' R' P' ∧ Ended o win n L R P mp0 L' R' P' ml' mp' := by
  induction fuel generalizing p b cmp t ml mp right with
  | zero => omega
  | succ fuel ih =>
    have hpl := hv.spot f
    have p53 : p ≤ 4352 := by
      have := (Memory.read win n).isLt
      rcases hpl with hp | hp
      · omega
      · have := hp.1.1; omega
    have p4 : right = false → p < 4096 := by
      rintro rfl
      rcases hpl with hp | hp
      · simp at hp
      · exact hp.1.1
    have hget : (if right = true then t.getRight p else t.getLeft p) = .ok (if right = true then R p else L p) := by
      split
      · exact h.getRight (by omega)
      · rename_i hrf
        exact h.getLeft (by have := p4 (by simpa using hrf); omega)
    generalize hq : (if right = true then R p else L p) = q at hget
    have hq := hq.symm
    rw [descend_succ, hg, hget, Res.ok_bind]
    by_cases eq : q = Config.nil
    · -- an empty slot
      rw [if_pos eq]
      have eq : q = 4096 := eq
      have key : ∃ g1, (if right = true then t.setRight p n else t.setLeft p n) = .ok g1 ∧
          g1.Sees (if right = true then L else upd L p n) (if right = true then upd R p n else R) P ml mp ∧
          Forest (Memory.read win) (if right = true then L else upd L p n) (if right = true then upd R p n else R)
            (upd P n p) := by
        cases right with
        | true =>
          simp only [if_true] at hq ⊢
          obtain ⟨g1, e1, s1⟩ := h.setRight (x := p) (v := n) p53 (by omega)
          refine ⟨g1, e1, s1, ?_⟩
          rcases hpl with ⟨rfl, _⟩ | ⟨hp, hk⟩
          · exact f.leafRoot hn hP hL hR (by rw [← hq, eq])
          · exact f.leafRight hn hP hL hR hp hk (by rw [← hq, eq])
        | false =>
          have p4 := p4 rfl
          simp only [Bool.false_eq_true, if_false] at hq ⊢
          obtain ⟨g1, e1, s1⟩ := h.setLeft (x := p) (v := n) (by omega) (by omega)
          refine ⟨g1, e1, s1, ?_⟩
          rcases hpl with ⟨rfl, _⟩ | ⟨hp, hk⟩
          · omega
          · exact f.leafLeft hn hP hL hR hp hk (by rw [← hq, eq])
      obtain ⟨g1, e1, s1, f1⟩ := key
      obtain ⟨g, e2, s2⟩ := s1.setParent (x := n) (v := p) (by omega) (by omega)
      refine ⟨g, _, _, _, ml, mp, ?_, s2, f1, .attached p right hv (by rw [← hq, eq]) rfl rfl rfl⟩
      rw [e1, Res.ok_bind, e2]
    · rw [if_neg eq]
      obtain ⟨mq, Pq, kq⟩ := child_mem f hpl hq eq
      have q4 := mq.1
      rw [if_neg (by simp [Config.nil]; omega)]
      obtain ⟨c, ec, i1, ce⟩ := compareKeys_eq win hn q4 kq
      have i2 := (commonPrefix_spec win n q).1
      simp only [ec, Res.ok_bind]
      have rq : b ≤ rank q := hb q mq Pq
      have below1 := below_lt (rank := rank) mq rq
      have hb' : ∀ z, Mem P z → P z = q → rank q + 1 ≤ rank z := by
        intro z mz Pz
        have := hr z mz (by rw [Pz]; exact mq)
        rw [Pz] at this
        omega
      have go : commonPrefix win n q < 18 → _ := fun h18 => Visit.step (o := o) p q right ml mp hv hq eq h18
      rw [h.ml_eq]
      by_cases hi : ml.toNat < commonPrefix win n q
      · rw [if_pos hi]
        simp only [if_pos hi] at go
        have hs : ({ t with mp := BitVec.ofNat 12 q, ml := BitVec.ofNat 5 (commonPrefix win n q) } : Finder).Sees L R P
            (BitVec.ofNat 5 (commonPrefix win n q)) (BitVec.ofNat 12 q) :=
          ⟨h.wfl, h.wfr, h.wfp, h.left, h.right, h.parent, rfl, rfl⟩
        by_cases hi18 : 18 ≤ commonPrefix win n q
        · rw [if_pos hi18]
          obtain ⟨g, L', R', P', eg, sg, fg, mg⟩ := hs.splice f hn hP mq kq
          have e18 : commonPrefix win n q = 18 := by omega
          exact ⟨g, L', R', P', _, _, eg, sg, fg, .spliced p q right ml mp hv hq eq e18 mg (by rw [e18]; rfl) rfl⟩
        · rw [if_neg hi18]
          exact ih hs q (rank q + 1) c (by rw [ce (by omega)]) (go (by omega)) hb' (by omega)
      · rw [if_neg hi]
        simp only [if_neg hi] at go
        have h18 : commonPrefix win n q < 18 := by
          rcases hv.place f with ⟨_, _, e, _⟩ | pl
          · rw [e] at hi
            simp at hi
            omega
          · have := pl.short
            omega
        exact ih h q (rank q + 1) c (by rw [ce h18]) (go h18) hb' (by omega)

/-- `Finder.TreeOk`, over the functions the arrays read as. -/
theorem treeOk_iff (t : Finder) (win : List Host.Cell) : t.TreeOk win ↔ Forest (Memory.read win) t.leftAt t.rightAt t.parentAt :=
  ⟨fun ⟨a, b, c, d, e, f⟩ => ⟨a, b, c, d, e, f⟩, fun ⟨a, b, c, d, e, f⟩ => ⟨a, b, c, d, e, f⟩⟩

theorem under_iff {q m : Nat} : t.Under q m ↔ Und t.parentAt q m := by
  constructor <;> intro h
  · induction h with
    | self => exact .self
    | up m hm _ ih => exact .up m hm ih
  · induction h with
    | self => exact .self
    | up m hm _ ih => exact .up m hm ih

/-- `Finder.Ordered`, over the functions the arrays read as. -/
theorem ordered_iff (t : Finder) (o : Config.TreeOrder) (win : List Host.Cell) :
    t.Ordered o win ↔ InOrder (fun m p => KeyRight o win p m) t.leftAt t.rightAt t.parentAt ∧
      ∀ p m, t.Member p → t.Member m → p ≠ m → ¬ KeysAgree win p m 18 :=
  ⟨fun ⟨a, b, c⟩ => ⟨⟨fun p m hp hm u => a p m hp hm (under_iff.2 u), fun p m hp hm u => b p m hp hm (under_iff.2 u)⟩, c⟩,
    fun ⟨⟨a, b⟩, c⟩ => ⟨fun p m hp hm u => a p m hp hm (under_iff.1 u), fun p m hp hm u => b p m hp hm (under_iff.1 u), c⟩⟩

/-! ## The canonical form, whatever the links are -/

/-- The three arrays are canonical (20_memory R47). -/
def Finder.Canonical (t : Finder) : Prop :=
  Cells.wf Config.nilEntry Config.linkLast t.left ∧ Cells.wf Config.nilEntry Config.rightLast t.right ∧
    Cells.wf Config.nilEntry Config.linkLast t.parent

section Keeps
variable {f g : Finder} {x v : Nat}

theorem Finder.setLeft_keeps (hf : f.Canonical) (h : f.setLeft x v = .ok g) : g.Canonical ∧ g.ml = f.ml := by
  unfold Finder.setLeft at h
  split at h
  · rename_i hx
    exact Except.ok.inj h ▸ ⟨⟨Cells.write_wf _ _ _ _ _ hx hf.1, hf.2.1, hf.2.2⟩, rfl⟩
  · simp at h

theorem Finder.setRight_keeps (hf : f.Canonical) (h : f.setRight x v = .ok g) : g.Canonical ∧ g.ml = f.ml := by
  unfold Finder.setRight at h
  split at h
  · rename_i hx
    exact Except.ok.inj h ▸ ⟨⟨hf.1, Cells.write_wf _ _ _ _ _ hx hf.2.1, hf.2.2⟩, rfl⟩
  · simp at h

theorem Finder.setParent_keeps (hf : f.Canonical) (h : f.setParent x v = .ok g) : g.Canonical ∧ g.ml = f.ml := by
  unfold Finder.setParent at h
  split at h
  · rename_i hx
    exact Except.ok.inj h ▸ ⟨⟨hf.1, hf.2.1, Cells.write_wf _ _ _ _ _ hx hf.2.2⟩, rfl⟩
  · simp at h

theorem Finder.relink_keeps (hf : f.Canonical) (h : f.relink x v = .ok g) : g.Canonical ∧ g.ml = f.ml := by
  simp only [Finder.relink, Res.bind_eq_ok] at h
  obtain ⟨_, _, _, _, h⟩ := h
  split at h
  · exact Finder.setRight_keeps hf h
  · exact Finder.setLeft_keeps hf h

theorem Finder.splice_keeps (hf : f.Canonical) (h : f.splice x v = .ok g) : g.Canonical ∧ g.ml = f.ml := by
  simp only [Finder.splice, Res.bind_eq_ok] at h
  obtain ⟨_, _, _, _, _, _, _, h1, _, h2, _, h3, _, h4, _, h5, _, h6, h7⟩ := h
  obtain ⟨c1, m1⟩ := Finder.setParent_keeps hf h1
  obtain ⟨c2, m2⟩ := Finder.setLeft_keeps c1 h2
  obtain ⟨c3, m3⟩ := Finder.setRight_keeps c2 h3
  obtain ⟨c4, m4⟩ := Finder.setParent_keeps c3 h4
  obtain ⟨c5, m5⟩ := Finder.setParent_keeps c4 h5
  obtain ⟨c6, m6⟩ := Finder.relink_keeps c5 h6
  obtain ⟨c7, m7⟩ := Finder.setParent_keeps c6 h7
  exact ⟨c7, by rw [m7, m6, m5, m4, m3, m2, m1]⟩

theorem compareKeys_le {win : List Host.Cell} {n p k i : Nat} {r : Nat × Int} (h : compareKeys win n p k i = .ok r) :
    i ≤ r.1 ∧ r.1 ≤ i + k := by
  induction k generalizing i with
  | zero => exact Except.ok.inj h ▸ ⟨Nat.le_refl _, Nat.le_refl _⟩
  | succ k ih =>
    simp only [compareKeys, Res.bind_eq_ok] at h
    obtain ⟨_, _, _, _, h⟩ := h
    split at h
    · have := ih h
      omega
    · exact Except.ok.inj h ▸ ⟨Nat.le_refl _, by simp⟩

theorem descend_keeps {o : Config.TreeOrder} {win : List Host.Cell} {n fuel p : Nat} {cmp : Int} (hf : f.Canonical)
    (hm : f.ml.toNat ≤ 18) (h : descend o win n fuel p cmp f = .ok g) : g.Canonical ∧ g.ml.toNat ≤ 18 := by
  induction fuel generalizing p cmp f with
  | zero => simp [descend] at h
  | succ fuel ih =>
    rw [descend_succ] at h
    simp only [Res.bind_eq_ok] at h
    obtain ⟨q, _, h⟩ := h
    split at h
    · obtain ⟨f1, h1, h2⟩ := Res.bind_eq_ok _ _ _ |>.1 h
      have key : f1.Canonical ∧ f1.ml = f.ml := by
        split at h1
        · exact Finder.setRight_keeps hf h1
        · exact Finder.setLeft_keeps hf h1
      obtain ⟨c, m⟩ := Finder.setParent_keeps key.1 h2
      exact ⟨c, by rw [m, key.2]; exact hm⟩
    · split at h
      · simp at h
      · obtain ⟨r, hr, h⟩ := Res.bind_eq_ok _ _ _ |>.1 h
        have hr := compareKeys_le hr
        split at h
        · split at h
          · obtain ⟨c, m⟩ := Finder.splice_keeps (f := { f with mp := BitVec.ofNat 12 q, ml := BitVec.ofNat 5 r.1 }) hf h
            exact ⟨c, by rw [m]; simp; omega⟩
          · exact ih (f := { f with mp := BitVec.ofNat 12 q, ml := BitVec.ofNat 5 r.1 }) hf (by simp; omega) h
        · exact ih hf hm h

/-- Every `insert_node` that answers keeps the canonical form, and tells a match of at most 18 bytes. -/
theorem insertNode_keeps {o : Config.TreeOrder} {win : List Host.Cell} {n : Cursor} (hf : f.Canonical)
    (h : insertNode o win n f = .ok g) : g.Canonical ∧ g.ml.toNat ≤ 18 := by
  simp only [insertNode, Res.bind_eq_ok] at h
  obtain ⟨f1, h1, f2, h2, h⟩ := h
  have c := (Finder.setLeft_keeps (Finder.setRight_keeps hf h1).1 h2).1
  exact descend_keeps (f := { f2 with ml := 0 }) c (by simp) h

theorem Finder.promote_keeps {l r : Nat} {q : Nat × Finder} (hf : f.Canonical) (h : f.promote l r = .ok q) :
    q.2.Canonical ∧ q.2.ml = f.ml := by
  simp only [Finder.promote, Res.bind_eq_ok] at h
  obtain ⟨lr, _, h⟩ := h
  split at h
  · simp only [Res.ok_bind, Res.bind_eq_ok] at h
    obtain ⟨f1, h1, f2, h2, h3⟩ := h
    obtain ⟨c1, m1⟩ := Finder.setRight_keeps hf h1
    obtain ⟨c2, m2⟩ := Finder.setParent_keeps c1 h2
    exact Except.ok.inj h3 ▸ ⟨c2, by rw [m2, m1]⟩
  · simp only [Res.ok_bind, Res.bind_eq_ok] at h
    obtain ⟨z, _, up, _, c, _, f1, h1, f2, h2, f3, h3, f4, h4, f5, h6, f6, h7, h8⟩ := h
    obtain ⟨c1, m1⟩ := Finder.setRight_keeps hf h1
    obtain ⟨c2, m2⟩ := Finder.setParent_keeps c1 h2
    obtain ⟨c3, m3⟩ := Finder.setLeft_keeps c2 h3
    obtain ⟨c4, m4⟩ := Finder.setParent_keeps c3 h4
    obtain ⟨c5, m5⟩ := Finder.setRight_keeps c4 h6
    obtain ⟨c6, m6⟩ := Finder.setParent_keeps c5 h7
    exact Except.ok.inj h8 ▸ ⟨c6, by rw [m6, m5, m4, m3, m2, m1]⟩

/-- Every `delete_node` that answers keeps the canonical form and the match. -/
theorem deleteNode_keeps {p : Cursor} (hf : f.Canonical) (h : deleteNode p f = .ok g) :
    g.Canonical ∧ g.ml = f.ml := by
  have last : ∀ {f1 : Finder} {q up : Nat}, f1.Canonical → f1.ml = f.ml →
      (f1.setParent q up >>= fun t => t.relink p.toNat q >>= fun t => t.setParent p.toNat Config.nil) = .ok g →
        g.Canonical ∧ g.ml = f.ml := by
    intro f1 q up c m h
    simp only [Res.bind_eq_ok] at h
    obtain ⟨f2, h2, f3, h3, h4⟩ := h
    obtain ⟨c2, m2⟩ := Finder.setParent_keeps c h2
    obtain ⟨c3, m3⟩ := Finder.relink_keeps c2 h3
    obtain ⟨c4, m4⟩ := Finder.setParent_keeps c3 h4
    exact ⟨c4, by rw [m4, m3, m2, m]⟩
  simp only [deleteNode] at h
  obtain ⟨up, _, h⟩ := (Res.bind_eq_ok _ _ _).1 h
  split at h
  · exact Except.ok.inj h ▸ ⟨hf, rfl⟩
  · obtain ⟨l, _, h⟩ := (Res.bind_eq_ok _ _ _).1 h
    obtain ⟨r, _, h⟩ := (Res.bind_eq_ok _ _ _).1 h
    split at h
    · exact last hf rfl h
    · split at h
      · exact last hf rfl h
      · obtain ⟨⟨q, f1⟩, h1, h⟩ := (Res.bind_eq_ok _ _ _).1 h
        obtain ⟨c, m⟩ := Finder.promote_keeps hf h1
        exact last c m h

end Keeps

end Sys2Proof.Machine
end

