-- ==== Sys2Proof/Laws/Compress.lean ====
section
/-! SUPPORT. One law for each operation of the compression unit: everything it can answer, with the next state written
out (42_compress R104, R107 to R112). -/
namespace Sys2Proof.Machine

/-! ## The match finder inside the unit -/

/-- The state with another match finder. -/
def State.withFinder (s : State) (f : Finder) : State := { s with cu := { s.cu with finder := f } }

/-- What an `insert_node` inside the unit can answer. -/
theorem insertAtCursor_cases {o : Config.TreeOrder} {s t : State} (h : insertAtCursor o s = .ok t) :
    ∃ f, insertNode o s.win s.curR s.cu.finder = .ok f ∧ t = s.withFinder f := by
  simp only [insertAtCursor, Res.bind_eq_ok] at h
  obtain ⟨f, hf, ht⟩ := h
  exact ⟨f, hf, (Except.ok.inj ht).symm⟩

/-- What a `delete_node` inside the unit can answer. -/
theorem deleteAtInput_cases {s t : State} (h : deleteAtInput s = .ok t) :
    ∃ f, deleteNode s.cu.curS s.cu.finder = .ok f ∧ t = s.withFinder f := by
  simp only [deleteAtInput, Res.bind_eq_ok] at h
  obtain ⟨f, hf, ht⟩ := h
  exact ⟨f, hf, (Except.ok.inj ht).symm⟩

/-! ## The window advance -/

/-- The window after the input byte `b` was written at `S` with its mirror (42_compress R110, 20_memory R46). -/
def windowAfter (win : List Host.Cell) (curS : Cursor) (b : Byte) : List Host.Cell :=
  if curS.toNat < 17 then Memory.write (Memory.write win curS.toNat b) (curS.toNat + 4096) b
  else Memory.write win curS.toNat b

/-- The state after an advance step that read `b`, with the match finder `f` (42_compress R110). -/
def State.advancedInput (s : State) (b : Byte) (f : Finder) : State :=
  { s with
    regs := { s.regs with
      inCount := s.regs.inCount + 1
      csum := csumAdd s.sampled.signed s.regs.csum b }
    src := { s.src with pos := s.src.pos + 1 }
    win := windowAfter s.win s.cu.curS b
    curR := s.curR + 1
    cu := { s.cu with curS := s.cu.curS + 1, finder := f } }

/-- The state after a drain step, with the match finder `f` (42_compress R111). -/
def State.advancedDrain (s : State) (f : Finder) : State :=
  { s with
    src := { s.src with eos := true }
    curR := s.curR + 1
    cu := { s.cu with curS := s.cu.curS + 1, len := s.cu.len - 1, finder := f } }

/-- Everything an advance step can answer (42_compress R110, R111). -/
theorem advanceStep_cases {o : Config.TreeOrder} {s t : State} (h : advanceStep o s = .ok t) :
    (∃ b f g, s.src.bytes[s.src.pos]? = some b ∧ s.regs.inCount.toNat + 1 < 2 ^ 32 ∧
        deleteNode s.cu.curS s.cu.finder = .ok f ∧
        insertNode o (windowAfter s.win s.cu.curS b) (s.curR + 1) f = .ok g ∧ t = s.advancedInput b g) ∨
      (∃ f g, s.src.bytes[s.src.pos]? = none ∧ deleteNode s.cu.curS s.cu.finder = .ok f ∧
        (if s.cu.len - 1 = 0 then g = f else insertNode o s.win (s.curR + 1) f = .ok g) ∧ t = s.advancedDrain g) := by
  simp only [advanceStep, Res.bind_eq_ok] at h
  obtain ⟨⟨b, s1⟩, h1, h2⟩ := h
  rcases streamRead_cases h1 with ⟨b, hb, hc, he⟩ | ⟨hb, he⟩
  · obtain ⟨rfl, rfl⟩ := Prod.mk.inj he
    left
    simp only [advanceInput, Res.bind_eq_ok] at h2
    obtain ⟨s2, h3, h4⟩ := h2
    obtain ⟨f, hf, rfl⟩ := deleteAtInput_cases h3
    obtain ⟨g, hg, rfl⟩ := insertAtCursor_cases h4
    exact ⟨b, f, g, hb, hc, hf, hg, rfl⟩
  · obtain ⟨rfl, rfl⟩ := Prod.mk.inj he
    right
    simp only [drainStep, Res.bind_eq_ok] at h2
    obtain ⟨s2, h3, h4⟩ := h2
    obtain ⟨f, hf, rfl⟩ := deleteAtInput_cases h3
    change (if s.cu.len - 1 = 0 then _ else _) = _ at h4
    split at h4
    · rename_i hz
      exact ⟨f, f, hb, hf, by rw [if_pos hz], (Except.ok.inj h4).symm⟩
    · rename_i hz
      obtain ⟨g, hg, rfl⟩ := insertAtCursor_cases h4
      exact ⟨f, g, hb, hf, by rw [if_neg hz]; exact hg, rfl⟩

/-- An advance step with a byte to read answers when its two operations on the forest do. -/
theorem advanceStep_input {o : Config.TreeOrder} {s : State} {b : Byte} {f g : Finder}
    (hb : s.src.bytes[s.src.pos]? = some b) (hc : s.regs.inCount.toNat + 1 < 2 ^ 32)
    (hf : deleteNode s.cu.curS s.cu.finder = .ok f)
    (hg : insertNode o (windowAfter s.win s.cu.curS b) (s.curR + 1) f = .ok g) :
    advanceStep o s = .ok (s.advancedInput b g) := by
  rw [advanceStep, streamRead_some hb hc, Res.ok_bind]
  simp only [advanceInput]
  have h1 : deleteAtInput (addToCsum b (s.afterReading 1)) = .ok ((addToCsum b (s.afterReading 1)).withFinder f) := by
    have : deleteNode (addToCsum b (s.afterReading 1)).cu.curS (addToCsum b (s.afterReading 1)).cu.finder = .ok f := hf
    rw [deleteAtInput, this]
    rfl
  rw [h1, Res.ok_bind]
  change (insertNode o (windowAfter s.win s.cu.curS b) (s.curR + 1) f >>= _) = _
  rw [hg]
  rfl

/-- A drain step answers when its operations on the forest do. -/
theorem advanceStep_drain {o : Config.TreeOrder} {s : State} {f g : Finder}
    (hb : s.src.bytes[s.src.pos]? = none) (hf : deleteNode s.cu.curS s.cu.finder = .ok f)
    (hg : if s.cu.len - 1 = 0 then g = f else insertNode o s.win (s.curR + 1) f = .ok g) :
    advanceStep o s = .ok (s.advancedDrain g) := by
  rw [advanceStep, streamRead_none hb, Res.ok_bind]
  simp only [drainStep]
  have h1 : deleteAtInput { s with src := { s.src with eos := true } } =
      .ok (({ s with src := { s.src with eos := true } } : State).withFinder f) := by
    have : deleteNode ({ s with src := { s.src with eos := true } } : State).cu.curS
        ({ s with src := { s.src with eos := true } } : State).cu.finder = .ok f := hf
    rw [deleteAtInput, this]
    rfl
  rw [h1, Res.ok_bind]
  change (if s.cu.len - 1 = 0 then _ else _) = _
  by_cases hz : s.cu.len - 1 = 0
  · rw [if_pos hz] at hg ⊢
    rw [hg]
    rfl
  · rw [if_neg hz] at hg ⊢
    change (insertNode o s.win (s.curR + 1) f >>= _) = _
    rw [hg]
    rfl

/-- An advance step answers, or it stops where one of its parts stops. -/
theorem advanceStep_error {o : Config.TreeOrder} {s : State} {e : Stop} (h : advanceStep o s = .error e) :
    e = .refused .beyondCounters ∨ deleteNode s.cu.curS s.cu.finder = .error e ∨
      ∃ win f, insertNode o win (s.curR + 1) f = .error e := by
  simp only [advanceStep, Res.bind_eq_error] at h
  rcases h with h | ⟨⟨b, s1⟩, h1, h2⟩
  · exact .inl (streamRead_error h)
  · have del : ∀ u : State, u.cu.curS = s.cu.curS → u.cu.finder = s.cu.finder → deleteAtInput u = .error e →
        deleteNode s.cu.curS s.cu.finder = .error e := by
      intro u h1 h2 hu
      simp only [deleteAtInput, Res.bind_eq_error] at hu
      rcases hu with hu | ⟨f, _, hu⟩
      · rw [← h1, ← h2]; exact hu
      · simp at hu
    have ins : ∀ u : State, u.curR = s.curR + 1 → insertAtCursor o u = .error e →
        ∃ win f, insertNode o win (s.curR + 1) f = .error e := by
      intro u h1 hu
      simp only [insertAtCursor, Res.bind_eq_error] at hu
      rcases hu with hu | ⟨f, _, hu⟩
      · exact ⟨_, _, h1 ▸ hu⟩
      · simp at hu
    rcases streamRead_cases h1 with ⟨b, hb, hc, he⟩ | ⟨hb, he⟩
    · obtain ⟨rfl, rfl⟩ := Prod.mk.inj he
      simp only [advanceInput, Res.bind_eq_error] at h2
      rcases h2 with h2 | ⟨s2, h3, h4⟩
      · exact .inr (.inl (del (addToCsum b (s.afterReading 1)) rfl rfl h2))
      · obtain ⟨f, hf, rfl⟩ := deleteAtInput_cases h3
        exact .inr (.inr (ins _ rfl h4))
    · obtain ⟨rfl, rfl⟩ := Prod.mk.inj he
      simp only [drainStep, Res.bind_eq_error] at h2
      rcases h2 with h2 | ⟨s2, h3, h4⟩
      · exact .inr (.inl (del { s with src := { s.src with eos := true } } rfl rfl h2))
      · obtain ⟨f, hf, rfl⟩ := deleteAtInput_cases h3
        split at h4
        · simp at h4
        · exact .inr (.inr (ins _ rfl h4))

/-- What every advance step keeps, every advance keeps. -/
theorem advance_induct {o : Config.TreeOrder} (motive : State → Prop)
    (hstep : ∀ s t, motive s → advanceStep o s = .ok t → motive t) {k : Nat} {s t : State} (hs : motive s)
    (h : advance o k s = .ok t) : motive t := by
  induction k generalizing s with
  | zero => exact Except.ok.inj h ▸ hs
  | succ k ih =>
    simp only [advance, Res.bind_eq_ok] at h
    obtain ⟨s1, h1, h2⟩ := h
    exact ih (hstep s s1 hs h1) h2

/-! ### The window after an input byte -/

theorem windowAfter_wf {win : List Host.Cell} (h : Memory.wf win) (curS : Cursor) (b : Byte) :
    Memory.wf (windowAfter win curS b) := by
  have := curS.isLt
  unfold windowAfter
  split
  · exact Memory.write_wf _ _ _ (by simp [Config.winLast]; omega) (Memory.write_wf _ _ _ (by simp [Config.winLast]; omega) h)
  · exact Memory.write_wf _ _ _ (by simp [Config.winLast]; omega) h

/-- Below 4096 only the byte at `S` changes. -/
theorem windowAfter_read {win : List Host.Cell} (h : Memory.wf win) (curS : Cursor) (b : Byte) {a : Nat} (ha : a < 4096) :
    Memory.read (windowAfter win curS b) a = if a = curS.toNat then b else Memory.read win a := by
  have := curS.isLt
  unfold windowAfter
  split
  · rw [Memory.read_write _ _ _ _ (Memory.write_wf _ _ _ (by simp [Config.winLast]; omega) h), if_neg (by omega),
      Memory.read_write _ _ _ _ h]
  · rw [Memory.read_write _ _ _ _ h]

/-- Only the two cells of the place `S` change. -/
theorem windowAfter_other {win : List Host.Cell} (h : Memory.wf win) (curS : Cursor) (b : Byte) {a : Nat}
    (ha : a % 4096 ≠ curS.toNat) : Memory.read (windowAfter win curS b) a = Memory.read win a := by
  have := curS.isLt
  unfold windowAfter
  split
  · rw [Memory.read_write _ _ _ _ (Memory.write_wf _ _ _ (by simp [Config.winLast]; omega) h), if_neg (by omega),
      Memory.read_write _ _ _ _ h, if_neg (by omega)]
  · rw [Memory.read_write _ _ _ _ h, if_neg (by omega)]

/-- The mirror follows its twin (20_memory R46). -/
theorem windowAfter_mirror {win : List Host.Cell} (h : Memory.wf win) (curS : Cursor) (b : Byte) {j : Nat} (hj : j < 17)
    (hm : Memory.read win (4096 + j) = Memory.read win j) :
    Memory.read (windowAfter win curS b) (4096 + j) = Memory.read (windowAfter win curS b) j := by
  have := curS.isLt
  unfold windowAfter
  split
  · have hw := Memory.write_wf _ curS.toNat b (by simp [Config.winLast]; omega) h
    rw [Memory.read_write _ _ _ _ hw, Memory.read_write _ _ _ _ hw, Memory.read_write _ _ _ _ h,
      Memory.read_write _ _ _ _ h]
    by_cases e : j = curS.toNat
    · rw [if_pos (by omega), if_neg (by omega), if_pos e]
    · rw [if_neg (by omega), if_neg (by omega), if_neg (by omega), if_neg e, hm]
  · rw [Memory.read_write _ _ _ _ h, Memory.read_write _ _ _ _ h, if_neg (by omega), if_neg (by omega), hm]

/-! ## The group buffer -/

/-- What a write of the group buffer can answer. -/
theorem gbufSet_cases {i : Nat} {b : Byte} {s t : State} (h : gbufSet i b s = .ok t) :
    ∃ hi : i < 17, t = { s with cu := { s.cu with gbuf := s.cu.gbuf.set i b hi } } := by
  unfold gbufSet at h
  split at h
  · rename_i hi
    exact ⟨hi, (Except.ok.inj h).symm⟩
  · simp at h

theorem gbufSet_ok {i : Nat} {b : Byte} {s : State} (hi : i < 17) :
    gbufSet i b s = .ok { s with cu := { s.cu with gbuf := s.cu.gbuf.set i b hi } } := by
  simp [gbufSet, hi]

/-- The state with other contents of the group. -/
def State.withGroup (s : State) (gbuf : Vector Byte 17) (gptr : BitVec 5) (gmask : Byte) : State :=
  { s with cu := { s.cu with gbuf := gbuf, gptr := gptr, gmask := gmask } }

/-- Appending the bytes of a token: they join the group, its flag byte is kept (42_compress R107, R108). -/
theorem gbufAppend_ok (bs : List Byte) {s : State} (h1 : 1 ≤ s.cu.gptr.toNat) (h : s.cu.gptr.toNat + bs.length ≤ 17) :
    ∃ gbuf, gbufAppend bs s = .ok (s.withGroup gbuf (s.cu.gptr + BitVec.ofNat 5 bs.length) s.cu.gmask) ∧
      gbuf[0] = s.cu.gbuf[0] ∧
      gbuf.toList.take (s.cu.gptr.toNat + bs.length) = s.cu.gbuf.toList.take s.cu.gptr.toNat ++ bs := by
  induction bs generalizing s with
  | nil =>
    refine ⟨s.cu.gbuf, ?_, rfl, by simp⟩
    simp [gbufAppend, State.withGroup]
  | cons b rest ih =>
    simp only [List.length_cons] at h
    have hp : (s.cu.gptr + 1).toNat = s.cu.gptr.toNat + 1 := by
      rw [BitVec.toNat_add]
      simp
      omega
    rw [gbufAppend, gbufSet_ok (show s.cu.gptr.toNat < 17 by omega), Res.ok_bind]
    obtain ⟨gbuf, hg, h0, ht⟩ :=
      ih (s := s.withGroup (s.cu.gbuf.set s.cu.gptr.toNat b (by omega)) (s.cu.gptr + 1) s.cu.gmask)
        (by simp only [State.withGroup, hp]; omega) (by simp only [State.withGroup, hp]; omega)
    refine ⟨gbuf, ?_, ?_, ?_⟩
    · refine Eq.trans ?_ (hg.trans ?_)
      · rfl
      · simp [State.withGroup, BitVec.add_assoc, BitVec.ofNat_add, BitVec.add_comm, List.length_cons]
    · rw [h0]
      simp only [State.withGroup]
      rw [Vector.getElem_set_ne]
      omega
    · simp only [State.withGroup, hp] at ht
      rw [List.length_cons, show s.cu.gptr.toNat + (rest.length + 1) = s.cu.gptr.toNat + 1 + rest.length by omega, ht]
      have : (s.cu.gbuf.set s.cu.gptr.toNat b (by omega)).toList.take (s.cu.gptr.toNat + 1) =
          s.cu.gbuf.toList.take s.cu.gptr.toNat ++ [b] := by
        simp only [Vector.toList_set]
        rw [List.take_succ_eq_append_getElem (by simp; omega)]
        simp [List.take_set_of_le]
      rw [this]
      simp

/-- The group goes to the sink (42_compress R109, R112). -/
theorem writeGroup_cases {s t : State} (h : writeGroup s = .ok t) :
    s.cu.gptr.toNat ≤ 17 ∧ s.regs.outCount.toNat + s.cu.groupBytes.length < 2 ^ 32 ∧
      t = s.afterWriting s.cu.groupBytes := by
  unfold writeGroup at h
  split at h
  · rename_i hp
    exact ⟨hp, streamWriteAll_cases h⟩
  · simp at h

theorem writeGroup_ok {s : State} (hp : s.cu.gptr.toNat ≤ 17)
    (hc : s.regs.outCount.toNat + s.cu.groupBytes.length < 2 ^ 32) :
    writeGroup s = .ok (s.afterWriting s.cu.groupBytes) := by
  rw [writeGroup, if_pos hp]
  exact streamWriteAll_ok _ hc

theorem writeGroup_error {s : State} {e : Stop} (hp : s.cu.gptr.toNat ≤ 17) (h : writeGroup s = .error e) :
    e = .refused .beyondCounters := by
  rw [writeGroup, if_pos hp] at h
  exact streamWriteAll_error h

/-- Everything that closing a token can answer (42_compress R109). -/
theorem closeToken_cases {s t : State} (h : closeToken s = .ok t) :
    (s.cu.gmask <<< 1 ≠ 0 ∧ t = s.withGroup s.cu.gbuf s.cu.gptr (s.cu.gmask <<< 1)) ∨
      (s.cu.gmask <<< 1 = 0 ∧ s.cu.gptr.toNat ≤ 17 ∧ s.regs.outCount.toNat + s.cu.groupBytes.length < 2 ^ 32 ∧
        t = (s.afterWriting s.cu.groupBytes).withGroup (s.cu.gbuf.set 0 0) 1 1) := by
  simp only [closeToken] at h
  split at h
  · rename_i hz
    simp only [Res.bind_eq_ok] at h
    obtain ⟨s2, h2, s3, h3, h4⟩ := h
    obtain ⟨hp, hc, rfl⟩ := writeGroup_cases h2
    obtain ⟨_, rfl⟩ := gbufSet_cases h3
    exact .inr ⟨hz, hp, hc, (Except.ok.inj h4).symm⟩
  · rename_i hz
    exact .inl ⟨hz, (Except.ok.inj h).symm⟩

theorem closeToken_open {s : State} (h : s.cu.gmask <<< 1 ≠ 0) :
    closeToken s = .ok (s.withGroup s.cu.gbuf s.cu.gptr (s.cu.gmask <<< 1)) := by
  simp only [closeToken]
  rw [if_neg h]
  rfl

theorem closeToken_full {s : State} (h : s.cu.gmask <<< 1 = 0) (hp : s.cu.gptr.toNat ≤ 17)
    (hc : s.regs.outCount.toNat + s.cu.groupBytes.length < 2 ^ 32) :
    closeToken s = .ok ((s.afterWriting s.cu.groupBytes).withGroup (s.cu.gbuf.set 0 0) 1 1) := by
  simp only [closeToken]
  rw [if_pos h]
  have := writeGroup_ok (s := s.withGroup s.cu.gbuf s.cu.gptr (s.cu.gmask <<< 1)) hp hc
  change writeGroup (s.withGroup s.cu.gbuf s.cu.gptr (s.cu.gmask <<< 1)) >>= _ = _
  rw [this, Res.ok_bind, gbufSet_ok (by omega)]
  rfl

theorem closeToken_error {s : State} {e : Stop} (hp : s.cu.gptr.toNat ≤ 17) (h : closeToken s = .error e) :
    e = .refused .beyondCounters := by
  simp only [closeToken] at h
  split at h
  · simp only [Res.bind_eq_error] at h
    rcases h with h | ⟨s2, h2, h⟩
    · exact writeGroup_error (s := s.withGroup s.cu.gbuf s.cu.gptr (s.cu.gmask <<< 1)) hp h
    · rcases h with h | ⟨s3, h3, h⟩
      · rw [gbufSet_ok (by omega)] at h
        simp at h
      · simp at h
  · simp at h

/-! ## Tokens -/

/-- A literal of a `COMP`: its byte joins the group with its flag bit, the token is closed, the window advances
(42_compress R107). -/
theorem cuLit_eq (o : Config.TreeOrder) (d : Byte) {s : State} (hl : s.cu.len ≠ 0) (h1 : 1 ≤ s.cu.gptr.toNat)
    (h16 : s.cu.gptr.toNat ≤ 16) :
    ∃ gbuf, gbuf[0] = s.cu.gbuf[0] ||| s.cu.gmask ∧
      gbuf.toList.take (s.cu.gptr.toNat + 1) = (s.cu.gbuf[0] ||| s.cu.gmask) :: s.cu.groupBytes.tail ++ [d] ∧
      cuLit o d s =
        closeToken ((s.withFinder { s.cu.finder with ml := 1 }).withGroup gbuf (s.cu.gptr + 1) s.cu.gmask) >>=
          advance o 1 := by
  obtain ⟨gbuf, hg, h0, ht⟩ := gbufAppend_ok [d]
    (s := (s.withFinder { s.cu.finder with ml := 1 }).withGroup (s.cu.gbuf.set 0 (s.cu.gbuf[0] ||| s.cu.gmask))
      s.cu.gptr s.cu.gmask) h1 (by simp only [State.withGroup, List.length_cons, List.length_nil]; omega)
  refine ⟨gbuf, ?_, ?_, ?_⟩
  · rw [h0]; simp [State.withGroup]
  · refine Eq.trans ht ?_
    have hset : (s.cu.gbuf.set 0 (s.cu.gbuf[0] ||| s.cu.gmask)).toList.take s.cu.gptr.toNat =
        (s.cu.gbuf[0] ||| s.cu.gmask) :: s.cu.groupBytes.tail := by
      obtain ⟨n, hn⟩ : ∃ n, s.cu.gptr.toNat = n + 1 := ⟨s.cu.gptr.toNat - 1, by omega⟩
      have hl : s.cu.gbuf.toList.length = 17 := by simp
      simp only [CU.groupBytes, Vector.toList_set, hn]
      cases hL : s.cu.gbuf.toList with
      | nil => simp [hL] at hl
      | cons x xs => simp
    simp only [State.withGroup, State.withFinder]
    rw [hset]
  · rw [cuLit, if_neg hl]
    simp only [gbufSet_ok (show 0 < 17 by omega), Res.ok_bind]
    have hg' : gbufAppend [d] { s with
        cu := { s.cu with
          gbuf := s.cu.gbuf.set 0 (s.cu.gbuf[0] ||| s.cu.gmask), finder := { s.cu.finder with ml := 1 } } } = _ := hg
    rw [hg', Res.ok_bind]
    rfl

/-- A reference of a `COMP`: its two bytes join the group, the token is closed, the window advances (42_compress
R108). -/
theorem cuRef_eq (o : Config.TreeOrder) (offset : Cursor) {count : Nat} {s : State} (h3 : 3 ≤ count)
    (hl : count ≤ s.cu.len.toNat) (h1 : 1 ≤ s.cu.gptr.toNat) (h15 : s.cu.gptr.toNat ≤ 15) :
    ∃ gbuf, gbuf[0] = s.cu.gbuf[0] ∧
      gbuf.toList.take (s.cu.gptr.toNat + 2) = s.cu.groupBytes ++ refBytes offset count ∧
      cuRef o offset count s = closeToken (s.withGroup gbuf (s.cu.gptr + 2) s.cu.gmask) >>= advance o count := by
  obtain ⟨gbuf, hg, h0, ht⟩ := gbufAppend_ok (refBytes offset count) (s := s) h1
    (by simp only [refBytes, List.length_cons, List.length_nil]; omega)
  refine ⟨gbuf, h0, ht, ?_⟩
  rw [cuRef, if_pos ⟨h3, hl⟩, hg, Res.ok_bind]
  rfl

/-- A literal that answers was selected. -/
theorem cuLit_selected {o : Config.TreeOrder} {d : Byte} {s t : State} (h : cuLit o d s = .ok t) : s.cu.len ≠ 0 := by
  intro e
  rw [cuLit, if_pos e] at h
  simp at h

/-- A reference that answers was selected. -/
theorem cuRef_selected {o : Config.TreeOrder} {offset : Cursor} {count : Nat} {s t : State}
    (h : cuRef o offset count s = .ok t) : 3 ≤ count ∧ count ≤ s.cu.len.toNat := by
  unfold cuRef at h
  split at h
  · assumption
  · simp at h

/-- The end of a block, its parts in a chain (42_compress R112). -/
theorem cuTrailer_eq (w : Word) (s : State) :
    cuTrailer w s =
      if s.cu.len = 0 then
        (if 1 < s.cu.gptr.toNat then writeGroup s else .ok s) >>= fun s1 =>
          streamWriteAll (bytesOfWord w) s1 >>= fun s2 => .ok (finish s2.regs.outCount s2)
      else .error (.fault .notSelected) := by
  unfold cuTrailer
  split
  · split <;> rfl
  · rfl

/-! ### What every token keeps -/

section Keeps
variable (motive : State → Prop)
  (group : ∀ s gbuf gptr gmask, motive s → motive (s.withGroup gbuf gptr gmask))
  (write : ∀ (s : State) (b : Byte), motive s → s.regs.outCount.toNat + 1 < 2 ^ 32 → motive (s.afterWriting [b]))

include write in
theorem streamWriteAll_keeps {bs : List Byte} {s t : State} (hs : motive s) (h : streamWriteAll bs s = .ok t) :
    motive t := by
  induction bs generalizing s with
  | nil => exact Except.ok.inj h ▸ hs
  | cons b rest ih =>
    simp only [streamWriteAll, Res.bind_eq_ok] at h
    obtain ⟨s1, h1, h2⟩ := h
    obtain ⟨hc, rfl⟩ := streamWrite_cases h1
    exact ih (write s b hs hc) h2

include group in
theorem gbufSet_keeps {i : Nat} {b : Byte} {s t : State} (hs : motive s) (h : gbufSet i b s = .ok t) : motive t := by
  obtain ⟨_, rfl⟩ := gbufSet_cases h
  exact group s _ s.cu.gptr s.cu.gmask hs

include group in
theorem gbufAppend_keeps {bs : List Byte} {s t : State} (hs : motive s) (h : gbufAppend bs s = .ok t) : motive t := by
  induction bs generalizing s with
  | nil => exact Except.ok.inj h ▸ hs
  | cons b rest ih =>
    simp only [gbufAppend, Res.bind_eq_ok] at h
    obtain ⟨s1, h1, h2⟩ := h
    have := gbufSet_keeps motive group hs h1
    exact ih (group s1 s1.cu.gbuf (s1.cu.gptr + 1) s1.cu.gmask this) h2

include group write in
theorem closeToken_keeps {s t : State} (hs : motive s) (h : closeToken s = .ok t) : motive t := by
  simp only [closeToken] at h
  have h0 := group s s.cu.gbuf s.cu.gptr (s.cu.gmask <<< 1) hs
  split at h
  · simp only [Res.bind_eq_ok] at h
    obtain ⟨s2, h2, s3, h3, h4⟩ := h
    unfold writeGroup at h2
    split at h2
    · have h5 := streamWriteAll_keeps motive write h0 h2
      have h6 := gbufSet_keeps motive group h5 h3
      exact Except.ok.inj h4 ▸ group s3 s3.cu.gbuf 1 1 h6
    · simp at h2
  · exact Except.ok.inj h ▸ h0

include group write in
/-- What the parts of a literal of a `COMP` keep, the literal keeps. -/
theorem cuLit_keeps {o : Config.TreeOrder}
    (short : ∀ s : State, motive s → motive (s.withFinder { s.cu.finder with ml := 1 }))
    (adv : ∀ s t, motive s → advanceStep o s = .ok t → motive t) {d : Byte} {s t : State} (hs : motive s)
    (h : cuLit o d s = .ok t) : motive t := by
  unfold cuLit at h
  split at h
  · simp at h
  · simp only [Res.bind_eq_ok] at h
    obtain ⟨s2, h2, s3, h3, s4, h4, h5⟩ := h
    have h0 := gbufSet_keeps motive group (short s hs) h2
    exact advance_induct motive adv
      (closeToken_keeps motive group write (gbufAppend_keeps motive group h0 h3) h4) h5

include group write in
/-- What the parts of a reference of a `COMP` keep, the reference keeps. -/
theorem cuRef_keeps {o : Config.TreeOrder} (adv : ∀ s t, motive s → advanceStep o s = .ok t → motive t)
    {offset : Cursor} {count : Nat} {s t : State} (hs : motive s) (h : cuRef o offset count s = .ok t) : motive t := by
  unfold cuRef at h
  split at h
  · simp only [Res.bind_eq_ok] at h
    obtain ⟨s3, h3, s4, h4, h5⟩ := h
    exact advance_induct motive adv (closeToken_keeps motive group write (gbufAppend_keeps motive group hs h3) h4) h5
  · simp at h

include write in
/-- The end of a block is a completion; what its writes keep is kept up to there. -/
theorem cuTrailer_keeps {w : Word} {s t : State} (hs : motive s) (h : cuTrailer w s = .ok t) :
    ∃ u, motive u ∧ t = u.doneWith u.regs.outCount := by
  rw [cuTrailer_eq] at h
  split at h
  · simp only [Res.bind_eq_ok] at h
    obtain ⟨s1, h1, s2, h2, h3⟩ := h
    refine ⟨s2, streamWriteAll_keeps motive write ?_ h2, (Except.ok.inj h3).symm⟩
    split at h1
    · unfold writeGroup at h1
      split at h1
      · exact streamWriteAll_keeps motive write hs h1
      · simp at h1
    · exact Except.ok.inj h1 ▸ hs
  · simp at h

end Keeps

/-! ## Setup -/

/-- The state after `bs` was read into the lookahead, the latch set when `latch` says so (42_compress R104). -/
def State.loaded (s : State) (bs : List Byte) (latch : Bool) (win : List Host.Cell) : State :=
  { s with
    regs := { s.regs with
      inCount := s.regs.inCount + BitVec.ofNat 32 bs.length
      csum := bs.foldl (csumAdd s.sampled.signed) s.regs.csum }
    src := { bytes := s.src.bytes, pos := s.src.pos + bs.length, eos := s.src.eos || latch }
    win := win
    cu := { s.cu with len := s.cu.len + BitVec.ofNat 5 bs.length } }

theorem State.loaded_loaded (s : State) (a b : List Byte) (latch : Bool) (w1 w2 : List Host.Cell) :
    (s.loaded a false w1).loaded b latch w2 = s.loaded (a ++ b) latch w2 := by
  simp [State.loaded, Nat.add_assoc, BitVec.add_assoc, BitVec.ofNat_add]

theorem State.loaded_unread (s : State) (bs : List Byte) (latch : Bool) (win : List Host.Cell) :
    (s.loaded bs latch win).src.unread = s.src.unread.drop bs.length := by
  simp [State.loaded, Source.unread]

/-- The filling of the lookahead, while the counter has room (42_compress R104). -/
theorem fillLookahead_ok (k : Nat) {s : State} (hw : Memory.wf s.win) (hk : s.cu.len.toNat + k ≤ 18)
    (hc : s.regs.inCount.toNat + (s.src.unread.take k).length < 2 ^ 32) :
    ∃ win, fillLookahead k s = .ok (s.loaded (s.src.unread.take k) (decide (s.src.unread.length < k)) win) ∧
      Memory.wf win ∧
      ∀ a, Memory.read win a =
        if 4078 + s.cu.len.toNat ≤ a ∧ a < 4078 + s.cu.len.toNat + (s.src.unread.take k).length then
          (s.src.unread.take k).getD (a - (4078 + s.cu.len.toNat)) 0
        else Memory.read s.win a := by
  induction k generalizing s with
  | zero =>
    refine ⟨s.win, ?_, hw, ?_⟩
    · simp [fillLookahead, State.loaded]
    · intro a
      rw [if_neg (by simp)]
  | succ k ih =>
    rw [fillLookahead]
    cases hb : s.src.bytes[s.src.pos]? with
    | none =>
      have hu := State.unread_of_none hb
      rw [streamRead_none hb, Res.ok_bind]
      refine ⟨s.win, ?_, hw, ?_⟩
      · simp [State.loaded, hu]
      · intro a
        rw [hu, if_neg (by simp)]
    | some b =>
      have hu := State.unread_of_some hb
      rw [hu, List.take_succ_cons, List.length_cons] at hc
      rw [hu, List.take_succ_cons]
      rw [streamRead_some hb (by omega), Res.ok_bind]
      have hlen : (s.cu.len + 1).toNat = s.cu.len.toNat + 1 := by
        rw [BitVec.toNat_add]
        simp
        omega
      have hin : (s.regs.inCount + 1).toNat = s.regs.inCount.toNat + 1 := by
        rw [BitVec.toNat_add]
        simp
        omega
      have hwf := Memory.write_wf s.win (4078 + s.cu.len.toNat) b (by simp [Config.winLast]; omega) hw
      have hun : (s.loaded [b] false (Memory.write s.win (4078 + s.cu.len.toNat) b)).src.unread =
          (s.afterReading 1).src.unread := rfl
      have hl1 : (s.loaded [b] false (Memory.write s.win (4078 + s.cu.len.toNat) b)).cu.len.toNat =
          s.cu.len.toNat + 1 := hlen
      have hi1 : (s.loaded [b] false (Memory.write s.win (4078 + s.cu.len.toNat) b)).regs.inCount.toNat =
          s.regs.inCount.toNat + 1 := hin
      obtain ⟨win, he, hwin, hread⟩ := ih (s := s.loaded [b] false (Memory.write s.win (4078 + s.cu.len.toNat) b))
        hwf (by omega) (by rw [hun, hi1]; omega)
      refine ⟨win, ?_, hwin, ?_⟩
      · refine Eq.trans ?_ (he.trans ?_)
        · simp [State.loaded, addToCsum, State.afterReading, Config.cursorInit]
        · rw [State.loaded_loaded, hun]
          simp
      · intro a
        rw [hread, hun, hl1]
        have hr : Memory.read (s.loaded [b] false (Memory.write s.win (4078 + s.cu.len.toNat) b)).win a =
            if a = 4078 + s.cu.len.toNat then b else Memory.read s.win a := Memory.read_write _ _ _ _ hw
        rw [hr]
        by_cases e : a = 4078 + s.cu.len.toNat
        · subst e
          rw [if_neg (by omega), if_pos rfl, if_pos (by simp)]
          simp
        · rw [if_neg e]
          by_cases hle : 4078 + (s.cu.len.toNat + 1) ≤ a ∧
              a < 4078 + (s.cu.len.toNat + 1) + ((s.afterReading 1).src.unread.take k).length
          · rw [if_pos hle, if_pos (by rw [List.length_cons]; omega), show a - (4078 + s.cu.len.toNat) = a - (4078 + (s.cu.len.toNat + 1)) + 1 by omega]
            simp
          · rw [if_neg hle, if_neg (by rw [List.length_cons]; omega)]

/-- The filling of the lookahead stops only where the counter has no room. -/
theorem fillLookahead_error {k : Nat} {s : State} {e : Stop} (h : fillLookahead k s = .error e) :
    e = .refused .beyondCounters := by
  induction k generalizing s with
  | zero => simp [fillLookahead] at h
  | succ k ih =>
    simp only [fillLookahead, Res.bind_eq_error] at h
    rcases h with h | ⟨⟨b, s1⟩, _, h⟩
    · exact streamRead_error h
    · cases b with
      | none => simp at h
      | some b => exact ih h

/-- The insertions of the setup change nothing but the match finder. -/
theorem insertAll_cases {o : Config.TreeOrder} {ns : List Cursor} {s t : State} (h : insertAll o ns s = .ok t) :
    ∃ f, t = s.withFinder f := by
  induction ns generalizing s with
  | nil => exact ⟨s.cu.finder, (Except.ok.inj h).symm⟩
  | cons n rest ih =>
    simp only [insertAll, Res.bind_eq_ok] at h
    obtain ⟨f, _, h⟩ := h
    obtain ⟨g, rfl⟩ := ih h
    exact ⟨g, rfl⟩

end Sys2Proof.Machine
end

