-- ==== Sys2Proof/Laws/Advance.lean ====
section
/-! SUPPORT. The advance of the compression unit and its setup answer in every state whose links form a forest of positions
in the window, and leave such a state (42_compress R104, R110, R111, R114; 43_match_finder R123, R129). -/
namespace Sys2Proof.Machine

/-- The first bytes of the members are all that a forest knows of the window. -/
theorem Forest.congr_key {key key' : Nat → Byte} {L R P : Nat → Nat} (h : Forest key L R P)
    (hk : ∀ n, Mem P n → key' n = key n) : Forest key' L R P := by
  obtain ⟨h1, h2, h3, h4, h5, h6⟩ := h
  refine ⟨h1, h2, h3, fun n hn => ?_, h5, h6⟩
  rw [hk n hn]
  rcases h4 n hn with a | a
  · exact .inl a
  · right
    rw [hk _ a.1]
    exact a

theorem Finder.Canonical.sees {t : Finder} (h : t.Canonical) :
    t.Sees t.leftAt t.rightAt t.parentAt t.ml t.mp :=
  ⟨h.1, h.2.1, h.2.2, fun _ => rfl, fun _ => rfl, fun _ => rfl, rfl, rfl⟩

theorem Finder.Sees.canonical {t : Finder} {L R P : Nat → Nat} {ml : BitVec 5} {mp : Cursor} (h : t.Sees L R P ml mp) :
    t.Canonical :=
  ⟨h.wfl, h.wfr, h.wfp⟩

theorem Finder.Sees.treeOk {t : Finder} {L R P : Nat → Nat} {ml : BitVec 5} {mp : Cursor} {win : List Host.Cell}
    (h : t.Sees L R P ml mp) (f : Forest (Memory.read win) L R P) : t.TreeOk win := by
  rw [treeOk_iff]
  rw [show t.leftAt = L from funext h.left, show t.rightAt = R from funext h.right,
    show t.parentAt = P from funext h.parent]
  exact f

theorem Finder.Sees.member_iff {t : Finder} {L R P : Nat → Nat} {ml : BitVec 5} {mp : Cursor}
    (h : t.Sees L R P ml mp) (n : Nat) : t.Member n ↔ Mem P n := by
  rw [← h.parent |> funext]
  rfl

/-! ### insert_node -/

theorem Finder.Met.congr {f g : Finder} {o : Config.TreeOrder} {win : List Host.Cell} {n : Nat} (hn : n < 4096)
    (hl : ∀ x, x ≠ n → g.leftAt x = f.leftAt x) (hr : ∀ x, x ≠ n → g.rightAt x = f.rightAt x) {k c : Nat}
    (h : f.Met o win n k c) : g.Met o win n k c := by
  have hroot : g.rightAt (Config.root (Memory.read win n)) = f.rightAt (Config.root (Memory.read win n)) :=
    hr _ (by simp only [Config.root]; omega)
  have hne : ∀ c, KeyRight o win n c → c ≠ n := fun c h e => absurd (e ▸ h) KeyRight.irrefl
  have hne' : ∀ c, KeyRight o win c n → c ≠ n := fun c h e => absurd (e ▸ h) KeyRight.irrefl
  induction h with
  | top hz =>
    rw [← hroot] at hz ⊢
    exact .top hz
  | right k c _ hk hz ih =>
    rw [← hr c (hne c hk)] at hz ⊢
    exact .right k c ih hk hz
  | left k c _ hk hz ih =>
    rw [← hl c (hne' c hk)] at hz ⊢
    exact .left k c ih hk hz

/-- Everything `insert_node` does from arrays that form a forest, for a position that is no member (43_match_finder R125,
R126). -/
structure Inserted (o : Config.TreeOrder) (win : List Host.Cell) (n : Nat) (f g : Finder) : Prop where
  canonical : g.Canonical
  tree : g.TreeOk win
  member : ∀ m, g.Member m ↔ m = n ∨ (f.Member m ∧ ¬ (g.ml.toNat = 18 ∧ m = g.mp.toNat))
  le : g.ml.toNat ≤ 18
  none_iff : g.ml = 0 ↔ f.rightAt (Config.root (Memory.read win n)) = Config.nil
  kept : g.ml = 0 → g.mp = f.mp
  found : g.ml ≠ 0 → f.Member g.mp.toNat ∧ commonPrefix win n g.mp.toNat = g.ml.toNat ∧
    ∃ k, f.Met o win n k g.mp.toNat ∧ ∀ j c, f.Met o win n j c →
      commonPrefix win n c ≤ g.ml.toNat ∧ (j < k → commonPrefix win n c < g.ml.toNat)
  longest : f.Ordered o win → ∀ m, f.Member m → commonPrefix win n m ≤ g.ml.toNat
  ordered : f.Ordered o win → g.Ordered o win

/-- Forest and order do not depend on the links of a position that is no member. -/
theorem Forest.clear {key : Nat → Byte} {L R P : Nat → Nat} (h : Forest key L R P) {n : Nat} (hn : n < 4096)
    (nm : ¬ Mem P n) : Forest key (upd L n 4096) (upd R n 4096) P := by
  obtain ⟨h1, h2, h3, h4, h5, h6⟩ := h
  refine ⟨?_, ?_, ?_, ?_, ?_, h6⟩
  · intro x hx
    have xn : x ≠ n := by rintro rfl; exact nm hx
    simp only [upd, if_neg xn]
    exact h1 x hx
  · intro x hx
    have xn : x ≠ n := by rintro rfl; exact nm hx
    simp only [upd, if_neg xn]
    exact h2 x hx
  · intro c
    simp only [upd, if_neg (show 4097 + c.toNat ≠ n by omega)]
    exact h3 c
  · intro x hx
    have := h4 x hx
    unfold upd
    rcases this with a | a
    · left
      rw [if_neg (by omega)]
      exact a
    · right
      have xn : P x ≠ n := by intro e; rw [e] at a; exact nm a.1
      rw [if_neg xn, if_neg xn]
      exact a
  · intro x hx
    have xn : x ≠ n := by rintro rfl; exact nm hx
    simp only [upd, if_neg xn]
    exact h5 x hx

theorem InOrder.clear {lt : Nat → Nat → Prop} {L R P : Nat → Nat} (h : InOrder lt L R P) {n : Nat} (nm : ¬ Mem P n) :
    InOrder lt (upd L n 4096) (upd R n 4096) P := by
  have ne : ∀ x, Mem P x → x ≠ n := by rintro x hx rfl; exact nm hx
  refine ⟨fun p m hp hm u => h.left p m hp hm ?_, fun p m hp hm u => h.right p m hp hm ?_⟩
  · rwa [upd, if_neg (ne p hp)] at u
  · rwa [upd, if_neg (ne p hp)] at u

/-- The law of `insert_node`. -/
theorem insertNode_law (o : Config.TreeOrder) (win : List Host.Cell) {f : Finder} (hc : f.Canonical) (ht : f.TreeOk win)
    (n : Cursor) (hm : ¬ f.Member n.toNat) : ∃ g, insertNode o win n f = .ok g ∧ Inserted o win n.toNat f g := by
  have hn : n.toNat < 4096 := n.isLt
  have nm : ¬ Mem f.parentAt n.toNat := hm
  have hP : f.parentAt n.toNat = 4096 := by
    by_contra e
    exact hm ⟨hn, e⟩
  obtain ⟨t1, e1, s1⟩ := hc.sees.setRight (x := n.toNat) (v := 4096) (by omega) (by omega)
  obtain ⟨t2, e2, s2⟩ := s1.setLeft (x := n.toNat) (v := 4096) (by omega) (by omega)
  have s3 : ({ t2 with ml := 0 } : Finder).Sees (upd f.leftAt n.toNat 4096) (upd f.rightAt n.toNat 4096) f.parentAt 0
      f.mp := ⟨s2.wfl, s2.wfr, s2.wfp, s2.left, s2.right, s2.parent, rfl, s2.mp_eq⟩
  have f2 := ((treeOk_iff f win).1 ht).clear hn nm
  generalize hgt : ({ t2 with ml := 0 } : Finder) = t at s3
  have metL : ∀ x, x ≠ n.toNat → f.leftAt x = t.leftAt x := fun x hx => by rw [s3.left, upd, if_neg hx]
  have metR : ∀ x, x ≠ n.toNat → f.rightAt x = t.rightAt x := fun x hx => by rw [s3.right, upd, if_neg hx]
  have toF : ∀ {k c}, t.Met o win n.toNat k c → f.Met o win n.toNat k c := fun h => h.congr hn metL metR
  have ofF : ∀ {k c}, f.Met o win n.toNat k c → t.Met o win n.toNat k c :=
    fun h => h.congr hn (fun x hx => (metL x hx).symm) (fun x hx => (metR x hx).symm)
  have hroot : upd f.rightAt n.toNat 4096 (4097 + (Memory.read win n.toNat).toNat) =
      f.rightAt (Config.root (Memory.read win n.toNat)) := by
    rw [upd, if_neg (by omega)]
  obtain ⟨rank, hr⟩ := f2.acyclic
  have hL : upd f.leftAt n.toNat 4096 n.toNat = 4096 := by simp [upd]
  have hR : upd f.rightAt n.toNat 4096 n.toNat = 4096 := by simp [upd]
  obtain ⟨g, L', R', P', ml, mp, eg, sg, fg, en⟩ := s3.descend o win f2 hr hn hP hL hR walkMax
    (Config.root (Memory.read win n.toNat)) 0 1 (if_pos (by simp only [Config.root, Config.nil]; omega)) .root
    (fun _ _ _ => Nat.zero_le _) (Nat.lt_of_le_of_lt (below_le _ _ _) (by simp [walkMax]))
  have eg' : insertNode o win n f = .ok g := by
    rw [insertNode]
    simp only [show Config.nil = 4096 from rfl, e1, e2, Res.ok_bind]
    rw [hgt]
    exact eg
  have ord : f.Ordered o win →
      InOrder (fun m p => KeyRight o win p m) (upd f.leftAt n.toNat 4096) (upd f.rightAt n.toNat 4096) f.parentAt :=
    fun h => ((ordered_iff f o win).1 h).1.clear nm
  refine ⟨g, eg', ?_⟩
  generalize upd f.leftAt n.toNat 4096 = L at *
  generalize upd f.rightAt n.toNat 4096 = R at *
  have hgm : ∀ m, g.Member m ↔ Mem P' m := sg.member_iff
  have hgo : g.Ordered o win ↔ InOrder (fun m p => KeyRight o win p m) L' R' P' ∧
      ∀ p m, Mem P' p → Mem P' m → p ≠ m → ¬ KeysAgree win p m 18 := by
    rw [ordered_iff, funext sg.left, funext sg.right, funext sg.parent]
    rw [show g.Member = Mem P' from funext fun m => propext (hgm m)]
  rcases en with ⟨p, right, hv, hz, rfl, rfl, rfl⟩ | ⟨p, q, right, ml0, mp0', hv, hq, h4, h18, hx, rfl, rfl⟩
  · -- attached under `p`
    have pl := hv.place f2
    have p4 : p ≠ 4096 := by
      rcases hv.spot f2 with h | h
      · omega
      · have := h.1.1; omega
    have hp : Mem f.parentAt p ∨ 4096 < p := by
      rcases hv.spot f2 with h | h
      · exact .inr (by omega)
      · exact .inl h.1
    have m18 : ml.toNat < 18 := by
      rcases pl with ⟨_, _, e, _⟩ | pl
      · rw [e]; simp
      · exact pl.short
    have long : f.Ordered o win → ∀ m, Mem f.parentAt m → commonPrefix win n.toNat m ≤ ml.toNat := by
      intro ho m hmm
      rcases hv.longest f2 (ord ho) m hmm with u | u
      · rw [hz] at u
        exact absurd hmm fun h => Und.nil u h
      · exact u
    have hmem : ∀ m, Mem (upd f.parentAt n.toNat p) m ↔ m = n.toNat ∨ Mem f.parentAt m := by
      intro m
      unfold Mem upd
      by_cases e : m = n.toNat
      · simp [e, hn, p4]
      · simp [e]
    refine ⟨sg.canonical, sg.treeOk fg, ?_, ?_, ?_, ?_, ?_, ?_, ?_⟩
    · intro m
      rw [hgm, hmem, sg.ml_eq]
      simp only [m18.ne, false_and, not_false_eq_true, and_true]
      rfl
    · rw [sg.ml_eq]
      omega
    · rw [sg.ml_eq, ← hroot]
      rcases pl with ⟨e, e1, e0, _⟩ | pl
      · rw [e1, if_pos rfl, e] at hz
        exact ⟨fun _ => hz, fun _ => e0⟩
      · refine ⟨fun e => absurd e pl.pos, fun e => ?_⟩
        rcases hv.met s3 f2 with e' | ⟨k, hk, _⟩
        · have := pl.mem.1
          omega
        · obtain ⟨c, hc⟩ := hk.earlier (Nat.zero_le k)
          cases hc with
          | top hz' => exact absurd ((s3.right _).trans e) hz'
    · rw [sg.ml_eq, sg.mp_eq]
      intro e
      rcases pl with ⟨_, _, _, e'⟩ | pl
      · exact e'
      · exact absurd e pl.pos
    · rw [sg.ml_eq, sg.mp_eq]
      intro e
      rcases pl with ⟨_, _, e', _⟩ | pl
      · exact absurd e' e
      · refine ⟨pl.matched, pl.prefix_eq, ?_⟩
        rcases hv.met s3 f2 with e' | ⟨k, hk, ⟨j, hj, mj, _, all⟩⟩
        · have := pl.mem.1
          omega
        · refine ⟨j, toF mj, fun i c hc => ?_⟩
          have hc := ofF hc
          refine all i c ?_ hc
          by_contra hik
          obtain ⟨c', hc'⟩ := hc.earlier (j := k + 1) (by omega)
          generalize hk1 : k + 1 = k1 at hc'
          cases hc' with
          | top _ => omega
          | right k' c0 h0 hkr hz' =>
            obtain rfl : k' = k := by omega
            rw [h0.unique hk] at hkr hz'
            cases hrt : right with
            | true =>
              rw [hrt, if_pos rfl] at hz
              exact hz' ((s3.right p).trans hz)
            | false => exact absurd (hkr.trans (pl.goLeft hrt)) KeyRight.irrefl
          | left k' c0 h0 hkr hz' =>
            obtain rfl : k' = k := by omega
            rw [h0.unique hk] at hkr hz'
            cases hrt : right with
            | false =>
              rw [hrt, if_neg (by simp)] at hz
              exact hz' ((s3.left p).trans hz)
            | true => exact absurd (hkr.trans (pl.goRight hrt)) KeyRight.irrefl
    · intro ho m hmm
      rw [sg.ml_eq]
      exact long ho m hmm
    · intro ho
      rw [hgo]
      refine ⟨(ord ho).leaf f2 hn hP hL hR hp ?_ ?_ ?_ ?_ ?_, ?_⟩
      · intro y
        cases right with
        | true => exact .inl rfl
        | false =>
          by_cases e : y = p
          · exact .inr ⟨e, by simp [e, upd]⟩
          · exact .inl (by simp [upd, e])
      · intro y
        cases right with
        | false => exact .inl rfl
        | true =>
          by_cases e : y = p
          · exact .inr ⟨e, by simp [e, upd]⟩
          · exact .inl (by simp [upd, e])
      · intro mp1 e
        rcases pl with ⟨e', _⟩ | pl
        · have := mp1.1
          omega
        · refine pl.goLeft ?_
          cases hrt : right with
          | false => rfl
          | true =>
            rw [hrt, if_pos rfl] at e
            rcases (f2.links mp1).1 with e1 | e1
            · omega
            · exact absurd (e ▸ e1) nm
      · intro mp1 e
        rcases pl with ⟨e', _⟩ | pl
        · have := mp1.1
          omega
        · refine pl.goRight ?_
          cases hrt : right with
          | true => rfl
          | false =>
            rw [hrt, if_neg (by simp)] at e
            rcases (f2.links mp1).2 with e1 | e1
            · omega
            · exact absurd (e ▸ e1) nm
      · intro a ha
        exact hv.above f2 a ha
      · have hk := ((ordered_iff f o win).1 ho).2
        have new : ∀ m, Mem f.parentAt m → ¬ KeysAgree win n.toNat m 18 := by
          intro m hmm e
          have := long ho m hmm
          rw [commonPrefix_eq_18.2 e] at this
          omega
        intro x y hx hy hxy
        rcases (hmem x).1 hx with e | hx <;> rcases (hmem y).1 hy with e' | hy
        · exact absurd (e.trans e'.symm) hxy
        · exact e ▸ new y hy
        · exact fun ag => new x hx (e' ▸ KeysAgree.symm ag)
        · exact hk x y hx hy hxy
  · -- in the place of `q`
    obtain ⟨mq, Pq, kq⟩ := child_mem f2 (hv.spot f2) hq h4
    have eqq : (BitVec.ofNat 12 q).toNat = q := toNat_ofNat_member mq
    have agree := commonPrefix_eq_18.1 h18
    have hmq : f.Member q := mq
    have met : ∃ k, t.Met o win n.toNat k q ∧ ∀ j c, j ≤ k → t.Met o win n.toNat j c →
        (j < k → commonPrefix win n.toNat c < 18) := by
      obtain ⟨c1, c2⟩ := hv.met_child s3 f2 hq h4
      rcases hv.met s3 f2 with e | ⟨k, hk, ⟨j, hj, mj, _, all⟩⟩
      · exact ⟨0, c2 e, fun j c _ _ hj => by omega⟩
      · rcases hv.place f2 with ⟨e, _⟩ | pl
        · exact ⟨0, c2 e, fun j c _ _ hj => by omega⟩
        · refine ⟨k + 1, c1 k hk pl.mem, fun i c _ hc hik => ?_⟩
          have := (all i c (by omega) hc).1
          have := pl.short
          omega
    obtain ⟨k, hk, before⟩ := met
    refine ⟨sg.canonical, sg.treeOk fg, ?_, ?_, ?_, ?_, ?_, ?_, ?_⟩
    · intro m
      rw [hgm, hx.mem, sg.ml_eq, sg.mp_eq, eqq]
      simp only [show (18 : BitVec 5).toNat = 18 from rfl, true_and]
      rfl
    · rw [sg.ml_eq]
      simp
    · rw [sg.ml_eq, ← hroot]
      refine ⟨fun e => absurd e (by decide), fun e => ?_⟩
      obtain ⟨c, hc⟩ := hk.earlier (Nat.zero_le k)
      cases hc with
      | top hz' => exact absurd ((s3.right _).trans e) hz'
    · rw [sg.ml_eq]
      exact fun e => absurd e (by decide)
    · rw [sg.ml_eq, sg.mp_eq, eqq]
      refine fun _ => ⟨hmq, h18, k, toF hk, fun j c hc => ?_⟩
      have hle := (commonPrefix_spec win n.toNat c).1
      exact ⟨hle, fun hj => before j c (by omega) (ofF hc) hj⟩
    · intro _ m _
      rw [sg.ml_eq]
      exact (commonPrefix_spec win n.toNat m).1
    · intro ho
      rw [hgo]
      refine ⟨(ord ho).splice f2 hn hP mq (fun x => KeyRight.irrefl) hx fun y => ⟨fun h => ?_, fun h => ?_⟩, ?_⟩
      · exact KeyRight.congr (KeysAgree.symm agree) (fun _ _ => rfl) h
      · exact KeyRight.congr (fun _ _ => rfl) (KeysAgree.symm agree) h
      · have hk := ((ordered_iff f o win).1 ho).2
        have new : ∀ m, Mem f.parentAt m → m ≠ q → ¬ KeysAgree win n.toNat m 18 := by
          intro m hmm mq' e
          exact hk q m mq hmm (Ne.symm mq') (KeysAgree.trans (KeysAgree.symm agree) e)
        intro x y hx' hy hxy
        rcases (hx.mem x).1 hx' with e | ⟨hx', xq⟩ <;> rcases (hx.mem y).1 hy with e' | ⟨hy, yq⟩
        · exact absurd (e.trans e'.symm) hxy
        · exact e ▸ new y hy yq
        · exact fun ag => new x hx' xq (e' ▸ KeysAgree.symm ag)
        · exact hk x y hx' hy hxy

/-- `delete_node` (43_match_finder R127): it answers, keeps the forest and its order, and takes away that position
alone. -/
theorem deleteNode_law {win : List Host.Cell} {f : Finder} (hc : f.Canonical) (ht : f.TreeOk win) (p : Cursor) :
    ∃ g, deleteNode p f = .ok g ∧ g.Canonical ∧ g.TreeOk win ∧ (∀ m, g.Member m ↔ f.Member m ∧ m ≠ p.toNat) ∧
      g.ml = f.ml ∧ g.mp = f.mp ∧ (¬ f.Member p.toNat → g = f) ∧ ∀ o, f.Ordered o win → g.Ordered o win := by
  obtain ⟨g, L', R', P', eg, sg, fg, mg, zg, og⟩ := hc.sees.deleteNode ((treeOk_iff f win).1 ht) p
  have hm : ∀ m, g.Member m ↔ f.Member m ∧ m ≠ p.toNat := by
    intro m
    rw [sg.member_iff, mg]
    rfl
  refine ⟨g, eg, sg.canonical, sg.treeOk fg, hm, sg.ml_eq, sg.mp_eq, zg, fun o ho => ?_⟩
  obtain ⟨h1, h2⟩ := (ordered_iff f o win).1 ho
  rw [ordered_iff, funext sg.left, funext sg.right, funext sg.parent]
  refine ⟨og _ (fun x => KeyRight.irrefl) (fun x y z h h' => KeyRight.trans h' h) h1, fun x y hx hy hxy => ?_⟩
  exact h2 x y ((hm x).1 hx).1 ((hm y).1 hy).1 hxy

/-- A forest does not depend on a window byte that is no member's. -/
theorem Finder.TreeOk.congr_window {f : Finder} {win win' : List Host.Cell} (h : f.TreeOk win)
    (hw : ∀ n, f.Member n → Memory.read win' n = Memory.read win n) : f.TreeOk win' :=
  (treeOk_iff f win').2 (((treeOk_iff f win).1 h).congr_key hw)

/-- Its order does not depend on bytes of no member's key. -/
theorem Finder.Ordered.congr_window {f : Finder} {o : Config.TreeOrder} {win win' : List Host.Cell} (h : f.Ordered o win)
    (hw : ∀ n, f.Member n → ∀ i < 18, Memory.read win' (n + i) = Memory.read win (n + i)) : f.Ordered o win' where
  left p m hp hm u := (h.left p m hp hm u).congr_window (hw p hp) (hw m hm)
  right p m hp hm u := (h.right p m hp hm u).congr_window (hw m hm) (hw p hp)
  keys p m hp hm hne ag := h.keys p m hp hm hne fun i hi => by
    rw [← hw p hp i hi, ← hw m hm i hi]
    exact ag i hi

/-- A longest match is a true one: the keys agree in `ML` bytes and, where it is not a full match, differ in the next. -/
theorem State.LongestMatch.agree {s : State} (h : s.LongestMatch) (hm : s.cu.finder.ml ≠ 0) :
    s.cu.finder.ml.toNat ≤ 18 ∧
      (∀ i < s.cu.finder.ml.toNat, Memory.read s.win (s.curR.toNat + i) = Memory.read s.win (s.cu.finder.mp.toNat + i)) ∧
      (s.cu.finder.ml.toNat < 18 →
        Memory.read s.win (s.curR.toNat + s.cu.finder.ml.toNat) ≠
          Memory.read s.win (s.cu.finder.mp.toNat + s.cu.finder.ml.toNat)) := by
  have e := (h.2 hm).2.2
  rw [← e]
  exact commonPrefix_spec _ _ _

/-- What an advance needs of the state, and leaves: canonical storage, an ordered forest whose members lie in the circular
interval from `S` to `R`, and `S` 18 ahead of `R` (42_compress R114, 43_match_finder R123). -/
structure State.WalkOk (o : Config.TreeOrder) (s : State) : Prop where
  window : Memory.wf s.win
  canonical : s.cu.finder.Canonical
  tree : s.cu.finder.TreeOk s.win
  ordered : s.cu.finder.Ordered o s.win
  interval : ∀ n : Cursor, s.cu.finder.Member n.toNat → (n - s.cu.curS).toNat ≤ 4078
  cursors : s.cu.curS = s.curR + 18

/-- The key of a position from `S + 1` to `R` does not have the place `S` in it (43_match_finder R122). -/
theorem key_not_at_input {curS n : Cursor} (hn : (n - (curS + 1)).toNat ≤ 4077) {i : Nat} (hi : i < 18) :
    (n.toNat + i) % 4096 ≠ curS.toNat := by
  have e : n.toNat = (curS.toNat + 1 + (n - (curS + 1)).toNat) % 4096 := by
    have : n = curS + 1 + (n - (curS + 1)) := by bv_omega
    conv_lhs => rw [this]
    simp only [BitVec.toNat_add]
    simp
  have := curS.isLt
  omega

/-- The deletion and the insertion of an advance step, on whatever window the step leaves (42_compress R110, R111). -/
theorem State.WalkOk.delete_insert {o : Config.TreeOrder} {s : State} (h : s.WalkOk o) {win : List Host.Cell}
    (hr : ∀ a, a % 4096 ≠ s.cu.curS.toNat → Memory.read win a = Memory.read s.win a) :
    ∃ f g, deleteNode s.cu.curS s.cu.finder = .ok f ∧ insertNode o win (s.curR + 1) f = .ok g ∧
      (f.Canonical ∧ f.TreeOk win ∧ f.Ordered o win ∧
        (∀ m, f.Member m ↔ s.cu.finder.Member m ∧ m ≠ s.cu.curS.toNat) ∧
        ∀ n : Cursor, f.Member n.toNat → (n - (s.cu.curS + 1)).toNat ≤ 4077) ∧
      Inserted o win (s.curR + 1).toNat f g ∧
      ∀ n : Cursor, g.Member n.toNat → (n - (s.cu.curS + 1)).toNat ≤ 4078 := by
  obtain ⟨f, ef, cf, tf, mf, _, _, _, of⟩ := deleteNode_law h.canonical h.tree s.cu.curS
  have hcur := h.cursors
  have inf : ∀ n : Cursor, f.Member n.toNat → (n - (s.cu.curS + 1)).toNat ≤ 4077 := by
    intro n hn
    obtain ⟨hn, hne⟩ := (mf _).1 hn
    have := h.interval n hn
    have hne' : n ≠ s.cu.curS := fun e => hne (by rw [e])
    bv_omega
  have key : ∀ m, f.Member m → ∀ i < 18, Memory.read win (m + i) = Memory.read s.win (m + i) := by
    intro m hm i hi
    have e : (BitVec.ofNat 12 m).toNat = m := by
      have := hm.1
      rw [BitVec.toNat_ofNat]
      omega
    refine hr _ ?_
    have := key_not_at_input (inf (BitVec.ofNat 12 m) (by rw [e]; exact hm)) hi
    rwa [e] at this
  have tf' : f.TreeOk win := tf.congr_window fun n hn => key n hn 0 (by omega)
  have of' : f.Ordered o win := (of o h.ordered).congr_window key
  have hnot : ¬ f.Member (s.curR + 1).toNat := by
    intro hm
    have := inf _ hm
    bv_omega
  obtain ⟨g, eg, ig⟩ := insertNode_law o win cf tf' (s.curR + 1) hnot
  refine ⟨f, g, ef, eg, ⟨cf, tf', of', mf, inf⟩, ig, ?_⟩
  intro n hn
  rcases (ig.member _).1 hn with e | ⟨hm, _⟩
  · have : n = s.curR + 1 := BitVec.eq_of_toNat_eq e
    bv_omega
  · exact (inf n hm).trans (by omega)

/-- What an insertion at the cursor leaves is a longest match (42_compress R114, R115 item 5). -/
theorem Inserted.longestMatch {o : Config.TreeOrder} {t : State} {f : Finder}
    (h : Inserted o t.win t.curR.toNat f t.cu.finder) (ho : f.Ordered o t.win)
    (near : ∀ n : Cursor, f.Member n.toNat → 1 ≤ t.behind n ∧ t.behind n ≤ 4078) : t.LongestMatch := by
  refine ⟨fun m hm hne => ?_, fun hz => ?_⟩
  · rcases (h.member _).1 hm with e | ⟨e, _⟩
    · exact absurd (BitVec.eq_of_toNat_eq e) hne
    · exact h.longest ho _ e
  · obtain ⟨hm, hp, _⟩ := h.found hz
    exact ⟨(near _ hm).1, (near _ hm).2, hp⟩

/-- A position that a member stands for before an insertion, one stands for after it: that member, or, where it was
replaced, the position inserted (43_match_finder R123 item 4, R126). -/
theorem Inserted.stands {o : Config.TreeOrder} {win : List Host.Cell} {n : Cursor} {f g : Finder}
    (h : Inserted o win n.toNat f g) {x m : Cursor} (hm : f.Member m.toNat) (ha : KeysAgree win m.toNat x.toNat 18) :
    (g.Member m.toNat ∨ (g.Member n.toNat ∧ KeysAgree win n.toNat x.toNat 18)) := by
  by_cases e : g.ml.toNat = 18 ∧ m.toNat = g.mp.toNat
  · right
    refine ⟨(h.member _).2 (.inl rfl), ?_⟩
    have hz : g.ml ≠ 0 := by
      intro hz
      rw [hz] at e
      exact absurd e.1 (by simp)
    have hp := (h.found hz).2.1
    rw [e.1, ← e.2] at hp
    exact KeysAgree.trans (commonPrefix_eq_18.1 hp) ha
  · exact .inl ((h.member _).2 (.inr ⟨hm, e⟩))

/-- An advance keeps what the insertions have left to be found. -/
theorem State.Retained.advance {o : Config.TreeOrder} {s t : State} {f : Finder} (h : s.Retained)
    (hcur : s.cu.curS = s.curR + 18) (hR : t.curR = s.curR + 1)
    (hf : ∀ m, f.Member m ↔ s.cu.finder.Member m ∧ m ≠ s.cu.curS.toNat)
    (hi : Inserted o t.win t.curR.toNat f t.cu.finder)
    (hw : ∀ a, a % 4096 ≠ s.cu.curS.toNat → Memory.read t.win a = Memory.read s.win a)
    (hlen : t.cu.len.toNat ≤ t.regs.inCount.toNat) (henc : t.encodedCount = s.encodedCount + 1) : t.Retained := by
  obtain ⟨-, h1, h2⟩ := h
  have beh : ∀ x : Cursor, x ≠ t.curR → t.behind x = s.behind x + 1 := by
    intro x hx
    unfold State.behind
    rw [hR] at hx ⊢
    bv_omega
  have hb0 : t.behind t.curR = 0 := by
    unfold State.behind
    simp
  have self : ∀ d, ∃ m : Cursor, t.cu.finder.Member m.toNat ∧ t.behind m ≤ d ∧
      KeysAgree t.win m.toNat t.curR.toNat 18 :=
    fun d => ⟨t.curR, (hi.member _).2 (.inl rfl), by rw [hb0]; omega, fun _ _ => rfl⟩
  have keep : ∀ y : Cursor, s.behind y ≤ 4077 → ∀ i < 18, Memory.read t.win (y.toNat + i) = Memory.read s.win (y.toNat + i) := by
    intro y hy i hi
    refine hw _ (key_not_at_input ?_ hi)
    unfold State.behind at hy
    rw [hcur]
    bv_omega
  have notS : ∀ m : Cursor, s.behind m ≤ 4077 → m.toNat ≠ s.cu.curS.toNat := by
    intro m hm e
    have e := BitVec.eq_of_toNat_eq e
    rw [e, hcur] at hm
    unfold State.behind at hm
    bv_omega
  have go : ∀ x m : Cursor, s.behind x ≤ 4077 → s.behind m ≤ 4077 → s.cu.finder.Member m.toNat →
      KeysAgree s.win m.toNat x.toNat 18 → ∃ m' : Cursor, t.cu.finder.Member m'.toNat ∧ t.behind m' ≤ s.behind m + 1 ∧
        KeysAgree t.win m'.toNat x.toNat 18 := by
    intro x m hx hm mm ag
    have ag' : KeysAgree t.win m.toNat x.toNat 18 := by
      intro i hi
      rw [keep m hm i hi, keep x hx i hi]
      exact ag i hi
    rcases hi.stands ((hf _).2 ⟨mm, notS m hm⟩) ag' with e | ⟨e1, e2⟩
    · refine ⟨m, e, ?_, ag'⟩
      by_cases c : m = t.curR
      · rw [c, hb0]
        omega
      · rw [beh m c]
    · exact ⟨t.curR, e1, by rw [hb0]; omega, e2⟩
  refine ⟨hlen, fun x hx1 hx2 => ?_, fun he x hx => ?_⟩
  · by_cases c : x = t.curR
    · subst c
      exact self _
    · rw [beh x c] at hx1 hx2 ⊢
      obtain ⟨m, mm, bm, ag⟩ := h1 x (by omega) (by omega)
      obtain ⟨m', mm', bm', ag'⟩ := go x m (by omega) (by omega) mm ag
      exact ⟨m', mm', by omega, ag'⟩
  · rw [henc] at he hx ⊢
    by_cases c : x = t.curR
    · subst c
      exact self _
    · rw [beh x c] at hx
      obtain ⟨m, mm, bm, ag⟩ := h2 (by omega) x (by omega)
      obtain ⟨m', mm', bm', ag'⟩ := go x m (by omega) (by omega) mm ag
      exact ⟨m', mm', by omega, ag'⟩

/-- An advance step answers in a state fit for it, and leaves such a state; while bytes are left to encode it leaves a
longest match, and keeps what can be found (42_compress R110, R111). -/
theorem advanceStep_law (o : Config.TreeOrder) {s : State} (h : s.WalkOk o)
    (hc : s.src.bytes[s.src.pos]? ≠ none → s.regs.inCount.toNat + 1 < 2 ^ 32) :
    ∃ t, advanceStep o s = .ok t ∧ t.WalkOk o ∧ (t.cu.len ≠ 0 → t.LongestMatch) ∧
      (s.cu.len ≠ 0 → s.Retained → t.cu.len ≠ 0 → t.Retained) := by
  have near : ∀ f : Finder, (∀ n : Cursor, f.Member n.toNat → (n - (s.cu.curS + 1)).toNat ≤ 4077) →
      ∀ n : Cursor, f.Member n.toNat → 1 ≤ (s.curR + 1 - n).toNat ∧ (s.curR + 1 - n).toNat ≤ 4078 := by
    intro f hf n hn
    have := hf n hn
    have hcur := h.cursors
    constructor <;> bv_omega
  cases hb : s.src.bytes[s.src.pos]? with
  | some b =>
    have hc := hc (by simp [hb])
    have hw : ∀ a, a % 4096 ≠ s.cu.curS.toNat →
        Memory.read (windowAfter s.win s.cu.curS b) a = Memory.read s.win a :=
      fun a ha => windowAfter_other h.window _ _ ha
    obtain ⟨f, g, ef, eg, ⟨_, _, of, mf, nf⟩, ig, jg⟩ := h.delete_insert hw
    have hin : (s.regs.inCount + 1).toNat = s.regs.inCount.toNat + 1 := by
      rw [BitVec.toNat_add]
      simp
      omega
    refine ⟨_, advanceStep_input hb hc ef eg,
      ⟨windowAfter_wf h.window _ _, ig.canonical, ig.tree, ig.ordered of, jg, ?_⟩, fun _ => ?_, fun _ hr _ => ?_⟩
    · simp only [State.advancedInput, h.cursors]
      ac_rfl
    · exact Inserted.longestMatch (t := s.advancedInput b g) ig of (near f nf)
    · refine hr.advance (t := s.advancedInput b g) h.cursors rfl mf ig hw ?_ ?_
      · change s.cu.len.toNat ≤ (s.regs.inCount + 1).toNat
        have := hr.1
        omega
      · change (s.regs.inCount + 1).toNat - s.cu.len.toNat = s.regs.inCount.toNat - s.cu.len.toNat + 1
        have := hr.1
        omega
  | none =>
    obtain ⟨f, g, ef, eg, ⟨cf, tf, of, mf, nf⟩, ig, jg⟩ := h.delete_insert (win := s.win) fun _ _ => rfl
    have hcur : s.cu.curS + 1 = s.curR + 1 + 18 := by
      rw [h.cursors]
      ac_rfl
    by_cases hz : s.cu.len - 1 = 0
    · exact ⟨_, advanceStep_drain hb ef (by rw [if_pos hz]),
        ⟨h.window, cf, tf, of, fun n hn => (nf n hn).trans (by omega), hcur⟩, fun hl => absurd hz hl,
        fun _ _ hl => absurd hz hl⟩
    · refine ⟨_, advanceStep_drain hb ef (by rw [if_neg hz]; exact eg),
        ⟨h.window, ig.canonical, ig.tree, ig.ordered of, jg, hcur⟩, fun _ => ?_, fun hl hr _ => ?_⟩
      · exact Inserted.longestMatch (t := s.advancedDrain g) ig of (near f nf)
      · have h1 : (s.cu.len - 1).toNat + 1 = s.cu.len.toNat := by
          have : s.cu.len.toNat ≠ 0 := fun e => hl (BitVec.eq_of_toNat_eq e)
          bv_omega
        have := hr.1
        refine hr.advance (t := s.advancedDrain g) h.cursors rfl mf ig (fun _ _ => rfl) ?_ ?_
        · change (s.cu.len - 1).toNat ≤ s.regs.inCount.toNat
          omega
        · change s.regs.inCount.toNat - (s.cu.len - 1).toNat = s.regs.inCount.toNat - s.cu.len.toNat + 1
          omega

/-- The insertions of the setup answer, and leave an ordered forest in which each position inserted can be found; the
match told is the last one's (42_compress R104). -/
theorem insertAll_law (o : Config.TreeOrder) (ns : List Cursor) {s : State} (hc : s.cu.finder.Canonical)
    (ht : s.cu.finder.TreeOk s.win) (ho : s.cu.finder.Ordered o s.win) (hd : ns.Nodup)
    (hn : ∀ n ∈ ns, ¬ s.cu.finder.Member n.toNat) :
    ∃ f, insertAll o ns s = .ok (s.withFinder f) ∧ f.Canonical ∧ f.TreeOk s.win ∧ f.Ordered o s.win ∧
      (∀ m : Cursor, f.Member m.toNat → s.cu.finder.Member m.toNat ∨ m ∈ ns) ∧
      (∀ x : Cursor, (∃ m : Cursor, s.cu.finder.Member m.toNat ∧ KeysAgree s.win m.toNat x.toNat 18) ∨ x ∈ ns →
        ∃ m : Cursor, f.Member m.toNat ∧ KeysAgree s.win m.toNat x.toNat 18) ∧
      ∀ last, ns.getLast? = some last → ∃ f0 : Finder, Inserted o s.win last.toNat f0 f ∧ f0.Ordered o s.win ∧
        ∀ m : Cursor, f0.Member m.toNat → (s.cu.finder.Member m.toNat ∨ m ∈ ns) ∧ m ≠ last := by
  induction ns generalizing s with
  | nil =>
    refine ⟨s.cu.finder, rfl, hc, ht, ho, fun m hm => .inl hm, fun x hx => ?_, fun last h => by simp at h⟩
    rcases hx with hx | hx
    · exact hx
    · simp at hx
  | cons n rest ih =>
    obtain ⟨hd1, hd2⟩ := List.nodup_cons.1 hd
    have hn0 := hn n (by simp)
    obtain ⟨g, eg, ig⟩ := insertNode_law o s.win hc ht n hn0
    obtain ⟨f, ef, cf, tf, of, mf, xf, af⟩ := ih (s := s.withFinder g) ig.canonical ig.tree (ig.ordered ho) hd2 (by
      intro m hm hg
      rcases (ig.member _).1 hg with e | ⟨e, _⟩
      · exact hd1 ((BitVec.eq_of_toNat_eq e : m = n) ▸ hm)
      · exact hn m (by simp [hm]) e)
    have sub : ∀ m : Cursor, g.Member m.toNat ∨ m ∈ rest → s.cu.finder.Member m.toNat ∨ m ∈ n :: rest := by
      rintro m (e | e)
      · rcases (ig.member _).1 e with e | ⟨e, _⟩
        · exact .inr (by simp [(BitVec.eq_of_toNat_eq e : m = n)])
        · exact .inl e
      · exact .inr (by simp [e])
    refine ⟨f, ?_, cf, tf, of, fun m hm => sub m (mf m hm), ?_, ?_⟩
    · rw [insertAll, eg, Res.ok_bind]
      exact ef
    · intro x hx
      refine xf x ?_
      rcases hx with ⟨m, hm, ag⟩ | hx
      · rcases ig.stands hm ag with e | ⟨e1, e2⟩
        · exact .inl ⟨m, e, ag⟩
        · exact .inl ⟨n, e1, e2⟩
      · rcases List.mem_cons.1 hx with rfl | hx
        · exact .inl ⟨x, (ig.member _).2 (.inl rfl), fun _ _ => rfl⟩
        · exact .inr hx
    · intro last hl
      cases rest with
      | nil =>
        have : f = g := by
          have := Except.ok.inj ef
          have := congrArg (fun u : State => u.cu.finder) this
          exact this.symm
        subst this
        have hl : n = last := by simpa using hl
        subst hl
        exact ⟨s.cu.finder, ig, ho, fun m hm => ⟨.inl hm, fun e => hn0 (e ▸ hm)⟩⟩
      | cons m rest =>
        obtain ⟨f0, i0, o0, m0⟩ := af last (by simpa [List.getLast?_cons_cons] using hl)
        exact ⟨f0, i0, o0, fun x hx => ⟨sub x (m0 x hx).1, (m0 x hx).2⟩⟩

/-- The arrays of a `COMP` that starts are an empty forest (42_compress R103). -/
theorem emptyForest (win : List Host.Cell) :
    ({ left := [], right := [], parent := [], ml := 0, mp := 0 } : Finder).Canonical ∧
      ({ left := [], right := [], parent := [], ml := 0, mp := 0 } : Finder).TreeOk win ∧
      ∀ n, ¬ ({ left := [], right := [], parent := [], ml := 0, mp := 0 } : Finder).Member n := by
  have hm : ∀ n, ¬ ({ left := [], right := [], parent := [], ml := 0, mp := 0 } : Finder).Member n :=
    fun n hn => hn.2 rfl
  refine ⟨⟨Cells.nil_wf _ _, Cells.nil_wf _ _, Cells.nil_wf _ _⟩, ⟨?_, ?_, ?_, ?_, ?_, ⟨fun _ => 0, ?_⟩⟩, hm⟩
  · exact fun n hn => absurd hn (hm n)
  · exact fun n hn => absurd hn (hm n)
  · exact fun c hc => absurd rfl hc
  · exact fun n hn => absurd hn (hm n)
  · exact fun n hn => absurd hn (hm n)
  · exact fun n hn => absurd hn (hm n)

theorem emptyForest_ordered (o : Config.TreeOrder) (win : List Host.Cell) :
    ({ left := [], right := [], parent := [], ml := 0, mp := 0 } : Finder).Ordered o win :=
  ⟨fun p _ hp => absurd hp ((emptyForest win).2.2 p), fun p _ hp => absurd hp ((emptyForest win).2.2 p),
    fun p _ hp => absurd hp ((emptyForest win).2.2 p)⟩

/-- The setup of a `COMP`, from the state its start leaves (42_compress R103, R104): it answers; the lookahead holds the
first bytes, the links form an ordered forest, the 19 positions inserted can be found, the match told for the cursor is a
longest one. -/
theorem cuSetup_law (o : Config.TreeOrder) (s : State) (hc : s.regs.inCount = 0) :
    ∃ win f, cuSetup o (cuInit s) =
        .ok (((cuInit s).loaded (s.src.unread.take 18) (decide (s.src.unread.length < 18)) win).withFinder f) ∧
      (∀ a, Memory.read win a = if 4078 ≤ a then (s.src.unread.take 18).getD (a - 4078) 0x20 else 0x20) ∧
      (((cuInit s).loaded (s.src.unread.take 18) (decide (s.src.unread.length < 18)) win).withFinder f).WalkOk
        o ∧
      f.ml.toNat ≤ 18 ∧
      (s.src.unread ≠ [] →
        (((cuInit s).loaded (s.src.unread.take 18) (decide (s.src.unread.length < 18)) win).withFinder f).Retained ∧
          (((cuInit s).loaded (s.src.unread.take 18) (decide (s.src.unread.length < 18)) win).withFinder
            f).LongestMatch) := by
  obtain ⟨win, he, hw, hr⟩ := fillLookahead_ok 18 (s := cuInit s) Memory.nil_wf (by simp [cuInit])
    (by simp [cuInit, hc])
  have hu : (cuInit s).src.unread = s.src.unread := rfl
  have hlen : (cuInit s).cu.len.toNat = 0 := rfl
  rw [hu] at he hr
  have hread : ∀ a, Memory.read win a = if 4078 ≤ a then (s.src.unread.take 18).getD (a - 4078) 0x20 else 0x20 := by
    intro a
    rw [hr, hlen]
    have h0 : Memory.read (cuInit s).win a = 0x20 := rfl
    rw [h0]
    by_cases h1 : 4078 ≤ a
    · rw [if_pos h1]
      by_cases h2 : a < 4078 + 0 + (s.src.unread.take 18).length
      · rw [if_pos ⟨by omega, h2⟩]
        simp only [Nat.add_zero]
        rw [List.getD_eq_getElem _ _ (by omega), List.getD_eq_getElem _ _ (by omega)]
      · rw [if_neg (by omega), List.getD_eq_default _ _ (by omega)]
    · rw [if_neg h1, if_neg (by omega)]
  obtain ⟨c0, t0, m0⟩ := emptyForest win
  have hl : ((cuInit s).loaded (s.src.unread.take 18) (decide (s.src.unread.length < 18)) win).cu.len.toNat =
      (s.src.unread.take 18).length := by
    have h18 : (s.src.unread.take 18).length ≤ 18 := by simp
    simp only [State.loaded, cuInit]
    rw [show (0 : BitVec 5) + BitVec.ofNat 5 (s.src.unread.take 18).length = BitVec.ofNat 5 (s.src.unread.take 18).length
      from BitVec.zero_add _, BitVec.toNat_ofNat]
    omega
  have cur : (0 : Cursor) = Config.cursorInit + 18 := by decide
  rw [cuSetup, he, Res.ok_bind]
  by_cases hz : ((cuInit s).loaded (s.src.unread.take 18) (decide (s.src.unread.length < 18)) win).cu.len = 0
  · refine ⟨win, { left := [], right := [], parent := [], ml := 0, mp := 0 }, ?_, hread,
      ⟨hw, c0, t0, emptyForest_ordered o win, ?_, cur⟩, by simp, ?_⟩
    · rw [if_pos hz]
      rfl
    · exact fun n hn => absurd hn (m0 _)
    · intro hne
      rw [hz] at hl
      exfalso
      apply hne
      have h3 : (s.src.unread.take 18).length = 0 := hl.symm
      simp at h3
      exact h3
  · obtain ⟨f, ef, cf, tf, of, mf, xf, af⟩ := insertAll_law o setupPositions
      (s := (cuInit s).loaded (s.src.unread.take 18) (decide (s.src.unread.length < 18)) win) c0 t0
      (emptyForest_ordered o win) (by decide) (fun n _ => m0 _)
    obtain ⟨f0, i0, o0, n0⟩ := af 4078 (by decide)
    have near : ∀ m ∈ setupPositions, (m - (0 : Cursor)).toNat ≤ 4078 ∧ ((4078 : Cursor) - m).toNat ≤ 18 ∧
        (m ≠ 4078 → 1 ≤ ((4078 : Cursor) - m).toNat) := by decide
    have hmem : ∀ m : Cursor, f.Member m.toNat → m ∈ setupPositions := fun m hm =>
      (mf m hm).elim (fun e => absurd e (m0 _)) fun e => e
    refine ⟨win, f, ?_, hread, ⟨hw, cf, tf, of, fun n hn => (near n (hmem n hn)).1, cur⟩, i0.le, fun _ => ⟨?_, ?_⟩⟩
    · rw [if_neg hz]
      exact ef
    · generalize hu : (((cuInit s).loaded (s.src.unread.take 18) (decide (s.src.unread.length < 18)) win).withFinder f) = u
      have uw : u.win = win := by subst hu; rfl
      have uf : u.cu.finder = f := by subst hu; rfl
      have uR : u.curR = 4078 := by subst hu; rfl
      have ul : u.cu.len.toNat = (s.src.unread.take 18).length := by subst hu; exact hl
      have ui : u.regs.inCount.toNat = (s.src.unread.take 18).length := by
        subst hu
        have h18 : (s.src.unread.take 18).length ≤ 18 := by simp
        change (s.regs.inCount + BitVec.ofNat 32 (s.src.unread.take 18).length).toNat = _
        rw [hc, show (0 : Word) + BitVec.ofNat 32 (s.src.unread.take 18).length =
          BitVec.ofNat 32 (s.src.unread.take 18).length from BitVec.zero_add _, BitVec.toNat_ofNat]
        omega
      have ue : u.encodedCount = 0 := by
        unfold State.encodedCount
        omega
      refine ⟨by omega, fun x _ hx => ?_, fun _ x hx => ?_⟩
      · rw [ue] at hx
        refine ⟨x, ?_, Nat.le_refl _, fun _ _ => rfl⟩
        have : x = 4078 := by
          unfold State.behind at hx
          rw [uR] at hx
          bv_omega
        rw [this, uf]
        exact (i0.member _).2 (.inl rfl)
      · rw [ue] at hx ⊢
        have hin : x ∈ setupPositions := by
          unfold State.behind at hx
          rw [uR] at hx
          have key : ∀ d : Nat, d ≤ 18 → (4078 : Cursor) - BitVec.ofNat 12 d ∈ setupPositions := by decide
          have := key ((4078 : Cursor) - x).toNat (by omega)
          rwa [BitVec.ofNat_toNat, BitVec.setWidth_eq, show (4078 : Cursor) - (4078 - x) = x by bv_omega] at this
        obtain ⟨m, mm, ag⟩ := xf x (.inr hin)
        refine ⟨m, uf ▸ mm, ?_, uw ▸ ag⟩
        unfold State.behind
        rw [uR]
        exact (near m (hmem m mm)).2.1
    · refine Inserted.longestMatch (f := f0) i0 o0 fun n hn => ?_
      obtain ⟨e, hne⟩ := n0 n hn
      have e := e.elim (fun e => absurd e (m0 _)) fun e => e
      obtain ⟨_, h2, h3⟩ := near n e
      exact ⟨h3 hne, h2.trans (by omega)⟩

end Sys2Proof.Machine
end

