-- ==== Sys2Proof/Laws/Step.lean ====
section
/-! SUPPORT. Everything a step can do: one relation for the steps of the block itself (`BlockStep`), and one induction
principle for what every step keeps (`step_keeps`). -/
namespace Sys2Proof.Machine

/-! ## Emission in the decompression unit -/

/-- The state after the byte `b` was emitted (41_decompress R93). -/
def State.emitted (s : State) (b : Byte) : State :=
  { s with
    snk := { s.snk with pending := s.snk.pending ++ [b] }
    regs := { s.regs with
      outCount := s.regs.outCount + 1
      csum := csumAdd s.sampled.signed s.regs.csum b }
    win := Memory.write s.win s.curR.toNat b
    curR := s.curR + 1
    du := { s.du with rem := s.du.rem - 1 } }

theorem emit_ok {s : State} (b : Byte) (hc : s.regs.outCount.toNat + 1 < 2 ^ 32) : emit b s = .ok (s.emitted b) := by
  rw [emit, streamWrite_ok b hc]
  rfl

/-- Everything an emission can answer (41_decompress R93). -/
theorem emit_cases {s t : State} {b : Byte} (h : emit b s = .ok t) :
    s.regs.outCount.toNat + 1 < 2 ^ 32 ∧ t = s.emitted b := by
  simp only [emit, Res.bind_eq_ok] at h
  obtain ⟨s1, h1, h2⟩ := h
  obtain ⟨hc, rfl⟩ := streamWrite_cases h1
  exact ⟨hc, (Except.ok.inj h2).symm⟩

theorem emit_error {s : State} {b : Byte} {e : Stop} (h : emit b s = .error e) : e = .refused .beyondCounters := by
  simp only [emit, Res.bind_eq_error] at h
  rcases h with h | ⟨s1, _, h⟩
  · exact streamWrite_error h
  · simp at h

/-- Everything the copy of a reference can answer: it emits as many bytes, each the window's byte where the copy stands
when the byte's turn comes (41_decompress R92). -/
theorem copyRun_cases {src : Cursor} {count : Nat} {s t : State} (h : copyRun src count s = .ok t) :
    ∃ bs : List Byte, bs.length = count ∧ t = bs.foldl State.emitted s := by
  induction count generalizing src s with
  | zero => exact ⟨[], rfl, (Except.ok.inj h).symm⟩
  | succ k ih =>
    simp only [copyRun, Res.bind_eq_ok] at h
    obtain ⟨s1, h1, h2⟩ := h
    obtain ⟨_, rfl⟩ := emit_cases h1
    obtain ⟨bs, hl, rfl⟩ := ih h2
    exact ⟨s.winAt src :: bs, by simp [hl], rfl⟩

theorem State.emitted_outCount {s : State} {b : Byte} (h : s.regs.outCount.toNat + 1 < 2 ^ 32) :
    (s.emitted b).regs.outCount.toNat = s.regs.outCount.toNat + 1 := by
  simp only [State.emitted, BitVec.toNat_add]
  simp
  omega

/-- The copy answers while the counter has room. -/
theorem copyRun_ok (src : Cursor) (count : Nat) {s : State} (hc : s.regs.outCount.toNat + count < 2 ^ 32) :
    ∃ t, copyRun src count s = .ok t := by
  induction count generalizing src s with
  | zero => exact ⟨s, rfl⟩
  | succ k ih =>
    rw [copyRun, emit_ok _ (by omega), Res.ok_bind]
    exact ih _ (by rw [State.emitted_outCount (by omega)]; omega)

theorem copyRun_error {src : Cursor} {count : Nat} {s : State} {e : Stop} (h : copyRun src count s = .error e) :
    e = .refused .beyondCounters := by
  induction count generalizing src s with
  | zero => simp [copyRun] at h
  | succ k ih =>
    simp only [copyRun, Res.bind_eq_error] at h
    rcases h with h | ⟨s1, _, h⟩
    · exact emit_error h
    · exact ih h

/-! ## Reading an element -/

/-- Every element as long as its selection says decodes (30_encoding R71, R74). -/
theorem decodeElement_ok (sel : Select) (bytes : List Byte) (h : bytes.length = sel.length) :
    ∃ i, decodeElement sel bytes = .ok (i, []) := by
  rcases sel with _ | (_ | _) | _ | _ <;>
    rcases bytes with _ | ⟨a, _ | ⟨b, _ | ⟨c, _ | ⟨d, _ | ⟨e, r⟩⟩⟩⟩⟩ <;>
      simp [Select.length, decodeElement] at h ⊢

/-- A string that is too short does not decode (60_exceptions R136). -/
theorem decodeElement_short (sel : Select) (bytes : List Byte) (h : bytes.length < sel.length) :
    decodeElement sel bytes = .error (.endOfSource sel) := by
  rcases sel with _ | (_ | _) | _ | _ <;>
    rcases bytes with _ | ⟨a, _ | ⟨b, _ | ⟨c, _ | ⟨d, _ | ⟨e, r⟩⟩⟩⟩⟩ <;>
      first
        | rfl
        | (simp [Select.length] at h; omega)
        | simp [Select.length] at h

/-- Everything the reading of an element can answer: the element of the next bytes, or, where the source ends first, the
failure `Truncated` (60_exceptions R136). -/
theorem fetchElement_cases {sel : Select} {s : State} {r : Fetched} (h : fetchElement sel s = .ok r) :
    (sel.length ≤ s.src.unread.length ∧ s.regs.inCount.toNat + sel.length < 2 ^ 32 ∧
        ∃ i, decodeElement sel (s.src.unread.take sel.length) = .ok (i, []) ∧
          r = .element i (s.afterReading sel.length)) ∨
      (s.src.unread.length < sel.length ∧ s.regs.inCount.toNat + s.src.unread.length < 2 ^ 32 ∧
        r = .ended ((s.afterReadUpTo sel.length).failedWith .truncated 0)) := by
  simp only [fetchElement, Res.bind_eq_ok] at h
  obtain ⟨⟨bs, s1⟩, h1, h2⟩ := h
  obtain ⟨hc, he⟩ := readUpTo_cases h1
  obtain ⟨rfl, rfl⟩ := Prod.mk.inj he
  simp only at h2
  by_cases hl : sel.length ≤ s.src.unread.length
  · left
    have hlen : (s.src.unread.take sel.length).length = sel.length := by simp; omega
    obtain ⟨i, hi⟩ := decodeElement_ok sel _ hlen
    rw [hi] at h2
    rw [hlen] at hc
    refine ⟨hl, hc, i, hi, ?_⟩
    rw [← Except.ok.inj h2]
    simp only [State.afterReadUpTo, hlen]
    rw [show decide (s.src.unread.length < sel.length) = false by simp; omega]
    simp [State.afterReading]
  · right
    have hlt : s.src.unread.length < sel.length := by omega
    have htake : s.src.unread.take sel.length = s.src.unread := List.take_of_length_le (by omega)
    rw [htake] at hc h2
    rw [decodeElement_short _ _ hlt] at h2
    exact ⟨hlt, hc, (Except.ok.inj h2).symm⟩

theorem fetchElement_error {sel : Select} {s : State} {e : Stop} (h : fetchElement sel s = .error e) :
    e = .refused .beyondCounters := by
  simp only [fetchElement, Res.bind_eq_error] at h
  rcases h with h | ⟨⟨bs, s1⟩, _, h⟩
  · exact readUpTo_error h
  · simp only at h
    split at h <;> simp at h

/-! ## The steps of the block -/

/-- The state of a decompression unit that has taken a flag bit (41_decompress R90). -/
def State.flagTaken (s : State) : State :=
  { s with du := { s.du with flags := s.du.flags >>> 1, fcnt := s.du.fcnt - 1 } }

/-- The state of a compression unit that has clamped the match (42_compress R106). -/
def State.clamped (s : State) : State :=
  s.withFinder { s.cu.finder with
    ml := if s.cu.len.toNat < s.cu.finder.ml.toNat then s.cu.len else s.cu.finder.ml }

theorem clamp_eq (s : State) : clamp s = s.clamped := by
  unfold clamp State.clamped State.withFinder
  by_cases h : s.cu.len < s.cu.finder.ml
  · rw [if_pos h, if_pos (by rwa [← BitVec.lt_def])]
  · rw [if_neg h, if_neg (by rwa [← BitVec.lt_def])]

/-- Every step that the block takes by itself while an operation runs. -/
inductive BlockStep : State → State → Prop
  /-- `VENC` writes a byte that another follows (40_varint R78). -/
  | vencMore (s : State) : s.running = some .venc → 0x7F#32 < s.vu.vv → s.regs.outCount.toNat + 1 < 2 ^ 32 →
      BlockStep s { s.afterWriting [vcontByte (s.vu.vv.extractLsb' 0 7)] with
        vu := { s.vu with vv := s.vu.vv >>> 7 } }
  /-- `VENC` writes its last byte and completes. -/
  | vencLast (s : State) : s.running = some .venc → ¬ 0x7F#32 < s.vu.vv → s.regs.outCount.toNat + 1 < 2 ^ 32 →
      BlockStep s ((s.afterWriting [vlastByte (s.vu.vv.extractLsb' 0 7)]).doneWith (s.regs.outCount + 1))
  /-- `VDEC` reads a byte that another follows (40_varint R81). -/
  | vdecMore (s : State) (p : BitVec 7) : s.running = some .vdec → s.regs.inCount.toNat + 1 < 2 ^ 32 →
      1 ≤ s.src.unread.length → s.src.unread.take 1 = [vcontByte p] → BlockStep s (accumulate p (s.afterReading 1))
  /-- `VDEC` reads the last byte and completes (40_varint R82). -/
  | vdecLast (s : State) (p : BitVec 7) : s.running = some .vdec → s.regs.inCount.toNat + 1 < 2 ^ 32 →
      1 ≤ s.src.unread.length → s.src.unread.take 1 = [vlastByte p] →
        BlockStep s ((accumulate p (s.afterReading 1)).doneWith (accumulate p (s.afterReading 1)).vu.vacc)
  /-- The source ends inside a `VDEC` or inside an element of a `DECOMP` (60_exceptions R136). -/
  | truncated (s s1 : State) (sel : Select) : s.Selects sel s1 → s.src.unread.length < sel.length →
      s.regs.inCount.toNat + s.src.unread.length < 2 ^ 32 →
        BlockStep s ((s1.afterReadUpTo sel.length).failedWith .truncated 0)
  /-- A flag byte (41_decompress R89). -/
  | flag (s : State) (f : Byte) : s.running = some .decomp → s.du.rem ≠ 0 → s.du.fcnt = 0 →
      s.regs.inCount.toNat + 1 < 2 ^ 32 → 1 ≤ s.src.unread.length →
        BlockStep s (loadFlags f (s.afterReading 1))
  /-- A literal (41_decompress R91). -/
  | lit (s : State) (d : Byte) : s.running = some .decomp → s.du.rem ≠ 0 → s.du.fcnt ≠ 0 →
      s.du.flags.getLsbD 0 = true → s.regs.inCount.toNat + 1 < 2 ^ 32 → s.src.unread.take 1 = [d] →
      s.regs.outCount.toNat + 1 < 2 ^ 32 → BlockStep s ((s.flagTaken.afterReading 1).emitted d)
  /-- A reference within the budget (41_decompress R92). -/
  | ref (s t : State) (offset : Cursor) (count : Nat) : s.running = some .decomp → s.du.rem ≠ 0 → s.du.fcnt ≠ 0 →
      s.du.flags.getLsbD 0 = false → s.regs.inCount.toNat + 2 < 2 ^ 32 → 2 ≤ s.src.unread.length →
      3 ≤ count → count ≤ 18 → count ≤ s.du.rem.toNat → s.src.unread.take 2 = refBytes offset count →
      copyRun (s.curR - offset) count (s.flagTaken.afterReading 2) = .ok t → BlockStep s t
  /-- A reference beyond the budget (41_decompress R92). -/
  | overflow (s : State) (count : Nat) : s.running = some .decomp → s.du.rem ≠ 0 → s.du.fcnt ≠ 0 →
      s.regs.inCount.toNat + 2 < 2 ^ 32 → 2 ≤ s.src.unread.length → s.du.rem.toNat < count →
        BlockStep s ((s.flagTaken.afterReading 2).failedWith .overflow (BitVec.ofNat 32 count))
  /-- The trailer of a block whose sum is right (41_decompress R95). -/
  | trailerRight (s : State) : s.running = some .decomp → s.du.rem = 0 → s.regs.inCount.toNat + 4 < 2 ^ 32 →
      4 ≤ s.src.unread.length → s.src.unread.take 4 = bytesOfWord s.regs.csum →
        BlockStep s ((s.afterReading 4).doneWith s.sampled.arg)
  /-- The trailer of a block whose sum is wrong (41_decompress R95). -/
  | trailerWrong (s : State) (w : Word) : s.running = some .decomp → s.du.rem = 0 →
      s.regs.inCount.toNat + 4 < 2 ^ 32 → 4 ≤ s.src.unread.length → w ≠ s.regs.csum →
        BlockStep s ((s.afterReading 4).failedWith .malformedStream w)
  /-- A literal of a `COMP` (42_compress R107). -/
  | compLit (s t : State) : s.running = some .comp → s.cu.len ≠ 0 → s.clamped.cu.finder.ml.toNat ≤ 2 →
      cuLit Config.treeOrder (s.winAt s.curR) s.clamped = .ok t → BlockStep s t
  /-- A reference of a `COMP` (42_compress R108). -/
  | compRef (s t : State) : s.running = some .comp → s.cu.len ≠ 0 → 3 ≤ s.clamped.cu.finder.ml.toNat →
      cuRef Config.treeOrder (s.curR - s.cu.finder.mp) s.clamped.cu.finder.ml.toNat s.clamped = .ok t → BlockStep s t
  /-- The end of a `COMP` (42_compress R112). -/
  | compTrailer (s t : State) : s.running = some .comp → s.cu.len = 0 → cuTrailer s.regs.csum s = .ok t → BlockStep s t

theorem duSelect_selects {s : State} (h : s.running = some .decomp) : s.Selects (duSelect s).1 (duSelect s).2 := by
  right
  refine ⟨h, ?_⟩
  unfold duSelect takeFlagBit
  split
  · rename_i hz
    exact .inl ⟨hz, rfl, rfl⟩
  · rename_i hz
    split
    · rename_i hf
      exact .inr (.inl ⟨hz, hf, rfl, rfl⟩)
    · rename_i hf
      exact .inr (.inr ⟨hz, hf, rfl, rfl⟩)

/-- The two bytes of a reference are its encoding (30_encoding R65, R70). -/
theorem refBytes_of_bytes (b0 b1 : Byte) : refBytes (refOffset b0 b1) (refCount b1) = [b0, b1] := by
  unfold refBytes refOffset refCount
  rw [show (b1.extractLsb' 0 4).toNat + 3 - 3 = (b1.extractLsb' 0 4).toNat by omega, BitVec.ofNat_toNat]
  congr 1
  · apply BitVec.eq_of_getLsbD_eq
    intro i hi
    have : i < 8 := hi
    simp only [BitVec.getLsbD_extractLsb', BitVec.getLsbD_append]
    simp [this]
  · congr 1
    apply BitVec.eq_of_getLsbD_eq
    intro i hi
    have h8 : i < 8 := hi
    simp only [BitVec.getLsbD_append, BitVec.getLsbD_extractLsb', BitVec.setWidth_eq]
    by_cases h : i < 4
    · simp [h]
    · have e : 4 + (i - 4) = i := by omega
      have h4 : i - 4 < 4 := by omega
      simp [h, e, h4]

/-- The four bytes of a trailer are its encoding (30_encoding R66, R70). -/
theorem bytesOfWord_of_bytes (t0 t1 t2 t3 : Byte) : bytesOfWord (wordOfBytes t0 t1 t2 t3) = [t0, t1, t2, t3] := by
  have key : ∀ k < 4, (t3 ++ t2 ++ t1 ++ t0 : BitVec 32).extractLsb' (8 * k) 8 = [t0, t1, t2, t3].getD k 0 := by
    intro k hk
    apply BitVec.eq_of_getLsbD_eq
    intro i hi
    have h8 : i < 8 := hi
    simp only [BitVec.getLsbD_extractLsb', BitVec.getLsbD_append, h8, decide_true, Bool.true_and]
    rcases k with _ | _ | _ | _ | k
    · simp [h8]
    · rw [if_neg (by omega), if_pos (by omega), show 8 * (0 + 1) + i - 8 = i by omega]
      rfl
    · rw [if_neg (by omega), if_neg (by omega), if_pos (by omega), show 8 * (0 + 1 + 1) + i - 8 - 8 = i by omega]
      rfl
    · rw [if_neg (by omega), if_neg (by omega), if_neg (by omega),
        show 8 * (0 + 1 + 1 + 1) + i - 8 - 8 - 8 = i by omega]
      rfl
    · omega
  have h0 := key 0 (by omega)
  have h1 := key 1 (by omega)
  have h2 := key 2 (by omega)
  have h3 := key 3 (by omega)
  simp only [bytesOfWord, wordOfBytes]
  exact congr (congrArg List.cons h0) (congr (congrArg List.cons h1) (congr (congrArg List.cons h2)
    (congr (congrArg List.cons h3) rfl)))

/-- A varint byte is its encoding (30_encoding R68, R69). -/
theorem decodeVarintByte_cases (b : Byte) :
    (∃ p, decodeVarintByte b = .vcont p ∧ b = vcontByte p) ∨ ∃ p, decodeVarintByte b = .vlast p ∧ b = vlastByte p := by
  have key : ∀ b : Byte, (b.getLsbD 7 = true → b = vcontByte (b.extractLsb' 0 7)) ∧
      (b.getLsbD 7 = false → b = vlastByte (b.extractLsb' 0 7)) := by decide
  unfold decodeVarintByte
  cases h : b.getLsbD 7
  · exact .inr ⟨_, rfl, (key b).2 h⟩
  · exact .inl ⟨_, rfl, (key b).1 h⟩

/-- A step of the block, with an operation in progress, is one of `BlockStep`. -/
theorem engineStep_blockStep {s t : State} (hb : s.busy = true) (h : engineStep s = .next t) : BlockStep s t := by
  rw [engineStep, if_pos hb] at h
  cases hr : s.running with
  | none => simp [fetch, hr] at h
  | some op =>
    have hrun : ∀ n, (s.afterReading n).running = s.running := fun n => rfl
    cases op with
    | venc =>
      simp only [fetch, hr] at h
      by_cases hv : 0x7F#32 < s.vu.vv
      · simp only [vencElement, if_pos hv, exec, execVcont, hr, Res.outcome_eq_next, Res.bind_eq_ok] at h
        obtain ⟨s1, h1, h2⟩ := h
        obtain ⟨hc, rfl⟩ := streamWrite_cases h1
        rw [← Except.ok.inj h2]
        exact .vencMore s hr hv hc
      · simp only [vencElement, if_neg hv, exec, execVlast, hr, Res.outcome_eq_next, Res.bind_eq_ok] at h
        obtain ⟨s1, h1, h2⟩ := h
        obtain ⟨hc, rfl⟩ := streamWrite_cases h1
        rw [← Except.ok.inj h2]
        exact .vencLast s hr hv hc
    | vdec =>
      simp only [fetch, hr] at h
      cases hf : fetchElement .varint s with
      | error e => rcases e with r | r <;> simp [hf] at h
      | ok r =>
        rw [hf] at h
        rcases fetchElement_cases hf with ⟨hl, hc, i, hi, rfl⟩ | ⟨hl, hc, rfl⟩
        · simp only at h
          change 1 ≤ s.src.unread.length at hl
          change s.regs.inCount.toNat + 1 < 2 ^ 32 at hc
          change decodeElement .varint (s.src.unread.take 1) = _ at hi
          change exec i (s.afterReading 1) = _ at h
          obtain ⟨b, hb1⟩ : ∃ b, s.src.unread.take 1 = [b] := by
            cases hu : s.src.unread with
            | nil => simp [hu] at hl
            | cons b r => exact ⟨b, by simp⟩
          have hv : decodeVarintByte b = i := by
            rw [hb1] at hi
            exact (Prod.mk.inj (Except.ok.inj hi)).1
          have hr1 : (s.afterReading 1).running = some .vdec := hr
          rcases decodeVarintByte_cases b with ⟨p, e1, e2⟩ | ⟨p, e1, e2⟩
          · rw [← hv, e1] at h
            simp only [exec, execVcont, hr1, Res.outcome_ok] at h
            rw [← Host.Outcome.next.inj h]
            exact .vdecMore s p hr hc hl (by rw [hb1, e2])
          · rw [← hv, e1] at h
            simp only [exec, execVlast, hr1, Res.outcome_ok] at h
            rw [← Host.Outcome.next.inj h]
            exact .vdecLast s p hr hc hl (by rw [hb1, e2])
        · simp only at h
          rw [← Host.Outcome.next.inj h]
          exact .truncated s s .varint (.inl ⟨hr, rfl, rfl⟩) hl hc
    | decomp =>
      simp only [fetch, hr] at h
      have hsel := duSelect_selects hr
      revert h hsel
      generalize duSelect s = q
      obtain ⟨sel, s1⟩ := q
      intro h hsel
      simp only at h hsel
      have hsrc : s1.src = s.src ∧ s1.regs = s.regs := by
        rcases hsel with ⟨_, _, rfl⟩ | ⟨_, ⟨_, _, rfl⟩ | ⟨_, _, _, rfl⟩ | ⟨_, _, _, rfl⟩⟩ <;> exact ⟨rfl, rfl⟩
      have hr1 : ∀ n, (s1.afterReading n).running = some .decomp := by
        intro n
        rw [← hr]
        exact State.running_congr (by have := congrArg Regs.cmd hsrc.2; exact this)
          (by have := congrArg Regs.state hsrc.2; exact this)
      cases hf : fetchElement sel s1 with
      | error e => rcases e with r | r <;> simp [hf] at h
      | ok r =>
        rw [hf] at h
        rcases fetchElement_cases hf with ⟨hl, hc, i, hi, rfl⟩ | ⟨hl, hc, rfl⟩
        · simp only at h
          rw [hsrc.1] at hl hi
          rw [hsrc.2] at hc
          rcases hsel with ⟨hx, _⟩ | ⟨_, ⟨hz, rfl, rfl⟩ | ⟨hz, hf0, rfl, rfl⟩ | ⟨hz, hf0, rfl, rfl⟩⟩
          · rw [hr] at hx
            simp at hx
          · change 4 ≤ _ at hl
            change _ + 4 < _ at hc
            change decodeElement .trailer (s1.src.unread.take 4) = _ at hi
            change exec i (s1.afterReading 4) = _ at h
            obtain ⟨a, b, c, d, r, hu⟩ : ∃ a b c d r, s1.src.unread = a :: b :: c :: d :: r := by
              rcases hu : s1.src.unread with _ | ⟨a, _ | ⟨b, _ | ⟨c, _ | ⟨d, r⟩⟩⟩⟩ <;> simp [hu] at hl
              exact ⟨a, b, c, d, r, rfl⟩
            have ht : s1.src.unread.take 4 = [a, b, c, d] := by rw [hu]; rfl
            rw [ht] at hi
            have hi := (Prod.mk.inj (Except.ok.inj hi)).1
            subst hi
            simp only [exec, execTrailer, hr1, duTrailer, Res.outcome_eq_next] at h
            rw [if_pos (show (s1.afterReading 4).du.rem = 0 from hz)] at h
            by_cases hw : wordOfBytes a b c d = (s1.afterReading 4).regs.csum
            · rw [if_pos hw] at h
              rw [← Except.ok.inj h]
              refine .trailerRight s1 hr hz hc hl ?_
              have hw' : wordOfBytes a b c d = s1.regs.csum := hw
              rw [ht, ← hw', bytesOfWord_of_bytes]
            · rw [if_neg hw] at h
              rw [← Except.ok.inj h]
              exact .trailerWrong s1 _ hr hz hc hl hw
          · change 1 ≤ _ at hl
            change _ + 1 < _ at hc
            change decodeElement .flag (s1.src.unread.take 1) = _ at hi
            change exec i (s1.afterReading 1) = _ at h
            obtain ⟨a, r, hu⟩ : ∃ a r, s1.src.unread = a :: r := by
              rcases hu : s1.src.unread with _ | ⟨a, r⟩ <;> simp [hu] at hl
              exact ⟨a, r, rfl⟩
            have ht : s1.src.unread.take 1 = [a] := by rw [hu]; rfl
            rw [ht] at hi
            have hi := (Prod.mk.inj (Except.ok.inj hi)).1
            subst hi
            simp only [exec, execFlag, hr1, duFlag, Res.outcome_eq_next] at h
            rw [if_pos (show (s1.afterReading 1).du.rem ≠ 0 ∧ (s1.afterReading 1).du.fcnt = 0 from ⟨hz, hf0⟩)] at h
            rw [← Except.ok.inj h]
            exact .flag s1 a hr hz hf0 hc hl
          · change exec i (s.flagTaken.afterReading _) = _ at h
            change ∀ n, (s.flagTaken.afterReading n).running = _ at hr1
            cases hbit : s.du.flags.getLsbD 0 with
            | true =>
              rw [hbit] at hl hc hi h
              change 1 ≤ _ at hl
              change _ + 1 < _ at hc
              change decodeElement (.token true) (s.src.unread.take 1) = _ at hi
              change exec i (s.flagTaken.afterReading 1) = _ at h
              obtain ⟨a, r, hu⟩ : ∃ a r, s.src.unread = a :: r := by
                rcases hu : s.src.unread with _ | ⟨a, r⟩ <;> simp [hu] at hl
                exact ⟨a, r, rfl⟩
              have ht : s.src.unread.take 1 = [a] := by rw [hu]; rfl
              rw [ht] at hi
              have hi := (Prod.mk.inj (Except.ok.inj hi)).1
              subst hi
              simp only [exec, execLit, hr1, duLit, Res.outcome_eq_next] at h
              rw [if_pos (show (s.flagTaken.afterReading 1).du.rem ≠ 0 from hz)] at h
              obtain ⟨ho, rfl⟩ := emit_cases h
              exact .lit s a hr hz hf0 hbit hc ht ho
            | false =>
              rw [hbit] at hl hc hi h
              change 2 ≤ _ at hl
              change _ + 2 < _ at hc
              change decodeElement (.token false) (s.src.unread.take 2) = _ at hi
              change exec i (s.flagTaken.afterReading 2) = _ at h
              obtain ⟨a, b, r, hu⟩ : ∃ a b r, s.src.unread = a :: b :: r := by
                rcases hu : s.src.unread with _ | ⟨a, _ | ⟨b, r⟩⟩ <;> simp [hu] at hl
                exact ⟨a, b, r, rfl⟩
              have ht : s.src.unread.take 2 = [a, b] := by rw [hu]; rfl
              rw [ht] at hi
              have hi := (Prod.mk.inj (Except.ok.inj hi)).1
              subst hi
              simp only [exec, execRef, hr1, duRef, Res.outcome_eq_next] at h
              rw [if_pos (show (s.flagTaken.afterReading 2).du.rem ≠ 0 from hz)] at h
              split at h
              · rename_i hlt
                rw [← Except.ok.inj h]
                exact .overflow s _ hr hz hf0 hc hl hlt
              · rename_i hlt
                refine .ref s t (refOffset a b) (refCount b) hr hz hf0 hbit hc hl ?_ ?_ (Nat.le_of_not_lt hlt) ?_ h
                · unfold refCount; omega
                · have := (b.extractLsb' 0 4).isLt; unfold refCount; omega
                · rw [ht, refBytes_of_bytes]
        · simp only at h
          rw [← Host.Outcome.next.inj h]
          rw [hsrc.1] at hl hc
          rw [hsrc.2] at hc
          exact .truncated s s1 sel hsel hl hc
    | comp =>
      simp only [fetch, hr] at h
      unfold cuElement at h
      rw [clamp_eq] at h
      by_cases hz : s.cu.len = 0
      · rw [if_pos hz] at h
        simp only [exec, execTrailer, hr, Res.outcome_eq_next] at h
        exact .compTrailer s t hr hz h
      · rw [if_neg hz] at h
        have hr1 : s.clamped.running = some .comp := hr
        by_cases hm : s.clamped.cu.finder.ml ≤ 2
        · simp only [if_pos hm, exec, execLit, hr1, Res.outcome_eq_next] at h
          exact .compLit s t hr hz (by rw [BitVec.le_def] at hm; exact hm) h
        · simp only [if_neg hm, exec, execRef, hr1, Res.outcome_eq_next] at h
          refine .compRef s t hr hz ?_ h
          rw [BitVec.le_def] at hm
          simp at hm
          omega

/-! ## All steps -/

/-- The state a command leaves that is accepted (60_exceptions R131, R133, R139; 40_varint R78 to R80; 41_decompress
R87; 42_compress R103, R104). -/
inductive CommandStep (s : State) : State → Prop
  | nop : CommandStep s { s.started 0 with regs := { (s.started 0).regs with state := .idle } }
  | venc : CommandStep s { s.started 1 with vu := { s.vu with vv := s.regs.arg } }
  | vlen (vv : Word) (n : Nat) :
      CommandStep s (({ s.started 2 with vu := { s.vu with vv := vv } } : State).doneWith (BitVec.ofNat 32 n))
  | vdec : CommandStep s { s.started 3 with vu := { s.vu with vacc := 0, vidx := 0 } }
  | decomp : CommandStep s (duInit (s.started 4))
  | comp (win : List Host.Cell) (f : Finder) :
      cuSetup Config.treeOrder (cuInit (s.started 5)) =
        .ok (((cuInit (s.started 5)).loaded (s.src.unread.take 18) (decide (s.src.unread.length < 18)) win).withFinder f) →
      (∀ a, Memory.read win a = if 4078 ≤ a then (s.src.unread.take 18).getD (a - 4078) 0x20 else 0x20) →
      (((cuInit (s.started 5)).loaded (s.src.unread.take 18) (decide (s.src.unread.length < 18)) win).withFinder f).WalkOk
        Config.treeOrder →
      f.ml.toNat ≤ 18 →
      (s.src.unread ≠ [] →
        (((cuInit (s.started 5)).loaded (s.src.unread.take 18) (decide (s.src.unread.length < 18)) win).withFinder
          f).Retained ∧
        (((cuInit (s.started 5)).loaded (s.src.unread.take 18) (decide (s.src.unread.length < 18)) win).withFinder
          f).LongestMatch) →
      CommandStep s
        (((cuInit (s.started 5)).loaded (s.src.unread.take 18) (decide (s.src.unread.length < 18)) win).withFinder f)
  | reserved (w : Word) : 5 < w.toNat → CommandStep s ((s.started w).failedWith .badCommand 0)

/-- What a command word decodes to (30_encoding R59). -/
theorem decodeCommand_cases (w : Word) :
    (decodeCommand w = .ok .nop ∧ w = 0) ∨ (decodeCommand w = .ok .venc ∧ w = 1) ∨
      (decodeCommand w = .ok .vlen ∧ w = 2) ∨ (decodeCommand w = .ok .vdec ∧ w = 3) ∨
      (decodeCommand w = .ok .decomp ∧ w = 4) ∨ (decodeCommand w = .ok .comp ∧ w = 5) ∨
      (decodeCommand w = .error (.reservedCommand w) ∧ 5 < w.toNat) := by
  have hw : w = BitVec.ofNat 32 w.toNat := by simp
  by_cases h : 5 < w.toNat
  · have : decodeCommand w = .error (.reservedCommand w) := by
      unfold decodeCommand
      split <;> first | omega | rfl
    simp [this, h]
  · have h6 : w.toNat < 6 := by omega
    generalize hn : w.toNat = n at hw h6
    subst hw
    clear hn h
    revert n
    decide

/-- A written command word, in a block that is not `BUSY`: what it leaves. It always answers. -/
theorem hostCommand_idle {s : State} (w : Word) (hb : s.busy = false) :
    ∃ t, hostCommand w s = .next t ∧ CommandStep s t := by
  unfold hostCommand
  rcases decodeCommand_cases w with ⟨h, _⟩ | ⟨h, _⟩ | ⟨h, _⟩ | ⟨h, _⟩ | ⟨h, _⟩ | ⟨h, _⟩ | ⟨h, hw⟩ <;> rw [h]
  · exact ⟨_, by simp only [exec, execNop, runCommand_idle hb, Res.outcome_ok], .nop⟩
  · exact ⟨_, by simp only [exec, execVenc, runCommand_idle hb, Res.outcome_ok]; rfl, .venc⟩
  · exact ⟨_, by simp only [exec, execVlen, runCommand_idle hb, Res.outcome_ok]; rfl, .vlen _ _⟩
  · exact ⟨_, by simp only [exec, execVdec, runCommand_idle hb, Res.outcome_ok]; rfl, .vdec⟩
  · exact ⟨_, by simp only [exec, execDecomp, runCommand_idle hb, Res.outcome_ok], .decomp⟩
  · obtain ⟨win, f, h1, h2, h3, h4, h5⟩ := cuSetup_law Config.treeOrder (s.started 5) rfl
    exact ⟨_, by simp only [exec, execComp, runCommand_idle hb, h1, Res.outcome_ok]; rfl,
      .comp win f h1 h2 h3 h4 h5⟩
  · exact ⟨_, by simp only [badCommand, runCommand_idle hb, Res.outcome_ok]; rfl, .reserved w hw⟩

/-- While `BUSY` a written command word changes nothing (70_reset R160). -/
theorem hostCommand_busy {s : State} (w : Word) (hb : s.busy = true) : hostCommand w s = .next s := by
  unfold hostCommand
  rcases decodeCommand_cases w with ⟨h, _⟩ | ⟨h, _⟩ | ⟨h, _⟩ | ⟨h, _⟩ | ⟨h, _⟩ | ⟨h, _⟩ | ⟨h, hw⟩ <;> rw [h] <;>
    simp only [exec, execNop, execVenc, execVlen, execVdec, execDecomp, execComp, badCommand, runCommand_busy hb,
      Res.outcome_ok]

/-- Everything one step of the machine can do; `p` is the host's port as the step leaves it. -/
inductive StepTo (s : State) : State → Prop
  /-- Only the host's port changes: a read, an ignored write, the end of a wait, a block that waits. -/
  | port (p : Port) : StepTo s { s with port := p }
  /-- The block takes a step of its operation. -/
  | block (p : Port) (t : State) : (s.port.queue = [] → p = s.port) → s.busy = true → BlockStep { s with port := p } t →
      StepTo s t
  /-- A command is accepted. -/
  | command (w : Word) (rest : List HostAction) (t : State) : s.port.queue = .write .cmd w :: rest → s.busy = false →
      CommandStep { s with port := { s.port with queue := rest } } t → StepTo s t
  /-- `MODE` is written. -/
  | mode (v : Word) (p : Port) : s.busy = false →
      StepTo s { s with port := p, regs := { s.regs with signed := v.getLsbD 0 } }
  /-- `ARG` is written. -/
  | arg (v : Word) (p : Port) : s.busy = false → StepTo s { s with port := p, regs := { s.regs with arg := v } }
  /-- Hard reset. -/
  | reset (p : Port) : s.port.queue.head? = some .hardReset → StepTo s (hardReset { s with port := p })
  /-- A source is attached. -/
  | attach (bytes : List Byte) (p : Port) : s.busy = false →
      StepTo s { s with port := p, src := { bytes := bytes, pos := 0, eos := false } }

/-- A step that ends in a next state is one of these. -/
theorem step_cases {s t : State} (h : step s = .next t) : StepTo s t := by
  have engine : ∀ p, (s.port.queue = [] → p = s.port) → engineStep { s with port := p } = .next t → StepTo s t := by
    intro p hp h
    cases hb : s.busy with
    | true => exact .block p t hp hb (engineStep_blockStep hb h)
    | false =>
      have hb' : ({ s with port := p } : State).busy = false := hb
      simp only [engineStep, hb', Bool.false_eq_true, if_false] at h
      exact Host.Outcome.next.inj h ▸ .port p
  unfold step at h
  split at h
  · exact engine s.port (fun _ => rfl) h
  · rename_i a rest hq
    have nonempty : ∀ p, s.port.queue = [] → p = s.port := fun p hn => by simp [hn] at hq
    have hbu : ∀ b, s.busy = b → ({ s with port := { s.port with queue := rest } } : State).busy = b := fun _ hb => hb
    cases a with
    | write r v =>
      cases r with
      | cmd =>
        change hostCommand v { s with port := { s.port with queue := rest } } = .next t at h
        cases hb : s.busy with
        | true =>
          rw [hostCommand_busy v (hbu _ hb)] at h
          exact Host.Outcome.next.inj h ▸ .port _
        | false =>
          obtain ⟨t', ht, hc⟩ := hostCommand_idle v (hbu _ hb)
          rw [ht] at h
          exact Host.Outcome.next.inj h ▸ .command v rest t' hq hb hc
      | mode =>
        cases hb : s.busy with
        | true =>
          simp only [hostStep, hostWrite, hbu _ hb, if_true] at h
          exact Host.Outcome.next.inj h ▸ .port _
        | false =>
          simp only [hostStep, hostWrite, hbu _ hb, Bool.false_eq_true, if_false] at h
          exact Host.Outcome.next.inj h ▸ .mode v _ hb
      | arg =>
        cases hb : s.busy with
        | true =>
          simp only [hostStep, hostWrite, hbu _ hb, if_true] at h
          exact Host.Outcome.next.inj h ▸ .port _
        | false =>
          simp only [hostStep, hostWrite, hbu _ hb, Bool.false_eq_true, if_false] at h
          exact Host.Outcome.next.inj h ▸ .arg v _ hb
      | result => exact Host.Outcome.next.inj h ▸ .port _
      | status => exact Host.Outcome.next.inj h ▸ .port _
      | csum => exact Host.Outcome.next.inj h ▸ .port _
      | inCount => exact Host.Outcome.next.inj h ▸ .port _
      | outCount => exact Host.Outcome.next.inj h ▸ .port _
    | read r =>
      simp only [hostStep, hostRead] at h
      split at h <;> exact Host.Outcome.next.inj h ▸ .port _
    | wait =>
      simp only [hostStep] at h
      split at h
      · exact engine _ (nonempty _) h
      · exact Host.Outcome.next.inj h ▸ .port _
    | tick => exact engine _ (nonempty _) h
    | hardReset => exact Host.Outcome.next.inj h ▸ .reset _ (by simp [hq])
    | attach bytes =>
      simp only [hostStep, attachSource] at h
      cases hb : s.busy with
      | true => simp [hbu _ hb] at h
      | false =>
        simp only [hbu _ hb, Bool.false_eq_true, if_false, Res.outcome_ok] at h
        exact Host.Outcome.next.inj h ▸ .attach bytes _ hb

/-- What every kind of step keeps, every step keeps: an invariant that does not look at the host's port need only be kept
by the block's steps, by accepted commands, by writes of `MODE` and `ARG`, by hard reset and by a new source. -/
theorem step_keeps (motive : State → Prop) (port : ∀ (s : State) (p : Port), motive s → motive { s with port := p })
    (block : ∀ s t, motive s → s.busy = true → BlockStep s t → motive t)
    (command : ∀ s t, motive s → s.busy = false → CommandStep s t → motive t)
    (mode : ∀ (s : State) (v : Word), motive s → s.busy = false →
      motive { s with regs := { s.regs with signed := v.getLsbD 0 } })
    (arg : ∀ (s : State) (v : Word), motive s → s.busy = false → motive { s with regs := { s.regs with arg := v } })
    (reset : ∀ s, motive s → motive (hardReset s))
    (attach : ∀ (s : State) (bytes : List Byte), motive s → s.busy = false →
      motive { s with src := { bytes := bytes, pos := 0, eos := false } })
    {s t : State} (hs : motive s) (h : step s = .next t) : motive t := by
  have hp := fun p => port s p hs
  cases step_cases h with
  | port p => exact hp p
  | block p t _ hb h => exact block _ t (hp p) hb h
  | command w rest t _ hb h => exact command _ t (hp { s.port with queue := rest }) hb h
  | mode v p hb => exact mode _ v (hp p) hb
  | arg v p hb => exact arg _ v (hp p) hb
  | reset p _ => exact reset _ (hp p)
  | attach bytes p hb => exact attach _ bytes (hp p) hb

end Sys2Proof.Machine
end

