-- ==== Sys2Proof/Laws/Encoder.lean ====
section
/-! SUPPORT. What one token of `COMP` keeps: the encoder's cursors, group and checksum, its window, its forest; and that
a token completes. Stated for any property that the parts of a token keep, then for the invariants of Safety.lean. -/
namespace Sys2Proof.Machine

/-- Two different operations are not running at once. -/
theorem running_ne {s : State} {a b : Operation} (h : s.running = some a) (hn : a ≠ b) {P : Prop} : s.running = some b → P := by
  intro h2; rw [h] at h2; exact absurd (Option.some.inj h2) hn

/-- A step of the block goes on with its operation, or ends it. -/
theorem blockStep_running {s t : State} (h : BlockStep s t) : t.running = s.running ∨ t.running = none := by
  have adv : ∀ (op : Option Operation) (u t : State), u.running = op → advanceStep Config.treeOrder u = .ok t → t.running = op := by
    intro op u t hu h
    rcases advanceStep_cases h with ⟨b, f, g, hbb, hc, hf, hg, rfl⟩ | ⟨f, g, hbb, hf, hg, rfl⟩ <;> exact hu
  cases h with
  | vencMore => exact .inl rfl
  | vencLast => exact .inr rfl
  | vdecMore p => left; unfold accumulate; split <;> rfl
  | vdecLast p => right; rfl
  | truncated => exact .inr rfl
  | flag => exact .inl rfl
  | lit => exact .inl rfl
  | ref _ _ _ _ _ _ _ _ _ _ _ _ _ h =>
    obtain ⟨bs, _, rfl⟩ := copyRun_cases h
    have : ∀ (bs : List Byte) (s : State), (bs.foldl State.emitted s).running = s.running := by
      intro bs; induction bs with
      | nil => exact fun s => rfl
      | cons b r ih => exact fun s => ih _
    left; rw [this]; rfl
  | overflow => exact .inr rfl
  | trailerRight => exact .inr rfl
  | trailerWrong => exact .inr rfl
  | compLit _ hr _ _ h => left; rw [hr]; exact cuLit_keeps (fun u => u.running = some .comp) (fun _ _ _ _ h => h) (fun _ _ h _ => h) (fun _ h => h) (adv _) (s := s.clamped) hr h
  | compRef _ hr _ _ h => left; rw [hr]; exact cuRef_keeps (fun u => u.running = some .comp) (fun _ _ _ _ h => h) (fun _ _ h _ => h) (adv _) (s := s.clamped) hr h
  | compTrailer _ _ _ h =>
    obtain ⟨u, hu, rfl⟩ := cuTrailer_keeps (fun _ => True) (fun _ _ _ _ => trivial) trivial h
    exact .inr rfl

/-- A window write at a circular index, read at a circular index. -/
theorem Memory.read_write_cursor {win : List Host.Cell} (hw : Memory.wf win) (c : Cursor) (b : Byte) (a : Cursor) :
   Memory.read (Memory.write win c.toNat b) a.toNat = if a = c then b else Memory.read win a.toNat := by
  rw [Memory.read_write _ _ _ _ hw]
  by_cases e : a = c
  · simp [e]
  · rw [if_neg e, if_neg (fun h => e (BitVec.eq_of_toNat_eq h))]

/-- What the window advance keeps of `StorageOk`, `StatusOk` and `CompOk`, whatever runs. -/
structure State.AdvanceOk (s : State) : Prop where
  wf : Memory.wf s.win
  can : s.cu.finder.Canonical
  busy : s.regs.inCount.toNat ≤ s.src.pos ∧ s.src.pos ≤ s.src.bytes.length ∧ (s.src.eos = true → s.src.pos = s.src.bytes.length)
  cur : s.cu.curS = s.curR + 18
  len : s.cu.len ≤ 18
  leneos : s.cu.len < 18 → s.src.eos = true
  csum : s.regs.csum = checksum s.sampled.signed s.consumed
  mirror : ∀ j < 17, Memory.read s.win (4096 + j) = Memory.read s.win j

/-- An advance step with input appends the byte read to those consumed. -/
theorem advancedInput_consumed {s : State} {b : Byte} (hb : s.src.bytes[s.src.pos]? = some b) (hc : s.regs.inCount.toNat + 1 < 2^32)
   (h : s.regs.inCount.toNat ≤ s.src.pos) (f : Finder) : (s.advancedInput b f).consumed = s.consumed ++ [b] := by
  obtain ⟨hlt, hb⟩ := List.getElem?_eq_some_iff.1 hb
  have h1 : (s.regs.inCount + 1).toNat = s.regs.inCount.toNat + 1 := by
    rw [BitVec.toNat_add]; simp; omega
  simp only [State.consumed, State.advancedInput, h1]
  rw [show s.src.pos + 1 - (s.regs.inCount.toNat + 1) = s.src.pos - s.regs.inCount.toNat by omega]
  rw [List.take_succ_eq_append_getElem hlt, List.drop_append_of_le_length, hb]
  simp; omega

/-- An advance step keeps `AdvanceOk`, and `LEN` falls by at most one. -/
theorem advanceStep_advanceOk {o} {s t : State} (h : State.AdvanceOk s) (hl : s.cu.len ≠ 0) (ha : advanceStep o s = .ok t) : State.AdvanceOk t ∧ s.cu.len.toNat ≤ t.cu.len.toNat + 1 := by
  obtain ⟨w, c, ⟨b1, b2, b3⟩, cu, l, le, cs, mi⟩ := h
  rcases advanceStep_cases ha with ⟨b, f, g, hbb, hc, hf, hg, rfl⟩ | ⟨f, g, hbb, hf, hg, rfl⟩
  · have hcon := advancedInput_consumed hbb hc b1 g
    obtain ⟨hlt, _⟩ := List.getElem?_eq_some_iff.1 hbb
    refine ⟨⟨windowAfter_wf w _ _, (insertNode_keeps (deleteNode_keeps c hf).1 hg).1, ⟨?_, ?_, ?_⟩, ?_, l, le, ?_, fun j hj => windowAfter_mirror w _ _ hj (mi j hj)⟩, ?_⟩
    · have h1 : (s.regs.inCount + 1).toNat = s.regs.inCount.toNat + 1 := by
        rw [BitVec.toNat_add]; simp; omega
      show (s.regs.inCount + 1).toNat ≤ s.src.pos + 1; omega
    · show s.src.pos + 1 ≤ s.src.bytes.length; omega
    · intro e
      have := b3 e
      omega
    · show s.cu.curS + 1 = s.curR + 1 + 18; rw [cu]; ac_rfl
    · rw [hcon]
      show csumAdd s.sampled.signed s.regs.csum b = checksum s.sampled.signed _
      rw [cs]; simp [checksum]
    · show s.cu.len.toNat ≤ s.cu.len.toNat + 1; omega
  · rw [List.getElem?_eq_none_iff] at hbb
    refine ⟨⟨w, ?_, ⟨b1, b2, fun _ => ?_⟩, ?_, ?_, fun _ => rfl, cs, mi⟩, ?_⟩
    · split at hg
      · rw [hg]; exact (deleteNode_keeps c hf).1
      · exact (insertNode_keeps (deleteNode_keeps c hf).1 hg).1
    · show s.src.pos = s.src.bytes.length; omega
    · show s.cu.curS + 1 = s.curR + 1 + 18; rw [cu]; ac_rfl
    · show s.cu.len - 1 ≤ 18
      bv_omega
    · show s.cu.len.toNat ≤ (s.cu.len - 1).toNat + 1
      bv_omega

/-- A property that advance steps keep while `LEN` is not 0 holds after at most `LEN` of them. -/
theorem advance_keeps_upTo {o} (I : State → Prop) (hI : ∀ s t, I s → s.cu.len ≠ 0 → advanceStep o s = .ok t → I t ∧ s.cu.len.toNat ≤ t.cu.len.toNat + 1) (k) {s t : State} (h : I s) (hk : k ≤ s.cu.len.toNat) (ha : advance o k s = .ok t) : I t := by
  induction k generalizing s with
  | zero => cases ha; exact h
  | succ k ih =>
    simp only [advance, Res.bind_eq_ok] at ha
    obtain ⟨s1, h1, h2⟩ := ha
    have hl : s.cu.len ≠ 0 := by intro e; rw [e] at hk; simp at hk
    obtain ⟨a, b⟩ := hI s s1 h hl h1
    exact ih a (by omega) h2

/-- The advance leaves the group buffer alone. -/
theorem advance_group {o k} {s t : State} (ha : advance o k s = .ok t) : t.cu.gbuf = s.cu.gbuf ∧ t.cu.gptr = s.cu.gptr ∧ t.cu.gmask = s.cu.gmask := by
  refine advance_induct (fun t => t.cu.gbuf = s.cu.gbuf ∧ t.cu.gptr = s.cu.gptr ∧ t.cu.gmask = s.cu.gmask) ?_ ⟨rfl, rfl, rfl⟩ ha
  intro u v hu h
  rcases advanceStep_cases h with ⟨b, f, g, hbb, hc, hf, hg, rfl⟩ | ⟨f, g, hbb, hf, hg, rfl⟩ <;> exact hu

/-- Closing a token leaves a proper group. -/
theorem closeToken_groupOk {s u : State} {t : Nat} (ht : t < 8) (hm : s.cu.gmask = 1#8 <<< t) (h1 : 1 + (t+1) ≤ s.cu.gptr.toNat) (h2 : s.cu.gptr.toNat ≤ 1 + 2 * (t+1))
   (h3 : s.cu.gbuf[0].toNat < 2 ^ (t+1)) (h : closeToken s = .ok u) : u.cu.GroupOk := by
  rcases closeToken_cases h with ⟨hz, rfl⟩ | ⟨hz, _, _, rfl⟩
  · by_cases h7 : t = 7
    · subst h7; rw [hm] at hz; exact absurd (by decide) hz
    · refine ⟨t+1, by omega, ?_, h1, h2, h3⟩
      show s.cu.gmask <<< 1 = _
      rw [hm]
      have : ∀ t : Nat, t < 7 → (1#8 <<< t) <<< 1 = 1#8 <<< (t+1) := by decide
      exact this t (by omega)
  · refine ⟨0, by omega, rfl, by show 1 + 0 ≤ (1 : BitVec 5).toNat; decide, by show (1 : BitVec 5).toNat ≤ 1 + 2 * 0; decide, ?_⟩
    show ((s.cu.gbuf.set 0 0)[0]).toNat < _
    simp

/-- Setting the flag bit of token `t` stays below bit `t + 1`. -/
theorem flagBit_lt {a m : Byte} {t : Nat} (ht : t < 8) (h : a.toNat < 2 ^ t) (hm : m = 1#8 <<< t) : (a ||| m).toNat < 2 ^ (t + 1) := by
  subst hm
  rw [BitVec.toNat_or]
  apply Nat.or_lt_two_pow
  · exact Nat.lt_trans h (Nat.pow_lt_pow_right (by omega) (by omega))
  · have : ∀ t : Nat, t < 8 → (1#8 <<< t).toNat < 2 ^ (t+1) := by decide
    exact this t ht

/-- What a literal keeps: a property that writes, group changes and advance steps keep, and the group. -/
theorem cuLit_keeps_full {o d} {s t : State} (I : State → Prop) (hI : ∀ s t, I s → s.cu.len ≠ 0 → advanceStep o s = .ok t → I t ∧ s.cu.len.toNat ≤ t.cu.len.toNat + 1)
   (group : ∀ s gbuf gptr gmask, I s → I (s.withGroup gbuf gptr gmask)) (write : ∀ (s : State) (b : Byte), I s → s.regs.outCount.toNat + 1 < 2 ^ 32 → I (s.afterWriting [b]))
   (short : ∀ s : State, I s → I (s.withFinder { s.cu.finder with ml := 1 }))
   (hs : I s) (hg : s.cu.GroupOk) (h : cuLit o d s = .ok t) : I t ∧ t.cu.GroupOk := by
  have hl := cuLit_selected h
  obtain ⟨k, hk, hm, g1, g2, g0⟩ := hg
  obtain ⟨gbuf, e0, e1, e2⟩ := cuLit_eq o d hl (by omega) (by omega)
  rw [e2, Res.bind_eq_ok] at h
  obtain ⟨u, hu, ha⟩ := h
  have Iu : I u := closeToken_keeps I group write (group _ _ _ _ (short s hs)) hu
  have lu : u.cu.len = s.cu.len := by
    exact closeToken_keeps (fun u => u.cu.len = s.cu.len) (fun _ _ _ _ h => h) (fun _ _ h _ => h) (s := (s.withFinder { s.cu.finder with ml := 1 }).withGroup gbuf (s.cu.gptr + 1) s.cu.gmask) rfl hu
  have gp : (s.cu.gptr + 1).toNat = s.cu.gptr.toNat + 1 := by rw [BitVec.toNat_add]; simp; omega
  have gu := closeToken_groupOk (s := (s.withFinder { s.cu.finder with ml := 1 }).withGroup gbuf (s.cu.gptr + 1) s.cu.gmask) hk hm (by show _ ≤ (s.cu.gptr + 1).toNat; omega) (by show (s.cu.gptr + 1).toNat ≤ _; omega) (by show gbuf[0].toNat < _; rw [e0]; exact flagBit_lt hk g0 hm) hu
  obtain ⟨a1, a2, a3⟩ := advance_group ha
  refine ⟨advance_keeps_upTo I hI 1 Iu (by rw [lu]; bv_omega) ha, ?_⟩
  unfold CU.GroupOk at *
  rw [a1, a2, a3]; exact gu

/-- What a reference keeps. -/
theorem cuRef_keeps_full {o off count} {s t : State} (I : State → Prop) (hI : ∀ s t, I s → s.cu.len ≠ 0 → advanceStep o s = .ok t → I t ∧ s.cu.len.toNat ≤ t.cu.len.toNat + 1)
   (group : ∀ s gbuf gptr gmask, I s → I (s.withGroup gbuf gptr gmask)) (write : ∀ (s : State) (b : Byte), I s → s.regs.outCount.toNat + 1 < 2 ^ 32 → I (s.afterWriting [b]))
   (hs : I s) (hg : s.cu.GroupOk) (h : cuRef o off count s = .ok t) : I t ∧ t.cu.GroupOk := by
  obtain ⟨h3, hl⟩ := cuRef_selected h
  obtain ⟨k, hk, hm, g1, g2, g0⟩ := hg
  obtain ⟨gbuf, e0, e1, e2⟩ := cuRef_eq o off h3 hl (by omega) (by omega)
  rw [e2, Res.bind_eq_ok] at h
  obtain ⟨u, hu, ha⟩ := h
  have Iu : I u := closeToken_keeps I group write (group _ _ _ _ hs) hu
  have lu : u.cu.len = s.cu.len := by
    exact closeToken_keeps (fun u => u.cu.len = s.cu.len) (fun _ _ _ _ h => h) (fun _ _ h _ => h) (s := s.withGroup gbuf (s.cu.gptr + 2) s.cu.gmask) rfl hu
  have gp : (s.cu.gptr + 2).toNat = s.cu.gptr.toNat + 2 := by rw [BitVec.toNat_add]; simp; omega
  have gu := closeToken_groupOk (s := s.withGroup gbuf (s.cu.gptr + 2) s.cu.gmask) hk hm (by show _ ≤ (s.cu.gptr + 2).toNat; omega) (by show (s.cu.gptr + 2).toNat ≤ _; omega) (by show gbuf[0].toNat < _; rw [e0]; exact Nat.lt_trans g0 (Nat.pow_lt_pow_right (by omega) (by omega))) hu
  obtain ⟨a1, a2, a3⟩ := advance_group ha
  refine ⟨advance_keeps_upTo I hI count Iu (by rw [lu]; exact hl) ha, ?_⟩
  unfold CU.GroupOk at *
  rw [a1, a2, a3]; exact gu

/-- `CompOk` from its parts. -/
theorem compOk_of_advanceOk {s : State} (h : State.AdvanceOk s) (hg : s.cu.GroupOk) (hm : s.cu.finder.ml ≤ 18) : s.CompOk :=
  fun _ => ⟨h.cur, h.len, h.leneos, hm, hg, h.csum, h.mirror⟩

/-- An advance step leaves `ML` at most 18. -/
theorem advanceStep_ml {o} {s t : State} (hc : s.cu.finder.Canonical ∧ s.cu.finder.ml ≤ 18) (ha : advanceStep o s = .ok t) : t.cu.finder.Canonical ∧ t.cu.finder.ml ≤ 18 := by
  rcases advanceStep_cases ha with ⟨b, f, g, hbb, hcc, hf, hg, rfl⟩ | ⟨f, g, hbb, hf, hg, rfl⟩
  · have := insertNode_keeps (deleteNode_keeps hc.1 hf).1 hg
    exact ⟨this.1, by rw [BitVec.le_def]; exact this.2⟩
  · split at hg
    · rw [hg]; exact ⟨(deleteNode_keeps hc.1 hf).1, by show f.ml ≤ 18; rw [(deleteNode_keeps hc.1 hf).2]; exact hc.2⟩
    · have := insertNode_keeps (deleteNode_keeps hc.1 hf).1 hg
      exact ⟨this.1, by rw [BitVec.le_def]; exact this.2⟩

/-- `AdvanceOk` and the range of `ML`. -/
def State.EncoderOk (s : State) := State.AdvanceOk s ∧ s.cu.finder.ml ≤ 18

/-- An advance step keeps `EncoderOk`. -/
theorem advanceStep_encoderOk {o} : ∀ (s t : State), State.EncoderOk s → s.cu.len ≠ 0 → advanceStep o s = .ok t → State.EncoderOk t ∧ s.cu.len.toNat ≤ t.cu.len.toNat + 1 :=
  fun s t h hl ha => ⟨⟨(advanceStep_advanceOk h.1 hl ha).1, (advanceStep_ml ⟨h.1.can, h.2⟩ ha).2⟩, (advanceStep_advanceOk h.1 hl ha).2⟩

/-- The clamp keeps the range of `ML`. -/
theorem clamped_ml_le (s : State) (h : s.cu.finder.ml ≤ 18) : s.clamped.cu.finder.ml ≤ 18 := by
  show (if s.cu.len.toNat < s.cu.finder.ml.toNat then s.cu.len else s.cu.finder.ml) ≤ 18
  split
  · bv_omega
  · exact h

/-- `EncoderOk` from the invariants. -/
theorem encoderOk_of {s : State} (hs : s.StorageOk) (hst : s.StatusOk) (hc : s.CompOk) (hr : s.running = some .comp) : State.EncoderOk s ∧ s.cu.GroupOk := by
  obtain ⟨a, b, c, d, e, f, g⟩ := hc hr
  have := hst.2.1 (State.busy_of_running hr)
  exact ⟨⟨⟨hs.1, hs.2, ⟨this.2.2.2, hst.2.2.2.1, hst.2.2.2.2⟩, a, b, c, f, g⟩, d⟩, e⟩

/-- The clamp keeps `EncoderOk`. -/
theorem encoderOk_clamped {s : State} (h : State.EncoderOk s) : State.EncoderOk s.clamped := ⟨⟨h.1.wf, h.1.can, h.1.busy, h.1.cur, h.1.len, h.1.leneos, h.1.csum, h.1.mirror⟩, clamped_ml_le s h.2⟩

/-- A group change keeps `EncoderOk`. -/
theorem encoderOk_withGroup : ∀ s gbuf gptr gmask, State.EncoderOk s → State.EncoderOk (s.withGroup gbuf gptr gmask) := fun s _ _ _ h => ⟨⟨h.1.wf, h.1.can, h.1.busy, h.1.cur, h.1.len, h.1.leneos, h.1.csum, h.1.mirror⟩, h.2⟩

/-- A stream write keeps `EncoderOk`. -/
theorem encoderOk_afterWriting : ∀ (s : State) (b : Byte), State.EncoderOk s → s.regs.outCount.toNat + 1 < 2 ^ 32 → State.EncoderOk (s.afterWriting [b]) := fun s _ h _ => ⟨⟨h.1.wf, h.1.can, h.1.busy, h.1.cur, h.1.len, h.1.leneos, h.1.csum, h.1.mirror⟩, h.2⟩

/-- Setting `ML` to 1 keeps `EncoderOk`. -/
theorem encoderOk_short : ∀ s : State, State.EncoderOk s → State.EncoderOk (s.withFinder { s.cu.finder with ml := 1 }) := fun s h => ⟨⟨h.1.wf, h.1.can, h.1.busy, h.1.cur, h.1.len, h.1.leneos, h.1.csum, h.1.mirror⟩, by show (1 : BitVec 5) ≤ 18; decide⟩

/-- After the setup of `COMP` the bytes consumed are those loaded. -/
theorem loaded_consumed (s : State) (bs : List Byte) (win f) (hbs : bs = s.src.unread.take 18) (b) (hpos : s.src.pos ≤ s.src.bytes.length) : (((cuInit (s.started 5)).loaded bs b win).withFinder f).consumed = bs := by
  have hl : bs.length ≤ 18 := by rw [hbs]; simp
  have hl2 : s.src.pos + bs.length ≤ s.src.bytes.length := by rw [hbs]; simp [Source.unread]; omega
  simp only [State.consumed, State.withFinder, State.loaded, cuInit, State.started]
  have : ((0 : Word) + BitVec.ofNat 32 bs.length).toNat = bs.length := by simp; omega
  rw [this, show s.src.pos + bs.length - bs.length = s.src.pos by omega, List.drop_take]
  rw [show s.src.pos + bs.length - s.src.pos = bs.length by omega]
  have : s.src.bytes.drop s.src.pos = s.src.unread := rfl
  rw [this, hbs]
  simp [List.take_take]

/-- The conclusion of `CompWindowOk`, whatever runs. -/
def State.EncoderWindowOk (s : State) : Prop := s.cu.len.toNat ≤ s.consumed.length ∧
      (∀ j < s.cu.len.toNat,
        s.winAt (s.curR + BitVec.ofNat 12 j) = s.consumed.getD (s.consumed.length - s.cu.len.toNat + j) 0) ∧
      ∀ k < 4078, s.winAt (s.curR - 1 - BitVec.ofNat 12 k) = s.encoded.reverse.getD k Config.fill

/-- When one more byte is encoded it is the first of those that were not. -/
theorem encoded_append {s t : State} (h : t.consumed.length - t.cu.len.toNat = s.consumed.length - s.cu.len.toNat + 1)
   (hp : ∀ i < t.consumed.length - t.cu.len.toNat, t.consumed.getD i 0 = s.consumed.getD i 0) (hl : s.consumed.length ≤ t.consumed.length) (hlen : s.cu.len.toNat ≤ s.consumed.length) (hl0 : 1 ≤ s.cu.len.toNat) :
   t.encoded = s.encoded ++ [s.consumed.getD (s.consumed.length - s.cu.len.toNat) 0] := by
  unfold State.encoded
  rw [h]
  apply List.ext_getElem
  · simp; omega
  · intro i h1 h2
    simp only [List.length_take] at h1
    have := hp i (by omega)
    rw [List.getD_eq_getElem _ _ (by omega), List.getD_eq_getElem _ _ (by omega)] at this
    rw [List.getElem_take, this, List.getElem_append]
    split
    · simp
    · rename_i hh
      simp at hh
      have : i = s.consumed.length - s.cu.len.toNat := by omega
      subst this
      rw [List.getElem_singleton, List.getD_eq_getElem _ _ (show s.consumed.length - s.cu.len.toNat < s.consumed.length by omega)]

/-- An advance step keeps the encoder window. -/
theorem advanceStep_encoderWindowOk {o} {s t : State} (h : State.AdvanceOk s ∧ State.EncoderWindowOk s) (hl : s.cu.len ≠ 0) (ha : advanceStep o s = .ok t) : (State.AdvanceOk t ∧ State.EncoderWindowOk t) ∧ s.cu.len.toNat ≤ t.cu.len.toNat + 1 := by
  have A := advanceStep_advanceOk h.1 hl ha
  refine ⟨⟨A.1, ?_⟩, A.2⟩
  obtain ⟨⟨w, c, ⟨b1, b2, b3⟩, cu, l, le, cs, mi⟩, w1, w2, w3⟩ := h
  have hl1 : 1 ≤ s.cu.len.toNat := by bv_omega
  have l18 : s.cu.len.toNat ≤ 18 := by rw [BitVec.le_def] at l; exact l
  have p0 := w2 0 (by omega)
  rcases advanceStep_cases ha with ⟨b, f, g, hbb, hc, hf, hg, rfl⟩ | ⟨f, g, hbb, hf, hg, rfl⟩
  · have hcon := advancedInput_consumed hbb hc b1 g
    obtain ⟨hlt, _⟩ := List.getElem?_eq_some_iff.1 hbb
    have len18 : s.cu.len = 18 := by
      by_contra e
      have : s.cu.len < 18 := by bv_omega
      have := b3 (le this)
      omega
    have hw : ∀ a, (s.advancedInput b g).winAt a = if a = s.cu.curS then b else s.winAt a := by
      intro a
      show Memory.read (windowAfter s.win s.cu.curS b) a.toNat = _
      rw [windowAfter_read w _ _ a.isLt]
      by_cases e : a = s.cu.curS
      · simp [e]
      · rw [if_neg e, if_neg (fun h => e (BitVec.eq_of_toNat_eq h))]; rfl
    have hcl : (s.advancedInput b g).consumed.length = s.consumed.length + 1 := by rw [hcon]; simp
    have hR : (s.advancedInput b g).curR = s.curR + 1 := rfl
    have hL : (s.advancedInput b g).cu.len = s.cu.len := rfl
    refine ⟨by rw [hcl, hL]; omega, ?_, ?_⟩
    · intro j hj
      rw [hL] at hj ⊢
      rw [hR, hw, hcl, cu]
      have hl18 : s.cu.len.toNat = 18 := by rw [len18]; rfl
      by_cases h17 : j = 17
      · subst h17
        rw [if_pos (by bv_omega), hcon]
        rw [List.getD_eq_getElem _ _ (by simp; omega), List.getElem_append_right (by omega)]
        simp
      · rw [if_neg (by bv_omega)]
        have := w2 (j+1) (by omega)
        rw [show s.curR + 1 + BitVec.ofNat 12 j = s.curR + BitVec.ofNat 12 (j+1) by bv_omega, this, hcon]
        rw [List.getD_eq_getElem _ _ (by omega), List.getD_eq_getElem _ _ (by simp; omega), List.getElem_append_left (by omega)]
        congr 1; omega
    · have henc := encoded_append (s := s) (t := s.advancedInput b g) (by rw [hcl, hL]; omega) (by
        intro i hi
        rw [hcl, hL] at hi
        rw [hcon]
        rw [List.getD_eq_getElem _ _ (by simp; omega), List.getD_eq_getElem _ _ (by omega), List.getElem_append_left (by omega)]) (by rw [hcl]; omega) w1 hl1
      intro k hk
      rw [henc, hR, hw, cu]
      simp only [List.reverse_append, List.reverse_cons, List.reverse_nil, List.nil_append, List.singleton_append]
      rw [if_neg (by bv_omega)]
      cases k with
      | zero =>
        rw [show s.curR + 1 - 1 - BitVec.ofNat 12 0 = s.curR + BitVec.ofNat 12 0 by bv_omega, p0]; simp
      | succ k =>
        rw [show s.curR + 1 - 1 - BitVec.ofNat 12 (k+1) = s.curR - 1 - BitVec.ofNat 12 k by bv_omega, w3 k (by omega)]; simp
  · have hR : (s.advancedDrain g).curR = s.curR + 1 := rfl
    have hL : (s.advancedDrain g).cu.len.toNat = s.cu.len.toNat - 1 := by show (s.cu.len - 1).toNat = _; bv_omega
    have hC : (s.advancedDrain g).consumed = s.consumed := rfl
    have hw : ∀ a, (s.advancedDrain g).winAt a = s.winAt a := fun _ => rfl
    refine ⟨by rw [hC, hL]; omega, ?_, ?_⟩
    · intro j hj
      rw [hL] at hj
      rw [hR, hw, hC, hL, show s.curR + 1 + BitVec.ofNat 12 j = s.curR + BitVec.ofNat 12 (j+1) by bv_omega, w2 (j+1) (by omega)]
      congr 1; omega
    · have henc := encoded_append (s := s) (t := s.advancedDrain g) (by rw [hC, hL]; omega) (fun _ _ => rfl) (Nat.le_refl _) w1 hl1
      intro k hk
      rw [henc, hR, hw]
      simp only [List.reverse_append, List.reverse_cons, List.reverse_nil, List.nil_append, List.singleton_append]
      cases k with
      | zero =>
        rw [show s.curR + 1 - 1 - BitVec.ofNat 12 0 = s.curR + BitVec.ofNat 12 0 by bv_omega, p0]; simp
      | succ k =>
        rw [show s.curR + 1 - 1 - BitVec.ofNat 12 (k+1) = s.curR - 1 - BitVec.ofNat 12 k by bv_omega, w3 k (by omega)]; simp

/-- `EncoderOk` with the window. -/
def State.EncoderAllOk (s : State) := State.EncoderOk s ∧ State.EncoderWindowOk s

/-- An advance step keeps both. -/
theorem advanceStep_encoderAllOk {o} : ∀ (s t : State), State.EncoderAllOk s → s.cu.len ≠ 0 → advanceStep o s = .ok t → State.EncoderAllOk t ∧ s.cu.len.toNat ≤ t.cu.len.toNat + 1 :=
  fun s t h hl ha => ⟨⟨(advanceStep_encoderOk s t h.1 hl ha).1, (advanceStep_encoderWindowOk ⟨h.1.1, h.2⟩ hl ha).1.2⟩, (advanceStep_encoderOk s t h.1 hl ha).2⟩

/-- What a part of a step keeps of the match finder: it stays fit for an advance; while bytes are left to encode it tells a
longest match, and keeps what can be found. -/
def State.FinderKept (o : Config.TreeOrder) (s t : State) : Prop :=
  t.WalkOk o ∧ (t.cu.len ≠ 0 → t.LongestMatch) ∧ (s.Retained → t.cu.len ≠ 0 → t.Retained)

/-- An advance step keeps the forest, and leaves a longest match while bytes are left. -/
theorem advanceStep_finderKept {o} {s t : State} (h : s.WalkOk o) (hl : s.cu.len ≠ 0) (ha : advanceStep o s = .ok t) :
    s.FinderKept o t := by
  have hc : s.src.bytes[s.src.pos]? ≠ none → s.regs.inCount.toNat + 1 < 2 ^ 32 := by
    intro hn
    rcases advanceStep_cases ha with ⟨b, f, g, hbb, hcc, _⟩ | ⟨f, g, hbb, _⟩
    · exact hcc
    · exact absurd hbb hn
  obtain ⟨t', e, w, m, r⟩ := advanceStep_law o h hc
  rw [e] at ha; cases ha
  exact ⟨w, m, r hl⟩

/-- An advance step takes at most one byte from `LEN`. -/
theorem advanceStep_len {o} {s t : State} (hl : s.cu.len ≠ 0) (ha : advanceStep o s = .ok t) :
    s.cu.len.toNat ≤ t.cu.len.toNat + 1 := by
  rcases advanceStep_cases ha with ⟨b, f, g, _, _, _, _, rfl⟩ | ⟨f, g, _, _, _, rfl⟩
  · change s.cu.len.toNat ≤ s.cu.len.toNat + 1
    omega
  · change s.cu.len.toNat ≤ (s.cu.len - 1).toNat + 1
    have : s.cu.len.toNat ≠ 0 := fun e => hl (BitVec.eq_of_toNat_eq e)
    bv_omega

/-- So do any number of them, up to `LEN`. -/
theorem advance_finderKept {o} (k) {s t : State} (h : s.WalkOk o) (hk : 0 < k) (hl : k ≤ s.cu.len.toNat)
    (ha : advance o k s = .ok t) : s.FinderKept o t := by
  induction k generalizing s with
  | zero => omega
  | succ k ih =>
    simp only [advance, Res.bind_eq_ok] at ha
    obtain ⟨s1, h1, h2⟩ := ha
    have hl0 : s.cu.len ≠ 0 := fun e => by rw [e] at hl; simp at hl
    have k1 := advanceStep_finderKept h hl0 h1
    have l1 := advanceStep_len hl0 h1
    cases k with
    | zero => cases h2; exact k1
    | succ k =>
      obtain ⟨w2, m2, r2⟩ := ih k1.1 (by omega) (by omega) h2
      have n1 : s1.cu.len ≠ 0 := fun e => by rw [e] at l1; simp at l1; omega
      exact ⟨w2, m2, fun hr => r2 (k1.2.2 hr n1)⟩

/-- What the parts of a token before its advance leave alone: the match finder but for `ML`, the window, the cursors,
`LEN` and `IN_COUNT`. -/
def State.SameFinder (s t : State) : Prop :=
  t.win = s.win ∧ t.curR = s.curR ∧ t.cu.curS = s.cu.curS ∧ t.cu.len = s.cu.len ∧ t.regs.inCount = s.regs.inCount ∧
    { t.cu.finder with ml := s.cu.finder.ml } = s.cu.finder

theorem State.SameFinder.withGroup {s : State} : ∀ (t : State) gbuf gptr gmask, s.SameFinder t →
    s.SameFinder (t.withGroup gbuf gptr gmask) := fun _ _ _ _ h => h

theorem State.SameFinder.afterWriting {s : State} : ∀ (t : State) (b : Byte), s.SameFinder t →
    t.regs.outCount.toNat + 1 < 2 ^ 32 → s.SameFinder (t.afterWriting [b]) := fun _ _ h _ => h

theorem State.SameFinder.links {s t : State} (h : s.SameFinder t) :
    t.cu.finder.left = s.cu.finder.left ∧ t.cu.finder.right = s.cu.finder.right ∧
      t.cu.finder.parent = s.cu.finder.parent := by
  have := h.2.2.2.2.2
  rw [← this]
  exact ⟨rfl, rfl, rfl⟩

theorem State.SameFinder.walkOk {o} {s t : State} (h : s.SameFinder t) (hs : s.WalkOk o) : t.WalkOk o := by
  obtain ⟨el, er, ep⟩ := h.links
  obtain ⟨hw, hR, hS, -, -, -⟩ := h
  have fl : t.cu.finder.leftAt = s.cu.finder.leftAt := by unfold Finder.leftAt; rw [el]
  have fr : t.cu.finder.rightAt = s.cu.finder.rightAt := by unfold Finder.rightAt; rw [er]
  have fp : t.cu.finder.parentAt = s.cu.finder.parentAt := by unfold Finder.parentAt; rw [ep]
  have fm : t.cu.finder.Member = s.cu.finder.Member := by unfold Finder.Member; rw [fp]
  refine ⟨hw ▸ hs.window, ?_, ?_, ?_, ?_, ?_⟩
  · unfold Finder.Canonical
    rw [el, er, ep]
    exact hs.canonical
  · rw [treeOk_iff, fl, fr, fp, hw]
    exact (treeOk_iff _ _).1 hs.tree
  · rw [ordered_iff, fl, fr, fp, fm, hw]
    exact (ordered_iff _ _ _).1 hs.ordered
  · rw [fm, hS]
    exact hs.interval
  · rw [hS, hR]
    exact hs.cursors

theorem State.SameFinder.retained {s t : State} (h : s.SameFinder t) (hs : s.Retained) : t.Retained := by
  obtain ⟨el, er, ep⟩ := h.links
  obtain ⟨hw, hR, -, hl, hi, -⟩ := h
  have fm : t.cu.finder.Member = s.cu.finder.Member := by
    unfold Finder.Member Finder.parentAt
    rw [ep]
  have fb : t.behind = s.behind := by unfold State.behind; rw [hR]
  have fe : t.encodedCount = s.encodedCount := by unfold State.encodedCount; rw [hl, hi]
  unfold State.Retained
  rw [fm, fb, fe, hw, hl, hi]
  exact hs

/-- A change of `ML` alone. -/
theorem State.SameFinder.ml (s : State) (m : BitVec 5) : s.SameFinder (s.withFinder { s.cu.finder with ml := m }) :=
  ⟨rfl, rfl, rfl, rfl, rfl, rfl⟩

/-- A literal keeps the forest, leaves a longest match, and keeps what can be found. -/
theorem cuLit_finderKept {o d} {s t : State} (h : s.WalkOk o) (hc : cuLit o d s = .ok t) : s.FinderKept o t := by
  unfold cuLit at hc
  split at hc
  · simp at hc
  · rename_i hl
    simp only [Res.bind_eq_ok] at hc
    obtain ⟨s2, h2, s3, h3, s4, h4, h5⟩ := hc
    have h0 := gbufSet_keeps s.SameFinder State.SameFinder.withGroup (State.SameFinder.ml s 1) h2
    have sf := closeToken_keeps s.SameFinder State.SameFinder.withGroup State.SameFinder.afterWriting
      (gbufAppend_keeps s.SameFinder State.SameFinder.withGroup h0 h3) h4
    have hl4 : s4.cu.len = s.cu.len := sf.2.2.2.1
    have : s.cu.len.toNat ≠ 0 := fun e => hl (BitVec.eq_of_toNat_eq e)
    obtain ⟨w, m, r⟩ := advance_finderKept 1 (sf.walkOk h) (by omega) (by rw [hl4]; omega) h5
    exact ⟨w, m, fun hr => r (sf.retained hr)⟩

/-- So does a reference. -/
theorem cuRef_finderKept {o d c} {s t : State} (h : s.WalkOk o) (hc : cuRef o d c s = .ok t) : s.FinderKept o t := by
  have hs := cuRef_selected hc
  unfold cuRef at hc
  rw [if_pos hs] at hc
  simp only [Res.bind_eq_ok] at hc
  obtain ⟨s3, h3, s4, h4, h5⟩ := hc
  have sf := closeToken_keeps s.SameFinder State.SameFinder.withGroup State.SameFinder.afterWriting
    (gbufAppend_keeps s.SameFinder State.SameFinder.withGroup ⟨rfl, rfl, rfl, rfl, rfl, rfl⟩ h3) h4
  have hl4 : s4.cu.len = s.cu.len := sf.2.2.2.1
  obtain ⟨w, m, r⟩ := advance_finderKept c (sf.walkOk h) (by omega) (by rw [hl4]; omega) h5
  exact ⟨w, m, fun hr => r (sf.retained hr)⟩

/-- The advance completes. -/
theorem advance_ok {o} (k) {s : State} (h : s.WalkOk o) (hb : s.regs.inCount.toNat ≤ s.src.pos) (hlen : s.src.bytes.length < 2 ^ 32) : ∃ t, advance o k s = .ok t := by
  induction k generalizing s with
  | zero => exact ⟨s, rfl⟩
  | succ k ih =>
    have room : s.src.bytes[s.src.pos]? ≠ none → s.regs.inCount.toNat + 1 < 2 ^ 32 := by
      intro hn
      have := (List.getElem?_eq_some_iff.1 (Option.ne_none_iff_exists'.1 hn).choose_spec).1
      omega
    obtain ⟨t, e, w, _⟩ := advanceStep_law o h room
    rw [advance, e, Res.ok_bind]
    refine ih w ?_ ?_
    · rcases advanceStep_cases e with ⟨b, f, g, hbb, hcc, hf, hg, rfl⟩ | ⟨f, g, hbb, hf, hg, rfl⟩
      · show (s.regs.inCount + 1).toNat ≤ s.src.pos + 1
        rw [BitVec.toNat_add]; simp; omega
      · exact hb
    · rcases advanceStep_cases e with ⟨b, f, g, hbb, hcc, hf, hg, rfl⟩ | ⟨f, g, hbb, hf, hg, rfl⟩ <;> exact hlen

/-- Closing a token completes. -/
theorem closeToken_ok {s : State} (hp : s.cu.gptr.toNat ≤ 17) (ho : s.regs.outCount.toNat + 17 < 2 ^ 32) : ∃ t, closeToken s = .ok t := by
  by_cases h : s.cu.gmask <<< 1 = 0
  · exact ⟨_, closeToken_full h hp (by have : s.cu.groupBytes.length ≤ 17 := (by simp [CU.groupBytes]); omega)⟩
  · exact ⟨_, closeToken_open h⟩

end Sys2Proof.Machine
end

