-- ==== Sys2Proof/Laws/Runs.lean ====
section
/-! SUPPORT. What runs of the inner loops do: the bytes of a reference, the window advance. -/
namespace Sys2Proof.Machine

/-- A run of emits, written out but for the window (41_decompress R93). -/
theorem emittedRun_eq (bs : List Byte) (s : State) : ∃ win, bs.foldl State.emitted s = { s with
            snk := { s.snk with pending := s.snk.pending ++ bs }
            regs := { s.regs with
              outCount := s.regs.outCount + BitVec.ofNat 32 bs.length
              csum := bs.foldl (csumAdd s.sampled.signed) s.regs.csum }
            win := win
            curR := s.curR + BitVec.ofNat 12 bs.length
            du := { s.du with rem := s.du.rem - BitVec.ofNat 32 bs.length } } := by
  induction bs generalizing s with
  | nil => exact ⟨s.win, by simp⟩
  | cons b r ih =>
    obtain ⟨win, h⟩ := ih (s.emitted b)
    refine ⟨win, ?_⟩
    rw [List.foldl_cons, h]
    have e1 : ∀ x : Word, x + 1 + BitVec.ofNat 32 r.length = x + BitVec.ofNat 32 (r.length + 1) := fun x => by rw [BitVec.ofNat_add, BitVec.add_assoc, BitVec.add_comm 1]; rfl
    have e2 : ∀ x : Cursor, x + 1 + BitVec.ofNat 12 r.length = x + BitVec.ofNat 12 (r.length + 1) := fun x => by rw [BitVec.ofNat_add, BitVec.add_assoc, BitVec.add_comm 1]; rfl
    have e3 : ∀ x : Word, x - 1 - BitVec.ofNat 32 r.length = x - BitVec.ofNat 32 (r.length + 1) := fun x => by rw [BitVec.ofNat_add, BitVec.sub_sub, BitVec.add_comm 1]; rfl
    simp only [State.emitted, List.append_assoc, List.singleton_append, List.length_cons, List.foldl_cons, e1, e2, e3]

/-- The window after a run of emits (41_decompress R93). -/
theorem emittedRun_window (bs : List Byte) (s : State) (hw : Memory.wf s.win) (hl : bs.length ≤ 4096) :
   (∀ k < bs.length, Memory.read (bs.foldl State.emitted s).win (s.curR + BitVec.ofNat 12 k).toNat = bs.getD k 0) ∧
   ∀ a, (∀ k < bs.length, a ≠ (s.curR + BitVec.ofNat 12 k).toNat) → Memory.read (bs.foldl State.emitted s).win a = Memory.read s.win a := by
  induction bs generalizing s with
  | nil => simp
  | cons b r ih =>
    simp only [List.length_cons] at hl
    obtain ⟨h1, h2⟩ := ih (s.emitted b) (Memory.write_wf _ _ _ (by have := s.curR.isLt; simp [Config.winLast]; omega) hw) (by omega)
    have hc : (s.emitted b).curR = s.curR + 1 := rfl
    have hww : (s.emitted b).win = Memory.write s.win s.curR.toNat b := rfl
    refine ⟨fun k hk => ?_, fun a ha => ?_⟩
    · rcases k with _ | k
      · rw [List.foldl_cons, h2 _ (fun k hk => by rw [hc]; bv_omega), hww, Memory.read_write _ _ _ _ hw, if_pos (by simp)]; simp
      · simp at hk
        have := h1 k hk
        rw [hc, show s.curR + 1 + BitVec.ofNat 12 k = s.curR + BitVec.ofNat 12 (k+1) by bv_omega] at this
        simpa using this
    · rw [List.foldl_cons, h2 a (fun k hk => by
        have := ha (k+1) (by simpa using hk)
        rwa [hc, show s.curR + 1 + BitVec.ofNat 12 k = s.curR + BitVec.ofNat 12 (k+1) by bv_omega]), hww, Memory.read_write _ _ _ _ hw, if_neg]
      have := ha 0 (by simp)
      simpa using this

/-- The copy of a reference, from its byte `m` on, emits the rest of the run (41_decompress R92, 20_memory R55). -/
theorem copyRun_law (s0 : State) (offset : Cursor) (m : Nat) (n : Nat) (hw : Memory.wf s0.win) (hn : m + n ≤ 18) (ho : s0.regs.outCount.toNat + (m + n) < 2 ^ 32)
   : copyRun (s0.curR - offset + BitVec.ofNat 12 m) n (((List.range m).map (s0.runByte offset)).foldl State.emitted s0) = .ok (((List.range (m + n)).map (s0.runByte offset)).foldl State.emitted s0) := by
  induction n generalizing m with
  | zero => rfl
  | succ n ih =>
    obtain ⟨win, he⟩ := emittedRun_eq ((List.range m).map (s0.runByte offset)) s0
    obtain ⟨f1, f2⟩ := emittedRun_window ((List.range m).map (s0.runByte offset)) s0 hw (by simp; omega)
    simp only [List.length_map, List.length_range] at f1 f2 he
    have hout : (((List.range m).map (s0.runByte offset)).foldl State.emitted s0).regs.outCount.toNat = s0.regs.outCount.toNat + m := by
      rw [he]; show (s0.regs.outCount + BitVec.ofNat 32 m).toNat = _; rw [BitVec.toNat_add, BitVec.toNat_ofNat]; omega
    have hb : (((List.range m).map (s0.runByte offset)).foldl State.emitted s0).winAt (s0.curR - offset + BitVec.ofNat 12 m) = s0.runByte offset m := by
      show Memory.read _ _ = _
      have hoff := offset.isLt
      have hrb : ∀ k, s0.runByte offset k = if offset.toNat = 0 then s0.winAt (s0.curR + BitVec.ofNat 12 k) else s0.winAt (s0.curR - offset + BitVec.ofNat 12 (k % offset.toNat)) := fun _ => rfl
      rw [hrb]
      by_cases h0 : offset.toNat = 0
      · rw [if_pos h0, f2 _ (fun k hk => by bv_omega)]
        have : s0.curR - offset + BitVec.ofNat 12 m = s0.curR + BitVec.ofNat 12 m := by bv_omega
        rw [this]; rfl
      · rw [if_neg h0]
        by_cases hm : m < offset.toNat
        · rw [f2 _ (fun k hk => by bv_omega), Nat.mod_eq_of_lt hm]; rfl
        · have := f1 (m - offset.toNat) (by omega)
          rw [show s0.curR + BitVec.ofNat 12 (m - offset.toNat) = s0.curR - offset + BitVec.ofNat 12 m by bv_omega] at this
          rw [this, List.getD_eq_getElem _ _ (by simp; omega)]
          simp only [List.getElem_map, List.getElem_range, State.runByte]
          rw [if_neg h0, Nat.mod_eq_sub_mod (a := m) (by omega)]
    rw [copyRun, hb, emit_ok _ (by rw [hout]; omega), Res.ok_bind]
    have := ih (m+1) (by omega) (by omega)
    rw [List.range_succ, List.map_append, List.foldl_append] at this
    rw [show s0.curR - offset + BitVec.ofNat 12 m + 1 = s0.curR - offset + BitVec.ofNat 12 (m+1) by bv_omega, show m + (n+1) = m + 1 + n by omega]
    exact this

/-- What `n` advance steps do to cursors, source, counters, checksum and window (42_compress R110, R111, R113). -/
theorem advance_law {o} (n : Nat) (hn : n ≤ 18) {s t : State} (hw : Memory.wf s.win) (h : advance o n s = .ok t) :
      t.curR = s.curR + BitVec.ofNat 12 n ∧ t.cu.curS = s.cu.curS + BitVec.ofNat 12 n ∧
      t.src = { bytes := s.src.bytes, pos := s.src.pos + (s.src.unread.take n).length,
                eos := s.src.eos || decide ((s.src.unread.take n).length < n) } ∧
      t.regs.inCount = s.regs.inCount + BitVec.ofNat 32 (s.src.unread.take n).length ∧
      t.sampled = s.sampled ∧
      t.regs.csum = (s.src.unread.take n).foldl (csumAdd s.sampled.signed) s.regs.csum ∧
      t.cu.len = s.cu.len - BitVec.ofNat 5 (n - (s.src.unread.take n).length) ∧
      (∀ j < (s.src.unread.take n).length, t.winAt (s.cu.curS + BitVec.ofNat 12 j) = (s.src.unread.take n).getD j 0) ∧
      (∀ a : Cursor, (∀ j < (s.src.unread.take n).length, a ≠ s.cu.curS + BitVec.ofNat 12 j) → t.winAt a = s.winAt a) ∧
      ∀ j < 17, Memory.read s.win (4096 + j) = Memory.read s.win j → Memory.read t.win (4096 + j) = Memory.read t.win j := by
  induction n generalizing s with
  | zero => cases h; simp
  | succ n ih =>
    simp only [advance, Res.bind_eq_ok] at h
    obtain ⟨s1, h1, h2⟩ := h
    rcases advanceStep_cases h1 with ⟨b, f, g, hbb, hc, hf, hg, rfl⟩ | ⟨f, g, hbb, hf, hg, rfl⟩
    · have hu := State.unread_of_some hbb
      have hu2 : (s.advancedInput b g).src.unread = (s.afterReading 1).src.unread := rfl
      obtain ⟨a1, a2, a3, a4, a5, a6, a7, a8, a9, a10⟩ := ih (by omega) (windowAfter_wf hw _ _) h2
      rw [hu2] at a3 a4 a6 a7 a8 a9
      have e2 : ∀ (x : Cursor) k, x + 1 + BitVec.ofNat 12 k = x + BitVec.ofNat 12 (k + 1) := fun x k => by rw [BitVec.ofNat_add, BitVec.add_assoc, BitVec.add_comm 1]; rfl
      have e1 : ∀ (x : Word) k, x + 1 + BitVec.ofNat 32 k = x + BitVec.ofNat 32 (k + 1) := fun x k => by rw [BitVec.ofNat_add, BitVec.add_assoc, BitVec.add_comm 1]; rfl
      rw [hu, List.take_succ_cons]
      simp only [List.length_cons]
      have hS : (s.advancedInput b g).cu.curS = s.cu.curS + 1 := rfl
      have hW : ∀ a : Cursor, (s.advancedInput b g).winAt a = if a = s.cu.curS then b else s.winAt a := by
        intro a
        show Memory.read (windowAfter s.win s.cu.curS b) a.toNat = _
        rw [windowAfter_read hw _ _ a.isLt]
        by_cases e : a = s.cu.curS
        · simp [e]
        · rw [if_neg e, if_neg (fun h => e (BitVec.eq_of_toNat_eq h))]; rfl
      have hlen : ((s.afterReading 1).src.unread.take n).length ≤ n := by simp
      refine ⟨by rw [a1, ← e2]; rfl, by rw [a2, ← e2]; rfl, ?_, by rw [a4, ← e1]; rfl, a5, by rw [a6]; rfl, ?_, ?_, ?_, ?_⟩
      · rw [a3]
        have : decide (((s.afterReading 1).src.unread.take n).length + 1 < n + 1) = decide (((s.afterReading 1).src.unread.take n).length < n) := by simp
        rw [this]
        show Source.mk _ (s.src.pos + 1 + _) _ = _
        rw [Nat.add_assoc, Nat.add_comm 1]; rfl
      · rw [a7, Nat.add_sub_add_right]; rfl
      · intro j hj
        rcases j with _ | j
        · rw [a9 _ (fun k hk => by rw [hS]; bv_omega), hW, if_pos (by simp)]; simp
        · have := a8 j (by omega)
          rw [hS, e2] at this
          rw [this]; simp
      · intro a ha
        rw [a9 a (fun k hk => by rw [hS, e2]; exact ha (k+1) (by omega)), hW, if_neg]
        have := ha 0 (by omega)
        simpa using this
      · intro j hj hm
        exact a10 j hj (windowAfter_mirror hw _ _ hj hm)
    · have hu := State.unread_of_none hbb
      have hu2 : (s.advancedDrain g).src.unread = [] := hu
      obtain ⟨a1, a2, a3, a4, a5, a6, a7, a8, a9, a10⟩ := ih (by omega) (s := s.advancedDrain g) hw h2
      rw [hu2] at a3 a4 a6 a7 a8 a9
      have e2 : ∀ (x : Cursor) k, x + 1 + BitVec.ofNat 12 k = x + BitVec.ofNat 12 (k + 1) := fun x k => by rw [BitVec.ofNat_add, BitVec.add_assoc, BitVec.add_comm 1]; rfl
      rw [hu]
      simp only [List.take_nil, List.length_nil] at *
      refine ⟨by rw [a1, ← e2]; rfl, by rw [a2, ← e2]; rfl, ?_, a4, a5, a6, ?_, by simp, ?_, a10⟩
      · rw [a3]
        show Source.mk s.src.bytes s.src.pos (true || _) = _
        simp
      · rw [a7]
        show s.cu.len - 1 - _ = _
        rw [BitVec.sub_sub, BitVec.add_comm 1]; simp [BitVec.ofNat_add]
      · intro a _; exact a9 a (by simp)

/-- After a step of the block the operation goes on, is done or has failed (60_exceptions R134). -/
theorem blockStep_state {s t : State} (hb : s.busy = true) (h : BlockStep s t) : t.regs.state = .busy ∨ t.regs.state = .done ∨ t.regs.state = .failed := by
  have hb : s.regs.state = .busy := (State.busy_iff s).1 hb
  let I : State → Prop := fun t => t.regs.state = .busy
  have adv : ∀ (u t : State), I u → advanceStep Config.treeOrder u = .ok t → I t := by
    intro u t h0 h
    rcases advanceStep_cases h with ⟨_, f, g, hbb, hc, hf, hg, rfl⟩ | ⟨f, g, hbb, hf, hg, rfl⟩ <;> exact h0
  cases h with
  | vencMore => exact .inl hb
  | vencLast => exact .inr (.inl rfl)
  | vdecMore p => left; unfold accumulate; split <;> exact hb
  | vdecLast p => exact .inr (.inl rfl)
  | truncated s1 sel hsel => exact .inr (.inr rfl)
  | flag => exact .inl hb
  | lit => exact .inl hb
  | ref _ _ _ _ _ _ _ _ _ _ _ _ _ h =>
    obtain ⟨bs, _, rfl⟩ := copyRun_cases h
    left
    have : ∀ (bs : List Byte) (s : State), (bs.foldl State.emitted s).regs.state = s.regs.state := by
      intro bs; induction bs with
      | nil => exact fun s => rfl
      | cons b r ih => exact fun s => ih _
    rw [this]; exact hb
  | overflow => exact .inr (.inr rfl)
  | trailerRight => exact .inr (.inl rfl)
  | trailerWrong => exact .inr (.inr rfl)
  | compLit _ hr _ _ h => exact .inl (cuLit_keeps I (fun _ _ _ _ h => h) (fun u b h _ => h) (fun _ h => h) adv (s := s.clamped) hb h)
  | compRef _ hr _ _ h => exact .inl (cuRef_keeps I (fun _ _ _ _ h => h) (fun u b h _ => h) adv (s := s.clamped) hb h)
  | compTrailer _ _ _ h =>
    obtain ⟨u, hu, rfl⟩ := cuTrailer_keeps (fun _ => True) (fun u b h _ => trivial) trivial h
    exact .inr (.inl rfl)

end Sys2Proof.Machine
end

