-- ==== Sys2Proof/Laws/HostPort.lean ====
section
/-! SUPPORT. A host read while an operation runs: what the counters and the sum come to, and that the state the read looks
ahead to is a state of the run (70_reset R160; log 5). -/
namespace Sys2Proof.Machine

/-- What a part of a step that leaves the operation going does to what the host can read: the counts do not fall, and what
has been produced or read is added to. -/
structure State.Grows (s t : State) : Prop where
  port : t.port = s.port
  cmd : t.regs.cmd = s.regs.cmd
  sampled : t.sampled = s.sampled
  inCount : s.regs.inCount.toNat ≤ t.regs.inCount.toNat
  outCount : s.regs.outCount.toNat ≤ t.regs.outCount.toNat
  pending : s.snk.pending <+: t.snk.pending
  consumed : s.consumed <+: t.consumed

theorem State.Grows.refl (s : State) : s.Grows s :=
  ⟨rfl, rfl, rfl, Nat.le_refl _, Nat.le_refl _, List.prefix_refl _, List.prefix_refl _⟩

theorem State.Grows.trans {s t u : State} (h : s.Grows t) (h' : t.Grows u) : s.Grows u :=
  ⟨h'.port.trans h.port, h'.cmd.trans h.cmd, h'.sampled.trans h.sampled, h.inCount.trans h'.inCount, h.outCount.trans h'.outCount,
    h.pending.trans h'.pending, h.consumed.trans h'.consumed⟩

/-- The other units' state is not looked at. -/
theorem State.Grows.congr {s t u : State} (g : s.Grows u) (e1 : t.port = u.port) (e2 : t.sampled = u.sampled)
    (e3 : t.regs = u.regs) (e4 : t.snk = u.snk) (e5 : t.src = u.src) : s.Grows t := by
  refine ⟨e1.trans g.port, e3 ▸ g.cmd, e2.trans g.sampled, e3 ▸ g.inCount, e3 ▸ g.outCount, e4 ▸ g.pending, ?_⟩
  unfold State.consumed
  rw [e3, e5]
  exact g.consumed

theorem word_add_toNat {w : Word} {n : Nat} (h : w.toNat + n < 2 ^ 32) : (w + BitVec.ofNat 32 n).toNat = w.toNat + n := by
  rw [BitVec.toNat_add, BitVec.toNat_ofNat]
  omega

theorem State.Grows.afterWriting (s : State) (bs : List Byte) (h : s.regs.outCount.toNat + bs.length < 2 ^ 32) :
    s.Grows (s.afterWriting bs) := by
  refine ⟨rfl, rfl, rfl, Nat.le_refl _, ?_, List.prefix_append _ _, List.prefix_refl _⟩
  change _ ≤ (s.regs.outCount + BitVec.ofNat 32 bs.length).toNat
  rw [word_add_toNat h]
  omega

/-- Bytes read join those read before. -/
theorem consumed_grows {s t : State} {n : Nat} (hb : t.src.bytes = s.src.bytes) (hp : t.src.pos = s.src.pos + n)
    (hi : t.regs.inCount.toNat = s.regs.inCount.toNat + n) (hn : n ≤ s.src.unread.length) : s.consumed <+: t.consumed := by
  unfold State.consumed
  rw [hb, hp, hi, show s.src.pos + n - (s.regs.inCount.toNat + n) = s.src.pos - s.regs.inCount.toNat by omega,
    List.take_add]
  by_cases h : s.src.pos ≤ s.src.bytes.length
  · rw [List.drop_append_of_le_length (by simp; omega)]
    exact List.prefix_append _ _
  · have : n = 0 := by
      simp only [Source.unread, List.length_drop] at hn
      omega
    simp [this]

theorem State.Grows.afterReading (s : State) (n : Nat) (h : s.regs.inCount.toNat + n < 2 ^ 32)
    (hn : n ≤ s.src.unread.length) : s.Grows (s.afterReading n) := by
  have hi : (s.afterReading n).regs.inCount.toNat = s.regs.inCount.toNat + n := word_add_toNat h
  exact ⟨rfl, rfl, rfl, by omega, Nat.le_refl _, List.prefix_refl _, consumed_grows rfl rfl hi hn⟩

theorem State.Grows.emitted (s : State) (b : Byte) (h : s.regs.outCount.toNat + 1 < 2 ^ 32) : s.Grows (s.emitted b) := by
  refine ⟨rfl, rfl, rfl, Nat.le_refl _, ?_, List.prefix_append _ _, List.prefix_refl _⟩
  rw [State.emitted_outCount h]
  omega

theorem copyRun_grows {src : Cursor} {count : Nat} {s t : State} (h : copyRun src count s = .ok t) : s.Grows t := by
  induction count generalizing src s with
  | zero => exact Except.ok.inj h ▸ .refl s
  | succ k ih =>
    simp only [copyRun, Res.bind_eq_ok] at h
    obtain ⟨s1, h1, h2⟩ := h
    obtain ⟨hc, rfl⟩ := emit_cases h1
    exact (State.Grows.emitted s _ hc).trans (ih h2)

theorem advanceStep_grows {o : Config.TreeOrder} {s t : State} (h : advanceStep o s = .ok t) : s.Grows t := by
  rcases advanceStep_cases h with ⟨b, f, g, hb, hc, _, _, rfl⟩ | ⟨f, g, _, _, _, rfl⟩
  · have hi : (s.advancedInput b g).regs.inCount.toNat = s.regs.inCount.toNat + 1 := word_add_toNat (n := 1) hc
    have hl : 1 ≤ s.src.unread.length := by
      rw [State.unread_of_some hb]
      simp
    exact ⟨rfl, rfl, rfl, by omega, Nat.le_refl _, List.prefix_refl _, consumed_grows rfl rfl hi hl⟩
  · exact ⟨rfl, rfl, rfl, Nat.le_refl _, Nat.le_refl _, List.prefix_refl _, List.prefix_refl _⟩

/-- A step of the block: the host's port and what was sampled stay, the counts do not fall; and while the operation goes on
it is the same one, and what has been produced or read is added to. -/
theorem blockStep_grows {s t : State} (h : BlockStep s t) :
    t.port = s.port ∧ t.sampled = s.sampled ∧ s.regs.inCount.toNat ≤ t.regs.inCount.toNat ∧
      s.regs.outCount.toNat ≤ t.regs.outCount.toNat ∧ (t.busy = true → s.Grows t) := by
  have all : ∀ t : State, s.Grows t → t.port = s.port ∧ t.sampled = s.sampled ∧
      s.regs.inCount.toNat ≤ t.regs.inCount.toNat ∧ s.regs.outCount.toNat ≤ t.regs.outCount.toNat ∧
        (t.busy = true → s.Grows t) :=
    fun t g => ⟨g.port, g.sampled, g.inCount, g.outCount, fun _ => g⟩
  have ended : ∀ t u : State, s.Grows u → t.port = u.port → t.sampled = u.sampled → t.regs.inCount = u.regs.inCount →
      t.regs.outCount = u.regs.outCount → t.busy = false → t.port = s.port ∧ t.sampled = s.sampled ∧
        s.regs.inCount.toNat ≤ t.regs.inCount.toNat ∧ s.regs.outCount.toNat ≤ t.regs.outCount.toNat ∧
          (t.busy = true → s.Grows t) := by
    intro t u g e1 e2 e3 e4 hb
    refine ⟨e1.trans g.port, e2.trans g.sampled, e3 ▸ g.inCount, e4 ▸ g.outCount, fun h => ?_⟩
    rw [hb] at h
    cases h
  have acc : ∀ (u : State) (p : BitVec 7), s.Grows u → s.Grows (accumulate p u) := by
    intro u p g
    unfold accumulate
    split <;> exact ⟨g.port, g.cmd, g.sampled, g.inCount, g.outCount, g.pending, g.consumed⟩
  have wr : ∀ (u : State) (b : Byte), s.Grows u → u.regs.outCount.toNat + 1 < 2 ^ 32 → s.Grows (u.afterWriting [b]) :=
    fun u b g hc => g.trans (State.Grows.afterWriting u [b] hc)
  cases h with
  | vencMore _ _ hc => exact all _ ((wr s _ (.refl s) hc).congr rfl rfl rfl rfl rfl)
  | vencLast _ _ hc => exact ended _ _ (wr s _ (.refl s) hc) rfl rfl rfl rfl rfl
  | vdecMore p _ hc hl => exact all _ (acc _ p (State.Grows.afterReading s 1 hc hl))
  | vdecLast p _ hc hl => exact ended _ _ (acc _ p (State.Grows.afterReading s 1 hc hl)) rfl rfl rfl rfl rfl
  | truncated s1 sel hsel hl hc =>
    have g : s.Grows (s1.afterReading s.src.unread.length) := by
      have := State.Grows.afterReading s _ hc (Nat.le_refl _)
      rcases hsel with ⟨_, _, rfl⟩ | ⟨_, ⟨_, _, rfl⟩ | ⟨_, _, _, rfl⟩ | ⟨_, _, _, rfl⟩⟩
      · exact this
      · exact this
      · exact this
      · exact this.congr rfl rfl rfl rfl rfl
    have hu : (s1.src.unread.take sel.length).length = s.src.unread.length := by
      have : s1.src = s.src := by
        rcases hsel with ⟨_, _, rfl⟩ | ⟨_, ⟨_, _, rfl⟩ | ⟨_, _, _, rfl⟩ | ⟨_, _, _, rfl⟩⟩ <;> rfl
      rw [this, List.length_take]
      omega
    refine ended _ _ g rfl rfl ?_ rfl rfl
    change s1.regs.inCount + BitVec.ofNat 32 (s1.src.unread.take sel.length).length = _
    rw [hu]
    rfl
  | flag f _ _ _ hc hl =>
    have g := State.Grows.afterReading s 1 hc hl
    exact all _ (g.congr rfl rfl rfl rfl rfl)
  | lit d _ _ _ _ hc ht ho =>
    have hl : 1 ≤ s.src.unread.length := by
      have := congrArg List.length ht
      simp at this
      omega
    have g := State.Grows.afterReading s 1 hc hl
    have g1 : s.Grows (s.flagTaken.afterReading 1) := g.congr rfl rfl rfl rfl rfl
    exact all _ (g1.trans (State.Grows.emitted _ d ho))
  | ref _ offset count _ _ _ _ hc hl _ _ _ _ h =>
    have g := State.Grows.afterReading s 2 hc hl
    have g1 : s.Grows (s.flagTaken.afterReading 2) := g.congr rfl rfl rfl rfl rfl
    exact all _ (g1.trans (copyRun_grows h))
  | overflow count _ _ _ hc hl =>
    have g := State.Grows.afterReading s 2 hc hl
    exact ended _ _ g rfl rfl rfl rfl rfl
  | trailerRight _ _ hc hl => exact ended _ _ (State.Grows.afterReading s 4 hc hl) rfl rfl rfl rfl rfl
  | trailerWrong w _ _ hc hl => exact ended _ _ (State.Grows.afterReading s 4 hc hl) rfl rfl rfl rfl rfl
  | compLit _ hr _ _ h =>
    exact all _ (cuLit_keeps s.Grows (fun _ _ _ _ g => g.congr rfl rfl rfl rfl rfl) wr
      (fun _ g => g.congr rfl rfl rfl rfl rfl)
      (fun _ _ g h => g.trans (advanceStep_grows h)) (s := s.clamped)
      ((State.Grows.refl s).congr rfl rfl rfl rfl rfl) h)
  | compRef _ hr _ _ h =>
    exact all _ (cuRef_keeps s.Grows (fun _ _ _ _ g => g.congr rfl rfl rfl rfl rfl) wr
      (fun _ _ g h => g.trans (advanceStep_grows h)) (s := s.clamped)
      ((State.Grows.refl s).congr rfl rfl rfl rfl rfl) h)
  | compTrailer _ _ _ h =>
    obtain ⟨u, g, rfl⟩ := cuTrailer_keeps s.Grows wr (.refl s) h
    exact ended _ _ g rfl rfl rfl rfl rfl

/-! ## The run of an operation that the host leaves alone -/

theorem reaches_zero {s t : State} : Reaches 0 s t ↔ s = t :=
  ⟨fun h => Host.Outcome.next.inj h, fun h => h ▸ rfl⟩

theorem run_succ (M : Host.Core) {k : Nat} {s t : M.State} :
    M.run (k + 1) s = .next t ↔ ∃ u, M.step s = .next u ∧ M.run k u = .next t := by
  rw [Host.Core.run]
  cases h : M.step s with
  | next u => exact ⟨fun h => ⟨u, rfl, h⟩, fun ⟨v, e, h⟩ => Host.Outcome.next.inj e ▸ h⟩
  | fault r => exact ⟨fun h => (by cases h), fun ⟨v, e, h⟩ => (by cases e)⟩
  | refused r => exact ⟨fun h => (by cases h), fun ⟨v, e, h⟩ => (by cases e)⟩

theorem reaches_succ {k : Nat} {s t : State} : Reaches (k + 1) s t ↔ ∃ u, step s = .next u ∧ Reaches k u t :=
  run_succ Sys2Proof.core

theorem step_quiet {s : State} (hq : s.port.queue = []) : step s = engineStep s := by
  unfold step
  rw [hq]

/-- With no action of the host, a step of a running operation is a step of the block. -/
theorem step_quiet_busy {s t : State} (hq : s.port.queue = []) (hb : s.busy = true) (h : step s = .next t) :
    BlockStep s t ∧ t.port.queue = [] := by
  rw [step_quiet hq] at h
  have hs := engineStep_blockStep hb h
  exact ⟨hs, by rw [(blockStep_grows hs).1, hq]⟩

/-- An operation that has ended stays ended. -/
theorem reaches_ended {k : Nat} {s t : State} (hq : s.port.queue = []) (hb : s.busy = false) (h : Reaches k s t) :
    t = s := by
  have hs : step s = .next s := by
    rw [step_quiet hq, engineStep, if_neg (by rw [hb]; simp)]
  induction k with
  | zero => exact (reaches_zero.1 h).symm
  | succ k ih =>
    obtain ⟨u, e, h⟩ := reaches_succ.1 h
    rw [hs] at e
    exact ih (Host.Outcome.next.inj e ▸ h)

/-- From a running operation to a state in which it still runs: it runs all the way, and grows. -/
theorem reaches_grows {k : Nat} {s t : State} (hq : s.port.queue = []) (h : Reaches k s t) (ht : t.busy = true) :
    s.Grows t ∧ t.running = s.running ∧ t.port.queue = [] := by
  induction k generalizing s with
  | zero => exact reaches_zero.1 h ▸ ⟨.refl s, rfl, hq⟩
  | succ k ih =>
    have hb : s.busy = true := by
      cases hb : s.busy with
      | true => rfl
      | false => rw [reaches_ended hq hb h, hb] at ht; cases ht
    obtain ⟨u, e, h⟩ := reaches_succ.1 h
    obtain ⟨hs, hqu⟩ := step_quiet_busy hq hb e
    have hu : u.busy = true := by
      cases hu : u.busy with
      | true => rfl
      | false => rw [reaches_ended hqu hu h, hu] at ht; cases ht
    obtain ⟨g, r, q⟩ := ih hqu h
    have gu := (blockStep_grows hs).2.2.2.2 hu
    have e1 := (State.busy_iff s).1 hb
    have e2 := (State.busy_iff u).1 hu
    exact ⟨gu.trans g, r.trans (State.running_congr gu.cmd (e2.trans e1.symm)), q⟩

/-- Two runs from one state, one to where the operation still runs, one to its last such state: the first is a part of the
second. -/
theorem reaches_before_end {j k : Nat} {s u last final : State} (hq : s.port.queue = []) (hu : Reaches j s u)
    (hub : u.busy = true) (hl : Reaches k s last) (hlb : last.busy = true) (hf : step last = .next final)
    (hfb : final.busy = false) : ∃ i, Reaches i u last := by
  induction j generalizing s k with
  | zero => exact ⟨k, reaches_zero.1 hu ▸ hl⟩
  | succ j ih =>
    obtain ⟨s1, e, hu⟩ := reaches_succ.1 hu
    cases k with
    | zero =>
      have es := reaches_zero.1 hl
      subst es
      have e1 := Host.Outcome.next.inj (hf.symm.trans e)
      subst e1
      have hq1 := (step_quiet_busy hq hlb e).2
      rw [reaches_ended hq1 hfb hu, hfb] at hub
      cases hub
    | succ k =>
      obtain ⟨s2, e2, hl⟩ := reaches_succ.1 hl
      have e1 := Host.Outcome.next.inj (e.symm.trans e2)
      subst e1
      have hq1 : s1.port.queue = [] := by
        cases hb : s.busy with
        | true => exact (step_quiet_busy hq hb e).2
        | false =>
          rw [step_quiet hq, engineStep, if_neg (by rw [hb]; simp)] at e
          exact Host.Outcome.next.inj e ▸ hq
      exact ih hq1 hu hl

/-- The state that a read looks ahead to is one of the run. -/
theorem lastBusy_reached (n : Nat) {s : State} (hq : s.port.queue = []) (hb : s.busy = true) :
    ∃ j, Reaches j s (lastBusy n s) ∧ (lastBusy n s).busy = true := by
  induction n generalizing s with
  | zero => exact ⟨0, rfl, hb⟩
  | succ n ih =>
    rw [lastBusy]
    cases h : engineStep s with
    | next t =>
      have hs : step s = .next t := (step_quiet hq).trans h
      cases ht : t.busy with
      | true =>
        obtain ⟨j, hj, hjb⟩ := ih (step_quiet_busy hq hb hs).2 ht
        simp only [ht, if_true]
        exact ⟨j + 1, reaches_succ.2 ⟨t, hs, hj⟩, hjb⟩
      | false =>
        simp only [ht, Bool.false_eq_true, if_false]
        exact ⟨0, rfl, hb⟩
    | fault r => exact ⟨0, rfl, hb⟩
    | refused r => exact ⟨0, rfl, hb⟩

/-- What a read while `BUSY` finds of the operation's end lies on the way to it: the counts are at most the final ones, the
bytes summed are the first of those summed in the end. -/
theorem lastBusy_law (n : Nat) {s last final : State} {k : Nat} (hq : s.port.queue = []) (hb : s.busy = true)
    (hl : Reaches k s last) (hlb : last.busy = true) (hf : step last = .next final) (hfb : final.busy = false) :
    (lastBusy n s).finalRegs.inCount.toNat ≤ final.regs.inCount.toNat ∧
      (lastBusy n s).finalRegs.outCount.toNat ≤ final.regs.outCount.toNat ∧
      (lastBusy n s).summed <+: last.summed ∧ last.running = s.running := by
  obtain ⟨j, hj, hub⟩ := lastBusy_reached n hq hb
  generalize lastBusy n s = u at *
  obtain ⟨i, hi⟩ := reaches_before_end hq hj hub hl hlb hf hfb
  obtain ⟨_, ru, qu⟩ := reaches_grows hq hj hub
  obtain ⟨g, rl, ql⟩ := reaches_grows qu hi hlb
  obtain ⟨_, _, f1, f2, _⟩ := blockStep_grows (step_quiet_busy ql hlb hf).1
  have counts : u.finalRegs.inCount.toNat ≤ final.regs.inCount.toNat ∧
      u.finalRegs.outCount.toNat ≤ final.regs.outCount.toNat := by
    cases i with
    | zero =>
      have e := reaches_zero.1 hi
      subst e
      rw [step_quiet ql] at hf
      simp only [State.finalRegs, hf]
      exact ⟨Nat.le_refl _, Nat.le_refl _⟩
    | succ i =>
      obtain ⟨v, e, hv⟩ := reaches_succ.1 hi
      have g1 := (reaches_grows (step_quiet_busy qu hub e).2 hv hlb).1
      rw [step_quiet qu] at e
      simp only [State.finalRegs, e]
      exact ⟨g1.inCount.trans f1, g1.outCount.trans f2⟩
  refine ⟨counts.1, counts.2, ?_, rl.trans ru⟩
  unfold State.summed
  rw [rl]
  cases u.running with
  | none => exact List.prefix_refl _
  | some op =>
    cases op with
    | venc => exact List.prefix_refl _
    | vdec => exact List.prefix_refl _
    | decomp => exact g.pending
    | comp => exact g.consumed

end Sys2Proof.Machine
end

