-- ==== Sys2Proof/Laws/PerInstr.lean ====
section
/-! SUPPORT. The family `EncodeDecode`: one lemma for each instruction, that its encoding is read back as it. -/

/-- The encoding of a well-formed instruction decodes to it, a wire element's whatever bytes follow. -/
def Sys2Proof.Laws.EncodeDecode.Statement (i : Sys2Proof.Instr) : Prop :=
  i.WellFormed →
    match Sys2Proof.encode i with
    | .command w => Sys2Proof.decodeCommand w = .ok i
    | .element sel bytes => ∀ rest, Sys2Proof.decodeElement sel (bytes ++ rest) = .ok (i, rest)

namespace Sys2Proof

/-- The two bytes of a reference give its offset back (30_encoding R65, R70). -/
theorem refOffset_refBytes (offset : Cursor) (c : BitVec 4) :
    refOffset (offset.extractLsb' 0 8) (offset.extractLsb' 8 4 ++ c) = offset := by
  unfold refOffset
  ext i hi
  simp only [BitVec.getElem_append, BitVec.getElem_extractLsb', BitVec.getLsbD_append, BitVec.getLsbD_extractLsb']
  split <;> simp_all
  grind

/-- The count code gives the count back (30_encoding R65, R70). -/
theorem refCount_refBytes (h : BitVec 4) {count : Nat} (lo : 3 ≤ count) (hi : count ≤ 18) :
    refCount (h ++ BitVec.ofNat 4 (count - 3)) = count := by
  have : (h ++ BitVec.ofNat 4 (count - 3)).extractLsb' 0 4 = BitVec.ofNat 4 (count - 3) := by
    apply BitVec.eq_of_getLsbD_eq
    intro i hi
    rw [BitVec.getLsbD_extractLsb', BitVec.getLsbD_append]
    simp [hi]
  rw [refCount, this, BitVec.toNat_ofNat]
  omega

/-- The four bytes of a word give it back (30_encoding R66). -/
theorem wordOfBytes_bytesOfWord (w : Word) :
    wordOfBytes (w.extractLsb' 0 8) (w.extractLsb' 8 8) (w.extractLsb' 16 8) (w.extractLsb' 24 8) = w := by
  unfold wordOfBytes
  apply BitVec.eq_of_getLsbD_eq
  intro i hi
  simp only [BitVec.getLsbD_append, BitVec.getLsbD_extractLsb']
  grind

/-- A byte with bit 7 set is a `VCONT` with its payload (30_encoding R68). -/
theorem decodeVarintByte_vcont (p : BitVec 7) : decodeVarintByte (vcontByte p) = .vcont p := by
  revert p; decide

/-- A byte with bit 7 clear is a `VLAST` with its payload (30_encoding R69). -/
theorem decodeVarintByte_vlast (p : BitVec 7) : decodeVarintByte (vlastByte p) = .vlast p := by
  revert p; decide

end Sys2Proof

theorem Sys2Proof.Laws.EncodeDecode.nop : Sys2Proof.Laws.EncodeDecode.Statement .nop := fun _ => rfl
theorem Sys2Proof.Laws.EncodeDecode.venc : Sys2Proof.Laws.EncodeDecode.Statement .venc := fun _ => rfl
theorem Sys2Proof.Laws.EncodeDecode.vlen : Sys2Proof.Laws.EncodeDecode.Statement .vlen := fun _ => rfl
theorem Sys2Proof.Laws.EncodeDecode.vdec : Sys2Proof.Laws.EncodeDecode.Statement .vdec := fun _ => rfl
theorem Sys2Proof.Laws.EncodeDecode.decomp : Sys2Proof.Laws.EncodeDecode.Statement .decomp := fun _ => rfl
theorem Sys2Proof.Laws.EncodeDecode.comp : Sys2Proof.Laws.EncodeDecode.Statement .comp := fun _ => rfl

theorem Sys2Proof.Laws.EncodeDecode.flag (f : Sys2Proof.Byte) :
    Sys2Proof.Laws.EncodeDecode.Statement (.flag f) := fun _ _ => rfl

theorem Sys2Proof.Laws.EncodeDecode.lit (d : Sys2Proof.Byte) :
    Sys2Proof.Laws.EncodeDecode.Statement (.lit d) := fun _ _ => rfl

theorem Sys2Proof.Laws.EncodeDecode.ref (offset : Sys2Proof.Cursor) (count : Nat) :
    Sys2Proof.Laws.EncodeDecode.Statement (.ref offset count) := by
  intro h rest
  simp only [Sys2Proof.Instr.WellFormed, Sys2Proof.Instr.wf, Bool.and_eq_true, decide_eq_true_eq] at h
  simp only [Sys2Proof.refBytes, List.cons_append, List.nil_append, Sys2Proof.decodeElement]
  rw [Sys2Proof.refOffset_refBytes, Sys2Proof.refCount_refBytes _ h.1 h.2]

theorem Sys2Proof.Laws.EncodeDecode.trailer (w : Sys2Proof.Word) :
    Sys2Proof.Laws.EncodeDecode.Statement (.trailer w) := by
  intro _ rest
  simp only [Sys2Proof.bytesOfWord, List.cons_append, List.nil_append, Sys2Proof.decodeElement]
  rw [Sys2Proof.wordOfBytes_bytesOfWord]

theorem Sys2Proof.Laws.EncodeDecode.vcont (p : BitVec 7) :
    Sys2Proof.Laws.EncodeDecode.Statement (.vcont p) := by
  intro _ rest
  simp only [List.cons_append, List.nil_append, Sys2Proof.decodeElement, Sys2Proof.decodeVarintByte_vcont]

theorem Sys2Proof.Laws.EncodeDecode.vlast (p : BitVec 7) :
    Sys2Proof.Laws.EncodeDecode.Statement (.vlast p) := by
  intro _ rest
  simp only [List.cons_append, List.nil_append, Sys2Proof.decodeElement, Sys2Proof.decodeVarintByte_vlast]
end

