-- ==== Sys2Proof/Tests/Slice0.lean ====
section
/-! SUPPORT. Tests of single steps with results from 95_test_vectors and from hand calculation by the rules; words
written out from the layouts of 30_encoding; and for each statement with hypotheses a witness that meets them. -/
namespace Sys2Proof.Tests
open Sys2Proof Sys2Proof.Machine

/-! ## Helpers -/

/-- The next state, if there is one. -/
def nextOf (o : Host.Outcome State Fault Refusal) : Option State :=
  match o with
  | .next t => some t
  | .fault _ => none
  | .refused _ => none

/-- The state after `k` steps, if there is one. -/
def after (k : Nat) (s : State) : Option State := nextOf (Host.Core.run Sys2Proof.core k s)

/-- An idle block with `ARG`, a source and the host's next actions. -/
def idle (arg : Word) (bytes : List Byte) (q : List HostAction := []) : State :=
  { State.reset with
    regs := { Regs.reset with arg := arg }
    src := { bytes := bytes, pos := 0, eos := false }
    port := { queue := q, data := 0, fresh := 0 } }

/-- A block in which the command `w` has just started. -/
def busyWith (w arg : Word) (bytes : List Byte) : State := (idle arg bytes).started w

/-- A `DECOMP` with `rem` bytes to produce and `fcnt` bits `flags` in the shifter. -/
def decoding (rem : Word) (flags : Byte) (fcnt : BitVec 4) (bytes : List Byte) : State :=
  { busyWith 4 rem bytes with curR := 4078, du := { rem := rem, flags := flags, fcnt := fcnt } }

/-- Arrays in which no position is a member. -/
def bare : Finder := { left := [], right := [], parent := [], ml := 0, mp := 0 }

/-- Arrays in which 4078 is the only member, its first byte a space. -/
def single : Finder := { bare with right := [(4129, 4078)], parent := [(4078, 4129)] }

/-- A `COMP` of 18 spaces that have all been read. The window holds nothing else, so of the 19 positions inserted in its
setup only the last one is still a member; it matched the one 18 before it. -/
def encoding : State :=
  { busyWith 5 0 (List.replicate 18 0x20) with
    regs := { ((idle 0 []).started 5).regs with csum := 576, inCount := 18 }
    curR := 4078
    src := { bytes := List.replicate 18 0x20, pos := 18, eos := false }
    cu :=
      { curS := 0, len := 18, gbuf := Vector.replicate 17 0, gptr := 1, gmask := 1
        finder := { single with ml := 18, mp := 4060 } } }

/-! ## Well-formedness -/

theorem test_ref_count_2_is_ill_formed : ¬ (Instr.ref 1 2).WellFormed := by decide
theorem test_ref_count_19_is_ill_formed : ¬ (Instr.ref 1 19).WellFormed := by decide
theorem test_ref_counts_3_and_18_are_well_formed : (Instr.ref 0 3).WellFormed ∧ (Instr.ref 4095 18).WellFormed := by
  decide

/-! ## Decoding -/

/-- The command codes of 30_encoding R59. -/
theorem test_decode_commands :
    decodeCommand 0b00000000000000000000000000000000 = .ok .nop ∧
      decodeCommand 0b00000000000000000000000000000001 = .ok .venc ∧
      decodeCommand 0b00000000000000000000000000000010 = .ok .vlen ∧
      decodeCommand 0b00000000000000000000000000000011 = .ok .vdec ∧
      decodeCommand 0b00000000000000000000000000000100 = .ok .decomp ∧
      decodeCommand 0b00000000000000000000000000000101 = .ok .comp := ⟨rfl, rfl, rfl, rfl, rfl, rfl⟩

/-- 30_encoding R59: the whole word is the code. -/
theorem test_decode_reserved_commands :
    decodeCommand 6 = .error (.reservedCommand 6) ∧ decodeCommand 0x80000000 = .error (.reservedCommand 0x80000000) ∧
      decodeCommand 0x105 = .error (.reservedCommand 0x105) := ⟨rfl, rfl, rfl⟩

/-- 30_encoding R63, R64. -/
theorem test_decode_flag_and_lit :
    decodeElement .flag [0b10110001, 9] = .ok (.flag 0b10110001, [9]) ∧
      decodeElement (.token true) [0b01100001] = .ok (.lit 0x61, []) := ⟨rfl, rfl⟩

/-- 30_encoding R65 with 95 X7: `23 10` is `R 0x123, 3`; `01 0F` is `R 1, 18`; `FF F0` is `R 4095, 3`. -/
theorem test_decode_ref :
    decodeElement (.token false) [0b00100011, 0b00010000] = .ok (.ref 0x123 3, []) ∧
      decodeElement (.token false) [0b00000001, 0b00001111] = .ok (.ref 1 18, []) ∧
      decodeElement (.token false) [0b11111111, 0b11110000] = .ok (.ref 4095 3, []) := ⟨rfl, rfl, rfl⟩

/-- 30_encoding R66: least significant byte first. -/
theorem test_decode_trailer :
    decodeElement .trailer [0b01111000, 0b01010110, 0b00110100, 0b00010010] = .ok (.trailer 0x12345678, []) := rfl

/-- 30_encoding R68, R69. -/
theorem test_decode_varint_bytes :
    decodeElement .varint [0b10101100, 2] = .ok (.vcont 0b0101100, [2]) ∧
      decodeElement .varint [0b01111111] = .ok (.vlast 0b1111111, []) := ⟨rfl, rfl⟩

/-- 30_encoding R71: an element that is one byte short is refused by name. -/
theorem test_decode_short :
    decodeElement (.token false) [1] = .error (.endOfSource (.token false)) ∧
      decodeElement .trailer [1, 2, 3] = .error (.endOfSource .trailer) := ⟨rfl, rfl⟩

/-- 95 X7 and the layouts: the encoder. -/
theorem test_encode :
    encode (.ref 0x123 3) = .element (.token false) [0x23, 0x10] ∧ encode (.vcont 0x2C) = .element .varint [0xAC] ∧
      encode (.trailer 0x126) = .element .trailer [0x26, 0x01, 0x00, 0x00] := by decide

/-- Words numbered as the opcode table numbers them (log 14). -/
theorem test_table_words :
    decodeTableWord 32 5 = some .comp ∧ decodeTableWord 8 0xAC = some (.vcont 0x2C) ∧
      decodeTableWord 8 0x02 = some (.vlast 2) ∧ decodeTableWord 9 0x161 = some (.lit 0x61) ∧
      decodeTableWord 17 0x2310 = some (.ref 0x123 3) ∧ decodeTableWord 32 0x126 = some (.trailer 0x126) := by decide

/-- `step` runs the word that is placed as the first instruction after reset (log 15): `R 1, 3` copies three spaces. -/
theorem test_fetch_word_ref :
    (nextOf (step (State.reset.withFetchWord 17 0x0100))).map (fun t => (t.snk.pending, t.regs.csum)) =
      some ([0x20, 0x20, 0x20], 0x60) := by decide

theorem test_fetch_word_command :
    (nextOf (step (State.reset.withFetchWord 32 2))).map (fun t => t.regs.result) = some 1 := by decide

/-! ## One step of each instruction -/

/-- 60_exceptions R133: results are cleared, the state is `IDLE`, `CMD` holds 0. -/
theorem test_nop_acknowledges :
    (nextOf (exec .nop ((busyWith 2 7 []).doneWith 5))).map (fun t => (t.regs.statusWord, t.regs.result, t.regs.cmd)) =
      some (0, 0, 0) := by decide

/-- 95 V4: 128 is written as `80 01`; after the first of its two steps `80` is pending. -/
theorem test_venc_starts :
    (nextOf (exec .venc (idle 128 []))).map (fun t => (t.vu.vv, t.regs.statusWord)) = some (128, 1) := by decide

/-- 95 V5 in three steps. -/
theorem test_venc_300 :
    (after 3 (idle 300 [] [.write .cmd 1])).map
        (fun t => (t.snk.committed, t.regs.statusWord, t.regs.result, t.regs.outCount)) =
      some ([0xAC, 0x02], 2, 2, 2) := by decide

/-- 95 V3, V4. -/
theorem test_vlen_boundary :
    (nextOf (exec .vlen (idle 127 []))).map (fun t => t.regs.result) = some 1 ∧
      (nextOf (exec .vlen (idle 128 []))).map (fun t => t.regs.result) = some 2 := by decide

/-- 95 V14: the comparison is unsigned. -/
theorem test_vlen_unsigned :
    (nextOf (exec .vlen (idle 0x80000000 []))).map (fun t => (t.regs.result, t.regs.statusWord, t.regs.outCount)) =
      some (5, 2, 0) := by decide

/-- 95 W3: 300, two bytes read, `99` left. -/
theorem test_vdec_300 :
    (after 3 (idle 0 [0xAC, 0x02, 0x99] [.write .cmd 3])).map
        (fun t => (t.regs.statusWord, t.regs.result, t.regs.inCount, t.src.unread)) = some (2, 300, 2, [0x99]) := by
  decide

/-- 95 W14: an empty source is `Truncated`. -/
theorem test_vdec_of_nothing :
    (after 2 (idle 0 [] [.write .cmd 3])).map (fun t => (t.regs.statusWord, t.regs.result, t.src.eos)) =
      some (7, 0, true) := by decide

/-- 95 W11, the fifth byte: payload `0x7F` at bit 28 loses its upper three bits. -/
theorem test_vlast_wraps :
    (nextOf (exec (.vlast 0x7F) { busyWith 3 0 [] with vu := { vacc := 0x0FFFFFFF, vidx := 4, vv := 0 } })).map
        (fun t => (t.regs.statusWord, t.regs.result)) = some (0x22, 0xFFFFFFFF) := by decide

/-- 95 W13: a sixth byte's payload is dropped whole. -/
theorem test_vlast_beyond_the_word :
    (nextOf (exec (.vlast 1) { busyWith 3 0 [] with vu := { vacc := 0, vidx := 5, vv := 0 } })).map
        (fun t => (t.regs.statusWord, t.regs.result)) = some (0x22, 0) := by decide

/-- 40_varint R83 by hand: payload `0x2C` at bit 7. -/
theorem test_vcont_accumulates :
    (nextOf (exec (.vcont 0x2C) { busyWith 3 0 [] with vu := { vacc := 0x01, vidx := 1, vv := 0 } })).map
        (fun t => (t.vu.vacc, t.vu.vidx, t.regs.statusWord)) = some (0x1601, 2, 1) := by decide

/-- 95 V12, the second byte: `AC`, and `VV` becomes `0x48D1`. -/
theorem test_vcont_is_written :
    (nextOf (step { busyWith 1 0 [] with vu := { vacc := 0, vidx := 0, vv := 0x2468AC } })).map
        (fun t => (t.snk.pending, t.vu.vv)) = some ([0xAC], 0x48D1) := by decide

/-- 41_decompress R87: the window is fill, the cursor 4078, `REM = ARG`. -/
theorem test_decomp_starts :
    (nextOf (exec .decomp { idle 7 [] with win := [(5, 1)], du := { rem := 1, flags := 1, fcnt := 1 } })).map
        (fun t => (t.win, t.curR, t.du.rem, t.du.fcnt)) = some ([], 4078, 7, 0) := by decide

/-- 95 D10: "aaaa" from a literal and an overlapping reference. -/
theorem test_decomp_overlap :
    (after 5 (idle 4 [0x01, 0x61, 0x01, 0x00, 0x84, 0x01, 0x00, 0x00, 0x55] [.write .cmd 4])).map
        (fun t => (t.snk.committed, t.regs.statusWord, t.regs.csum, t.curR, t.src.unread)) =
      some ([0x61, 0x61, 0x61, 0x61], 2, 0x184, 4082, [0x55]) := by decide

/-- 41_decompress R89. -/
theorem test_flag_loads :
    (nextOf (exec (.flag 0x17) (decoding 3 0 0 []))).map (fun t => (t.du.flags, t.du.fcnt)) = some (0x17, 8) := by
  decide

/-- 30_encoding R71: a flag byte is not what comes next when none is due. -/
theorem test_flag_not_selected : exec (.flag 0x17) (decoding 0 0 0 []) = .fault .notSelected := rfl

/-- 95 D16: in signed mode `0x80` adds -128. -/
theorem test_lit_signed :
    (nextOf (exec (.lit 0x80)
        { decoding 1 0 7 [] with sampled := { signed := true, arg := 1 } })).map
        (fun t => (t.regs.csum, t.snk.pending, t.curR, t.du.rem)) = some (0xFFFFFF80, [0x80], 4079, 0) := by decide

/-- 42_compress R107 by hand: the flag bit 0 is set, the byte joins the group, one position is drained. -/
theorem test_lit_is_gathered :
    (nextOf (exec (.lit 0x20) encoding)).map
        (fun t => (t.cu.groupBytes, t.cu.gmask, t.cu.len, t.curR, t.cu.curS, t.snk.pending)) =
      some ([0x01, 0x20], 2, 17, 4079, 1, []) := by decide

/-- 95 D12: `R` wraps from 4095 to 0. -/
theorem test_ref_wraps :
    (nextOf (exec (.ref 1 18) (decoding 18 0 7 []))).map
        (fun t => (t.regs.csum, t.curR, t.du.rem, t.regs.outCount)) = some (0x240, 0, 0, 18) := by decide

/-- 95 E10: `R 1, 3` with `REM = 2` fails before a byte is written. -/
theorem test_ref_overflows :
    (nextOf (exec (.ref 1 3) (decoding 2 0 7 []))).map
        (fun t => (t.regs.statusWord, t.regs.result, t.regs.outCount, t.curR)) = some (0x0B, 3, 0, 4078) := by decide

/-- 95 E3: trailer 1 against 0. -/
theorem test_trailer_malformed :
    (nextOf (exec (.trailer 1) (decoding 0 0 0 []))).map (fun t => (t.regs.statusWord, t.regs.result, t.regs.csum)) =
      some (0x0F, 1, 0) := by decide

/-- 42_compress R112 by hand: the waiting group, then the trailer, least significant byte first. -/
theorem test_trailer_is_written :
    (nextOf (exec (.trailer 0x12345678)
        { encoding with
          cu := { encoding.cu with
            len := 0, gptr := 2, gmask := 2, gbuf := (Vector.replicate 17 0 |>.set 0 1 |>.set 1 0x61) } })).map
        (fun t => (t.snk.committed, t.regs.result, t.regs.statusWord)) =
      some ([0x01, 0x61, 0x78, 0x56, 0x34, 0x12], 6, 2) := by decide

/-- 95 C1. -/
theorem test_comp_of_nothing :
    (after 2 (idle 0 [] [.write .cmd 5])).map
        (fun t => (t.snk.committed, t.regs.result, t.curR, t.cu.curS, t.src.eos)) =
      some ([0, 0, 0, 0], 4, 4078, 0, true) := by decide

/-- 95 C15, the setup: all keys are spaces, so the fill before the data matches 18 bytes, 18 back. -/
theorem test_comp_setup :
    (nextOf (exec .comp (idle 0 [0x20, 0x20, 0x20]))).map
        (fun t => (t.cu.finder.ml, t.cu.finder.mp, t.cu.len, t.regs.csum, t.regs.inCount)) =
      some (18, 4060, 3, 0x60, 3) := by decide

/-- The window of 95 section 5, the string of T12 in it from the start. -/
def letters : List Host.Cell :=
  [(100, 0x6D), (101, 0x64), (200, 0x6D), (201, 0x62), (300, 0x6D), (301, 0x66), (400, 0x6D), (401, 0x61), (500, 0x6D),
    (501, 0x63), (600, 0x6D), (601, 0x65), (800, 0x6D), (801, 0x66)]

/-- Insertions one after another. -/
def plant (o : Config.TreeOrder) (win : List Host.Cell) (ns : List Cursor) (f : Finder) : Res Finder :=
  match ns with
  | [] => .ok f
  | n :: ns => do plant o win ns (← insertNode o win n f)

/-- `ML`, `MP`, the top node under `m`, and `PARENT`, `LEFT`, `RIGHT` of the given positions. -/
def rows (ns : List Nat) (f : Finder) : Nat × Nat × Nat × List (Nat × Nat × Nat) :=
  (f.ml.toNat, f.mp.toNat, f.rightAt 4206, ns.map fun n => (f.parentAt n, f.leftAt n, f.rightAt n))

/-- 95 T1 to T6, T8, T9 to T12 under `NODE_GE_RIGHT`. -/
theorem test_forest_ge_right :
    (do
        let f ← plant .nodeGeRight letters [100, 200, 300, 400, 500, 600] bare
        let g ← deleteNode 100 (← deleteNode 700 f)
        let h ← insertNode .nodeGeRight letters 800 (← deleteNode 200 (← deleteNode 500 (← deleteNode 600 g)))
        pure (rows [100, 200, 300, 400, 500, 600] f, rows [200, 300, 400, 500, 600] g, rows [400, 800] h) : Res _) =
      .ok
        ((1, 100, 100, [(4206, 200, 300), (100, 400, 500), (100, 600, 4096), (200, 4096, 4096), (200, 4096, 4096),
            (300, 4096, 4096)]),
          (1, 100, 500, [(500, 400, 4096), (500, 600, 4096), (200, 4096, 4096), (4206, 200, 300), (300, 4096, 4096)]),
          18, 300, 400, [(4206, 4096, 800), (400, 4096, 4096)]) := rfl

/-- The same under `NODE_LT_RIGHT`. -/
theorem test_forest_lt_right :
    (do
        let f ← plant .nodeLtRight letters [100, 200, 300, 400, 500, 600] bare
        let g ← deleteNode 100 (← deleteNode 700 f)
        let h ← insertNode .nodeLtRight letters 800 (← deleteNode 200 (← deleteNode 500 (← deleteNode 600 g)))
        pure (rows [100, 200, 300, 400, 500, 600] f, rows [200, 300, 400, 500, 600] g, rows [400, 800] h) : Res _) =
      .ok
        ((1, 100, 100, [(4206, 300, 200), (100, 500, 400), (100, 4096, 600), (200, 4096, 4096), (200, 4096, 4096),
            (300, 4096, 4096)]),
          (1, 100, 600, [(600, 500, 400), (600, 4096, 4096), (200, 4096, 4096), (200, 4096, 4096), (4206, 300, 200)]),
          18, 300, 800, [(800, 4096, 4096), (4206, 4096, 400)]) := rfl

/-- 70_reset R160: what a read while `BUSY` can answer, by how far it goes: 18 spaces come to the block
`00 12 00 40 02 00 00`. -/
theorem test_reads_while_busy :
    ([0, 2, 1000].map fun m => (encoding.readBusy .inCount m, encoding.readBusy .outCount m, encoding.readBusy .csum m)) =
      [(0, 0, 0), (2, 2, 0x40), (18, 7, 0x240)] := by decide

/-! ## Witnesses: states that meet the hypotheses of the statements -/

/-- A `DECOMP` of one byte, a space, that has been produced; its trailer comes next. -/
def finishing : State :=
  { decoding 0 0 7 [0x01, 0x20, 0x20, 0x00, 0x00, 0x00] with
    regs := { ((idle 1 []).started 4).regs with csum := 0x20, inCount := 2, outCount := 1 }
    sampled := { signed := false, arg := 1 }
    curR := 4079
    src := { bytes := [0x01, 0x20, 0x20, 0x00, 0x00, 0x00], pos := 2, eos := false }
    snk := { committed := [], pending := [0x20] } }

theorem finishing_inv : finishing.Inv where
  storage := ⟨by decide, by decide, by decide, by decide⟩
  status := by
    refine ⟨by decide, fun _ => by decide, fun h => absurd h (by decide), by decide, by decide⟩
  vdec := fun h => absurd h (by decide)
  decomp := fun _ => by decide
  decompWindow := by
    intro _ k hk
    cases k with
    | zero => decide
    | succ k => rfl
  comp := fun h => absurd h (by decide)
  compWindow := fun h => absurd h (by decide)
  forest := fun h => absurd h (by decide)

theorem bare_canonical : bare.Canonical := (emptyForest []).1
theorem bare_treeOk (win : List Host.Cell) : bare.TreeOk win := (emptyForest win).2.1
theorem bare_member (n : Nat) : ¬ bare.Member n := (emptyForest []).2.2 n

/-- `single` is what a first insertion leaves. -/
theorem single_inserted (o : Config.TreeOrder) : Inserted o [] (4078 : Cursor).toNat bare single := by
  obtain ⟨g, e, i⟩ := insertNode_law o [] bare_canonical (bare_treeOk []) 4078 (bare_member _)
  have : insertNode o [] 4078 bare = .ok single := rfl
  rw [this] at e
  cases e
  exact i

theorem single_member (n : Nat) : single.Member n ↔ n = 4078 := by
  rw [(single_inserted .nodeGeRight).member]
  exact ⟨fun h => h.elim id fun h => absurd h.1 (bare_member n), .inl⟩

/-- What `single` is does not depend on the match. -/
theorem encoding_member (n : Nat) : encoding.cu.finder.Member n ↔ n = 4078 := single_member n

theorem encoding_inv : encoding.Inv where
  storage := ⟨by decide, by decide, by decide, by decide⟩
  status := by
    refine ⟨by decide, fun _ => by decide, fun h => absurd h (by decide), by decide, by decide⟩
  vdec := fun h => absurd h (by decide)
  decomp := fun h => absurd h (by decide)
  decompWindow := fun h => absurd h (by decide)
  comp := by
    refine fun _ => ⟨by decide, by decide, by decide, by decide, ⟨0, by decide, by decide, by decide, by decide, by decide⟩,
      by decide, by decide⟩
  compWindow := by
    refine fun _ => ⟨by decide, by decide, fun k hk => ?_⟩
    have : encoding.encoded = [] := by decide
    rw [this]
    rfl
  forest := by
    have all : ∀ (n : Cursor) (k : Nat), KeysAgree encoding.win n.toNat k 18 := fun _ _ _ _ => rfl
    have m : encoding.cu.finder.Member (4078 : Cursor).toNat := (encoding_member _).2 rfl
    have self : ∀ n : Cursor, encoding.cu.finder.Member n.toNat → n = 4078 :=
      fun n hn => BitVec.eq_of_toNat_eq ((encoding_member _).1 hn)
    have i := single_inserted Config.treeOrder
    have o := (ordered_iff single Config.treeOrder []).1 (i.ordered (emptyForest_ordered _ _))
    refine fun _ => ⟨(treeOk_iff _ _).2 ((treeOk_iff single []).1 i.tree), (ordered_iff _ _ _).2 o, fun n hn => ?_,
      fun _ => ⟨⟨by decide, fun x _ _ => ⟨4078, m, by simp [State.behind, encoding], all _ _⟩,
        fun _ x _ => ⟨4078, m, by decide, all _ _⟩⟩, fun n hn ne => absurd (self n hn) ne, fun _ => by decide⟩⟩
    rw [self n hn]
    decide

theorem witness_DecodeOfEncodeIsIdentity :
    ((Instr.ref 0 3).WellFormed ∧ encode (.ref 0 3) = .element (.token false) [0x00, 0x00]) ∧
      (Instr.ref 4095 18).WellFormed ∧ encode (.ref 4095 18) = .element (.token false) [0xFF, 0xFF] := by decide

theorem witness_EncodeOfDecodeIsIdentity :
    decode (.command 5) = .ok (.comp, []) ∧
      decode (.element (.token false) [0xFF, 0xFF]) = .ok (.ref 4095 18, []) := ⟨rfl, rfl⟩

/-- Each length at its boundary. -/
theorem witness_EveryFullLengthElementDecodes :
    (Select.token false).length ≤ [0x01, 0x0F].length ∧ [0x01].length < (Select.token false).length ∧
      Select.trailer.length ≤ [1, 2, 3, 4].length ∧ [1, 2, 3].length < Select.trailer.length ∧
      Select.flag.length ≤ [1].length ∧ ([] : List Byte).length < Select.varint.length := by decide

theorem witness_StepRunsTheCommandWritten :
    (idle 0 [] [.write .cmd 5]).port.queue = .write .cmd 5 :: [] ∧ decodeCommand 5 = .ok .comp := ⟨rfl, rfl⟩

/-- One state for each selection. -/
theorem witness_StepRunsTheElementRead :
    ((busyWith 3 0 [0x80]).port.queue = [] ∧ (busyWith 3 0 [0x80]).Selects .varint (busyWith 3 0 [0x80]) ∧
        decodeElement .varint (busyWith 3 0 [0x80]).src.unread = .ok (.vcont 0, [])) ∧
      (finishing.Selects .trailer finishing ∧
        decodeElement .trailer finishing.src.unread = .ok (.trailer 0x20, []) ∧
        finishing.regs.inCount.toNat + Select.trailer.length < 2 ^ 32) ∧
      (decoding 3 0 0 [7]).Selects .flag (decoding 3 0 0 [7]) ∧
      (decoding 3 3 2 [7]).Selects (.token true) (decoding 3 1 1 [7]) ∧
      (decoding 3 2 1 [1, 0]).Selects (.token false) (decoding 3 1 0 [1, 0]) :=
  ⟨⟨rfl, .inl ⟨rfl, rfl, rfl⟩, rfl⟩, ⟨.inr ⟨rfl, .inl ⟨rfl, rfl, rfl⟩⟩, rfl, by decide⟩,
    .inr ⟨rfl, .inr (.inl ⟨by decide, rfl, rfl, rfl⟩)⟩,
    .inr ⟨rfl, .inr (.inr ⟨by decide, by decide, rfl, rfl⟩)⟩, .inr ⟨rfl, .inr (.inr ⟨by decide, by decide, rfl, rfl⟩)⟩⟩

/-- `VV` and `ML` at the boundaries of the choice. -/
theorem witness_StepRunsTheElementEmitted :
    (let s : State := { busyWith 1 0 [] with vu := { vacc := 0, vidx := 0, vv := 128 } };
      s.port.queue = [] ∧ s.running = some .venc ∧ 127 < s.vu.vv.toNat) ∧
      (let s : State := { busyWith 1 0 [] with vu := { vacc := 0, vidx := 0, vv := 127 } };
        s.running = some .venc ∧ s.vu.vv.toNat ≤ 127) ∧
      (let s : State := { encoding with cu := { encoding.cu with len := 0 } };
        s.running = some .comp ∧ s.cu.len = 0) ∧
      (let s : State := { encoding with cu := { encoding.cu with finder := { encoding.cu.finder with ml := 2 } } };
        s.running = some .comp ∧ s.cu.len ≠ 0 ∧ s.cu.finder.ml.toNat ≤ 2) ∧
      (let s : State := { encoding with cu := { encoding.cu with finder := { encoding.cu.finder with ml := 3 } } };
        s.running = some .comp ∧ s.cu.len ≠ 0 ∧ 2 < s.cu.finder.ml.toNat) := by decide

theorem witness_HardResetClearsTheRegisters :
    ({ finishing with port := { queue := [.hardReset], data := 0, fresh := 0 } } : State).port.queue =
      .hardReset :: [] := rfl

theorem witness_WritesWhileBusyAreIgnored :
    (((busyWith 3 0 []).withQueue [.write .arg 5]).port.queue = .write .arg 5 :: [] ∧
        ((busyWith 3 0 []).withQueue [.write .arg 5]).busy = true) ∧
      (idle 0 [] [.write .status 5]).port.queue = .write .status 5 :: [] ∧
        Reg.status ≠ .cmd ∧ Reg.status ≠ .mode ∧ Reg.status ≠ .arg := by decide

theorem witness_ModeAndArgAreWrittenWhenNotBusy :
    ((idle 0 [] [.write .arg 5]).busy = false ∧ (idle 0 [] [.write .arg 5]).port.queue = .write .arg 5 :: []) ∧
      (idle 0 [] [.write .mode 3]).busy = false ∧ (idle 0 [] [.write .mode 3]).port.queue = .write .mode 3 :: [] := by
  decide

/-- The operation in `s`, left alone, is in its last state `k` steps on. -/
def EndsAfter (k : Nat) (s : State) : Bool :=
  (after k (s.withQueue [])).any fun last => last.busy && (nextOf (step last)).any fun final => !final.busy

theorem EndsAfter.reaches {k : Nat} {s : State} (h : EndsAfter k s = true) :
    ∃ last final, Reaches k (s.withQueue []) last ∧ last.busy = true ∧ step last = .next final ∧ final.busy = false := by
  rw [EndsAfter, after] at h
  cases e : Host.Core.run Sys2Proof.core k (s.withQueue []) with
  | next last =>
    rw [e] at h
    have h : (last.busy && (nextOf (step last)).any fun final => !final.busy) = true := h
    rw [Bool.and_eq_true] at h
    cases e' : step last with
    | next final =>
      rw [e'] at h
      exact ⟨last, final, e, h.1, e', by simpa using show (!final.busy) = true from h.2⟩
    | fault r => rw [e'] at h; cases h.2
    | refused r => rw [e'] at h; cases h.2
  | fault r => rw [e] at h; cases h
  | refused r => rw [e] at h; cases h

/-- A state of each operation, and how far it is from its end. -/
def running : List (Nat × State) :=
  [(1, { busyWith 1 0 [] with vu := { vacc := 0, vidx := 0, vv := 300 } }), (1, busyWith 3 0 [0x80]),
    (2, decoding 1 0 0 [0x01, 0x20, 0x20, 0x00, 0x00, 0x00]), (1, encoding)]

/-- Any register, when not `BUSY` and during each operation. -/
theorem witness_HostReadsChangeNothing (r : Reg) :
    ((idle 9 [] [.read r]).port.queue = .read r :: [] ∧ (idle 9 [] [.read r]).busy = false) ∧
      ∀ p ∈ running,
        (p.2.withQueue [.read r]).port.queue = .read r :: [] ∧ (p.2.withQueue [.read r]).busy = true ∧
          ∃ last final, Reaches p.1 ((p.2.withQueue [.read r]).withQueue []) last ∧ last.busy = true ∧
            step last = .next final ∧ final.busy = false := by
  have all : ∀ p ∈ running, p.2.busy = true ∧ EndsAfter p.1 p.2 = true := by decide
  exact ⟨⟨rfl, rfl⟩, fun p hp => ⟨rfl, (all p hp).1, EndsAfter.reaches (s := p.2) (all p hp).2⟩⟩

theorem witness_TheBlockWaitsWhenNotBusy :
    ((idle 0 []).busy = false ∧ (idle 0 []).port.queue = []) ∧
      (idle 0 [] [.wait]).busy = false ∧ (idle 0 [] [.wait]).port.queue = .wait :: [] := by decide

/-- For `NopReturnsToIdle`, `VlenGivesTheMinimalLength`, `UnitsStartInitialised`, `CompStartsWithItsLookahead`,
`VencCommitsTheMinimalVarint`: every state that is not `BUSY`, idle, done or failed. -/
theorem witness_not_busy :
    (idle 300 [1, 2, 3]).busy = false ∧ ((busyWith 2 7 []).doneWith 5).busy = false ∧
      ((busyWith 3 0 []).failedWith .truncated 0).busy = false := by decide

theorem witness_CommandsWhileBusyDoNothing : finishing.busy = true ∧ encoding.busy = true := by decide

theorem witness_ReservedCommandsFailWithBadCommand :
    ((idle 0 [] [.write .cmd 6]).busy = false ∧ 5 < (6 : Word).toNat ∧
        (idle 0 [] [.write .cmd 6]).port.queue = .write .cmd 6 :: []) ∧
      5 < (0xFFFFFFFF : Word).toNat := by decide

/-- A group inside the word, the group at bit 28, and one beyond the word. -/
theorem witness_VarintBytesAccumulate :
    (busyWith 3 0 []).running = some .vdec ∧
      ({ busyWith 3 0 [] with vu := { vacc := 0, vidx := 4, vv := 0 } } : State).running = some .vdec ∧
      ({ busyWith 3 0 [] with vu := { vacc := 0, vidx := 5, vv := 0 } } : State).running = some .vdec := by decide

theorem witness_VencWritesOneByteAStep :
    (let s : State := { busyWith 1 0 [] with vu := { vacc := 0, vidx := 0, vv := 128 } };
      s.running = some .venc ∧ s.regs.outCount.toNat + 1 < 2 ^ 32 ∧ 127 < s.vu.vv.toNat) ∧
      (let s : State := { busyWith 1 0 [] with vu := { vacc := 0, vidx := 0, vv := 127 } };
        s.running = some .venc ∧ s.regs.outCount.toNat + 1 < 2 ^ 32 ∧ s.vu.vv.toNat ≤ 127) := by decide

/-- No continuation byte, and more of them than the word has room for. -/
theorem witness_VdecDecodesAnyVarint :
    ((idle 0 [5, 9]).busy = false ∧ ([] : List (BitVec 7)).length + 1 < 2 ^ 32 ∧
        (idle 0 [5, 9]).src.unread = ([] : List (BitVec 7)).map vcontByte ++ vlastByte 5 :: [9]) ∧
      ([0, 0, 0, 0, 0] : List (BitVec 7)).length + 1 < 2 ^ 32 ∧
        (idle 0 [0x80, 0x80, 0x80, 0x80, 0x80, 0x01]).src.unread =
          ([0, 0, 0, 0, 0] : List (BitVec 7)).map vcontByte ++ vlastByte 1 :: [] := by decide

theorem witness_VarintRoundTrip :
    (idle 300 []).busy = false ∧ (idle 0 [0xAC, 0x02, 0x99]).busy = false ∧
      (after 3 ((idle 300 []).withQueue [.write .cmd 1])).map (fun t => (t.snk.committed, t.regs.state)) =
        some ((idle 300 []).snk.committed ++ [0xAC, 0x02], .done) ∧
      (idle 0 [0xAC, 0x02, 0x99]).src.unread = [0xAC, 0x02] ++ [0x99] := by decide

theorem witness_FlagByteLoadsTheShifter :
    (let s := decoding 1 0 0 [0x17];
      s.running = some .decomp ∧ s.du.rem ≠ 0 ∧ s.du.fcnt = 0 ∧ s.port.queue = [] ∧
        s.src.bytes[s.src.pos]? = some 0x17 ∧ s.regs.inCount.toNat + 1 < 2 ^ 32) ∧
      (let s := decoding 1 0 0 [];
        s.running = some .decomp ∧ s.du.rem ≠ 0 ∧ s.du.fcnt = 0 ∧ s.port.queue = [] ∧
          s.src.bytes[s.src.pos]? = none) := by decide

theorem witness_LiteralEmitsItsByte :
    let s := decoding 1 0 0 []
    s.running = some .decomp ∧ s.du.rem ≠ 0 ∧ s.regs.outCount.toNat + 1 < 2 ^ 32 := by decide

/-- The shortest and the longest run, each with a budget that it uses up. -/
theorem witness_ReferenceCopiesItsRun :
    (let s := decoding 3 0 0 [];
      s.running = some .decomp ∧ Memory.wf s.win ∧ 3 ≤ 3 ∧ 3 ≤ 18 ∧ 3 ≤ s.du.rem.toNat ∧
        s.regs.outCount.toNat + 3 < 2 ^ 32) ∧
      (let s := decoding 18 0 0 [];
        s.running = some .decomp ∧ Memory.wf s.win ∧ 18 ≤ s.du.rem.toNat ∧
          s.regs.outCount.toNat + 18 < 2 ^ 32) := by decide

theorem witness_ReferenceBeyondTheBudgetOverflows :
    (let s := decoding 2 0 0 [];
      s.running = some .decomp ∧ s.du.rem ≠ 0 ∧ s.du.rem.toNat < 3) ∧
      (let s := decoding 17 0 0 [];
        s.running = some .decomp ∧ s.du.rem ≠ 0 ∧ s.du.rem.toNat < 18) := by decide

theorem witness_TrailerDecidesTheDecode :
    finishing.running = some .decomp ∧ finishing.du.rem = 0 ∧ (0x20 : Word) = finishing.regs.csum ∧
      (0x21 : Word) ≠ finishing.regs.csum := by decide

/-- Each selection with a source that is one byte short. -/
theorem witness_SourceEndingInsideAnElementIsTruncated :
    ((busyWith 3 0 []).port.queue = [] ∧ (busyWith 3 0 []).Selects .varint (busyWith 3 0 []) ∧
        (busyWith 3 0 []).src.unread.length < Select.varint.length) ∧
      ((decoding 0 0 0 [1, 2, 3]).Selects .trailer (decoding 0 0 0 [1, 2, 3]) ∧
        (decoding 0 0 0 [1, 2, 3]).src.unread.length < Select.trailer.length ∧
        (decoding 0 0 0 [1, 2, 3]).regs.inCount.toNat + (decoding 0 0 0 [1, 2, 3]).src.unread.length < 2 ^ 32) ∧
      ((decoding 3 0 0 []).Selects .flag (decoding 3 0 0 []) ∧
        (decoding 3 0 0 []).src.unread.length < Select.flag.length) ∧
      ((decoding 3 3 2 []).Selects (.token true) (decoding 3 1 1 []) ∧
        (decoding 3 3 2 []).src.unread.length < (Select.token true).length) ∧
      (decoding 3 2 1 [1]).Selects (.token false) (decoding 3 1 0 [1]) ∧
        (decoding 3 2 1 [1]).src.unread.length < (Select.token false).length :=
  ⟨⟨rfl, .inl ⟨rfl, rfl, rfl⟩, by decide⟩, ⟨.inr ⟨rfl, .inl ⟨rfl, rfl, rfl⟩⟩, by decide, by decide⟩,
    ⟨.inr ⟨rfl, .inr (.inl ⟨by decide, rfl, rfl, rfl⟩)⟩, by decide⟩,
    ⟨.inr ⟨rfl, .inr (.inr ⟨by decide, by decide, rfl, rfl⟩)⟩, by decide⟩,
    .inr ⟨rfl, .inr (.inr ⟨by decide, by decide, rfl, rfl⟩)⟩, by decide⟩

theorem witness_DecompOfNothingReadsOnlyTheTrailer :
    ((idle 0 [0, 0, 0, 0, 0xAA]).busy = false ∧ (idle 0 [0, 0, 0, 0, 0xAA]).regs.arg = 0 ∧
        (idle 0 [0, 0, 0, 0, 0xAA]).src.unread = 0 :: 0 :: 0 :: 0 :: [0xAA]) ∧
      (idle 0 [1, 0, 0, 0]).src.unread = 1 :: 0 :: 0 :: 0 :: [] ∧
      ([1, 0, 0, 0] : List Byte) ≠ [0, 0, 0, 0] := by decide

theorem witness_DecompIsDoneOnlyWithArgBytesOfTheRightSum :
    finishing.Inv ∧ finishing.running = some .decomp ∧ finishing.port.queue = [] ∧
      ∃ t, step finishing = .next t ∧ t.regs.state = .done :=
  ⟨finishing_inv, by decide, rfl, _, rfl, by decide⟩

theorem witness_DecompAlwaysEnds :
    finishing.Inv ∧ finishing.running = some .decomp ∧ finishing.port.queue = [] ∧
      finishing.src.bytes.length < 2 ^ 32 :=
  ⟨finishing_inv, by decide, rfl, by decide⟩

/-- `encoding` with seven literals in the group: the next token is the eighth. -/
def eighth : State :=
  { encoding with cu := { encoding.cu with gptr := 8, gmask := 0x80, gbuf := (Vector.replicate 17 0).set 0 0x7F } }

theorem encoding_groupOk : encoding.cu.GroupOk := ⟨0, by decide, by decide, by decide, by decide, by decide⟩

theorem eighth_groupOk : eighth.cu.GroupOk := ⟨7, by decide, by decide, by decide, by decide, by decide⟩

/-- A token inside a group, and one that ends it; a literal and the references of both boundary counts. -/
theorem witness_TokensGatherInGroupsOfEight :
    (encoding.running = some .comp ∧ encoding.cu.GroupOk ∧ encoding.cu.gmask ≠ 0x80 ∧
        (∃ t, exec (.lit 0x20) encoding = .next t) ∧ (Instr.ref 1 3).WellFormed ∧
        (∃ t, exec (.ref 1 3) encoding = .next t) ∧ (Instr.ref 4095 18).WellFormed ∧
        ∃ t, exec (.ref 4095 18) encoding = .next t) ∧
      eighth.running = some .comp ∧ eighth.cu.GroupOk ∧ eighth.cu.gmask = 0x80 ∧
        (∃ t, exec (.lit 0x20) eighth = .next t) ∧ ∃ t, exec (.ref 1 3) eighth = .next t :=
  ⟨⟨by decide, encoding_groupOk, by decide, ⟨_, rfl⟩, by decide, ⟨_, rfl⟩, by decide, _, rfl⟩, by decide,
    eighth_groupOk, by decide, ⟨_, rfl⟩, _, rfl⟩

/-- With nothing left in the source, and with one byte left. -/
theorem witness_TokensAdvanceTheWindow :
    (encoding.running = some .comp ∧ Memory.wf encoding.win ∧ (∃ t, exec (.lit 0x20) encoding = .next t) ∧
        (Instr.ref 1 3).WellFormed ∧ (∃ t, exec (.ref 1 3) encoding = .next t) ∧
        ∀ j < 17, Memory.read encoding.win (4096 + j) = Memory.read encoding.win j) ∧
      (let s : State := { encoding with src := { encoding.src with bytes := List.replicate 19 0x20 } };
        s.running = some .comp ∧ s.src.unread = [0x20] ∧ (∃ t, exec (.lit 0x20) s = .next t) ∧
          ∃ t, exec (.ref 1 3) s = .next t) :=
  ⟨⟨by decide, by decide, ⟨_, rfl⟩, by decide, ⟨_, rfl⟩, by decide⟩, by decide, by decide, ⟨_, rfl⟩, _, rfl⟩

theorem witness_TokensOfCompLeaveTheRestAlone :
    encoding.running = some .comp ∧ (∃ t, exec (.lit 0x20) encoding = .next t) ∧
      ∃ t, exec (.ref 1 3) encoding = .next t := ⟨by decide, ⟨_, rfl⟩, _, rfl⟩

theorem witness_TokensOfCompComplete :
    encoding.Inv ∧ encoding.running = some .comp ∧ encoding.src.bytes.length < 2 ^ 32 ∧
      encoding.regs.outCount.toNat + 17 < 2 ^ 32 ∧ encoding.cu.len ≠ 0 ∧ (Instr.ref 1 3).WellFormed ∧
      3 ≤ encoding.cu.len.toNat ∧ (Instr.ref 18 18).WellFormed ∧ 18 ≤ encoding.cu.len.toNat :=
  ⟨encoding_inv, by decide, by decide, by decide, by decide, by decide, by decide, by decide, by decide⟩

/-- With no group waiting, and with one. -/
theorem witness_TrailerEndsTheBlock :
    (let s : State := { encoding with cu := { encoding.cu with len := 0 } };
      s.running = some .comp ∧ s.cu.len = 0 ∧ s.cu.GroupOk ∧ s.regs.outCount.toNat + 21 < 2 ^ 32 ∧
        ¬ 1 < s.cu.gptr.toNat) ∧
      (let s : State := { eighth with cu := { eighth.cu with len := 0 } };
        s.running = some .comp ∧ s.cu.len = 0 ∧ s.cu.GroupOk ∧ s.regs.outCount.toNat + 21 < 2 ^ 32 ∧
          1 < s.cu.gptr.toNat) :=
  ⟨⟨by decide, by decide, encoding_groupOk, by decide, by decide⟩, by decide, by decide, eighth_groupOk, by decide,
    by decide⟩

theorem witness_CompOfNothingIsTheTrailerAlone : (idle 0 []).busy = false ∧ (idle 0 []).src.unread = [] := by decide

/-- The premises of the statements about `insert_node` and `delete_node`, and the order they keep. -/
structure FinderOk (o : Config.TreeOrder) (win : List Host.Cell) (f : Finder) : Prop where
  left : Cells.wf Config.nilEntry Config.linkLast f.left
  right : Cells.wf Config.nilEntry Config.rightLast f.right
  parent : Cells.wf Config.nilEntry Config.linkLast f.parent
  tree : f.TreeOk win
  ordered : f.Ordered o win

theorem bare_forest (o : Config.TreeOrder) (win : List Host.Cell) : FinderOk o win bare :=
  ⟨by decide, by decide, by decide, bare_treeOk win, emptyForest_ordered o win⟩

/-- Positions inserted one after another leave a forest in which no other position is a new member. -/
theorem plant_forest {o : Config.TreeOrder} {win : List Host.Cell} {ns : List Cursor} {f g : Finder} (h : FinderOk o win f)
    (nd : ns.Nodup) (nm : ∀ n ∈ ns, ¬ f.Member n.toNat) (e : plant o win ns f = .ok g) : FinderOk o win g := by
  induction ns generalizing f with
  | nil => cases e; exact h
  | cons n ns ih =>
    obtain ⟨f', ef, i⟩ := insertNode_law o win ⟨h.left, h.right, h.parent⟩ h.tree n (nm n (by simp))
    obtain ⟨hn, nd⟩ := List.nodup_cons.1 nd
    simp only [plant, ef, Res.ok_bind] at e
    refine ih ⟨i.canonical.1, i.canonical.2.1, i.canonical.2.2, i.tree, i.ordered h.ordered⟩ nd (fun m hm => ?_) e
    rw [i.member]
    rintro (e | ⟨h, -⟩)
    · exact hn (BitVec.eq_of_toNat_eq e ▸ hm)
    · exact nm m (by simp [hm]) h

/-- The tree of 95 T6, in either order. -/
theorem planted_forest (o : Config.TreeOrder) : ∃ f, plant o letters [100, 200, 300, 400, 500, 600] bare = .ok f ∧
    FinderOk o letters f ∧ f.ml = 1 ∧ f.mp = 100 := by
  cases o <;>
    exact ⟨_, rfl, plant_forest (ns := [100, 200, 300, 400, 500, 600]) (bare_forest _ _) (by decide)
      (fun n _ => bare_member _) rfl, rfl, rfl⟩

/-- Into an empty forest, and the first key of the tree again, which replaces it. -/
theorem witness_InsertNodeKeepsTheForest (o : Config.TreeOrder) :
    (FinderOk o letters bare ∧ ¬ bare.Member (100 : Cursor).toNat) ∧
      ∃ f g, FinderOk o letters f ∧ ¬ f.Member (800 : Cursor).toNat ∧ insertNode o letters 800 f = .ok g ∧ g.ml = 18 ∧
        f.Member g.mp.toNat := by
  refine ⟨⟨bare_forest o _, bare_member _⟩, ?_⟩
  obtain ⟨f, e, h, -⟩ := planted_forest o
  cases o <;> cases e <;> exact ⟨_, _, h, fun h => h.2 (by decide), rfl, by decide, by decide, by decide⟩

/-- A first position, which meets nothing; a second one, which meets one candidate; 95 T12, where the longest match is not
the first candidate met. -/
theorem witness_InsertNodeReportsATrueMatch (o : Config.TreeOrder) :
    (FinderOk o letters bare ∧ ¬ bare.Member (100 : Cursor).toNat ∧
        ∃ g, insertNode o letters 100 bare = .ok g ∧ g.ml = 0) ∧
      ∃ f g, FinderOk o letters f ∧ ¬ f.Member (800 : Cursor).toNat ∧ insertNode o letters 800 f = .ok g ∧ g.ml ≠ 0 ∧
        g.mp = 300 ∧ f.Met o letters 800 0 100 ∧ f.Met o letters 800 1 300 ∧ ∃ m, f.Member m := by
  refine ⟨⟨bare_forest o _, bare_member _, by cases o <;> exact ⟨_, rfl, rfl⟩⟩, ?_⟩
  obtain ⟨f, e, h, -⟩ := planted_forest o
  cases o <;> cases e <;>
    refine ⟨_, _, h, fun h => h.2 (by decide), rfl, by decide, by decide, .top (by decide), ?_, 300, by decide, by decide⟩
  · exact .right 0 100 (.top (by decide)) ⟨1, by decide, by decide, by decide⟩ (by decide)
  · exact .left 0 100 (.top (by decide)) ⟨1, by decide, by decide, by decide⟩ (by decide)

/-- A member with two children, and a position that is no member. -/
theorem witness_DeleteNodeKeepsTheForest (o : Config.TreeOrder) :
    ∃ f, FinderOk o letters f ∧ f.Member (100 : Cursor).toNat ∧ f.leftAt 100 ≠ Config.nil ∧ f.rightAt 100 ≠ Config.nil ∧
      ¬ f.Member (700 : Cursor).toNat := by
  obtain ⟨f, e, h, -⟩ := planted_forest o
  cases o <;> cases e <;>
    exact ⟨_, h, ⟨by decide, by decide⟩, by decide, by decide, fun h => h.2 (by decide)⟩

/-- For the statements about every step, `EveryStepKeepsStorageCanonical` to `EveryStepKeepsTheInvariants`, and for
`NoStepFaults`: a `DECOMP` that ends, a `COMP` that goes on, both with all the invariants. -/
theorem witness_EveryStepKeepsTheInvariants :
    (finishing.Inv ∧ ∃ t, step finishing = .next t) ∧ encoding.Inv ∧ ∃ t, step encoding = .next t :=
  ⟨⟨finishing_inv, _, rfl⟩, encoding_inv, _, rfl⟩

theorem witness_TheBlockNeverWritesItsOperands :
    encoding.port.queue = [] ∧ (∃ t, step encoding = .next t) ∧ finishing.port.queue = [] ∧
      ∃ t, step finishing = .next t := ⟨rfl, ⟨_, rfl⟩, rfl, _, rfl⟩

theorem witness_OutputIsVisibleOnlyWhenDone :
    finishing.StatusOk ∧ ∃ t, step finishing = .next t ∧ t.snk.committed ≠ finishing.snk.committed :=
  ⟨finishing_inv.status, _, rfl, by decide⟩

/-- `BUSY` is left, and `FAILED` is left. -/
theorem witness_OnlyTheseEventsLeaveBusyAndFailed :
    (∃ t, step finishing = .next t ∧ finishing.regs.state = .busy ∧ t.regs.state ≠ .busy) ∧
      (let s := ((busyWith 3 0 []).failedWith .truncated 0).withQueue [.write .cmd 0];
        ∃ t, step s = .next t ∧ s.regs.state = .failed ∧ t.regs.state ≠ .failed) :=
  ⟨⟨_, rfl, by decide, by decide⟩, _, rfl, by decide, by decide⟩

/-- Two blocks that differ in all that an earlier operation left. -/
theorem witness_OperationsDependOnlyOnTheirOperands :
    let s1 := idle 300 [7]
    let s2 : State := { (busyWith 2 300 [9, 7]).doneWith 5 with src := { bytes := [9, 7], pos := 1, eos := false } }
    s1.busy = false ∧ s2.busy = false ∧ s1.regs.signed = s2.regs.signed ∧ s1.regs.arg = s2.regs.arg ∧
      s1.src.unread = s2.src.unread ∧ ∃ t, Reaches (2 + 1) (s1.withQueue [.write .cmd 1]) t :=
  ⟨rfl, rfl, rfl, rfl, rfl, _, rfl⟩

theorem witness_CompAlwaysCommitsABlock :
    let s := idle 0 [0x61, 0x62, 0x63]
    s.StatusOk ∧ s.busy = false ∧ s.src.bytes.length < 2 ^ 32 ∧
      s.src.unread.length + (s.src.unread.length + 7) / 8 + 4 < 2 ^ 32 :=
  ⟨⟨by decide, fun h => absurd h (by decide), fun _ => by decide, by decide, by decide⟩, by decide, by decide, by decide⟩

/-- 95 C15: three spaces are the block `00 12 00 60 00 00 00`. -/
theorem witness_DecompUndoesComp :
    let s := idle 0 [0x20, 0x20, 0x20]
    let u := idle 3 [0x00, 0x12, 0x00, 0x60, 0x00, 0x00, 0x00, 0x99]
    (s.StatusOk ∧ s.busy = false ∧ s.src.bytes.length < 2 ^ 32 ∧
        s.src.unread.length + (s.src.unread.length + 7) / 8 + 4 < 2 ^ 32) ∧
      (∃ t, Reaches 3 (s.withQueue [.write .cmd 5]) t ∧ t.regs.state = .done ∧
        t.snk.committed = s.snk.committed ++ [0x00, 0x12, 0x00, 0x60, 0x00, 0x00, 0x00]) ∧
      u.busy = false ∧ u.regs.signed = s.regs.signed ∧ u.regs.arg.toNat = s.src.unread.length ∧
        u.src.unread = [0x00, 0x12, 0x00, 0x60, 0x00, 0x00, 0x00] ++ [0x99] :=
  ⟨⟨⟨by decide, fun h => absurd h (by decide), fun _ => by decide, by decide, by decide⟩, by decide, by decide,
      by decide⟩, ⟨_, rfl, by decide, by decide⟩, by decide, by decide, by decide, by decide⟩

/-- "abc": no three bytes occur twice in it and the spaces before it. -/
theorem witness_IncompressibleDataGrowsByItsFlags :
    let s := idle 0 [0x61, 0x62, 0x63]
    s.StatusOk ∧ s.busy = false ∧ s.src.bytes.length < 2 ^ 32 ∧
      s.src.unread.length + (s.src.unread.length + 7) / 8 + 4 < 2 ^ 32 ∧
      ∀ i j : Nat, i < j → j ≤ s.src.unread.length →
        (([0x20, 0x20, 0x20] ++ s.src.unread : List Byte).drop i).take 3 ≠
          (([0x20, 0x20, 0x20] ++ s.src.unread : List Byte).drop j).take 3 := by
  refine ⟨witness_CompAlwaysCommitsABlock.1, by decide, by decide, by decide, ?_⟩
  have : ∀ j ≤ 3, ∀ i < j, (([0x20, 0x20, 0x20, 0x61, 0x62, 0x63] : List Byte).drop i).take 3 ≠
      (([0x20, 0x20, 0x20, 0x61, 0x62, 0x63] : List Byte).drop j).take 3 := by decide
  exact fun i j h1 h2 => this j h2 i h1

end Sys2Proof.Tests
end

section
/-! What every step keeps (10_state R18 to R35, 20_memory R39 to R47, 41_decompress R93, 42_compress R113 to R115,
43_match_finder R123): first what the parts of a step keep, then each invariant of Safety.lean, then all of them at
once; at the end two statements about the host's registers (10_state R17, R19). -/
namespace Sys2Proof.Machine

/-! ## The parts of a step of the block -/

/-- A property that every part of a step of the block keeps: a change of the decompression and varint units, the reads
and writes of the streams, an emission, a change of the group or of `ML`, an advance of the window. -/
structure KeptByParts (motive : State → Prop) : Prop where
  units : ∀ (s : State) (du : DU) (vu : VU) (vwrap : Bool), motive s →
    motive { s with du := du, vu := vu, regs := { s.regs with vwrap := vwrap } }
  read : ∀ (s : State) (n : Nat), motive s → s.regs.inCount.toNat + n < 2 ^ 32 → n ≤ s.src.unread.length →
    motive (s.afterReading n)
  latch : ∀ s : State, motive s → s.src.unread = [] → motive { s with src := { s.src with eos := true } }
  write : ∀ (s : State) (b : Byte), motive s → s.regs.outCount.toNat + 1 < 2 ^ 32 → motive (s.afterWriting [b])
  emit : ∀ (s : State) (b : Byte), motive s → s.regs.outCount.toNat + 1 < 2 ^ 32 → motive (s.emitted b)
  group : ∀ (s : State) (gbuf : Vector Byte 17) (gptr : BitVec 5) (gmask : Byte), motive s →
    motive (s.withGroup gbuf gptr gmask)
  matchLength : ∀ (s : State) (ml : BitVec 5), motive s → motive (s.withFinder { s.cu.finder with ml := ml })
  advance : ∀ s t : State, motive s → advanceStep Config.treeOrder s = .ok t → motive t

/-- How a step of the block leaves the operation, `u` being the state its parts come to: it goes on, it is done, or it
has failed with an error kind (60_exceptions R134). -/
inductive State.Leaves (u : State) : State → Prop
  | goesOn : u.Leaves u
  | done (v : Word) : u.Leaves (u.doneWith v)
  | failed (k : ErrKind) (info : Word) : k ≠ .none → u.Leaves (u.failedWith k info)

/-- A source that ends inside an element: what there was is read, then the latch is set (20_memory R40). -/
theorem State.afterReadUpTo_short {s : State} {k : Nat} (h : s.src.unread.length < k) :
    s.afterReadUpTo k = { s.afterReading s.src.unread.length with
      src := { (s.afterReading s.src.unread.length).src with eos := true } } := by
  simp only [State.afterReadUpTo, List.take_of_length_le (Nat.le_of_lt h), h, decide_true, Bool.or_true]
  rfl

section Parts
variable {motive : State → Prop} (parts : KeptByParts motive)
include parts

theorem KeptByParts.accumulate (p : BitVec 7) {s : State} (hs : motive s) : motive (accumulate p s) := by
  unfold Machine.accumulate
  split
  · exact parts.units s s.du _ _ hs
  · exact parts.units s s.du s.vu _ hs

theorem KeptByParts.flagTaken {s : State} (hs : motive s) : motive s.flagTaken :=
  parts.units s _ s.vu s.regs.vwrap hs

theorem KeptByParts.clamped {s : State} (hs : motive s) : motive s.clamped :=
  parts.matchLength s _ hs

theorem KeptByParts.copyRun {src : Cursor} {count : Nat} {s t : State} (hs : motive s)
    (h : copyRun src count s = .ok t) : motive t := by
  induction count generalizing src s with
  | zero => exact Except.ok.inj h ▸ hs
  | succ k ih =>
    simp only [Machine.copyRun, Res.bind_eq_ok] at h
    obtain ⟨s1, h1, h2⟩ := h
    obtain ⟨hc, rfl⟩ := emit_cases h1
    exact ih (parts.emit s _ hs hc) h2

theorem KeptByParts.afterReadUpTo_short {s : State} {k : Nat} (hs : motive s) (hl : s.src.unread.length < k)
    (hc : s.regs.inCount.toNat + s.src.unread.length < 2 ^ 32) : motive (s.afterReadUpTo k) := by
  rw [State.afterReadUpTo_short hl]
  exact parts.latch _ (parts.read s _ hs hc (Nat.le_refl _)) (by simp)

theorem KeptByParts.selects {s s1 : State} {sel : Select} (hs : motive s) (h : s.Selects sel s1) :
    motive s1 ∧ s1.src = s.src ∧ s1.regs = s.regs := by
  rcases h with ⟨_, _, rfl⟩ | ⟨_, ⟨_, _, rfl⟩ | ⟨_, _, _, rfl⟩ | ⟨_, _, _, rfl⟩⟩
  · exact ⟨hs, rfl, rfl⟩
  · exact ⟨hs, rfl, rfl⟩
  · exact ⟨hs, rfl, rfl⟩
  · exact ⟨parts.flagTaken hs, rfl, rfl⟩

/-- What the parts keep, a step of the block keeps up to the end of the operation. -/
theorem KeptByParts.blockStep {s t : State} (hs : motive s) (h : BlockStep s t) : ∃ u, motive u ∧ u.Leaves t := by
  cases h with
  | vencMore _ _ hc => exact ⟨_, parts.units _ s.du _ s.regs.vwrap (parts.write s _ hs hc), .goesOn⟩
  | vencLast _ _ hc => exact ⟨_, parts.write s _ hs hc, .done _⟩
  | vdecMore p _ hc hl => exact ⟨_, parts.accumulate p (parts.read s 1 hs hc hl), .goesOn⟩
  | vdecLast p _ hc hl => exact ⟨_, parts.accumulate p (parts.read s 1 hs hc hl), .done _⟩
  | truncated s1 sel hsel hl hc =>
    obtain ⟨h1, hsrc, hregs⟩ := parts.selects hs hsel
    exact ⟨_, parts.afterReadUpTo_short h1 (hsrc ▸ hl) (hregs ▸ hsrc ▸ hc), .failed _ _ (by decide)⟩
  | flag f _ _ _ hc hl => exact ⟨_, parts.units _ _ s.vu s.regs.vwrap (parts.read s 1 hs hc hl), .goesOn⟩
  | lit d _ _ _ _ hc ht ho =>
    have hl : 1 ≤ s.src.unread.length := by
      have := congrArg List.length ht
      simp at this
      omega
    exact ⟨_, parts.emit _ d (parts.read _ 1 (parts.flagTaken hs) hc hl) ho, .goesOn⟩
  | ref _ _ _ _ _ _ _ hc hl _ _ _ _ h =>
    exact ⟨t, parts.copyRun (parts.read _ 2 (parts.flagTaken hs) hc hl) h, .goesOn⟩
  | overflow count _ _ _ hc hl _ =>
    exact ⟨_, parts.read _ 2 (parts.flagTaken hs) hc hl, .failed _ _ (by decide)⟩
  | trailerRight _ _ hc hl => exact ⟨_, parts.read s 4 hs hc hl, .done _⟩
  | trailerWrong w _ _ hc hl => exact ⟨_, parts.read s 4 hs hc hl, .failed _ _ (by decide)⟩
  | compLit _ _ _ _ h =>
    exact ⟨t, cuLit_keeps motive parts.group parts.write (fun u => parts.matchLength u 1) parts.advance
      (parts.clamped hs) h, .goesOn⟩
  | compRef _ _ _ _ h =>
    exact ⟨t, cuRef_keeps motive parts.group parts.write parts.advance (parts.clamped hs) h, .goesOn⟩
  | compTrailer _ _ _ h =>
    obtain ⟨u, hu, rfl⟩ := cuTrailer_keeps motive parts.write hs h
    exact ⟨u, hu, .done _⟩

end Parts

/-! ## What an accepted command leaves running -/

theorem commandStep_vdec {s t : State} (h : CommandStep s t) (hr : t.running = some .vdec) :
    t = { s.started 3 with vu := { s.vu with vacc := 0, vidx := 0 } } := by
  cases h with
  | vdec => rfl
  | _ => cases hr

theorem commandStep_decomp {s t : State} (h : CommandStep s t) (hr : t.running = some .decomp) :
    t = duInit (s.started 4) := by
  cases h with
  | decomp => rfl
  | _ => cases hr

/-- The state after the setup of a `COMP` that found `win` and `f` (42_compress R103, R104). -/
abbrev State.setUp (s : State) (win : List Host.Cell) (f : Finder) : State :=
  ((cuInit (s.started 5)).loaded (s.src.unread.take 18) (decide (s.src.unread.length < 18)) win).withFinder f

/-- What the setup of a `COMP` leaves in the window and in the match finder. -/
structure State.SetUpOk (s : State) (win : List Host.Cell) (f : Finder) : Prop where
  window : ∀ a, Memory.read win a = if 4078 ≤ a then (s.src.unread.take 18).getD (a - 4078) 0x20 else 0x20
  walk : (s.setUp win f).WalkOk Config.treeOrder
  matchLength : f.ml.toNat ≤ 18
  found : s.src.unread ≠ [] → (s.setUp win f).Retained ∧ (s.setUp win f).LongestMatch

theorem commandStep_comp {s t : State} (h : CommandStep s t) (hr : t.running = some .comp) :
    ∃ win f, s.SetUpOk win f ∧ t = s.setUp win f := by
  cases h with
  | comp win f _ hw hwalk hml hfound => exact ⟨win, f, ⟨hw, hwalk, hml, hfound⟩, rfl⟩
  | _ => cases hr

/-! ## Storage -/

theorem State.storageOk_iff (s : State) : s.StorageOk ↔ Memory.wf s.win ∧ s.cu.finder.Canonical := Iff.rfl

theorem advanceStep_storageOk {o : Config.TreeOrder} {s t : State} (hs : s.StorageOk) (h : advanceStep o s = .ok t) :
    t.StorageOk := by
  obtain ⟨hw, hc⟩ := s.storageOk_iff.1 hs
  rcases advanceStep_cases h with ⟨b, f, g, _, _, hf, hg, rfl⟩ | ⟨f, g, _, hf, hg, rfl⟩
  · exact ⟨windowAfter_wf hw _ _, (insertNode_keeps (deleteNode_keeps hc hf).1 hg).1⟩
  · refine ⟨hw, ?_⟩
    split at hg
    · exact hg ▸ (deleteNode_keeps hc hf).1
    · exact (insertNode_keeps (deleteNode_keeps hc hf).1 hg).1

theorem State.emitted_wf {s : State} (b : Byte) (h : Memory.wf s.win) : Memory.wf (s.emitted b).win :=
  Memory.write_wf _ _ _ (by have := s.curR.isLt; simp only [Config.winLast]; omega) h

theorem keptByParts_storageOk : KeptByParts State.StorageOk where
  units _ _ _ _ h := h
  read _ _ h _ _ := h
  latch _ h _ := h
  write _ _ h _ := h
  emit s b h _ := ⟨s.emitted_wf b h.1, h.2⟩
  group _ _ _ _ h := h
  matchLength _ _ h := h
  advance _ _ h ha := advanceStep_storageOk h ha

theorem commandStep_storageOk {s t : State} (hs : s.StorageOk) (h : CommandStep s t) : t.StorageOk := by
  cases h with
  | decomp => exact ⟨Memory.nil_wf, hs.2⟩
  | comp win f _ _ hwalk => exact ⟨hwalk.window, hwalk.canonical⟩
  | _ => exact hs

theorem storageOk_reset : State.reset.StorageOk :=
  ⟨Memory.nil_wf, Cells.nil_wf _ _, Cells.nil_wf _ _, Cells.nil_wf _ _⟩

theorem step_keeps_storageOk {s t : State} (hs : s.StorageOk) (h : step s = .next t) : t.StorageOk :=
  step_keeps State.StorageOk (fun _ _ h => h)
    (fun s t hs _ h => by
      obtain ⟨u, hu, hl⟩ := keptByParts_storageOk.blockStep hs h
      cases hl <;> exact hu)
    (fun _ _ hs _ h => commandStep_storageOk hs h) (fun _ _ h _ => h) (fun _ _ h _ => h) (fun _ _ => storageOk_reset)
    (fun _ _ h _ => h) hs h

/-! ## Status and streams -/

/-- The source stands in its range, at its end once the latch is set (20_memory R39, R40). -/
def Source.InRange (src : Source) : Prop :=
  src.pos ≤ src.bytes.length ∧ (src.eos = true → src.pos = src.bytes.length)

/-- `StatusOk` of a block that runs an operation. -/
structure State.StreamsOk (s : State) : Prop where
  runs : s.running ≠ none
  err : s.regs.err = .none
  result : s.regs.result = 0
  pending : s.snk.pending.length = s.regs.outCount.toNat
  inCount : s.regs.inCount.toNat ≤ s.src.pos
  source : s.src.InRange

theorem State.busy_of_runs {s : State} (h : s.running ≠ none) : s.busy = true := by
  cases hb : s.busy with
  | true => rfl
  | false => exact absurd (State.running_of_not_busy hb) h

theorem State.StatusOk.streamsOk {s : State} (h : s.StatusOk) (hb : s.busy = true) : s.StreamsOk := by
  obtain ⟨herr, hbusy, -, hsrc⟩ := h
  obtain ⟨hruns, hres, hpend, hin⟩ := hbusy hb
  refine ⟨hruns, ?_, hres, hpend, hin, hsrc⟩
  have hstate := s.busy_iff.1 hb
  by_contra he
  have := herr.1 he
  rw [hstate] at this
  cases this

theorem State.StreamsOk.statusOk {s : State} (h : s.StreamsOk) : s.StatusOk := by
  have hb := State.busy_of_runs h.runs
  refine ⟨by simp [h.err, s.busy_iff.1 hb], fun _ => ⟨h.runs, h.result, h.pending, h.inCount⟩, fun hn => ?_, h.source⟩
  rw [hb] at hn
  cases hn

/-- `StatusOk` of a block that runs nothing. -/
theorem State.statusOk_of_not_busy {s : State} (hb : s.busy = false) (he : s.regs.err ≠ .none ↔ s.regs.state = .failed)
    (hp : s.snk.pending = []) (hsrc : s.src.InRange) : s.StatusOk :=
  ⟨he, fun h => absurd (hb.symm.trans h) Bool.false_ne_true, fun _ => hp, hsrc⟩

theorem State.StreamsOk.leaves {u t : State} (h : u.StreamsOk) (hl : u.Leaves t) : t.StatusOk := by
  cases hl with
  | goesOn => exact h.statusOk
  | done v => exact State.statusOk_of_not_busy rfl (by simp [State.doneWith, h.err]) rfl h.source
  | failed k info hk => exact State.statusOk_of_not_busy rfl (by simp [State.failedWith, hk]) rfl h.source

theorem Source.unread_length (src : Source) : src.unread.length = src.bytes.length - src.pos := by
  simp [Source.unread]

theorem keptByParts_streamsOk : KeptByParts State.StreamsOk where
  units _ _ _ _ h := ⟨h.runs, h.err, h.result, h.pending, h.inCount, h.source⟩
  read s n h hc hn := by
    obtain ⟨hpos, heos⟩ := h.source
    rw [Source.unread_length] at hn
    refine ⟨h.runs, h.err, h.result, h.pending, ?_, ?_, fun e => ?_⟩
    · rw [State.afterReading_inCount hc]
      exact Nat.add_le_add_right h.inCount n
    · change s.src.pos + n ≤ s.src.bytes.length
      omega
    · have := heos e
      change s.src.pos + n = s.src.bytes.length
      omega
  latch s h hu := by
    have hlen := s.src.unread_length
    rw [hu, List.length_nil] at hlen
    have := h.source.1
    have hend : s.src.pos = s.src.bytes.length := by omega
    exact ⟨h.runs, h.err, h.result, h.pending, h.inCount, this, fun _ => hend⟩
  write s b h hc := by
    refine ⟨h.runs, h.err, h.result, ?_, h.inCount, h.source⟩
    rw [State.afterWriting_outCount (by simpa using hc), ← h.pending]
    simp [State.afterWriting]
  emit s b h hc := by
    refine ⟨h.runs, h.err, h.result, ?_, h.inCount, h.source⟩
    rw [State.emitted_outCount hc, ← h.pending]
    simp [State.emitted]
  group _ _ _ _ h := ⟨h.runs, h.err, h.result, h.pending, h.inCount, h.source⟩
  matchLength _ _ h := ⟨h.runs, h.err, h.result, h.pending, h.inCount, h.source⟩
  advance s t h ha := by
    obtain ⟨hpos, heos⟩ := h.source
    rcases advanceStep_cases ha with ⟨b, f, g, hb, hc, _, _, rfl⟩ | ⟨f, g, hb, _, _, rfl⟩
    · have hlt := (List.getElem?_eq_some_iff.1 hb).1
      refine ⟨h.runs, h.err, h.result, h.pending, ?_, hlt, fun e => ?_⟩
      · change (s.afterReading 1).regs.inCount.toNat ≤ s.src.pos + 1
        rw [State.afterReading_inCount hc]
        exact Nat.add_le_add_right h.inCount 1
      · have := heos e
        omega
    · have hge := List.getElem?_eq_none_iff.1 hb
      exact ⟨h.runs, h.err, h.result, h.pending, h.inCount, hpos, fun _ => Nat.le_antisymm hpos hge⟩

theorem State.StreamsOk.setUp {s : State} {win : List Host.Cell} {f : Finder} (h : s.src.InRange) :
    (s.setUp win f).StreamsOk := by
  obtain ⟨hpos, heos⟩ := h
  have hlen := s.src.unread_length
  have hin : ((0 : Word) + BitVec.ofNat 32 (s.src.unread.take 18).length).toNat = (s.src.unread.take 18).length := by
    simp
  refine ⟨nofun, rfl, rfl, rfl, ?_, ?_, fun e => ?_⟩
  · change ((0 : Word) + BitVec.ofNat 32 (s.src.unread.take 18).length).toNat ≤ s.src.pos + _
    rw [hin]
    exact Nat.le_add_left _ _
  · change s.src.pos + (s.src.unread.take 18).length ≤ s.src.bytes.length
    simp only [List.length_take]
    omega
  · change s.src.pos + (s.src.unread.take 18).length = s.src.bytes.length
    change (s.src.eos || decide (s.src.unread.length < 18)) = true at e
    simp only [List.length_take]
    rcases Bool.or_eq_true _ _ |>.mp e with e | e
    · have := heos e
      omega
    · have := of_decide_eq_true e
      omega

theorem commandStep_statusOk {s t : State} (hs : s.StatusOk) (h : CommandStep s t) : t.StatusOk := by
  have ⟨_, _, _, hsrc⟩ := hs
  cases h with
  | nop => exact State.statusOk_of_not_busy rfl (by simp [State.started]) rfl hsrc
  | vlen vv n => exact State.statusOk_of_not_busy rfl (by simp [State.started, State.doneWith]) rfl hsrc
  | reserved w _ => exact State.statusOk_of_not_busy rfl (by simp [State.failedWith]) rfl hsrc
  | venc => exact State.StreamsOk.statusOk ⟨nofun, rfl, rfl, rfl, Nat.zero_le _, hsrc⟩
  | vdec => exact State.StreamsOk.statusOk ⟨nofun, rfl, rfl, rfl, Nat.zero_le _, hsrc⟩
  | decomp => exact State.StreamsOk.statusOk ⟨nofun, rfl, rfl, rfl, Nat.zero_le _, hsrc⟩
  | comp win f => exact (State.StreamsOk.setUp hsrc).statusOk

theorem step_keeps_statusOk {s t : State} (hs : s.StatusOk) (h : step s = .next t) : t.StatusOk :=
  step_keeps State.StatusOk (fun _ _ h => h)
    (fun s t hs hb h => by
      obtain ⟨u, hu, hl⟩ := keptByParts_streamsOk.blockStep (hs.streamsOk hb) h
      exact hu.leaves hl)
    (fun _ _ hs _ h => commandStep_statusOk hs h) (fun _ _ h _ => h) (fun _ _ h _ => h)
    (fun s ⟨_, _, _, hsrc⟩ => State.statusOk_of_not_busy rfl (by simp [Regs.reset]) rfl hsrc)
    (fun s bytes ⟨he, _, hp, _⟩ hb => State.statusOk_of_not_busy hb he (hp hb) ⟨Nat.zero_le _, nofun⟩) hs h

/-! ## Invariants of a running operation -/

/-- An invariant that speaks of the operation `op` alone, under a premise `Pre` on every state, is kept by every step
when it is kept by the steps of the block that go on with `op`, and met where a command starts `op`. -/
theorem step_keeps_while (op : Operation) {Pre Inv : State → Prop} (vacuous : ∀ s, s.running ≠ some op → Inv s)
    (portPre : ∀ (s : State) (p : Port), Pre s → Pre { s with port := p })
    (port : ∀ (s : State) (p : Port), Inv s → Inv { s with port := p })
    (block : ∀ s t, Pre s → Inv s → s.running = some op → BlockStep s t → t.running = some op → Inv t)
    (command : ∀ s t, Pre s → CommandStep s t → t.running = some op → Inv t)
    {s t : State} (hp : Pre s) (hs : Inv s) (h : step s = .next t) : Inv t := by
  have idle : ∀ u : State, u.busy = false → Inv u := fun u hb =>
    vacuous u (by rw [State.running_of_not_busy hb]; nofun)
  cases step_cases h with
  | port p => exact port s p hs
  | block p t _ _ hst =>
    by_cases hr : t.running = some op
    · have hrs : ({ s with port := p } : State).running = some op := by
        rcases blockStep_running hst with e | e
        · exact e ▸ hr
        · rw [e] at hr
          cases hr
      exact block _ t (portPre s p hp) (port s p hs) hrs hst hr
    · exact vacuous t hr
  | command w rest t _ _ hc =>
    by_cases hr : t.running = some op
    · exact command _ t (portPre s _ hp) hc hr
    · exact vacuous t hr
  | mode v p hb => exact idle _ hb
  | arg v p hb => exact idle _ hb
  | reset p _ => exact idle _ rfl
  | attach bytes p hb => exact idle _ hb

/-! ## VDEC -/

/-- The group index never passes 5 (40_varint R83). -/
theorem accumulate_vidx_le (p : BitVec 7) {s : State} (h : s.vu.vidx ≤ 5) : (accumulate p s).vu.vidx ≤ 5 := by
  unfold accumulate
  split
  · rename_i hlt
    change s.vu.vidx + 1 ≤ 5
    bv_omega
  · exact h

/-- A `VDEC` goes on by accumulating the byte read (40_varint R81). -/
theorem blockStep_vdec {s t : State} (h : BlockStep s t) (hs : s.running = some .vdec) (ht : t.running = some .vdec) :
    ∃ p, t = accumulate p (s.afterReading 1) := by
  have other : ∀ {op}, op ≠ .vdec → s.running ≠ some op := fun hn h => running_ne h hn hs
  clear hs
  replace ht : t.running ≠ none := by simp [ht]
  cases h with
  | vdecMore p => exact ⟨p, rfl⟩
  | vdecLast => exact absurd rfl ht
  | truncated => exact absurd rfl ht
  | _ => exact absurd ‹s.running = some _› (other (by decide))

theorem step_keeps_vdecOk {s t : State} (hs : s.VdecOk) (h : step s = .next t) : t.VdecOk :=
  step_keeps_while .vdec (Pre := fun _ => True) (fun _ hn hr => absurd hr hn) (fun _ _ h => h) (fun _ _ h => h)
    (fun s t _ hs hr hst ht _ => by
      obtain ⟨p, rfl⟩ := blockStep_vdec hst hr ht
      obtain ⟨hout, hcsum, hidx⟩ := hs hr
      exact ⟨(accumulate_outCount p _).trans hout, (accumulate_csum p _).trans hcsum, accumulate_vidx_le p hidx⟩)
    (fun s t _ hc hr _ => by
      rw [commandStep_vdec hc hr]
      exact ⟨rfl, rfl, (by decide : (0 : BitVec 3) ≤ 5)⟩) trivial hs h

/-! ## DECOMP -/

/-- A `DECOMP` goes on by loading a flag byte, or by emitting the bytes of a token within the budget (41_decompress R89,
R91, R92). -/
theorem blockStep_decomp {s t : State} (h : BlockStep s t) (hs : s.running = some .decomp)
    (ht : t.running = some .decomp) :
    (∃ f, t = loadFlags f (s.afterReading 1)) ∨
      ∃ (n : Nat) (bs : List Byte), s.du.fcnt ≠ 0 ∧ bs.length ≤ s.du.rem.toNat ∧
        t = bs.foldl State.emitted (s.flagTaken.afterReading n) := by
  have other : ∀ {op}, op ≠ .decomp → s.running ≠ some op := fun hn h => running_ne h hn hs
  clear hs
  replace ht : t.running ≠ none := by simp [ht]
  cases h with
  | flag f => exact .inl ⟨f, rfl⟩
  | lit d _ hrem hf =>
    refine .inr ⟨1, [d], hf, ?_, rfl⟩
    have : s.du.rem.toNat ≠ 0 := fun e => hrem (BitVec.eq_of_toNat_eq e)
    exact Nat.pos_of_ne_zero this
  | ref _ _ _ _ _ hf _ _ _ _ _ hle _ hcopy =>
    obtain ⟨bs, hl, rfl⟩ := copyRun_cases hcopy
    exact .inr ⟨2, bs, hf, hl ▸ hle, rfl⟩
  | truncated => exact absurd rfl ht
  | overflow => exact absurd rfl ht
  | trailerRight => exact absurd rfl ht
  | trailerWrong => exact absurd rfl ht
  | _ => exact absurd ‹s.running = some _› (other (by decide))

/-- The counters of a `DECOMP`, whatever runs. -/
def State.CountersOk (s : State) : Prop :=
  s.regs.outCount.toNat + s.du.rem.toNat = s.sampled.arg.toNat ∧ s.du.fcnt ≤ 8 ∧
    s.regs.csum = checksum s.sampled.signed s.snk.pending ∧
    s.curR = Config.cursorInit + BitVec.ofNat 12 s.regs.outCount.toNat

theorem State.CountersOk.flagTaken {s : State} (h : s.CountersOk) (hf : s.du.fcnt ≠ 0) : s.flagTaken.CountersOk := by
  obtain ⟨hcount, hfcnt, hcsum, hcur⟩ := h
  refine ⟨hcount, ?_, hcsum, hcur⟩
  change s.du.fcnt - 1 ≤ 8
  bv_omega

/-- A byte emitted within the budget keeps the counters (41_decompress R93). -/
theorem State.CountersOk.emitted {s : State} (h : s.CountersOk) (hrem : 1 ≤ s.du.rem.toNat) (b : Byte) :
    (s.emitted b).CountersOk ∧ (s.emitted b).du.rem.toNat + 1 = s.du.rem.toNat := by
  obtain ⟨hcount, hfcnt, hcsum, hcur⟩ := h
  have hout : (s.emitted b).regs.outCount.toNat = s.regs.outCount.toNat + 1 :=
    State.emitted_outCount (by have := s.sampled.arg.isLt; omega)
  have hr : (s.emitted b).du.rem.toNat + 1 = s.du.rem.toNat := by
    change (s.du.rem - 1).toNat + 1 = _
    bv_omega
  have harg : (s.emitted b).sampled = s.sampled := rfl
  refine ⟨⟨by rw [hout, harg]; omega, hfcnt, ?_, ?_⟩, hr⟩
  · change csumAdd s.sampled.signed s.regs.csum b = checksum s.sampled.signed (s.snk.pending ++ [b])
    rw [hcsum]
    simp [checksum]
  · change s.curR + 1 = _
    rw [hout, hcur, BitVec.ofNat_add, BitVec.add_assoc]
    rfl

theorem State.CountersOk.emittedAll {s : State} (bs : List Byte) (h : s.CountersOk) (hl : bs.length ≤ s.du.rem.toNat) :
    (bs.foldl State.emitted s).CountersOk := by
  induction bs generalizing s with
  | nil => exact h
  | cons b rest ih =>
    rw [List.length_cons] at hl
    obtain ⟨h1, hr⟩ := h.emitted (by omega) b
    exact ih h1 (by omega)

theorem step_keeps_decompOk {s t : State} (hs : s.DecompOk) (h : step s = .next t) : t.DecompOk :=
  step_keeps_while .decomp (Pre := fun _ => True) (fun _ hn hr => absurd hr hn) (fun _ _ h => h) (fun _ _ h => h)
    (fun s t _ hs hr hst ht _ => by
      have hc : s.CountersOk := hs hr
      rcases blockStep_decomp hst hr ht with ⟨f, rfl⟩ | ⟨n, bs, hf, hl, rfl⟩
      · obtain ⟨hcount, -, hcsum, hcur⟩ := hc
        exact ⟨hcount, (by decide : (8 : BitVec 4) ≤ 8), hcsum, hcur⟩
      · exact State.CountersOk.emittedAll (s := s.flagTaken.afterReading n) bs (hc.flagTaken hf) hl)
    (fun s t _ hc hr _ => by
      rw [commandStep_decomp hc hr]
      exact ⟨Nat.zero_add _, (by decide : (0 : BitVec 4) ≤ 8), rfl, rfl⟩) trivial hs h

/-! ### The dictionary -/

/-- A canonical window that holds the last bytes emitted (10_state R25), whatever runs. -/
def State.DictionaryOk (s : State) : Prop :=
  Memory.wf s.win ∧
    ∀ k < 4096, s.winAt (s.curR - 1 - BitVec.ofNat 12 k) = s.snk.pending.reverse.getD k Config.fill

/-- The byte emitted comes first behind the cursor, and those before it move on by one place (41_decompress R93). -/
theorem State.DictionaryOk.emitted {s : State} (h : s.DictionaryOk) (b : Byte) : (s.emitted b).DictionaryOk := by
  obtain ⟨hw, hd⟩ := h
  have hread : ∀ a, (s.emitted b).winAt a = if a = s.curR then b else s.winAt a :=
    Memory.read_write_cursor hw s.curR b
  have hcur : (s.emitted b).curR = s.curR + 1 := rfl
  have hrev : (s.emitted b).snk.pending.reverse = b :: s.snk.pending.reverse := by simp [State.emitted]
  refine ⟨s.emitted_wf b hw, fun k hk => ?_⟩
  rw [hread, hcur, hrev]
  cases k with
  | zero => rw [if_pos (by bv_omega), List.getD_cons_zero]
  | succ k =>
    have hplace : s.curR + 1 - 1 - BitVec.ofNat 12 (k + 1) = s.curR - 1 - BitVec.ofNat 12 k := by bv_omega
    rw [hplace, if_neg (by bv_omega), List.getD_cons_succ]
    exact hd k (by omega)

theorem State.DictionaryOk.emittedAll {s : State} (bs : List Byte) (h : s.DictionaryOk) :
    (bs.foldl State.emitted s).DictionaryOk := by
  induction bs generalizing s with
  | nil => exact h
  | cons b rest ih => exact ih (h.emitted b)

theorem step_keeps_decompWindowOk {s t : State} (hst : s.StorageOk) (hs : s.DecompWindowOk) (h : step s = .next t) :
    t.DecompWindowOk :=
  step_keeps_while .decomp (Pre := State.StorageOk) (fun _ hn hr => absurd hr hn) (fun _ _ h => h) (fun _ _ h => h)
    (fun s t hsto hs hr hst ht _ => by
      have hd : s.DictionaryOk := ⟨hsto.1, hs hr⟩
      rcases blockStep_decomp hst hr ht with ⟨f, rfl⟩ | ⟨n, bs, -, -, rfl⟩
      · exact hd.2
      · exact (State.DictionaryOk.emittedAll (s := s.flagTaken.afterReading n) bs hd).2)
    (fun s t _ hc hr _ k _ => by
      rw [commandStep_decomp hc hr]
      rfl) hst hs h

/-! ## COMP -/

/-- A `COMP` goes on by emitting a literal or a reference, after the clamp (42_compress R106, R107, R108). -/
theorem blockStep_comp {s t : State} (h : BlockStep s t) (hs : s.running = some .comp) (ht : t.running = some .comp) :
    (∃ d, cuLit Config.treeOrder d s.clamped = .ok t) ∨
      ∃ offset count, cuRef Config.treeOrder offset count s.clamped = .ok t := by
  have other : ∀ {op}, op ≠ .comp → s.running ≠ some op := fun hn h => running_ne h hn hs
  clear hs
  replace ht : t.running ≠ none := by simp [ht]
  cases h with
  | compLit _ _ _ _ h => exact .inl ⟨_, h⟩
  | compRef _ _ _ _ h => exact .inr ⟨_, _, h⟩
  | compTrailer _ _ _ h =>
    obtain ⟨u, -, rfl⟩ := cuTrailer_keeps (fun _ => True) (fun _ _ _ _ => trivial) trivial h
    exact absurd rfl ht
  | truncated => exact absurd rfl ht
  | _ => exact absurd ‹s.running = some _› (other (by decide))

/-- What the parts of a token keep, a `COMP` that goes on keeps, and its group with it. -/
theorem blockStep_comp_keeps (I : State → Prop)
    (clamped : ∀ s, I s → I s.clamped)
    (group : ∀ s gbuf gptr gmask, I s → I (s.withGroup gbuf gptr gmask))
    (write : ∀ (s : State) (b : Byte), I s → s.regs.outCount.toNat + 1 < 2 ^ 32 → I (s.afterWriting [b]))
    (short : ∀ s : State, I s → I (s.withFinder { s.cu.finder with ml := 1 }))
    (adv : ∀ s t, I s → s.cu.len ≠ 0 → advanceStep Config.treeOrder s = .ok t →
      I t ∧ s.cu.len.toNat ≤ t.cu.len.toNat + 1)
    {s t : State} (hI : I s) (hg : s.cu.GroupOk) (h : BlockStep s t) (hs : s.running = some .comp)
    (ht : t.running = some .comp) : I t ∧ t.cu.GroupOk := by
  rcases blockStep_comp h hs ht with ⟨d, h⟩ | ⟨offset, count, h⟩
  · exact cuLit_keeps_full I adv group write short (clamped s hI) hg h
  · exact cuRef_keeps_full I adv group write (clamped s hI) hg h

/-! ### Cursors, group, checksum and mirror -/

section SetUp
variable {s : State} {win : List Host.Cell} {f : Finder}

/-- As many bytes are unencoded after the setup as the source gave (42_compress R104). -/
theorem State.setUp_len : (s.setUp win f).cu.len.toNat = (s.src.unread.take 18).length := by
  change ((0 : BitVec 5) + BitVec.ofNat 5 (s.src.unread.take 18).length).toNat = _
  simp

theorem State.setUp_consumed (hpos : s.src.pos ≤ s.src.bytes.length) :
    (s.setUp win f).consumed = s.src.unread.take 18 :=
  loaded_consumed s _ win f rfl _ hpos

/-- The group is empty after the setup (42_compress R103). -/
theorem State.setUp_groupOk : (s.setUp win f).cu.GroupOk :=
  ⟨0, by decide, rfl, (by decide : 1 + 0 ≤ (1 : BitVec 5).toNat), (by decide : (1 : BitVec 5).toNat ≤ 1 + 2 * 0), by
    change ((s.cu.gbuf.set 0 0)[0]).toNat < _
    simp⟩

theorem State.SetUpOk.compOk (h : s.SetUpOk win f) (hpos : s.src.pos ≤ s.src.bytes.length) :
    (s.setUp win f).CompOk := by
  have hlen := s.setUp_len (win := win) (f := f)
  have htake : (s.src.unread.take 18).length ≤ 18 := by simp
  refine fun _ => ⟨h.walk.cursors, ?_, fun hlt => ?_, h.matchLength, State.setUp_groupOk, ?_, fun j hj => ?_⟩
  · rw [BitVec.le_def, hlen]
    exact htake
  · rw [BitVec.lt_def, hlen, List.length_take] at hlt
    change (s.src.eos || decide (s.src.unread.length < 18)) = true
    have hlt : min 18 s.src.unread.length < 18 := hlt
    have : s.src.unread.length < 18 := by omega
    simp [this]
  · rw [State.setUp_consumed hpos]
    rfl
  · change Memory.read win (4096 + j) = Memory.read win j
    rw [h.window, h.window, if_pos (by omega), if_neg (by omega), List.getD_eq_default _ _ (by omega)]

theorem State.SetUpOk.compWindowOk (h : s.SetUpOk win f) (hpos : s.src.pos ≤ s.src.bytes.length) :
    (s.setUp win f).CompWindowOk := by
  have hlen := s.setUp_len (win := win) (f := f)
  have hcon := State.setUp_consumed (win := win) (f := f) hpos
  have htake : (s.src.unread.take 18).length ≤ 18 := by simp
  have henc : (s.setUp win f).encoded = [] := by simp [State.encoded, hlen, hcon]
  have hread : ∀ a : Cursor, (s.setUp win f).winAt a =
      if 4078 ≤ a.toNat then (s.src.unread.take 18).getD (a.toNat - 4078) 0x20 else 0x20 := fun a => h.window a.toNat
  have hcur : (s.setUp win f).curR = 4078 := rfl
  refine fun _ => ⟨by rw [hlen, hcon], fun j hj => ?_, fun k hk => ?_⟩
  · rw [hlen] at hj
    have ha : ((4078 : Cursor) + BitVec.ofNat 12 j).toNat = 4078 + j := by bv_omega
    rw [hread, hcur, ha, if_pos (by omega), hlen, hcon, Nat.add_sub_cancel_left, Nat.sub_self, Nat.zero_add,
      List.getD_eq_getElem _ _ hj, List.getD_eq_getElem _ _ hj]
  · rw [hread, hcur, if_neg (by bv_omega), henc]
    rfl

theorem State.SetUpOk.forestOk (h : s.SetUpOk win f) : (s.setUp win f).ForestOk := by
  refine fun _ => ⟨h.walk.tree, h.walk.ordered, h.walk.interval, fun hl => h.found fun hu => hl ?_⟩
  apply BitVec.eq_of_toNat_eq
  rw [State.setUp_len, hu]
  rfl

end SetUp

theorem step_keeps_compOk {s t : State} (hsto : s.StorageOk) (hsta : s.StatusOk) (hs : s.CompOk)
    (h : step s = .next t) : t.CompOk :=
  step_keeps_while .comp (Pre := fun s => s.StorageOk ∧ s.StatusOk) (fun _ hn hr => absurd hr hn) (fun _ _ h => h)
    (fun _ _ h => h)
    (fun s t ⟨hsto, hsta⟩ hs hr hst ht => by
      obtain ⟨henc, hg⟩ := encoderOk_of hsto hsta hs hr
      obtain ⟨⟨hadv, hml⟩, hg⟩ := blockStep_comp_keeps State.EncoderOk (fun _ => encoderOk_clamped) encoderOk_withGroup
        encoderOk_afterWriting encoderOk_short advanceStep_encoderOk henc hg hst hr ht
      exact compOk_of_advanceOk hadv hg hml)
    (fun s t ⟨_, _, _, _, hpos, _⟩ hc hr => by
      obtain ⟨win, f, hset, rfl⟩ := commandStep_comp hc hr
      exact hset.compOk hpos) ⟨hsto, hsta⟩ hs h

/-! ### The window -/

theorem step_keeps_compWindowOk {s t : State} (hsto : s.StorageOk) (hsta : s.StatusOk) (hcomp : s.CompOk)
    (hs : s.CompWindowOk) (h : step s = .next t) : t.CompWindowOk :=
  step_keeps_while .comp (Pre := fun s => s.StorageOk ∧ s.StatusOk ∧ s.CompOk) (fun _ hn hr => absurd hr hn)
    (fun _ _ h => h) (fun _ _ h => h)
    (fun s t ⟨hsto, hsta, hcomp⟩ hs hr hst ht _ => by
      obtain ⟨henc, hg⟩ := encoderOk_of hsto hsta hcomp hr
      exact (blockStep_comp_keeps State.EncoderAllOk (fun _ h => ⟨encoderOk_clamped h.1, h.2⟩)
        (fun _ _ _ _ h => ⟨encoderOk_withGroup _ _ _ _ h.1, h.2⟩)
        (fun _ _ h hc => ⟨encoderOk_afterWriting _ _ h.1 hc, h.2⟩) (fun _ h => ⟨encoderOk_short _ h.1, h.2⟩)
        advanceStep_encoderAllOk ⟨henc, hs hr⟩ hg hst hr ht).1.2)
    (fun s t ⟨_, ⟨_, _, _, hpos, _⟩, _⟩ hc hr => by
      obtain ⟨win, f, hset, rfl⟩ := commandStep_comp hc hr
      exact hset.compWindowOk hpos) ⟨hsto, hsta, hcomp⟩ hs h

/-! ### The forest -/

theorem State.ForestOk.walkOk {s : State} (hf : s.ForestOk) (hsto : s.StorageOk) (hc : s.CompOk)
    (hr : s.running = some .comp) : s.WalkOk Config.treeOrder := by
  obtain ⟨htree, hord, hint, -⟩ := hf hr
  obtain ⟨hcur, -⟩ := hc hr
  exact ⟨hsto.1, hsto.2, htree, hord, hint, hcur⟩

/-- What a token of a `COMP` that goes on keeps of the match finder. -/
theorem blockStep_comp_finderKept {s t : State} (hw : s.WalkOk Config.treeOrder) (h : BlockStep s t)
    (hs : s.running = some .comp) (ht : t.running = some .comp) : s.clamped.FinderKept Config.treeOrder t := by
  have hw1 : s.clamped.WalkOk Config.treeOrder := (State.SameFinder.ml s _).walkOk hw
  rcases blockStep_comp h hs ht with ⟨d, h⟩ | ⟨offset, count, h⟩
  · exact cuLit_finderKept hw1 h
  · exact cuRef_finderKept hw1 h

/-- A token is emitted only while bytes are left to encode (42_compress R102). -/
theorem blockStep_comp_len {s t : State} (h : BlockStep s t) (hs : s.running = some .comp)
    (ht : t.running = some .comp) : s.cu.len ≠ 0 := by
  rcases blockStep_comp h hs ht with ⟨d, h⟩ | ⟨offset, count, h⟩
  · exact cuLit_selected (s := s.clamped) h
  · obtain ⟨h3, hle⟩ := cuRef_selected h
    have hle : count ≤ s.cu.len.toNat := hle
    intro e
    simp [e] at hle
    omega

theorem step_keeps_forestOk {s t : State} (hsto : s.StorageOk) (hcomp : s.CompOk) (hs : s.ForestOk)
    (h : step s = .next t) : t.ForestOk :=
  step_keeps_while .comp (Pre := fun s => s.StorageOk ∧ s.CompOk) (fun _ hn hr => absurd hr hn) (fun _ _ h => h)
    (fun _ _ h => h)
    (fun s t ⟨hsto, hcomp⟩ hs hr hst ht _ => by
      obtain ⟨hwalk, hlongest, hretained⟩ := blockStep_comp_finderKept (hs.walkOk hsto hcomp hr) hst hr ht
      obtain ⟨-, -, -, hfound⟩ := hs hr
      have hret : s.clamped.Retained := (State.SameFinder.ml s _).retained (hfound (blockStep_comp_len hst hr ht)).1
      exact ⟨hwalk.tree, hwalk.ordered, hwalk.interval, fun hl => ⟨hretained hret hl, hlongest hl⟩⟩)
    (fun s t _ hc hr => by
      obtain ⟨win, f, hset, rfl⟩ := commandStep_comp hc hr
      exact hset.forestOk) ⟨hsto, hcomp⟩ hs h

/-! ## All of them, and the statements -/

theorem step_keeps_inv {s t : State} (hs : s.Inv) (h : step s = .next t) : t.Inv where
  storage := step_keeps_storageOk hs.storage h
  status := step_keeps_statusOk hs.status h
  vdec := step_keeps_vdecOk hs.vdec h
  decomp := step_keeps_decompOk hs.decomp h
  decompWindow := step_keeps_decompWindowOk hs.storage hs.decompWindow h
  comp := step_keeps_compOk hs.storage hs.status hs.comp h
  compWindow := step_keeps_compWindowOk hs.storage hs.status hs.comp hs.compWindow h
  forest := step_keeps_forestOk hs.storage hs.comp hs.forest h

/-- Settles O52: each invariant is kept by its own lemma above. -/
theorem everyStepKeepsTheInvariants : Obligations.EveryStepKeepsTheInvariants :=
  fun _ _ hs h => step_keeps_inv hs h

/-- Settles O46, by what the parts of a step keep of the streams. -/
theorem everyStepKeepsStatusAndStreams : Obligations.EveryStepKeepsStatusAndStreams :=
  fun _ _ hs h => step_keeps_statusOk hs h

/-- Settles O47: a `DECOMP` goes on by a flag byte or by emissions within the budget, a `VDEC` by accumulating. -/
theorem everyStepKeepsTheDecodeCounters : Obligations.EveryStepKeepsTheDecodeCounters :=
  fun _ _ _ hd hv h => ⟨step_keeps_decompOk hd h, step_keeps_vdecOk hv h⟩

/-- Settles O48: each byte emitted comes first behind the cursor. -/
theorem everyStepKeepsTheDictionary : Obligations.EveryStepKeepsTheDictionary :=
  fun _ _ hsto _ hd h => step_keeps_decompWindowOk hsto hd h

/-- Settles O49: the setup meets the encoder's state, and each token keeps it. -/
theorem everyStepKeepsTheEncoderState : Obligations.EveryStepKeepsTheEncoderState :=
  fun _ _ hsto hsta hc h => step_keeps_compOk hsto hsta hc h

/-! ## The host's registers -/

/-- A host write is the next step of a block whose queue begins with it (10_state R17; log 2). -/
theorem step_write {s : State} {r : Reg} {v : Word} {rest : List HostAction} (hq : s.port.queue = .write r v :: rest) :
    step s = hostWrite r v (s.withQueue rest) := by
  rw [step, hq]
  rfl

theorem hostWrite_arg {s : State} (v : Word) (hb : s.busy = false) :
    hostWrite .arg v s = .next { s with regs := { s.regs with arg := v } } := by
  simp [hostWrite, hb]

theorem hostWrite_mode {s : State} (v : Word) (hb : s.busy = false) :
    hostWrite .mode v s = .next { s with regs := { s.regs with signed := v.getLsbD 0 } } := by
  simp [hostWrite, hb]

/-- `MODE` reads back bit 0 of what was written (10_state R17). -/
theorem modeWord_of_bit (r : Regs) (v : Word) : ({ r with signed := v.getLsbD 0 } : Regs).modeWord = v &&& 1 := by
  apply BitVec.eq_of_getLsbD_eq
  intro i hi
  simp only [Regs.modeWord, BitVec.getLsbD_append, BitVec.getLsbD_and]
  rcases i with _ | i <;> simp

/-- Settles O10. -/
theorem modeAndArgAreWrittenWhenNotBusy : Obligations.ModeAndArgAreWrittenWhenNotBusy := by
  intro s v rest hb
  have hb' : (s.withQueue rest).busy = false := hb
  refine ⟨fun hq => ?_, fun hq => ?_, fun r => modeWord_of_bit r v⟩
  · rw [step_write hq, hostWrite_arg v hb']
    rfl
  · rw [step_write hq, hostWrite_mode v hb']
    rfl

/-- `STATUS` is the sum of its three fields at their places (10_state R19). -/
theorem statusWord_toNat (r : Regs) :
    r.statusWord.toNat = r.state.code.toNat + 4 * r.err.code.toNat + 32 * r.vwrap.toNat := by
  have hstate := r.state.code.isLt
  have herr : r.err.code.toNat < 2 ^ 3 := r.err.code.isLt
  simp only [Regs.statusWord, BitVec.toNat_append, BitVec.toNat_ofBool, BitVec.toNat_ofNat, Nat.zero_mod,
    Nat.zero_shiftLeft, Nat.zero_or]
  rw [← Nat.shiftLeft_add_eq_or_of_lt herr, ← Nat.shiftLeft_add_eq_or_of_lt hstate, Nat.shiftLeft_eq, Nat.shiftLeft_eq]
  omega

/-- Settles O11: the codes of `STATE` and `ERR` are those that R19 gives. -/
theorem statusWordLayout : Obligations.StatusWordLayout := by
  intro r
  rw [statusWord_toNat]
  congr 2
  · cases r.state <;> rfl
  · congr 1
    cases r.err <;> rfl

end Sys2Proof.Machine
end

section
/-! What a step shows the host (20_memory R43 to R45, R47, R51, 42_compress R119, 70_reset R160, R161): the storage it
keeps canonical, when output becomes visible, and what a register read answers. -/
namespace Sys2Proof.Machine

/-! ## Storage -/

/-- Settles O45: the parts of a step and the starts of the commands keep the arrays canonical, each by its own lemma. -/
theorem everyStepKeepsStorageCanonical : Obligations.EveryStepKeepsStorageCanonical :=
  fun _ _ hs h => step_keeps_storageOk hs h

/-! ## Output -/

/-- In `t` the same is committed as in `s`, and what was pending in `s` still comes first of what is pending. -/
def State.KeepsOutput (s t : State) : Prop :=
  t.snk.committed = s.snk.committed ∧ s.snk.pending <+: t.snk.pending

theorem advanceStep_snk {o : Config.TreeOrder} {s t : State} (h : advanceStep o s = .ok t) : t.snk = s.snk := by
  rcases advanceStep_cases h with ⟨b, f, g, _, _, _, _, rfl⟩ | ⟨f, g, _, _, _, rfl⟩
  · rfl
  · rfl

/-- No part of a step of the block commits; the stream writes append to what is pending (20_memory R42). -/
theorem keptByParts_keepsOutput (s : State) : KeptByParts s.KeepsOutput where
  units _ _ _ _ h := h
  read _ _ h _ _ := h
  latch _ h _ := h
  write _ b h _ := ⟨h.1, h.2.trans (List.prefix_append _ [b])⟩
  emit _ b h _ := ⟨h.1, h.2.trans (List.prefix_append _ [b])⟩
  group _ _ _ _ h := h
  matchLength _ _ h := h
  advance u v h ha := by
    rw [State.KeepsOutput, advanceStep_snk ha]
    exact h

/-- An operation commits when it is done, and only then (20_memory R43, R44, 60_exceptions R132, R141). -/
theorem State.KeepsOutput.leaves {s u t : State} (h : s.KeepsOutput u) (hl : u.Leaves t) :
    t.snk.committed = s.snk.committed ∨
      (t.regs.state = .done ∧ ∃ more, t.snk.committed = s.snk.committed ++ s.snk.pending ++ more) := by
  obtain ⟨hcom, more, hpend⟩ := h
  cases hl with
  | goesOn => exact .inl hcom
  | failed => exact .inl hcom
  | done v =>
    refine .inr ⟨rfl, more, ?_⟩
    change u.snk.committed ++ u.snk.pending = _
    rw [hcom, ← hpend, List.append_assoc]

/-- A command discards what was pending (60_exceptions R131), so one that ends where it starts has nothing to commit. -/
theorem commandStep_committed {s t : State} (h : CommandStep s t) : t.snk.committed = s.snk.committed := by
  cases h with
  | vlen => exact List.append_nil _
  | _ => rfl

/-- Settles O55: only the completion of a step of the block commits, and it commits all that is pending. -/
theorem outputIsVisibleOnlyWhenDone : Obligations.OutputIsVisibleOnlyWhenDone := by
  intro s t _ h
  cases step_cases h with
  | block p t _ hb hst =>
    have hs : s.KeepsOutput { s with port := p } := ⟨rfl, List.prefix_refl _⟩
    obtain ⟨u, hu, hl⟩ := (keptByParts_keepsOutput s).blockStep hs hst
    exact (hu.leaves hl).imp_right fun ⟨hdone, hmore⟩ => ⟨hdone, hb, hmore⟩
  | command _ _ t _ _ hc => exact .inl (commandStep_committed hc :)
  | _ => exact .inl rfl

/-! ## Host reads -/

/-- A host read is the next step of a block whose queue begins with it (10_state R17; log 2). -/
theorem step_read {s : State} {r : Reg} {rest : List HostAction} (hq : s.port.queue = .read r :: rest) :
    step s = .next (hostRead r (s.withQueue rest)) := by
  rw [step, hq]
  rfl

/-- A host read changes the host's port alone (20_memory R51), and there not the actions to come. -/
theorem hostRead_frame (r : Reg) (s : State) :
    hostRead r s = { s with port := (hostRead r s).port } ∧ (hostRead r s).port.queue = s.port.queue := by
  unfold hostRead
  split
  · exact ⟨rfl, rfl⟩
  · exact ⟨rfl, rfl⟩

/-- Where the spec promises a value, a read answers the register (10_state R17, 70_reset R160). -/
theorem hostRead_promised {s : State} {r : Reg} (h : s.busy = false ∨ r.openWhileBusy = false) :
    (hostRead r s).port.data = s.readReg r := by
  rw [← Bool.and_eq_false_iff] at h
  simp [hostRead, h]

/-- An open register answers, while `BUSY`, a value that `State.readBusy` allows (70_reset R160; log 5). -/
theorem hostRead_open {s : State} {r : Reg} (hb : s.busy = true) (hr : r.openWhileBusy = true) :
    (hostRead r s).port.data = s.readBusy r (Config.busyRead s.port.fresh).toNat := by
  simp [hostRead, hb, hr]

theorem readReg_result_busy {s : State} (hb : s.busy = true) : s.readReg .result = 0 := if_pos hb

theorem readReg_result_idle {s : State} (hb : s.busy = false) : s.readReg .result = s.regs.result := by
  simp [State.readReg, hb]

/-- The word of a count of at most `w` is at most `w`: it does not wrap. -/
theorem toNat_ofNat_min_le (m : Nat) (w : Word) : (BitVec.ofNat 32 (min m w.toNat)).toNat ≤ w.toNat := by
  rw [BitVec.toNat_ofNat]
  exact (Nat.mod_le _ _).trans (Nat.min_le_right _ _)

/-- What a read of an open register answers lies between the start value and the one that the operation ends with,
whatever run reaches its end (70_reset R160; log 5). -/
theorem readBusy_bounds (m : Nat) {s last final : State} {k : Nat} (hb : s.busy = true)
    (hl : Reaches k (s.withQueue []) last) (hlb : last.busy = true) (hf : step last = .next final)
    (hfb : final.busy = false) :
    (s.readBusy .inCount m).toNat ≤ final.regs.inCount.toNat ∧
      (s.readBusy .outCount m).toNat ≤ final.regs.outCount.toNat ∧
      ∃ j, s.readBusy .csum m = checksum s.sampled.signed (last.summed.take j) := by
  obtain ⟨hin, hout, hsum, -⟩ := lastBusy_law s.stepsLeft (s := s.withQueue []) rfl hb hl hlb hf hfb
  have hfirst := List.prefix_iff_eq_take.1 ((List.take_prefix m _).trans hsum)
  exact ⟨(toNat_ofNat_min_le m _).trans hin, (toNat_ofNat_min_le m _).trans hout, _,
    congrArg (checksum s.sampled.signed) hfirst⟩

/-- Settles O12: a read moves the answer to the host's port; that of an open register while `BUSY` is drawn from the
operation's own run, of which any run to its end is a continuation. -/
theorem hostReadsChangeNothing : Obligations.HostReadsChangeNothing := by
  intro s r rest hq
  obtain ⟨hframe, hqueue⟩ := hostRead_frame r (s.withQueue rest)
  refine ⟨(hostRead r (s.withQueue rest)).port, (step_read hq).trans (congrArg _ hframe), hqueue, fun hb => ?_,
    fun hb => ?_⟩
  · rw [hostRead_promised (s := s.withQueue rest) (.inl hb)]
    cases r with
    | result => exact readReg_result_idle hb
    | _ => rfl
  · have promised (hr : r.openWhileBusy = false) : (hostRead r (s.withQueue rest)).port.data = s.readReg r :=
      hostRead_promised (.inr hr)
    refine ⟨?_, ?_, ?_, ?_, ?_, fun k last final hl hlb hf hfb => ?_⟩
    · rintro rfl
      exact promised rfl
    · rintro rfl
      exact promised rfl
    · rintro rfl
      exact promised rfl
    · rintro rfl
      exact (promised rfl).trans (readReg_result_busy hb)
    · rintro rfl
      exact promised rfl
    · obtain ⟨hin, hout, m, hsum⟩ := readBusy_bounds (s := s.withQueue rest)
        (Config.busyRead s.port.fresh).toNat hb hl hlb hf hfb
      obtain ⟨-, hrun, -⟩ := reaches_grows rfl hl hlb
      have drawn (hr : r.openWhileBusy = true) : (hostRead r (s.withQueue rest)).port.data =
          (s.withQueue rest).readBusy r (Config.busyRead s.port.fresh).toNat := hostRead_open hb hr
      refine ⟨?_, ?_, ?_⟩
      · rintro rfl
        rwa [drawn rfl]
      · rintro rfl
        rwa [drawn rfl]
      · rintro rfl
        rw [drawn rfl, hsum, State.summed, hrun]
        exact ⟨m, rfl⟩

end Sys2Proof.Machine
end

section
/-! Decoding and encoding are inverses of each other (30_encoding R59, R63 to R71, R74), and a step of `VDEC` or
`DECOMP` runs the element that the source bytes decode to (41_decompress R86, R90, 40_varint R80). -/
namespace Sys2Proof.Machine

/-! ## What encodes, decodes -/

/-- The family `EncodeDecode`, whole. -/
theorem decode_encode_law (i : Instr) : Laws.EncodeDecode.Statement i := by
  cases i with
  | nop => exact Laws.EncodeDecode.nop
  | venc => exact Laws.EncodeDecode.venc
  | vlen => exact Laws.EncodeDecode.vlen
  | vdec => exact Laws.EncodeDecode.vdec
  | decomp => exact Laws.EncodeDecode.decomp
  | comp => exact Laws.EncodeDecode.comp
  | flag f => exact Laws.EncodeDecode.flag f
  | lit d => exact Laws.EncodeDecode.lit d
  | ref offset count => exact Laws.EncodeDecode.ref offset count
  | trailer w => exact Laws.EncodeDecode.trailer w
  | vcont p => exact Laws.EncodeDecode.vcont p
  | vlast p => exact Laws.EncodeDecode.vlast p

theorem decodeCommand_of_encode {i : Instr} {w : Word} (hwf : i.WellFormed) (he : encode i = .command w) :
    decodeCommand w = .ok i := by
  have law := decode_encode_law i hwf
  rwa [he] at law

theorem decodeElement_of_encode {i : Instr} {sel : Select} {bytes : List Byte} (hwf : i.WellFormed)
    (he : encode i = .element sel bytes) (rest : List Byte) : decodeElement sel (bytes ++ rest) = .ok (i, rest) := by
  have law := decode_encode_law i hwf
  rw [he] at law
  exact law rest

theorem decode_command_eq_ok {w : Word} {i : Instr} {rest : List Byte} :
    decode (.command w) = .ok (i, rest) ↔ decodeCommand w = .ok i ∧ rest = [] := by
  cases h : decodeCommand w <;> simp [decode, h, eq_comm]

/-- Settles O1: the law of each instruction, with any bytes following an element's and with none. -/
theorem decodeOfEncodeIsIdentity : Obligations.DecodeOfEncodeIsIdentity := by
  intro i hwf
  refine ⟨?_, fun sel bytes rest he => decodeElement_of_encode hwf he rest⟩
  cases he : encode i with
  | command w => exact decode_command_eq_ok.2 ⟨decodeCommand_of_encode hwf he, rfl⟩
  | element sel bytes => simpa [decode] using decodeElement_of_encode hwf he []

/-! ## What decodes, encodes -/

theorem encode_of_decodeCommand {w : Word} {i : Instr} (h : decodeCommand w = .ok i) :
    i.WellFormed ∧ encode i = .command w := by
  rcases decodeCommand_cases w with ⟨hd, rfl⟩ | ⟨hd, rfl⟩ | ⟨hd, rfl⟩ | ⟨hd, rfl⟩ | ⟨hd, rfl⟩ | ⟨hd, rfl⟩ | ⟨hd, -⟩ <;>
    cases hd.symm.trans h <;>
    exact ⟨rfl, rfl⟩

/-- The count of a reference lies in `3..18` whatever its bytes are (00_scope R7, 30_encoding R65). -/
theorem ref_refCount_wellFormed (offset : Cursor) (b1 : Byte) : (Instr.ref offset (refCount b1)).WellFormed := by
  have hlt : (b1.extractLsb' 0 4).toNat < 2 ^ 4 := (b1.extractLsb' 0 4).isLt
  have lo : 3 ≤ refCount b1 := Nat.le_add_left 3 _
  have hi : refCount b1 ≤ 18 := by
    rw [refCount]
    omega
  exact Bool.and_eq_true_iff.2 ⟨decide_eq_true lo, decide_eq_true hi⟩

/-- An element that is read is a well-formed instruction, and the bytes read are its encoding (30_encoding R70, R74). -/
theorem encode_of_decodeElement {sel : Select} {bytes rest : List Byte} {i : Instr}
    (h : decodeElement sel bytes = .ok (i, rest)) :
    i.WellFormed ∧ ∃ used, encode i = .element sel used ∧ bytes = used ++ rest := by
  unfold decodeElement at h
  split at h
  · cases h
    exact ⟨rfl, _, rfl, rfl⟩
  · cases h
    exact ⟨rfl, _, rfl, rfl⟩
  · cases h
    exact ⟨ref_refCount_wellFormed _ _, _, rfl, by rw [refBytes_of_bytes]; rfl⟩
  · cases h
    exact ⟨rfl, _, rfl, by rw [bytesOfWord_of_bytes]; rfl⟩
  · next b _ =>
    cases h
    rcases decodeVarintByte_cases b with ⟨p, hd, rfl⟩ | ⟨p, hd, rfl⟩
    · rw [hd]
      exact ⟨rfl, _, rfl, rfl⟩
    · rw [hd]
      exact ⟨rfl, _, rfl, rfl⟩
  · cases h

/-- Settles O2: a command by its code, an element because the bytes read are its encoding. -/
theorem encodeOfDecodeIsIdentity : Obligations.EncodeOfDecodeIsIdentity := by
  intro e i h
  cases e with
  | command w => exact encode_of_decodeCommand (decode_command_eq_ok.1 h).1
  | element sel bytes =>
    obtain ⟨hwf, used, henc, hbytes⟩ := encode_of_decodeElement h
    rw [List.append_nil] at hbytes
    exact ⟨hwf, hbytes ▸ henc⟩

/-! ## The length of an element -/

/-- The first bytes, as many as the selection's length, decode with nothing left over, and all of them to the same
element with the others left over (30_encoding R71, R74). -/
theorem decodeElement_full {sel : Select} {bytes : List Byte} (hl : sel.length ≤ bytes.length) :
    ∃ i, decodeElement sel (bytes.take sel.length) = .ok (i, []) ∧
      decodeElement sel bytes = .ok (i, bytes.drop sel.length) := by
  obtain ⟨i, hi⟩ := decodeElement_ok sel (bytes.take sel.length) (List.length_take_of_le hl)
  obtain ⟨hwf, used, henc, hused⟩ := encode_of_decodeElement hi
  rw [List.append_nil] at hused
  have hall := decodeElement_of_encode hwf (hused ▸ henc) (bytes.drop sel.length)
  rw [List.take_append_drop] at hall
  exact ⟨i, hi, hall⟩

/-- Settles O3: the element of the first bytes is that of the whole string; a shorter string is refused. -/
theorem everyFullLengthElementDecodes : Obligations.EveryFullLengthElementDecodes := by
  intro sel bytes
  refine ⟨fun hl => ?_, decodeElement_short sel bytes⟩
  obtain ⟨i, hfirst, hall⟩ := decodeElement_full hl
  obtain ⟨hwf, henc⟩ := encodeOfDecodeIsIdentity (.element sel (bytes.take sel.length)) i hfirst
  exact ⟨i, hall, hwf, henc⟩

/-- Settles O4: the fixed words, computed. -/
theorem sampleWordsDecodeAsWrittenOut : Obligations.SampleWordsDecodeAsWrittenOut :=
  ⟨rfl, rfl, rfl, rfl, rfl, rfl, rfl, rfl⟩

/-! ## The element that a step reads -/

/-- What decodes is at least as long as its selection says (60_exceptions R136). -/
theorem length_le_of_decodeElement {sel : Select} {bytes rest : List Byte} {i : Instr}
    (h : decodeElement sel bytes = .ok (i, rest)) : sel.length ≤ bytes.length := by
  by_contra hlt
  rw [decodeElement_short sel bytes (Nat.lt_of_not_le hlt)] at h
  cases h

/-- With enough bytes there, up to `k` reads are `k` reads (20_memory R40). -/
theorem State.afterReadUpTo_full {s : State} {k : Nat} (h : k ≤ s.src.unread.length) :
    s.afterReadUpTo k = s.afterReading k := by
  simp [State.afterReadUpTo, State.afterReading, List.length_take_of_le h, Nat.not_lt.2 h]

/-- An element whose bytes are there is read, its bytes and no more (30_encoding R71, 70_reset R162). -/
theorem fetchElement_of_decodeElement {sel : Select} {s : State} {i : Instr} {rest : List Byte}
    (h : decodeElement sel s.src.unread = .ok (i, rest)) (hc : s.regs.inCount.toNat + sel.length < 2 ^ 32) :
    fetchElement sel s = .ok (.element i (s.afterReading sel.length)) := by
  have hl := length_le_of_decodeElement h
  have hread := readUpTo_ok (s := s) sel.length (by rwa [List.length_take_of_le hl])
  obtain ⟨j, hfirst, hall⟩ := decodeElement_full hl
  obtain ⟨rfl, -⟩ := Prod.mk.inj (Except.ok.inj (h.symm.trans hall))
  rw [fetchElement, hread, State.afterReadUpTo_full hl, Res.ok_bind]
  simp only [hfirst]

theorem duSelect_trailer {s : State} (hz : s.du.rem = 0) : duSelect s = (.trailer, s) := if_pos hz

theorem duSelect_flag {s : State} (hz : s.du.rem ≠ 0) (hf : s.du.fcnt = 0) : duSelect s = (.flag, s) := by
  rw [duSelect, if_neg hz, if_pos hf]

theorem duSelect_token {s : State} (hz : s.du.rem ≠ 0) (hf : s.du.fcnt ≠ 0) :
    duSelect s = (.token (s.du.flags.getLsbD 0), s.flagTaken) := by
  rw [duSelect, if_neg hz, if_neg hf]
  rfl

/-- A block that selects an element is running, and fetches the element that is selected, in the state after the
selection (30_encoding R71, 41_decompress R88, R90). -/
theorem State.Selects.fetch {s t : State} {sel : Select} (h : s.Selects sel t) :
    s.busy = true ∧ fetch s = fetchElement sel t := by
  rcases h with ⟨hr, rfl, rfl⟩ | ⟨hr, hsel⟩
  · exact ⟨State.busy_of_running hr, by rw [Machine.fetch, hr]⟩
  · have hdu : duSelect s = (sel, t) := by
      rcases hsel with ⟨hz, rfl, rfl⟩ | ⟨hz, hf, rfl, rfl⟩ | ⟨hz, hf, rfl, rfl⟩
      · exact duSelect_trailer hz
      · exact duSelect_flag hz hf
      · exact duSelect_token hz hf
    exact ⟨State.busy_of_running hr, by rw [Machine.fetch, hr, hdu]⟩

/-- A selection reads nothing and counts nothing: it takes a flag bit at most (41_decompress R90). -/
theorem State.Selects.frame {s t : State} {sel : Select} (h : s.Selects sel t) : t.src = s.src ∧ t.regs = s.regs := by
  rcases h with ⟨-, -, rfl⟩ | ⟨-, ⟨-, -, rfl⟩ | ⟨-, -, -, rfl⟩ | ⟨-, -, -, rfl⟩⟩ <;> exact ⟨rfl, rfl⟩

theorem engineStep_of_fetch {s t : State} {i : Instr} (hb : s.busy = true) (hf : fetch s = .ok (.element i t)) :
    engineStep s = exec i t := by
  rw [engineStep, if_pos hb, hf]

/-- Settles O6: the selected element is fetched, by the bytes that are there, and run. -/
theorem stepRunsTheElementRead : Obligations.StepRunsTheElementRead := by
  intro s t sel i rest hq hsel hdec hc
  obtain ⟨hsrc, hregs⟩ := hsel.frame
  obtain ⟨hb, hfetch⟩ := hsel.fetch
  rw [← hsrc] at hdec
  rw [← hregs] at hc
  rw [step_quiet hq]
  exact engineStep_of_fetch hb (hfetch.trans (fetchElement_of_decodeElement hdec hc))

end Sys2Proof.Machine
end

section
/-! The varint unit (40_varint): the minimal varint by its recursion (30_encoding R67, R70, R72), the element that a
`VENC` or `COMP` emits next, one byte of a `VENC` and of a `VDEC`, and from them the whole operations. -/
namespace Sys2Proof.Machine

/-! ## The minimal varint, group by group (30_encoding R67, R70, R72) -/

theorem toNat_shiftRight_seven (v : Word) : (v >>> 7).toNat = v.toNat / 128 := by
  rw [BitVec.toNat_ushiftRight, Nat.shiftRight_eq_div_pow]

/-- A value either fits in one group, or has groups beyond the low one. -/
theorem varint_induction {motive : Word → Prop} (last : ∀ v : Word, v.toNat ≤ 127 → motive v)
    (more : ∀ v : Word, 127 < v.toNat → motive (v >>> 7) → motive v) (v : Word) : motive v :=
  if h : v.toNat ≤ 127 then last v h
  else
    have : (v >>> 7).toNat < v.toNat := by
      rw [toNat_shiftRight_seven]
      omega
    more v (Nat.lt_of_not_le h) (varint_induction last more (v >>> 7))
termination_by v.toNat

theorem varintLength_last {v : Word} (h : v.toNat ≤ 127) : varintLength v = 1 := if_pos h

theorem varintLength_more {v : Word} (h : 127 < v.toNat) : varintLength v = varintLength (v >>> 7) + 1 := by
  have hlt : v.toNat < 2 ^ 32 := v.isLt
  unfold varintLength
  rw [toNat_shiftRight_seven]
  split_ifs <;> omega

theorem varintLength_le_five (v : Word) : varintLength v ≤ 5 := by
  unfold varintLength
  split_ifs <;> omega

theorem varintLength_pos (v : Word) : 0 < varintLength v := by
  unfold varintLength
  split_ifs <;> omega

theorem varintGroup_zero (v : Word) : varintGroup v 0 = v.extractLsb' 0 7 := rfl

theorem varintGroup_succ (v : Word) (i : Nat) : varintGroup v (i + 1) = varintGroup (v >>> 7) i := by
  rw [varintGroup, varintGroup, BitVec.toNat_ushiftRight, ← Nat.shiftRight_add, Nat.mul_succ, Nat.add_comm]

/-- The groups of a value in its `VCONT` bytes, all but the last. -/
def varintContinued (v : Word) : List (BitVec 7) := (List.range (varintLength v - 1)).map (varintGroup v)

/-- The group of a value in its `VLAST` byte. -/
def varintFinal (v : Word) : BitVec 7 := varintGroup v (varintLength v - 1)

theorem varintBytes_eq (v : Word) :
    varintBytes v = (varintContinued v).map vcontByte ++ [vlastByte (varintFinal v)] := by
  rw [varintContinued, List.map_map]
  rfl

theorem length_varintContinued (v : Word) : (varintContinued v).length + 1 = varintLength v := by
  rw [varintContinued, List.length_map, List.length_range]
  exact Nat.sub_add_cancel (varintLength_pos v)

theorem length_varintBytes (v : Word) : (varintBytes v).length = varintLength v := by
  rw [varintBytes_eq, List.length_append, List.length_map]
  exact length_varintContinued v

theorem varintContinued_last {v : Word} (h : v.toNat ≤ 127) : varintContinued v = [] := by
  rw [varintContinued, varintLength_last h]
  rfl

theorem varintFinal_last {v : Word} (h : v.toNat ≤ 127) : varintFinal v = v.extractLsb' 0 7 := by
  rw [varintFinal, varintLength_last h]
  rfl

theorem varintContinued_more {v : Word} (h : 127 < v.toNat) :
    varintContinued v = v.extractLsb' 0 7 :: varintContinued (v >>> 7) := by
  obtain ⟨n, hn⟩ := Nat.exists_eq_add_of_lt (varintLength_pos (v >>> 7))
  simp only [varintContinued, varintLength_more h, hn, Nat.add_sub_cancel, Nat.zero_add, List.range_succ_eq_map,
    List.map_cons, List.map_map, varintGroup_zero]
  exact congrArg _ (List.map_congr_left fun i _ => varintGroup_succ v i)

theorem varintFinal_more {v : Word} (h : 127 < v.toNat) : varintFinal v = varintFinal (v >>> 7) := by
  rw [varintFinal, varintFinal, ← varintGroup_succ, Nat.sub_add_cancel (varintLength_pos _), varintLength_more h,
    Nat.add_sub_cancel]

theorem varintBytes_last {v : Word} (h : v.toNat ≤ 127) : varintBytes v = [vlastByte (v.extractLsb' 0 7)] := by
  rw [varintBytes_eq, varintContinued_last h, varintFinal_last h]
  rfl

theorem varintBytes_more {v : Word} (h : 127 < v.toNat) :
    varintBytes v = vcontByte (v.extractLsb' 0 7) :: varintBytes (v >>> 7) := by
  rw [varintBytes_eq, varintBytes_eq, varintContinued_more h, varintFinal_more h]
  rfl

/-- The low group is the remainder modulo 128. -/
theorem toNat_lowGroup (v : Word) : (v.extractLsb' 0 7).toNat = v.toNat % 128 := by
  rw [BitVec.extractLsb'_toNat, Nat.shiftRight_zero]

/-- The groups of the minimal varint stand for the value (30_encoding R67, R70). -/
theorem varintSum_minimal (v : Word) : varintSum (varintContinued v ++ [varintFinal v]) = v.toNat := by
  induction v using varint_induction with
  | last v h =>
    rw [varintContinued_last h, varintFinal_last h]
    simp only [List.nil_append, varintSum, toNat_lowGroup]
    omega
  | more v h ih =>
    rw [varintContinued_more h, varintFinal_more h, List.cons_append, varintSum, ih, toNat_lowGroup,
      toNat_shiftRight_seven]
    exact Nat.mod_add_div _ _

/-! ## `VLEN` -/

/-- The comparison that tells whether more groups follow (40_varint R78, R79), as one of numbers. -/
theorem moreGroups_iff (v : Word) : 0x7F#32 < v ↔ 127 < v.toNat := BitVec.lt_def

/-- The loop of `VLEN` counts on to the length (40_varint R79): with fuel for every group but the last, it leaves off at
that one. -/
theorem vlenLoop_length {fuel : Nat} {v : Word} (n : Nat) (h : varintLength v ≤ fuel + 1) :
    (vlenLoop fuel (n + 1) v).1 = n + varintLength v := by
  induction fuel generalizing n v with
  | zero =>
    have := varintLength_pos v
    change n + 1 = n + varintLength v
    omega
  | succ fuel ih =>
    rw [vlenLoop]
    by_cases hv : 127 < v.toNat
    · rw [varintLength_more hv] at h ⊢
      rw [if_pos ((moreGroups_iff v).2 hv), ih (n + 1) (by omega)]
      omega
    · rw [if_neg (mt (moreGroups_iff v).1 hv), varintLength_last (Nat.le_of_not_lt hv)]

/-- Settles O15: the common start, then the loop, whose fuel is enough for the five groups of a word. -/
theorem vlenGivesTheMinimalLength : Obligations.VlenGivesTheMinimalLength := by
  intro s hb
  have hlen := vlenLoop_length (fuel := 4) 0 (varintLength_le_five s.regs.arg)
  refine ⟨(vlenLoop 4 1 s.regs.arg).2, ?_⟩
  rw [exec, execVlen, runCommand_idle hb, Res.outcome_ok, ← Nat.zero_add (varintLength _), ← hlen]
  rfl

/-! ## The element emitted next -/

/-- The next element of a `VENC`, while more groups follow (40_varint R78). -/
theorem vencElement_more {s : State} (h : 127 < s.vu.vv.toNat) : vencElement s = .vcont (s.vu.vv.extractLsb' 0 7) :=
  if_pos ((moreGroups_iff _).2 h)

/-- The next element of a `VENC`, at the last group (40_varint R78). -/
theorem vencElement_last {s : State} (h : s.vu.vv.toNat ≤ 127) : vencElement s = .vlast (s.vu.vv.extractLsb' 0 7) :=
  if_neg (mt (moreGroups_iff _).1 (Nat.not_lt.2 h))

theorem cuElement_trailer {s : State} (h : s.cu.len = 0) : cuElement s = (.trailer s.regs.csum, s) := if_pos h

theorem cuElement_lit {s : State} (h : s.cu.len ≠ 0) (hm : s.clamped.cu.finder.ml.toNat ≤ 2) :
    cuElement s = (.lit (s.winAt s.curR), s.clamped) := by
  rw [cuElement, if_neg h, clamp_eq]
  exact if_pos (BitVec.le_def.2 hm)

theorem cuElement_ref {s : State} (h : s.cu.len ≠ 0) (hm : 2 < s.clamped.cu.finder.ml.toNat) :
    cuElement s = (.ref (s.curR - s.cu.finder.mp) s.clamped.cu.finder.ml.toNat, s.clamped) := by
  rw [cuElement, if_neg h, clamp_eq]
  exact if_neg fun hle => Nat.not_le.2 hm (BitVec.le_def.1 hle)

/-- A step of a `VENC` runs the element that it emits next. -/
theorem step_venc {s : State} (hq : s.port.queue = []) (hr : s.running = some .venc) :
    step s = exec (vencElement s) s := by
  rw [step_quiet hq]
  exact engineStep_of_fetch (State.busy_of_running hr) (by rw [fetch, hr])

/-- A step of a `COMP` runs the element that it emits next, in the state after the clamp. -/
theorem step_comp {s : State} (hq : s.port.queue = []) (hr : s.running = some .comp) :
    step s = exec (cuElement s).1 (cuElement s).2 := by
  rw [step_quiet hq]
  exact engineStep_of_fetch (State.busy_of_running hr) (by rw [fetch, hr])

/-- Settles O7: the unit's step, and its element in each case. -/
theorem stepRunsTheElementEmitted : Obligations.StepRunsTheElementEmitted := by
  intro s hq
  refine ⟨fun hr hv => ?_, fun hr hv => ?_, fun hr hl => ?_, fun hr hl => ⟨s.clamped, rfl, fun hm => ?_, fun hm => ?_⟩⟩
  · rw [step_venc hq hr, vencElement_more hv]
    rfl
  · rw [step_venc hq hr, vencElement_last hv]
    rfl
  · rw [step_comp hq hr, cuElement_trailer hl]
  · rw [step_comp hq hr, cuElement_lit hl hm]
    rfl
  · rw [step_comp hq hr, cuElement_ref hl hm]

/-! ## `VENC` -/

/-- A running `VENC` writes a `VCONT` and drops the low group (40_varint R78). -/
theorem exec_vcont_venc {s : State} (p : BitVec 7) (hr : s.running = some .venc)
    (hc : s.regs.outCount.toNat + 1 < 2 ^ 32) (hv : 127 < s.vu.vv.toNat) :
    exec (.vcont p) s = .next { s.afterWriting [vcontByte p] with vu := { s.vu with vv := s.vu.vv >>> 7 } } := by
  simp only [exec, execVcont, hr, if_pos ((moreGroups_iff _).2 hv), streamWrite_ok _ hc, Res.ok_bind, Res.outcome_ok]
  rfl

/-- A running `VENC` writes the `VLAST` and completes (40_varint R78). -/
theorem exec_vlast_venc {s : State} (p : BitVec 7) (hr : s.running = some .venc)
    (hc : s.regs.outCount.toNat + 1 < 2 ^ 32) (hv : s.vu.vv.toNat ≤ 127) :
    exec (.vlast p) s = .next ((s.afterWriting [vlastByte p]).doneWith (s.regs.outCount + 1)) := by
  simp only [exec, execVlast, hr, if_neg (mt (moreGroups_iff _).1 (Nat.not_lt.2 hv)), streamWrite_ok _ hc, Res.ok_bind,
    Res.outcome_ok]
  rfl

theorem vcontByte_eq (p : BitVec 7) : vcontByte p = BitVec.ofNat 8 (0x80 + p.toNat) := by
  revert p
  decide

theorem vlastByte_eq (p : BitVec 7) : vlastByte p = BitVec.ofNat 8 p.toNat := by
  revert p
  decide

/-- Settles O21: the two bytes as numbers, and the shift as a division. -/
theorem vencWritesOneByteAStep : Obligations.VencWritesOneByteAStep := by
  intro s p hr hc
  refine ⟨fun hv => ?_, fun hv => ?_⟩
  · have hshift : s.vu.vv >>> 7 = BitVec.ofNat 32 (s.vu.vv.toNat / 128) := by
      rw [← toNat_shiftRight_seven, BitVec.ofNat_toNat, BitVec.setWidth_eq]
    rw [exec_vcont_venc p hr hc hv, vcontByte_eq, hshift]
  · rw [exec_vlast_venc p hr hc hv, vlastByte_eq]

/-! ## A whole `VENC` -/

/-- The state with the working copy `VV` of the value (10_state R35). -/
def State.withValue (s : State) (v : Word) : State := { s with vu := { s.vu with vv := v } }

/-- A written command word runs the command it encodes (60_exceptions R131; log 2). -/
theorem step_writeCommand {s : State} {w : Word} {i : Instr} {rest : List HostAction} (h : decodeCommand w = .ok i) :
    step (s.withQueue (.write .cmd w :: rest)) = exec i (s.withQueue rest) := by
  change hostCommand w (s.withQueue rest) = _
  rw [hostCommand, h]

theorem exec_venc_idle {s : State} (hb : s.busy = false) :
    exec .venc s = .next ((s.started 1).withValue s.regs.arg) := by
  rw [exec, execVenc, runCommand_idle hb]
  rfl

theorem step_venc_more {s : State} {v : Word} (hq : s.port.queue = []) (hr : s.running = some .venc)
    (hc : s.regs.outCount.toNat + 1 < 2 ^ 32) (hv : 127 < v.toNat) :
    step (s.withValue v) = .next ((s.afterWriting [vcontByte (v.extractLsb' 0 7)]).withValue (v >>> 7)) := by
  rw [step_venc (s := s.withValue v) hq hr, vencElement_more (s := s.withValue v) hv,
    exec_vcont_venc (s := s.withValue v) _ hr hc hv]
  rfl

theorem step_venc_last {s : State} {v : Word} (hq : s.port.queue = []) (hr : s.running = some .venc)
    (hc : s.regs.outCount.toNat + 1 < 2 ^ 32) (hv : v.toNat ≤ 127) :
    step (s.withValue v) =
      .next (((s.withValue v).afterWriting [vlastByte (v.extractLsb' 0 7)]).doneWith (s.regs.outCount + 1)) := by
  rw [step_venc (s := s.withValue v) hq hr, vencElement_last (s := s.withValue v) hv,
    exec_vlast_venc (s := s.withValue v) _ hr hc hv]
  rfl

/-- A `VENC` with the value `v` left writes the minimal varint of `v`, one byte a step, and completes (40_varint R78). -/
theorem venc_reaches (v : Word) {s : State} (hq : s.port.queue = []) (hr : s.running = some .venc)
    (hc : s.regs.outCount.toNat + varintLength v < 2 ^ 32) :
    ∃ w, Reaches (varintLength v) (s.withValue v)
      (((s.withValue w).afterWriting (varintBytes v)).doneWith (s.regs.outCount + BitVec.ofNat 32 (varintLength v))) := by
  induction v using varint_induction generalizing s with
  | last v hv =>
    rw [varintLength_last hv] at hc ⊢
    rw [varintBytes_last hv]
    exact ⟨v, reaches_succ.2 ⟨_, step_venc_last hq hr hc hv, reaches_zero.2 rfl⟩⟩
  | more v hv ih =>
    rw [varintLength_more hv] at hc ⊢
    have hcount := State.afterWriting_outCount (s := s) (bs := [vcontByte (v.extractLsb' 0 7)])
      (by rw [List.length_singleton]; omega)
    obtain ⟨w, hw⟩ := ih (s := s.afterWriting [vcontByte (v.extractLsb' 0 7)]) hq hr
      (by rw [hcount, List.length_singleton]; omega)
    refine ⟨w, reaches_succ.2 ⟨_, step_venc_more hq hr (by omega) hv, ?_⟩⟩
    have hend : ((s.afterWriting [vcontByte (v.extractLsb' 0 7)]).withValue w).afterWriting (varintBytes (v >>> 7)) =
        (s.withValue w).afterWriting (varintBytes v) := by
      rw [varintBytes_more hv]
      exact State.afterWriting_append (s.withValue w) _ _
    have hresult : (s.afterWriting [vcontByte (v.extractLsb' 0 7)]).regs.outCount +
          BitVec.ofNat 32 (varintLength (v >>> 7)) =
        s.regs.outCount + BitVec.ofNat 32 (varintLength (v >>> 7) + 1) := by
      rw [Nat.add_comm, BitVec.ofNat_add, ← BitVec.add_assoc]
      rfl
    rwa [hend, hresult] at hw

/-- Settles O22: the start with the counter at 0, then the run from the whole value. -/
theorem vencCommitsTheMinimalVarint : Obligations.VencCommitsTheMinimalVarint := by
  intro s hb
  have hlen := varintLength_le_five s.regs.arg
  obtain ⟨w, hw⟩ := venc_reaches s.regs.arg (s := (s.withQueue []).started 1) rfl rfl
    (by change 0 + _ < _; omega)
  have hstart : step (s.withQueue [.write .cmd 1]) =
      .next (((s.withQueue []).started 1).withValue s.regs.arg) :=
    (step_writeCommand rfl).trans (exec_venc_idle hb)
  have hrun := reaches_succ.2 ⟨_, hstart, hw⟩
  rw [Nat.add_comm] at hrun
  refine ⟨_, hrun, ?_, rfl, rfl⟩
  simp [State.doneWith, State.afterWriting, State.withValue, State.started, State.withQueue, length_varintBytes]

/-! ## Accumulation -/

theorem varintSum_lt (groups : List (BitVec 7)) : varintSum groups < 2 ^ (7 * groups.length) := by
  induction groups with
  | nil => exact Nat.one_pos
  | cons p rest ih =>
    have hp : p.toNat < 2 ^ 7 := p.isLt
    rw [varintSum, List.length_cons, Nat.mul_succ, Nat.pow_add]
    omega

theorem varintSum_concat (groups : List (BitVec 7)) (p : BitVec 7) :
    varintSum (groups ++ [p]) = varintSum groups + p.toNat * 2 ^ (7 * groups.length) := by
  induction groups with
  | nil => simp [varintSum]
  | cons q rest ih =>
    rw [List.cons_append, varintSum, varintSum, ih, List.length_cons, Nat.mul_succ, Nat.pow_add]
    ring

/-- The groups occupy disjoint bits, so that OR is addition (40_varint R83). -/
theorem or_group_eq_add {sum k : Nat} (h : sum < 2 ^ k) (p : Nat) :
    BitVec.ofNat 32 sum ||| BitVec.ofNat 32 (p * 2 ^ k) = BitVec.ofNat 32 (sum + p * 2 ^ k) := by
  rw [← BitVec.ofNat_or, ← Nat.shiftLeft_eq, Nat.or_comm, ← Nat.shiftLeft_add_eq_or_of_lt h, Nat.add_comm]

/-- A group from the sixth on lies above bit 31 (40_varint R83). -/
theorem ofNat_group_beyond {i : Nat} (h : 5 ≤ i) (p : Nat) : BitVec.ofNat 32 (p * 2 ^ (7 * i)) = 0#32 := by
  have hdvd : 2 ^ 32 ∣ p * 2 ^ (7 * i) := Dvd.dvd.mul_left (Nat.pow_dvd_pow 2 (by omega)) p
  exact BitVec.eq_of_toNat_eq (Nat.mod_eq_zero_of_dvd hdvd)

/-- A sum of up to five groups passes the word exactly when its last group does (40_varint R83). -/
theorem wraps_within {i sum : Nat} (hi : i < 5) (hs : sum < 2 ^ (7 * i)) (p : Nat) :
    2 ^ 32 ≤ sum + p * 2 ^ (7 * i) ↔ 2 ^ 32 ≤ sum ∨ 2 ^ 32 ≤ p * 2 ^ (7 * i) := by
  interval_cases i <;> omega

/-- A group from the sixth on takes the sum past the word unless it is 0 (40_varint R83). -/
theorem wraps_beyond {i : Nat} (hi : 5 ≤ i) (sum : Nat) (p : BitVec 7) :
    2 ^ 32 ≤ sum + p.toNat * 2 ^ (7 * i) ↔ 2 ^ 32 ≤ sum ∨ p ≠ 0 := by
  have hpow : 2 ^ 32 ≤ 2 ^ (7 * i) := Nat.pow_le_pow_right (by omega) (by omega)
  by_cases hp : p = 0
  · simp [hp]
  · have hpos : 0 < p.toNat := Nat.pos_of_ne_zero fun h => hp (BitVec.eq_of_toNat_eq h)
    have hle : 2 ^ (7 * i) ≤ p.toNat * 2 ^ (7 * i) := Nat.le_mul_of_pos_left _ hpos
    simp only [hp, ne_eq, not_false_eq_true, or_true, iff_true]
    omega

/-- `Accumulate(p)` for one of the first five groups (40_varint R83). -/
theorem accumulate_within {s : State} (p : BitVec 7) (h : s.vu.vidx.toNat < 5) :
    accumulate p s = { s with
      vu := { s.vu with
        vacc := s.vu.vacc ||| BitVec.ofNat 32 (p.toNat * 2 ^ (7 * s.vu.vidx.toNat)), vidx := s.vu.vidx + 1 }
      regs := { s.regs with
        vwrap := s.regs.vwrap || decide (2 ^ 32 ≤ p.toNat * 2 ^ (7 * s.vu.vidx.toNat)) } } := by
  rw [accumulate, if_pos (BitVec.lt_def.2 h), Nat.shiftLeft_eq]

/-- `Accumulate(p)` from the sixth group on (40_varint R83). -/
theorem accumulate_beyond {s : State} (p : BitVec 7) (h : 5 ≤ s.vu.vidx.toNat) :
    accumulate p s = { s with regs := { s.regs with vwrap := s.regs.vwrap || decide (p ≠ 0) } } :=
  if_neg fun hlt => Nat.not_lt.2 h (BitVec.lt_def.1 hlt)

/-- `VCONT` in a `VDEC` (40_varint R81). -/
theorem exec_vcont_vdec {s : State} (p : BitVec 7) (hr : s.running = some .vdec) :
    exec (.vcont p) s = .next (accumulate p s) := by
  rw [exec, execVcont, hr, Res.outcome_ok]

/-- `VLAST` in a `VDEC` (40_varint R82). -/
theorem exec_vlast_vdec {s : State} (p : BitVec 7) (hr : s.running = some .vdec) :
    exec (.vlast p) s = .next ((accumulate p s).doneWith (accumulate p s).vu.vacc) := by
  rw [exec, execVlast, hr, Res.outcome_ok, finish_eq]

/-- Settles O20: both bytes accumulate, and the accumulation is the one stated, within the word and beyond it. -/
theorem varintBytesAccumulate : Obligations.VarintBytesAccumulate := by
  intro s p hr full dropped t
  have hacc : accumulate p s = t := by
    by_cases h : s.vu.vidx.toNat < 5
    · simp only [t, full, dropped, accumulate_within p h, if_pos h]
    · simp only [t, full, dropped, accumulate_beyond p (Nat.le_of_not_lt h), if_neg h, BitVec.or_zero]
  rw [exec_vcont_vdec p hr, exec_vlast_vdec p hr, hacc]
  exact ⟨rfl, rfl⟩

/-! ## A whole `VDEC` -/

/-- A `VDEC` started in `s` that has read the groups: what they stand for modulo 2^32, whether anything was dropped, and
the saturated index (40_varint R83). -/
def State.decodedGroups (s : State) (groups : List (BitVec 7)) : State :=
  { s.afterReading groups.length with
    vu := { s.vu with
      vacc := BitVec.ofNat 32 (varintSum groups)
      vidx := BitVec.ofNat 3 (min 5 groups.length) }
    regs := { (s.afterReading groups.length).regs with vwrap := decide (2 ^ 32 ≤ varintSum groups) } }

theorem exec_vdec_idle {s : State} (hb : s.busy = false) : exec .vdec s = .next ((s.started 3).decodedGroups []) := by
  rw [exec, execVdec, runCommand_idle hb]
  rfl

@[simp] theorem decodedGroups_unread (s : State) (groups : List (BitVec 7)) :
    (s.decodedGroups groups).src.unread = s.src.unread.drop groups.length :=
  State.afterReading_unread s groups.length

theorem decodedGroups_vidx (s : State) (groups : List (BitVec 7)) :
    (s.decodedGroups groups).vu.vidx.toNat = min 5 groups.length := by
  change (BitVec.ofNat 3 (min 5 groups.length)).toNat = _
  rw [BitVec.toNat_ofNat]
  omega

/-- Reading and accumulating one more group. -/
theorem accumulate_decodedGroups (s : State) (groups : List (BitVec 7)) (p : BitVec 7) :
    accumulate p ((s.decodedGroups groups).afterReading 1) = s.decodedGroups (groups ++ [p]) := by
  have hidx : ((s.decodedGroups groups).afterReading 1).vu.vidx.toNat = min 5 groups.length :=
    decodedGroups_vidx s groups
  by_cases h : groups.length < 5
  · have hmin : min 5 groups.length = groups.length := Nat.min_eq_right (Nat.le_of_lt h)
    have hmin' : min 5 (groups.length + 1) = groups.length + 1 := Nat.min_eq_right h
    rw [accumulate_within p (by omega), hidx, hmin]
    simp only [State.decodedGroups, State.afterReading, varintSum_concat, List.length_append, List.length_singleton,
      or_group_eq_add (varintSum_lt groups), wraps_within h (varintSum_lt groups), Bool.decide_or, hmin, hmin',
      BitVec.ofNat_add, BitVec.add_assoc, Nat.add_assoc]
    rfl
  · have hle : 5 ≤ groups.length := Nat.le_of_not_lt h
    have hmin : min 5 groups.length = 5 := Nat.min_eq_left hle
    have hmin' : min 5 (groups.length + 1) = 5 := Nat.min_eq_left (by omega)
    rw [accumulate_beyond p (by omega)]
    simp only [State.decodedGroups, State.afterReading, varintSum_concat, List.length_append, List.length_singleton,
      wraps_beyond hle, Bool.decide_or, hmin, hmin', ofNat_group_beyond hle, BitVec.add_zero, BitVec.ofNat_add,
      BitVec.add_assoc, Nat.add_assoc]

/-- A step of a `VDEC` runs the varint byte that comes next (40_varint R80). -/
theorem step_vdec {s : State} {b : Byte} {rest : List Byte} (hq : s.port.queue = []) (hr : s.running = some .vdec)
    (hu : s.src.unread = b :: rest) (hc : s.regs.inCount.toNat + 1 < 2 ^ 32) :
    step s = exec (decodeVarintByte b) (s.afterReading 1) :=
  stepRunsTheElementRead s s .varint _ rest hq (.inl ⟨hr, rfl, rfl⟩) (by rw [hu]; rfl) hc

/-- A `VDEC` that has read the groups `read` reads the others, one byte a step, and completes (40_varint R80). -/
theorem vdec_reaches {s : State} {groups read : List (BitVec 7)} {last : BitVec 7} {rest : List Byte}
    (hq : s.port.queue = []) (hr : s.running = some .vdec)
    (hu : (s.decodedGroups read).src.unread = groups.map vcontByte ++ vlastByte last :: rest)
    (hc : s.regs.inCount.toNat + read.length + groups.length + 1 < 2 ^ 32) :
    Reaches (groups.length + 1) (s.decodedGroups read)
      ((s.decodedGroups (read ++ groups ++ [last])).doneWith
        (BitVec.ofNat 32 (varintSum (read ++ groups ++ [last])))) := by
  have hcount : (s.decodedGroups read).regs.inCount.toNat = s.regs.inCount.toNat + read.length :=
    State.afterReading_inCount (by omega)
  induction groups generalizing read with
  | nil =>
    have hstep : step (s.decodedGroups read) = .next ((s.decodedGroups (read ++ [last])).doneWith
        (BitVec.ofNat 32 (varintSum (read ++ [last])))) := by
      rw [step_vdec (s := s.decodedGroups read) hq hr hu (by omega), decodeVarintByte_vlast,
        exec_vlast_vdec (s := (s.decodedGroups read).afterReading 1) _ hr, accumulate_decodedGroups]
      rfl
    rw [List.append_nil]
    exact reaches_succ.2 ⟨_, hstep, reaches_zero.2 rfl⟩
  | cons p groups ih =>
    rw [List.length_cons] at hc ⊢
    have hstep : step (s.decodedGroups read) = .next (s.decodedGroups (read ++ [p])) := by
      rw [step_vdec (s := s.decodedGroups read) hq hr hu (by omega), decodeVarintByte_vcont,
        exec_vcont_vdec (s := (s.decodedGroups read).afterReading 1) _ hr, accumulate_decodedGroups]
    have hu' : (s.decodedGroups (read ++ [p])).src.unread = groups.map vcontByte ++ vlastByte last :: rest := by
      rw [decodedGroups_unread, List.length_append, ← List.drop_drop, ← decodedGroups_unread, hu]
      rfl
    have hlen : (read ++ [p]).length = read.length + 1 := List.length_append
    have hrest := ih hu' (by omega) (State.afterReading_inCount (by omega))
    rw [List.append_assoc read, List.singleton_append] at hrest
    exact reaches_succ.2 ⟨_, hstep, hrest⟩

/-- Settles O23: the start with nothing read, then the run over all the groups. -/
theorem vdecDecodesAnyVarint : Obligations.VdecDecodesAnyVarint := by
  intro s groups last rest hb hlen hu
  have hrun := vdec_reaches (s := (s.withQueue []).started 3) (groups := groups) (read := []) rfl rfl hu
    (by change 0 + 0 + _ + 1 < _; omega)
  refine ⟨_, reaches_succ.2 ⟨_, (step_writeCommand rfl).trans (exec_vdec_idle hb), hrun⟩, ?_, ?_, ?_⟩
  · simp [State.doneWith, State.decodedGroups, State.afterReading, State.started, State.withQueue]
  · change (((s.withQueue []).started 3).decodedGroups (groups ++ [last])).src.unread = rest
    rw [decodedGroups_unread]
    change s.src.unread.drop _ = rest
    have hfirst : (groups.map vcontByte ++ [vlastByte last]).length = (groups ++ [last]).length := by simp
    rw [hu, List.append_cons (groups.map vcontByte)]
    exact List.drop_left' hfirst
  · simp [State.doneWith, State.decodedGroups, State.afterReading, State.started, State.withQueue]

/-! ## The round trip -/

/-- Settles O24: `VDEC` reads the groups of the minimal varint that `VENC` has committed, whose sum is the value, below
2^32, and whose number is the length that `VLEN` gives. -/
theorem varintRoundTrip : Obligations.VarintRoundTrip := by
  intro s u rest hs hu
  obtain ⟨t, hrun, hregs, hsnk, -⟩ := vencCommitsTheMinimalVarint s hs
  obtain ⟨vv, hvlen⟩ := vlenGivesTheMinimalLength s hs
  have hlen := length_varintContinued s.regs.arg
  have hfive := varintLength_le_five s.regs.arg
  have hvalue : varintSum (varintContinued s.regs.arg ++ [varintFinal s.regs.arg]) = s.regs.arg.toNat :=
    varintSum_minimal s.regs.arg
  have hword : (BitVec.ofNat 32 (varintLength s.regs.arg)).toNat = varintLength s.regs.arg :=
    Nat.mod_eq_of_lt (by omega)
  refine ⟨t, varintBytes s.regs.arg, _, (varintContinued s.regs.arg).length + 2, _, hrun, by rw [hregs], by rw [hsnk], _,
    hvlen, hword, fun hunread => ?_⟩
  rw [varintBytes_eq, List.append_assoc, List.singleton_append] at hunread
  obtain ⟨v, hv, hvregs, hvsrc, -⟩ :=
    vdecDecodesAnyVarint u (varintContinued s.regs.arg) (varintFinal s.regs.arg) rest hu (by omega) hunread
  refine ⟨v, hv, by rw [hvregs], ?_, ?_, ?_, hvsrc⟩
  · rw [hvregs, hvalue, BitVec.ofNat_toNat, BitVec.setWidth_eq]
  · rw [hvregs, hvalue]
    exact decide_eq_false (Nat.not_le.2 s.regs.arg.isLt)
  · rw [hvregs, hlen]
    exact hword

end Sys2Proof.Machine
end

section
/-! The elements of a `DECOMP` (41_decompress R89 to R95): what each does, and from that what a step does. -/
namespace Sys2Proof.Machine

/-! ## The elements -/

/-- `FLAG` where the decompression unit selects it (41_decompress R89). -/
theorem exec_flag_decomp {s : State} (f : Byte) (hr : s.running = some .decomp) (hz : s.du.rem ≠ 0)
    (hf : s.du.fcnt = 0) : exec (.flag f) s = .next (loadFlags f s) := by
  rw [exec, execFlag, hr]
  simp only [duFlag, if_pos (And.intro hz hf), Res.outcome_ok]

/-- `LIT` in a `DECOMP` (41_decompress R91). -/
theorem exec_lit_decomp {s : State} (d : Byte) (hr : s.running = some .decomp) (hz : s.du.rem ≠ 0)
    (hc : s.regs.outCount.toNat + 1 < 2 ^ 32) : exec (.lit d) s = .next (s.emitted d) := by
  rw [exec, execLit, hr]
  simp only [duLit, if_pos hz, emit_ok d hc, Res.outcome_ok]

/-- `REF` in a `DECOMP`, within the budget: its copy (41_decompress R92). -/
theorem exec_ref_decomp {s t : State} {offset : Cursor} {count : Nat} (hr : s.running = some .decomp)
    (hz : s.du.rem ≠ 0) (hle : count ≤ s.du.rem.toNat) (hcopy : copyRun (s.curR - offset) count s = .ok t) :
    exec (.ref offset count) s = .next t := by
  rw [exec, execRef, hr]
  simp only [duRef, if_pos hz, if_neg (Nat.not_lt.2 hle), hcopy, Res.outcome_ok]

/-- `REF` in a `DECOMP`, beyond the budget (41_decompress R92, 70_reset R155). -/
theorem exec_ref_overflow {s : State} (offset : Cursor) {count : Nat} (hr : s.running = some .decomp)
    (hz : s.du.rem ≠ 0) (hlt : s.du.rem.toNat < count) :
    exec (.ref offset count) s = .next (s.failedWith .overflow (BitVec.ofNat 32 count)) := by
  rw [exec, execRef, hr]
  simp only [duRef, if_pos hz, if_pos hlt, raise_eq, Res.outcome_ok]

/-- `TRAILER` in a `DECOMP` (41_decompress R95). -/
theorem exec_trailer_decomp {s : State} (w : Word) (hr : s.running = some .decomp) (hz : s.du.rem = 0) :
    exec (.trailer w) s =
      .next (if w = s.regs.csum then s.doneWith s.sampled.arg else s.failedWith .malformedStream w) := by
  rw [exec, execTrailer, hr]
  simp only [duTrailer, if_pos hz]
  split <;> rfl

/-- Settles O26: an emission is all that a literal is. -/
theorem literalEmitsItsByte : Obligations.LiteralEmitsItsByte :=
  fun _ d hr hz hc => exec_lit_decomp d hr hz hc

/-- Settles O28: the budget is tested before anything is emitted. -/
theorem referenceBeyondTheBudgetOverflows : Obligations.ReferenceBeyondTheBudgetOverflows :=
  fun _ offset _ hr hz hlt _ => exec_ref_overflow offset hr hz hlt

/-- Settles O29. -/
theorem trailerDecidesTheDecode : Obligations.TrailerDecidesTheDecode := by
  intro s w hr hz
  rw [exec_trailer_decomp w hr hz]
  exact ⟨fun hw => by rw [if_pos hw], fun hw => by rw [if_neg hw]⟩

/-- Settles O27: the copy emits the run, and emits write it to the window from the cursor on. -/
theorem referenceCopiesItsRun : Obligations.ReferenceCopiesItsRun := by
  intro s offset count hr hw hlo hhi hle hc
  have hz : s.du.rem ≠ 0 := fun e => by simp [e] at hle; omega
  have hlen : (s.runBytes offset count).length = count := by simp [State.runBytes]
  have hcopy := copyRun_law s offset 0 count hw (by omega) (by omega)
  rw [Nat.zero_add, BitVec.add_zero] at hcopy
  obtain ⟨win, hrun⟩ := emittedRun_eq (s.runBytes offset count) s
  obtain ⟨hnew, hold⟩ := emittedRun_window (s.runBytes offset count) s hw (by omega)
  have hwin : ((s.runBytes offset count).foldl State.emitted s).win = win := by rw [hrun]
  rw [hlen] at hrun hnew hold
  rw [hwin] at hnew hold
  refine ⟨win, (exec_ref_decomp hr hz hle hcopy).trans (congrArg _ hrun), fun k hk => ?_, hold⟩
  rw [hnew k hk]
  simp [State.runBytes, hk]

/-! ## The steps -/

/-- An element whose last byte is not there (60_exceptions R136, 20_memory R40). -/
theorem fetchElement_of_short {sel : Select} {s : State} (hl : s.src.unread.length < sel.length)
    (hc : s.regs.inCount.toNat + s.src.unread.length < 2 ^ 32) :
    fetchElement sel s = .ok (.ended ((s.afterReadUpTo sel.length).failedWith .truncated 0)) := by
  have htake : s.src.unread.take sel.length = s.src.unread := List.take_of_length_le (Nat.le_of_lt hl)
  have hread := readUpTo_ok (s := s) sel.length (by rwa [htake])
  rw [fetchElement, hread, htake, Res.ok_bind]
  simp only [decodeElement_short sel _ hl, raise_eq]

/-- A step of a `VDEC` or `DECOMP` whose source ends inside the element selected (60_exceptions R136). -/
theorem State.Selects.step_short {s s1 : State} {sel : Select} (hq : s.port.queue = []) (h : s.Selects sel s1)
    (hl : s.src.unread.length < sel.length) (hc : s.regs.inCount.toNat + s.src.unread.length < 2 ^ 32) :
    step s = .next ((s1.afterReadUpTo sel.length).failedWith .truncated 0) := by
  obtain ⟨hsrc, hregs⟩ := h.frame
  obtain ⟨hb, hfetch⟩ := h.fetch
  rw [← hsrc] at hl hc
  rw [← hregs] at hc
  rw [step_quiet hq, engineStep, if_pos hb, hfetch, fetchElement_of_short hl hc]

/-- A step of a `DECOMP` at a flag byte (41_decompress R89). -/
theorem step_flag {s : State} {f : Byte} {rest : List Byte} (hq : s.port.queue = []) (hr : s.running = some .decomp)
    (hz : s.du.rem ≠ 0) (hf : s.du.fcnt = 0) (hu : s.src.unread = f :: rest)
    (hc : s.regs.inCount.toNat + 1 < 2 ^ 32) : step s = .next (loadFlags f (s.afterReading 1)) :=
  (stepRunsTheElementRead s s .flag _ rest hq (.inr ⟨hr, .inr (.inl ⟨hz, hf, rfl, rfl⟩)⟩) (by rw [hu]; rfl) hc).trans
    (exec_flag_decomp (s := s.afterReading 1) f hr hz hf)

/-- A step of a `DECOMP` at a token runs it, its flag bit taken (41_decompress R90). -/
theorem step_token {s : State} {i : Instr} {rest : List Byte} {bit : Bool} (hq : s.port.queue = [])
    (hr : s.running = some .decomp) (hz : s.du.rem ≠ 0) (hf : s.du.fcnt ≠ 0) (hbit : s.du.flags.getLsbD 0 = bit)
    (hdec : decodeElement (.token bit) s.src.unread = .ok (i, rest))
    (hc : s.regs.inCount.toNat + (Select.token bit).length < 2 ^ 32) :
    step s = exec i (s.flagTaken.afterReading (Select.token bit).length) :=
  stepRunsTheElementRead s s.flagTaken (.token bit) i rest hq
    (.inr ⟨hr, .inr (.inr ⟨hz, hf, by rw [hbit], rfl⟩)⟩) hdec hc

/-- A step of a `DECOMP` at the trailer (41_decompress R95). -/
theorem step_trailer {s : State} {w : Word} {rest : List Byte} (hq : s.port.queue = []) (hr : s.running = some .decomp)
    (hz : s.du.rem = 0) (hdec : decodeElement .trailer s.src.unread = .ok (.trailer w, rest))
    (hc : s.regs.inCount.toNat + 4 < 2 ^ 32) :
    step s = .next (if w = s.regs.csum then (s.afterReading 4).doneWith s.sampled.arg
      else (s.afterReading 4).failedWith .malformedStream w) :=
  (stepRunsTheElementRead s s .trailer _ rest hq (.inr ⟨hr, .inl ⟨hz, rfl, rfl⟩⟩) hdec hc).trans
    (exec_trailer_decomp (s := s.afterReading 4) w hr hz)

/-- Settles O25: the flag byte runs as any element does; an ended source is an element without its one byte. -/
theorem flagByteLoadsTheShifter : Obligations.FlagByteLoadsTheShifter := by
  intro s f hr hz hf
  refine ⟨exec_flag_decomp f hr hz hf, fun hq hb hc => step_flag hq hr hz hf (State.unread_of_some hb) hc,
    fun hq hb => ?_⟩
  have hu := State.unread_of_none hb
  have hsel : s.Selects .flag s := .inr ⟨hr, .inr (.inl ⟨hz, hf, rfl, rfl⟩)⟩
  rw [hsel.step_short hq (by rw [hu]; decide) (by rw [hu]; exact s.regs.inCount.isLt),
    State.afterReadUpTo_short (by rw [hu]; decide), hu]
  simp

/-! ## Whole steps -/

/-- A `DECOMP` that a step ends `DONE` stood at a right trailer, with nothing left to produce (41_decompress R86). -/
theorem blockStep_decomp_done {s t : State} (h : BlockStep s t) (hs : s.running = some .decomp)
    (hd : t.regs.state = .done) :
    s.du.rem = 0 ∧ 4 ≤ s.src.unread.length ∧ s.src.unread.take 4 = bytesOfWord s.regs.csum ∧
      t = (s.afterReading 4).doneWith s.sampled.arg := by
  have other : ∀ {op}, op ≠ .decomp → s.running ≠ some op := fun hn h => running_ne h hn hs
  have busy : s.regs.state ≠ .done := fun e => by
    have := ((State.running_iff s _).1 hs).1
    rw [e] at this
    cases this
  clear hs
  cases h with
  | trailerRight _ hz _ hl hw => exact ⟨hz, hl, hw, rfl⟩
  | flag => exact absurd hd busy
  | lit => exact absurd hd busy
  | ref _ _ _ _ _ _ _ _ _ _ _ _ _ hcopy =>
    obtain ⟨bs, -, rfl⟩ := copyRun_cases hcopy
    obtain ⟨win, hrun⟩ := emittedRun_eq bs (s.flagTaken.afterReading 2)
    rw [hrun] at hd
    exact absurd hd busy
  | truncated => cases hd
  | overflow => cases hd
  | trailerWrong => cases hd
  | _ => exact absurd ‹s.running = some _› (other (by decide))

/-- Settles O33: with nothing left to produce, `ARG` bytes are pending and `CSUM` is their sum. -/
theorem decompIsDoneOnlyWithArgBytesOfTheRightSum : Obligations.DecompIsDoneOnlyWithArgBytesOfTheRightSum := by
  intro s t hinv hr hq hstep hdone
  have hb := State.busy_of_running hr
  obtain ⟨hz, hl, hw, rfl⟩ := blockStep_decomp_done (step_quiet_busy hq hb hstep).1 hr hdone
  obtain ⟨-, -, hpend, -⟩ := hinv.status.2.1 hb
  obtain ⟨hcount, -, hcsum, -⟩ := hinv.decomp hr
  have hout : s.regs.outCount.toNat = s.sampled.arg.toNat := by
    rw [hz] at hcount
    exact hcount
  exact ⟨s.snk.pending, rfl, hpend.trans hout, rfl, BitVec.eq_of_toNat_eq hout, hcsum, hl, hcsum ▸ hw,
    s.afterReading_unread 4⟩

/-- A step of a `DECOMP` produces no more than `ARG` bytes, and leaves the source's bytes alone. -/
structure State.DecodesTo (s t : State) : Prop where
  sampled : t.sampled = s.sampled
  bytes : t.src.bytes = s.src.bytes
  outCount : t.regs.outCount.toNat ≤ s.sampled.arg.toNat

/-- Emissions within the budget read nothing and stay within `ARG` (41_decompress R92, R93). -/
theorem State.CountersOk.decodesTo {s : State} (h : s.CountersOk) (bs : List Byte) (hl : bs.length ≤ s.du.rem.toNat) :
    s.DecodesTo (bs.foldl State.emitted s) ∧ (bs.foldl State.emitted s).src = s.src := by
  obtain ⟨hcount, -⟩ := h.emittedAll bs hl
  obtain ⟨win, hrun⟩ := emittedRun_eq bs s
  rw [hrun] at hcount ⊢
  exact ⟨⟨rfl, rfl, Nat.le.intro hcount⟩, rfl⟩

/-- An element answers where the state of the decompression unit selects it, whatever its operands are; it reads nothing
beyond itself (41_decompress R99). -/
theorem exec_decomp_answers {s : State} {i : Instr} {sel : Select} {used : List Byte} (hr : s.running = some .decomp)
    (hcount : s.CountersOk) (henc : encode i = .element sel used)
    (hsel : sel = .trailer ∧ s.du.rem = 0 ∨ sel = .flag ∧ s.du.rem ≠ 0 ∧ s.du.fcnt = 0 ∨
      (∃ bit, sel = .token bit) ∧ s.du.rem ≠ 0) :
    ∃ t, exec i s = .next t ∧ s.DecodesTo t ∧ t.src = s.src := by
  have hsum := hcount.1
  have harg := s.sampled.arg.isLt
  have hpos : s.du.rem ≠ 0 → 0 < s.du.rem.toNat := fun hz => Nat.pos_of_ne_zero fun e => hz (BitVec.eq_of_toNat_eq e)
  cases i with
  | trailer w =>
    cases henc
    have hz : s.du.rem = 0 := by simpa using hsel
    refine ⟨_, exec_trailer_decomp w hr hz, ?_⟩
    split <;> exact ⟨⟨rfl, rfl, Nat.le.intro hsum⟩, rfl⟩
  | flag f =>
    cases henc
    obtain ⟨hz, hf⟩ : s.du.rem ≠ 0 ∧ s.du.fcnt = 0 := by simpa using hsel
    exact ⟨_, exec_flag_decomp f hr hz hf, ⟨rfl, rfl, Nat.le.intro hsum⟩, rfl⟩
  | lit d =>
    cases henc
    have hz : s.du.rem ≠ 0 := by simpa using hsel
    have := hpos hz
    exact ⟨_, exec_lit_decomp d hr hz (by omega), hcount.decodesTo [d] this⟩
  | ref offset count =>
    cases henc
    have hz : s.du.rem ≠ 0 := by simpa using hsel
    by_cases hle : count ≤ s.du.rem.toNat
    · obtain ⟨t, ht⟩ := copyRun_ok (s.curR - offset) count (s := s) (by omega)
      obtain ⟨bs, rfl, rfl⟩ := copyRun_cases ht
      exact ⟨_, exec_ref_decomp hr hz hle ht, hcount.decodesTo bs hle⟩
    · exact ⟨_, exec_ref_overflow offset hr hz (Nat.lt_of_not_le hle), ⟨rfl, rfl, Nat.le.intro hsum⟩, rfl⟩
  | vcont p => cases henc; simp at hsel
  | vlast p => cases henc; simp at hsel
  | _ => cases henc

/-- A step of a `DECOMP` answers, and unless it ends the operation it has read something (41_decompress R99). -/
theorem decomp_step_answers {s : State} (hq : s.port.queue = []) (hr : s.running = some .decomp)
    (hcount : s.CountersOk) (hin : s.regs.inCount.toNat + s.src.unread.length < 2 ^ 32) :
    ∃ t, step s = .next t ∧ s.DecodesTo t ∧ (t.busy = true → t.src.unread.length < s.src.unread.length) := by
  have hsel := duSelect_selects hr
  generalize (duSelect s).1 = sel, (duSelect s).2 = s1 at hsel
  obtain ⟨hsrc, hregs⟩ := hsel.frame
  have hs1 : s1.CountersOk ∧ s1.sampled = s.sampled := by
    rcases hsel with ⟨-, -, rfl⟩ | ⟨-, ⟨-, -, rfl⟩ | ⟨-, -, -, rfl⟩ | ⟨-, hf, -, rfl⟩⟩
    · exact ⟨hcount, rfl⟩
    · exact ⟨hcount, rfl⟩
    · exact ⟨hcount, rfl⟩
    · exact ⟨hcount.flagTaken hf, rfl⟩
  obtain ⟨hcount1, hsampled⟩ := hs1
  have hbytes : s1.src.bytes = s.src.bytes := by rw [hsrc]
  by_cases hl : s.src.unread.length < sel.length
  · exact ⟨_, hsel.step_short hq hl hin, ⟨hsampled, hbytes, hsampled ▸ Nat.le.intro hcount1.1⟩, nofun⟩
  · have hl := Nat.le_of_not_lt hl
    obtain ⟨i, -, hdec⟩ := decodeElement_full hl
    obtain ⟨-, used, henc, -⟩ := encode_of_decodeElement hdec
    have hr1 : (s1.afterReading sel.length).running = some .decomp :=
      (State.running_congr (congrArg Regs.cmd hregs) (congrArg Regs.state hregs)).trans hr
    have hselected : sel = .trailer ∧ s1.du.rem = 0 ∨ sel = .flag ∧ s1.du.rem ≠ 0 ∧ s1.du.fcnt = 0 ∨
        (∃ bit, sel = .token bit) ∧ s1.du.rem ≠ 0 := by
      rcases hsel with ⟨hv, -⟩ | ⟨-, ⟨hz, rfl, rfl⟩ | ⟨hz, hf, rfl, rfl⟩ | ⟨hz, -, rfl, rfl⟩⟩
      · exact running_ne hv (by decide) hr
      · exact .inl ⟨rfl, hz⟩
      · exact .inr (.inl ⟨rfl, hz, hf⟩)
      · exact .inr (.inr ⟨⟨_, rfl⟩, hz⟩)
    obtain ⟨t, hexec, hto, htsrc⟩ := exec_decomp_answers hr1 hcount1 henc hselected
    refine ⟨t, (stepRunsTheElementRead s s1 sel i _ hq hsel hdec (by omega)).trans hexec,
      ⟨hto.sampled.trans hsampled, hto.bytes.trans hbytes, hsampled ▸ hto.outCount⟩, fun _ => ?_⟩
    have hpos : 0 < sel.length := by rcases sel with _ | (_ | _) | _ | _ <;> decide
    rw [htsrc, State.afterReading_unread, hsrc, List.length_drop]
    omega

/-- Settles O34, by induction on the bytes left: each step that goes on reads, and the invariants leave it room. -/
theorem decompAlwaysEnds : Obligations.DecompAlwaysEnds := by
  intro s
  induction hn : s.src.unread.length using Nat.strong_induction_on generalizing s with
  | h n ih =>
    subst hn
    intro hinv hr hq hlen
    have hb := State.busy_of_running hr
    obtain ⟨-, -, -, hin⟩ := hinv.status.2.1 hb
    obtain ⟨hpos, -⟩ := hinv.status.2.2.2
    have hroom : s.regs.inCount.toNat + s.src.unread.length < 2 ^ 32 := by
      rw [Source.unread_length]
      omega
    obtain ⟨t, hstep, ⟨hsampled, hbytes, hout⟩, hfewer⟩ := decomp_step_answers hq hr (hinv.decomp hr) hroom
    have htinv := step_keeps_inv hinv hstep
    obtain ⟨htpos, -⟩ := htinv.status.2.2.2
    obtain ⟨hblock, htq⟩ := step_quiet_busy hq hb hstep
    have hcom := outputIsVisibleOnlyWhenDone s t hinv.status hstep
    rcases blockStep_state hb hblock with hbusy | hend
    · have htb := t.busy_iff.2 hbusy
      have htr : t.running = some .decomp := by
        rcases blockStep_running hblock with e | e
        · exact e.trans hr
        · exact absurd e (htinv.status.2.1 htb).1
      obtain ⟨k, v, hk, hreach, hvend, hvbytes, hvpos, hvout, hvcom⟩ :=
        ih _ (hfewer htb) t rfl htinv htr htq (hbytes ▸ hlen)
      have hfew := hfewer htb
      refine ⟨k + 1, v, by omega, reaches_succ.2 ⟨t, hstep, hreach⟩, hvend, hvbytes.trans hbytes, hbytes ▸ hvpos,
        hsampled ▸ hvout, fun hf => (hvcom hf).trans (hcom.resolve_right fun ⟨hd, _⟩ => ?_)⟩
      rw [hbusy] at hd
      cases hd
    · refine ⟨1, t, Nat.le_add_left 1 _, reaches_succ.2 ⟨t, hstep, reaches_zero.2 rfl⟩, hend, hbytes, hbytes ▸ htpos,
        hout, fun hf => hcom.resolve_right fun ⟨hd, _⟩ => ?_⟩
      rw [hf] at hd
      cases hd

/-! ## The checksum -/

/-- The addend of a byte as a number (41_decompress R94). -/
theorem csumAddend_toNat (b : Byte) :
    (csumAddend false b).toNat = b.toNat ∧
      (csumAddend true b).toNat = if b.toNat < 128 then b.toNat else b.toNat + 0xFFFFFF00 := by
  revert b
  decide

/-- The signed addend of a byte of 128 or more is 256 less than the unsigned one. -/
theorem csumAddend_signed (b : Byte) :
    csumAddend true b = csumAddend false b - BitVec.ofNat 32 (256 * if 128 ≤ b.toNat then 1 else 0) := by
  revert b
  decide

/-- The signed sum is less than the unsigned one by 256 for each byte of 128 or more. -/
theorem checksum_signed (bytes : List Byte) :
    checksum true bytes = checksum false bytes -
      BitVec.ofNat 32 (256 * (bytes.filter fun b => decide (128 ≤ b.toNat)).length) := by
  induction bytes using List.reverseRecOn with
  | nil => rfl
  | append_singleton bytes b ih =>
    have hlen : (((bytes ++ [b]).filter fun b => decide (128 ≤ b.toNat)).length) =
        (bytes.filter fun b => decide (128 ≤ b.toNat)).length + if 128 ≤ b.toNat then 1 else 0 := by
      by_cases h : 128 ≤ b.toNat <;> simp [h]
    have hlast : ∀ signed, checksum signed (bytes ++ [b]) = checksum signed bytes + csumAddend signed b := fun _ => by
      simp [checksum, csumAdd]
    rw [hlast, hlast, ih, csumAddend_signed, hlen, Nat.mul_add, BitVec.ofNat_add, sub_add_sub_comm]

/-- Settles O31: the addends are those of R94, and the sums differ by 256 for each byte of 128 or more. -/
theorem checksumIsAdditiveInBothModes : Obligations.ChecksumIsAdditiveInBothModes := by
  refine ⟨fun acc b => ?_, fun bytes => ?_⟩
  · obtain ⟨hunsigned, hsigned⟩ := csumAddend_toNat b
    simp only [csumAdd, BitVec.toNat_add, hunsigned, hsigned, and_self]
  · rw [checksum_signed, eq_comm, sub_eq_self, ← BitVec.toNat_inj, BitVec.toNat_ofNat]
    exact Nat.dvd_iff_mod_eq_zero.symm

/-! ## `DECOMP` of nothing -/

/-- The state in which a `DECOMP` starts, with no action of the host to come (41_decompress R87, 60_exceptions R131). -/
def State.decompStart (s : State) : State := duInit ((s.withQueue []).started 4)

theorem step_startDecomp {s : State} (hb : s.busy = false) :
    step (s.withQueue [.write .cmd 4]) = .next s.decompStart := by
  have hb' : (s.withQueue []).busy = false := hb
  rw [step_writeCommand (i := .decomp) rfl, exec, execDecomp, runCommand_idle hb', Res.outcome_ok]
  rfl

/-- The value of a trailer, least significant byte first (30_encoding R66). -/
theorem wordOfBytes_toNat (t0 t1 t2 t3 : Byte) : (wordOfBytes t0 t1 t2 t3).toNat =
    t0.toNat + 256 * t1.toNat + 65536 * t2.toNat + 16777216 * t3.toNat := by
  have h0 : t0.toNat < 2 ^ 8 := t0.isLt
  have h1 : t1.toNat < 2 ^ 8 := t1.isLt
  have h2 : t2.toNat < 2 ^ 8 := t2.isLt
  simp only [wordOfBytes, BitVec.toNat_append]
  rw [← Nat.shiftLeft_add_eq_or_of_lt h2, ← Nat.shiftLeft_add_eq_or_of_lt h1, ← Nat.shiftLeft_add_eq_or_of_lt h0]
  simp only [Nat.shiftLeft_eq]
  omega

/-- The trailer 0 is four zero bytes. -/
theorem wordOfBytes_eq_zero (t0 t1 t2 t3 : Byte) :
    wordOfBytes t0 t1 t2 t3 = 0 ↔ ([t0, t1, t2, t3] : List Byte) = [0, 0, 0, 0] := by
  rw [← bytesOfWord_of_bytes]
  refine ⟨fun h => congrArg bytesOfWord h, fun h => ?_⟩
  rw [bytesOfWord_of_bytes] at h
  cases h
  rfl

/-- Settles O32: the start, and the trailer against a sum of nothing. -/
theorem decompOfNothingReadsOnlyTheTrailer : Obligations.DecompOfNothingReadsOnlyTheTrailer := by
  intro s t0 t1 t2 t3 rest hb harg hu
  have hdec : decodeElement .trailer s.decompStart.src.unread = .ok (.trailer (wordOfBytes t0 t1 t2 t3), rest) :=
    congrArg (decodeElement .trailer) hu
  have hrest : (s.decompStart.afterReading 4).src.unread = rest :=
    (State.afterReading_unread _ 4).trans (congrArg (List.drop 4) hu)
  have hstep := step_trailer rfl rfl harg hdec (by change 0 + 4 < _; omega)
  refine ⟨_, reaches_succ.2 ⟨_, step_startDecomp hb, reaches_succ.2 ⟨_, hstep, reaches_zero.2 rfl⟩⟩, ?_⟩
  rw [← wordOfBytes_eq_zero, ne_eq, ← wordOfBytes_eq_zero, ← wordOfBytes_toNat]
  by_cases hw : wordOfBytes t0 t1 t2 t3 = 0
  · rw [if_pos (show _ = s.decompStart.regs.csum from hw)]
    exact ⟨congrArg (Sink.mk · []) (List.append_nil _), hrest, rfl, fun _ => rfl, rfl, rfl, rfl,
      fun _ => ⟨rfl, harg⟩, fun h => absurd hw h⟩
  · rw [if_neg (show _ ≠ s.decompStart.regs.csum from hw)]
    exact ⟨rfl, hrest, rfl, fun _ => rfl, rfl, rfl, rfl, fun h => absurd h hw, fun _ => ⟨rfl, rfl, rfl⟩⟩

end Sys2Proof.Machine
end

section
/-! The round trip, the reading side (41_decompress R86 to R93, R98): the text of a block as a relation between wire
bytes and the bytes they stand for, and that a `DECOMP` decodes every such text. -/
namespace Sys2Proof.Machine

/-! ## The text of a block (30_encoding R61 to R65) -/

/-- `bs` is what a reference `offset` places back stands for after `out`: each byte the one that far behind it, one of
`bs` itself where the copy overlaps, the fill byte before the beginning (41_decompress R92, 10_state R25). -/
def Copies (out : List Byte) (offset : Cursor) (bs : List Byte) : Prop :=
  ∀ k < bs.length, bs.getD k 0 = (out ++ bs.take k).reverse.getD (offset.toNat - 1) Config.fill

/-- A token after the output `out`: its flag bit, its wire bytes, and the bytes it stands for. -/
inductive Token (out : List Byte) : Bool → List Byte → List Byte → Prop
  | lit (d : Byte) : Token out true [d] [d]
  | ref (offset : Cursor) (bs : List Byte) : offset ≠ 0 → 3 ≤ bs.length → bs.length ≤ 18 → Copies out offset bs →
      Token out false (refBytes offset bs.length) bs

/-- The flag byte `f` tells the kinds of the first tokens of its group (30_encoding R63). -/
def FlagBits (f : Byte) (kinds : List Bool) : Prop := ∀ i < kinds.length, f.getLsbD i = kinds.getD i false

/-- The tokens of a block so far: the wire bytes of the closed groups, the kinds and the wire bytes of the tokens in the
open group, and the bytes that all of them stand for (30_encoding R61, R62). -/
inductive Wire : List Byte → List Bool → List Byte → List Byte → Prop
  | nil : Wire [] [] [] []
  | token {closed : List Byte} {kinds : List Bool} {tokens out : List Byte} {kind : Bool} {bytes bs : List Byte} :
      Wire closed kinds tokens out → kinds.length < 8 → Token out kind bytes bs →
        Wire closed (kinds ++ [kind]) (tokens ++ bytes) (out ++ bs)
  | close {closed : List Byte} {kinds : List Bool} {tokens out : List Byte} {f : Byte} :
      Wire closed kinds tokens out → kinds.length = 8 → FlagBits f kinds → Wire (closed ++ f :: tokens) [] [] out

/-- The wire bytes of an open group: a flag byte and its tokens, nothing where there is no token (30_encoding R62). -/
def openGroup (f : Byte) (kinds : List Bool) (tokens : List Byte) : List Byte := if kinds = [] then [] else f :: tokens

theorem openGroup_nil (f : Byte) (tokens : List Byte) : openGroup f [] tokens = [] := rfl

theorem openGroup_of_ne {kinds : List Bool} (f : Byte) (tokens : List Byte) (h : kinds ≠ []) :
    openGroup f kinds tokens = f :: tokens := if_neg h

/-- A token stands for at least one byte, and for no fewer than it takes on the wire. -/
theorem Token.length_le {out : List Byte} {kind : Bool} {bytes bs : List Byte} (h : Token out kind bytes bs) :
    8 * bytes.length + 1 ≤ 9 * bs.length ∧ 0 < bytes.length := by
  cases h with
  | lit d => simp
  | ref offset bs _ h3 =>
    simp only [refBytes, List.length_cons, List.length_nil]
    omega

/-- A block is at most an eighth longer than its data (42_compress R118). -/
theorem Wire.length_le {closed tokens out : List Byte} {kinds : List Bool} (h : Wire closed kinds tokens out) :
    8 * (closed.length + tokens.length) + kinds.length ≤ 9 * out.length ∧ kinds.length ≤ tokens.length ∧
      kinds.length ≤ 8 ∧ (kinds = [] → tokens = []) := by
  induction h with
  | nil => simp
  | token _ hlt htok ih =>
    obtain ⟨h1, h2⟩ := htok.length_le
    simp only [List.length_append, List.length_singleton]
    refine ⟨by omega, by omega, by omega, fun e => ?_⟩
    simp at e
  | close _ hk _ ih =>
    simp only [List.length_append, List.length_cons, List.length_nil]
    exact ⟨by omega, Nat.le_refl _, by omega, fun _ => trivial⟩

/-- The tokens of a block and its flag bytes: at most one byte for each byte of the data, and one for every eight. -/
theorem Wire.text_length_le {closed tokens out : List Byte} {kinds : List Bool} (h : Wire closed kinds tokens out)
    (f : Byte) : (closed ++ openGroup f kinds tokens).length ≤ out.length + (out.length + 7) / 8 := by
  obtain ⟨hsize, -⟩ := h.length_le
  rw [List.length_append]
  by_cases hk : kinds = []
  · rw [hk, openGroup_nil, List.length_nil]
    omega
  · have := List.length_pos_of_ne_nil hk
    rw [openGroup_of_ne f tokens hk, List.length_cons]
    omega

/-! ## Runs -/

theorem reaches_trans {j k : Nat} {s t u : State} (h : Reaches j s t) (h' : Reaches k t u) : Reaches (j + k) s u := by
  induction j generalizing s with
  | zero =>
    rw [reaches_zero.1 h, Nat.zero_add]
    exact h'
  | succ j ih =>
    obtain ⟨v, hv, h⟩ := reaches_succ.1 h
    rw [Nat.add_right_comm]
    exact reaches_succ.2 ⟨v, hv, ih h⟩

theorem reaches_step {k : Nat} {s t u : State} (h : Reaches k s t) (h' : step t = .next u) : Reaches (k + 1) s u :=
  reaches_trans h (reaches_succ.2 ⟨u, h', reaches_zero.2 rfl⟩)

/-! ## A `DECOMP` that has produced some bytes -/

/-- The state after `n` bytes have been read, with the given contents of the flag shifter. -/
def State.withRead (s : State) (n : Nat) (flags : Byte) (fcnt : BitVec 4) : State :=
  { s.afterReading n with du := { s.du with flags := flags, fcnt := fcnt } }

/-- A `DECOMP` started in `s` that has produced `out` from `n` bytes of its source. -/
def State.decoded (s : State) (out : List Byte) (n : Nat) (flags : Byte) (fcnt : BitVec 4) : State :=
  (out.foldl State.emitted s.decompStart).withRead n flags fcnt

theorem decoded_nil (s : State) : s.decoded [] 0 0 0 = s.decompStart := by
  simp only [State.decoded, List.foldl_nil, State.withRead, State.afterReading_zero]
  rfl

/-- It, written out but for the window (41_decompress R87, R93). -/
theorem decoded_eq (s : State) (out : List Byte) (n : Nat) (flags : Byte) (fcnt : BitVec 4) :
    ∃ win, s.decoded out n flags fcnt = { s.decompStart with
      regs := { s.decompStart.regs with
        inCount := BitVec.ofNat 32 n
        outCount := BitVec.ofNat 32 out.length
        csum := checksum s.regs.signed out }
      src := { s.src with pos := s.src.pos + n }
      snk := { s.snk with pending := out }
      win := win
      curR := Config.cursorInit + BitVec.ofNat 12 out.length
      du := { rem := s.regs.arg - BitVec.ofNat 32 out.length, flags := flags, fcnt := fcnt } } := by
  obtain ⟨win, hrun⟩ := emittedRun_eq out s.decompStart
  refine ⟨win, ?_⟩
  rw [State.decoded, hrun]
  simp [State.withRead, State.afterReading, State.decompStart, duInit, State.started, State.withQueue, checksum,
    State.argOperand]

theorem decoded_dictionaryOk (s : State) (out : List Byte) (n : Nat) (flags : Byte) (fcnt : BitVec 4) :
    (s.decoded out n flags fcnt).DictionaryOk :=
  State.DictionaryOk.emittedAll (s := s.decompStart) out ⟨Memory.nil_wf, fun _ _ => rfl⟩

/-- Reading a token and emitting its bytes. -/
theorem decoded_emitted (s : State) (out bs : List Byte) (n m : Nat) (flags : Byte) (fcnt : BitVec 4) :
    bs.foldl State.emitted ((s.decoded out n flags fcnt).flagTaken.afterReading m) =
      s.decoded (out ++ bs) (n + m) (flags >>> 1) (fcnt - 1) := by
  have hread : (s.decoded out n flags fcnt).flagTaken.afterReading m =
      (out.foldl State.emitted s.decompStart).withRead (n + m) (flags >>> 1) (fcnt - 1) := by
    simp only [State.withRead, ← State.afterReading_add]
    rfl
  rw [hread, State.decoded, List.foldl_append]
  exact List.foldl_hom (fun t : State => t.withRead (n + m) (flags >>> 1) (fcnt - 1)) fun _ _ => rfl

section Decoded
variable {s : State} {out : List Byte} {n : Nat} (flags : Byte) (fcnt : BitVec 4)

theorem decoded_frame : (s.decoded out n flags fcnt).running = some .decomp ∧
    (s.decoded out n flags fcnt).port.queue = [] ∧ (s.decoded out n flags fcnt).src.unread = s.src.unread.drop n ∧
    (s.decoded out n flags fcnt).snk.pending = out ∧ (s.decoded out n flags fcnt).du.flags = flags ∧
    (s.decoded out n flags fcnt).du.fcnt = fcnt := by
  obtain ⟨win, h⟩ := decoded_eq s out n flags fcnt
  rw [h]
  exact ⟨rfl, rfl, by simp [Source.unread], rfl, rfl, rfl⟩

theorem decoded_inCount (h : n < 2 ^ 32) : (s.decoded out n flags fcnt).regs.inCount.toNat = n := by
  obtain ⟨win, e⟩ := decoded_eq s out n flags fcnt
  rw [e]
  exact Nat.mod_eq_of_lt h

theorem decoded_counts (h : out.length ≤ s.regs.arg.toNat) :
    (s.decoded out n flags fcnt).regs.outCount.toNat = out.length ∧
      (s.decoded out n flags fcnt).du.rem.toNat = s.regs.arg.toNat - out.length := by
  obtain ⟨win, e⟩ := decoded_eq s out n flags fcnt
  have hlt := s.regs.arg.isLt
  have hout : (BitVec.ofNat 32 out.length).toNat = out.length := Nat.mod_eq_of_lt (by omega)
  rw [e]
  exact ⟨hout, by rw [BitVec.toNat_sub_of_le (by rw [BitVec.le_def, hout]; exact h), hout]⟩

theorem decoded_rem_ne (h : out.length < s.regs.arg.toNat) : (s.decoded out n flags fcnt).du.rem ≠ 0 := by
  intro e
  have := (decoded_counts (n := n) flags fcnt (Nat.le_of_lt h)).2
  rw [e] at this
  change 0 = _ at this
  omega

end Decoded

/-! ## The steps of a `DECOMP` over the text -/

/-- The copy of a reference emits the bytes it stands for (41_decompress R92). -/
theorem copyRun_copies {s : State} {offset : Cursor} (hz : offset ≠ 0) (bs : List Byte) (hd : s.DictionaryOk)
    (hc : Copies s.snk.pending offset bs) (hout : s.regs.outCount.toNat + bs.length < 2 ^ 32) :
    copyRun (s.curR - offset) bs.length s = .ok (bs.foldl State.emitted s) := by
  induction bs generalizing s with
  | nil => rfl
  | cons b rest ih =>
    rw [List.length_cons] at hout
    have hoff : offset.toNat ≠ 0 := fun e => hz (BitVec.eq_of_toNat_eq e)
    have hlt := offset.isLt
    have hb : s.winAt (s.curR - offset) = b := by
      have hfirst := hc 0 (by simp)
      have hplace : s.curR - offset = s.curR - 1 - BitVec.ofNat 12 (offset.toNat - 1) := by bv_omega
      rw [List.take_zero, List.append_nil, List.getD_cons_zero] at hfirst
      rw [hfirst, hplace]
      exact hd.2 _ (by omega)
    have hrest : Copies (s.emitted b).snk.pending offset rest := fun k hk => by
      have := hc (k + 1) (by simpa using hk)
      rw [List.take_succ_cons, List.getD_cons_succ] at this
      rw [this]
      simp [State.emitted]
    have hnext : s.curR - offset + 1 = (s.emitted b).curR - offset := by
      change _ = s.curR + 1 - offset
      bv_omega
    rw [List.length_cons, copyRun, hb, emit_ok b (by omega), Res.ok_bind, hnext]
    exact ih (hd.emitted b) hrest (by rw [State.emitted_outCount (by omega)]; omega)

/-- A token's wire bytes decode to an element that emits what the token stands for (41_decompress R91, R92). -/
theorem Token.emits {out bytes bs : List Byte} {kind : Bool} (h : Token out kind bytes bs) :
    ∃ i, (Select.token kind).length = bytes.length ∧
      (∀ rest, decodeElement (.token kind) (bytes ++ rest) = .ok (i, rest)) ∧
      ∀ s : State, s.running = some .decomp → s.DictionaryOk → s.snk.pending = out → bs.length ≤ s.du.rem.toNat →
        s.regs.outCount.toNat + bs.length < 2 ^ 32 → exec i s = .next (bs.foldl State.emitted s) := by
  have hz : ∀ s : State, 0 < bs.length → bs.length ≤ s.du.rem.toNat → s.du.rem ≠ 0 := fun s hpos hle e => by
    rw [e] at hle
    exact absurd (Nat.lt_of_lt_of_le hpos hle) (Nat.not_lt_zero 0)
  cases h with
  | lit d => exact ⟨.lit d, rfl, fun _ => rfl, fun s hr _ _ hrem hout =>
    exec_lit_decomp d hr (hz s Nat.one_pos hrem) hout⟩
  | ref offset bs hoff h3 h18 hcopies =>
    refine ⟨.ref offset bs.length, rfl,
      Laws.EncodeDecode.ref offset bs.length (by simp [Instr.WellFormed, Instr.wf, h3, h18]),
      fun s hr hd hpend hrem hout => ?_⟩
    exact exec_ref_decomp hr (hz s (by omega) hrem) hrem (copyRun_copies hoff bs hd (hpend ▸ hcopies) hout)

/-- Between groups the next byte is a flag byte. -/
theorem step_decoded_flag {s : State} {out rest : List Byte} {n : Nat} {f : Byte} (flags : Byte)
    (hu : s.src.unread.drop n = f :: rest) (hout : out.length < s.regs.arg.toNat) (hn : n + 1 < 2 ^ 32) :
    step (s.decoded out n flags 0) = .next (s.decoded out (n + 1) f 8) := by
  obtain ⟨hr, hq, hsrc, -, -, hf⟩ := decoded_frame (s := s) (out := out) (n := n) flags 0
  rw [step_flag hq hr (decoded_rem_ne flags 0 hout) hf (hsrc.trans hu)
    (by rw [decoded_inCount flags 0 (by omega)]; exact hn)]
  simp only [State.decoded, State.withRead, ← State.afterReading_add]
  rfl

/-- In a group the next element is the token of the flag bit. -/
theorem step_decoded_token {s : State} {out bytes bs rest : List Byte} {n : Nat} {flags : Byte} {fcnt : BitVec 4}
    {kind : Bool} (htok : Token out kind bytes bs) (hf : fcnt ≠ 0) (hkind : flags.getLsbD 0 = kind)
    (hu : s.src.unread.drop n = bytes ++ rest) (hout : out.length + bs.length ≤ s.regs.arg.toNat)
    (hn : n + bytes.length < 2 ^ 32) :
    step (s.decoded out n flags fcnt) =
      .next (s.decoded (out ++ bs) (n + bytes.length) (flags >>> 1) (fcnt - 1)) := by
  obtain ⟨i, hlen, hdec, hruns⟩ := htok.emits
  obtain ⟨hpos, -⟩ := htok.length_le
  obtain ⟨hr, hq, hsrc, hpend, hflags, hfcnt⟩ := decoded_frame (s := s) (out := out) (n := n) flags fcnt
  obtain ⟨hcount, hrem⟩ := decoded_counts (s := s) (out := out) (n := n) flags fcnt (by omega)
  have harg := s.regs.arg.isLt
  have hstep := step_token (bit := kind) hq hr (decoded_rem_ne flags fcnt (by omega)) (by rwa [hfcnt]) (by rwa [hflags])
    (by rw [hsrc, hu, hdec]) (by rw [hlen, decoded_inCount flags fcnt (by omega)]; exact hn)
  have hexec := hruns ((s.decoded out n flags fcnt).flagTaken.afterReading bytes.length) hr
    (decoded_dictionaryOk s out n flags fcnt) hpend
    (by change _ ≤ (s.decoded out n flags fcnt).du.rem.toNat; omega)
    (by change (s.decoded out n flags fcnt).regs.outCount.toNat + _ < _; omega)
  rw [hstep, hlen, hexec, decoded_emitted]

/-- The flag shifter of a `DECOMP` after the tokens of the open group: what is left of the flag byte, or no bit where no
flag byte has been read (41_decompress R88 to R90). -/
def ShifterAt (f : Byte) (kinds : List Bool) (flags : Byte) (fcnt : BitVec 4) : Prop :=
  (kinds = [] → fcnt = 0) ∧
    (kinds ≠ [] → flags = f >>> kinds.length ∧ fcnt = BitVec.ofNat 4 (8 - kinds.length))

/-- The `DECOMP` that `s` starts comes to where it has read the closed groups and the tokens of the open one, and has
produced `out` from them. -/
def State.DecodesText (s : State) (f : Byte) (closed : List Byte) (kinds : List Bool) (tokens out : List Byte) : Prop :=
  ∃ k flags fcnt, Reaches k s.decompStart (s.decoded out (closed ++ openGroup f kinds tokens).length flags fcnt) ∧
    ShifterAt f kinds flags fcnt

/-- Before a token the flag byte of its group is loaded, by the token before or by a step of its own (41_decompress R88,
R89). -/
theorem State.DecodesText.loaded {s : State} {f : Byte} {closed tokens out rest : List Byte} {kinds : List Bool}
    (h : s.DecodesText f closed kinds tokens out) (hempty : kinds = [] → tokens = [])
    (hu : s.src.unread = closed ++ f :: tokens ++ rest) (hout : out.length < s.regs.arg.toNat)
    (hlen : (closed ++ f :: tokens).length < 2 ^ 32) :
    ∃ k, Reaches k s.decompStart
      (s.decoded out (closed ++ f :: tokens).length (f >>> kinds.length) (BitVec.ofNat 4 (8 - kinds.length))) := by
  obtain ⟨k, flags, fcnt, hreach, hnone, hshift⟩ := h
  by_cases hk : kinds = []
  · subst hk
    obtain rfl := hempty rfl
    rw [openGroup_nil, List.append_nil, hnone rfl] at hreach
    have hdrop : s.src.unread.drop closed.length = f :: rest := by
      rw [hu, List.append_assoc, List.drop_left]
      rfl
    rw [List.length_append] at hlen ⊢
    exact ⟨k + 1, reaches_step hreach (step_decoded_flag flags hdrop hout hlen)⟩
  · obtain ⟨rfl, rfl⟩ := hshift hk
    rw [openGroup_of_ne _ _ hk] at hreach
    exact ⟨k, hreach⟩

/-- A `DECOMP` decodes the text up to any point of it, by induction on the text (41_decompress R88 to R92). -/
theorem Wire.decodesText {closed tokens out : List Byte} {kinds : List Bool} (h : Wire closed kinds tokens out)
    {s : State} {f : Byte} {rest : List Byte} (hf : FlagBits f kinds)
    (hu : s.src.unread = closed ++ openGroup f kinds tokens ++ rest) (hout : out.length ≤ s.regs.arg.toNat)
    (hlen : (closed ++ openGroup f kinds tokens).length < 2 ^ 32) : s.DecodesText f closed kinds tokens out := by
  induction h generalizing f rest with
  | nil => exact ⟨0, 0, 0, reaches_zero.2 (decoded_nil s).symm, fun _ => rfl, fun h => absurd rfl h⟩
  | @token closed kinds tokens out kind bytes bs hw hlt htok ih =>
    have hne : kinds ++ [kind] ≠ [] := List.concat_ne_nil kind kinds
    rw [openGroup_of_ne _ _ hne] at hu hlen
    obtain ⟨-, -, -, hempty⟩ := hw.length_le
    obtain ⟨htoklen, htokpos⟩ := htok.length_le
    rw [List.length_append] at hout
    simp only [List.length_append, List.length_cons] at hlen
    have hsplit : s.src.unread = closed ++ f :: tokens ++ (bytes ++ rest) := by simpa using hu
    have hf' : FlagBits f kinds := fun i hi => by
      rw [hf i (by simp; omega), List.getD_append _ _ _ _ hi]
    have hbit : (f >>> kinds.length).getLsbD 0 = kind := by
      rw [BitVec.getLsbD_ushiftRight, Nat.add_zero, hf kinds.length (by simp)]
      simp
    have hbefore : s.DecodesText f closed kinds tokens out := by
      by_cases hk : kinds = []
      · subst hk
        obtain rfl := hempty rfl
        exact ih (rest := f :: (bytes ++ rest)) hf' (by simpa [openGroup_nil] using hsplit) (by omega)
          (by rw [openGroup_nil, List.length_append, List.length_nil]; omega)
      · refine ih (rest := bytes ++ rest) hf' ?_ (by omega) ?_
        · rwa [openGroup_of_ne _ _ hk]
        · rw [openGroup_of_ne _ _ hk, List.length_append, List.length_cons]
          omega
    have hread : (closed ++ f :: tokens).length + bytes.length = (closed ++ f :: (tokens ++ bytes)).length := by
      simp only [List.length_append, List.length_cons]
      omega
    obtain ⟨k, hreach⟩ := hbefore.loaded hempty hsplit (by omega) (by rw [List.length_append, List.length_cons]; omega)
    have hstep := step_decoded_token htok (fcnt := BitVec.ofNat 4 (8 - kinds.length)) (rest := rest) (by bv_omega) hbit
      (by rw [hsplit, List.drop_left]) hout (by rw [List.length_append, List.length_cons]; omega)
    have hreached := reaches_step hreach hstep
    rw [hread, ← openGroup_of_ne f (tokens ++ bytes) hne] at hreached
    refine ⟨k + 1, _, _, hreached, fun e => absurd e hne, fun _ => ⟨?_, ?_⟩⟩
    · rw [List.length_append, BitVec.shiftRight_add]
      rfl
    · rw [List.length_append, List.length_singleton]
      bv_omega
  | @close closed kinds tokens out f0 hw hk hf0 ih =>
    have hne : kinds ≠ [] := fun e => by simp [e] at hk
    rw [openGroup_nil, List.append_nil] at hu hlen
    obtain ⟨k, flags, fcnt, hreach, -, hshift⟩ := ih (rest := rest) hf0 (by rwa [openGroup_of_ne _ _ hne]) hout
      (by rwa [openGroup_of_ne _ _ hne])
    obtain ⟨-, rfl⟩ := hshift hne
    rw [openGroup_of_ne _ _ hne, ← List.append_nil (closed ++ _), ← openGroup_nil f []] at hreach
    exact ⟨k, flags, _, hreach, fun _ => by rw [hk]; rfl, fun h => absurd rfl h⟩

/-- A `DECOMP` turns a block back into what its text stands for, and reads exactly the block (41_decompress R86,
R98). -/
theorem Wire.decodes {closed tokens out : List Byte} {kinds : List Bool} (h : Wire closed kinds tokens out) {s : State}
    {f : Byte} {block rest : List Byte} (hf : FlagBits f kinds) (hb : s.busy = false)
    (hblock : block = closed ++ openGroup f kinds tokens ++ bytesOfWord (checksum s.regs.signed out))
    (hu : s.src.unread = block ++ rest) (hout : s.regs.arg.toNat = out.length) (hlen : block.length < 2 ^ 32) :
    ∃ (k : Nat) (t : State), Reaches k (s.withQueue [.write .cmd 4]) t ∧ t.regs.state = .done ∧
      t.snk.committed = s.snk.committed ++ out ∧ t.regs.inCount.toNat = block.length ∧
      t.regs.csum = checksum s.regs.signed out ∧ t.curR = Config.cursorInit + BitVec.ofNat 12 out.length ∧
      t.src.unread = rest := by
  have hfour : block.length = (closed ++ openGroup f kinds tokens).length + 4 := by
    rw [hblock, List.length_append]
    rfl
  have hu' := hu
  rw [hblock, List.append_assoc] at hu'
  obtain ⟨k, flags, fcnt, hreach, -⟩ := h.decodesText hf hu' (Nat.le_of_eq hout.symm) (by omega)
  generalize hn : (closed ++ openGroup f kinds tokens).length = n at hreach hfour
  obtain ⟨hr, hq, hsrc, -⟩ := decoded_frame (s := s) (out := out) (n := n) flags fcnt
  have hz : (s.decoded out n flags fcnt).du.rem = 0 := by
    apply BitVec.eq_of_toNat_eq
    rw [(decoded_counts flags fcnt (Nat.le_of_eq hout.symm)).2, hout, Nat.sub_self]
    rfl
  have hdrop : s.src.unread.drop n = bytesOfWord (checksum s.regs.signed out) ++ rest := by
    rw [hu', ← hn]
    exact List.drop_left
  have hstep := step_trailer hq hr hz
    (by rw [hsrc, hdrop]; exact Laws.EncodeDecode.trailer _ rfl rest) (by rw [decoded_inCount _ _ (by omega)]; omega)
  refine ⟨_, _, reaches_succ.2 ⟨_, step_startDecomp hb, reaches_step hreach hstep⟩, ?_⟩
  have hrest : ((s.decoded out n flags fcnt).afterReading 4).src.unread = rest := by
    rw [State.afterReading_unread, hsrc, hdrop]
    rfl
  have hin : ((s.decoded out n flags fcnt).afterReading 4).regs.inCount.toNat = block.length := by
    rw [State.afterReading_inCount (by rw [decoded_inCount _ _ (by omega)]; omega), decoded_inCount _ _ (by omega),
      hfour]
  obtain ⟨win, he⟩ := decoded_eq s out n flags fcnt
  have hcsum : (s.decoded out n flags fcnt).regs.csum = checksum s.regs.signed out := by rw [he]
  rw [if_pos hcsum.symm]
  refine ⟨rfl, ?_, hin, hcsum, ?_, hrest⟩
  · rw [he]
    rfl
  · rw [he]
    rfl

end Sys2Proof.Machine
end

section
namespace Sys2Proof.Machine

/-! ## The elements of a `COMP` -/

/-- `LIT` in a `COMP` (42_compress R107). -/
theorem exec_lit_comp {s : State} (d : Byte) (hr : s.running = some .comp) :
    exec (.lit d) s = (cuLit Config.treeOrder d s).outcome := by
  rw [exec, execLit, hr]

/-- `REF` in a `COMP` (42_compress R108). -/
theorem exec_ref_comp {s : State} (offset : Cursor) (count : Nat) (hr : s.running = some .comp) :
    exec (.ref offset count) s = (cuRef Config.treeOrder offset count s).outcome := by
  rw [exec, execRef, hr]

/-- `TRAILER` in a `COMP` (42_compress R112). -/
theorem exec_trailer_comp {s : State} (w : Word) (hr : s.running = some .comp) :
    exec (.trailer w) s = (cuTrailer w s).outcome := by
  rw [exec, execTrailer, hr]

/-- The start of a `COMP` with its setup (42_compress R103, R104). -/
theorem step_startComp {s : State} (hb : s.busy = false) : ∃ win f, (s.withQueue []).SetUpOk win f ∧
    step (s.withQueue [.write .cmd 5]) = .next ((s.withQueue []).setUp win f) := by
  have hb' : (s.withQueue []).busy = false := hb
  obtain ⟨win, f, hset, hwin, hwalk, hml, hfound⟩ := cuSetup_law Config.treeOrder ((s.withQueue []).started 5) rfl
  refine ⟨win, f, ⟨hwin, hwalk, hml, hfound⟩, ?_⟩
  rw [step_writeCommand (i := .comp) rfl, exec, execComp, runCommand_idle hb', hset]
  rfl

/-- The end of a block, written out: a waiting group, then the trailer (42_compress R112). -/
theorem cuTrailer_ok (w : Word) {s : State} (hl : s.cu.len = 0) (hp : s.cu.gptr.toNat ≤ 17)
    (hc : s.regs.outCount.toNat + (if 1 < s.cu.gptr.toNat then s.cu.groupBytes else []).length + 4 < 2 ^ 32) :
    cuTrailer w s = .ok ((s.afterWriting
      ((if 1 < s.cu.gptr.toNat then s.cu.groupBytes else []) ++ bytesOfWord w)).doneWith
        (s.afterWriting ((if 1 < s.cu.gptr.toNat then s.cu.groupBytes else []) ++ bytesOfWord w)).regs.outCount) := by
  have hgroup : (if 1 < s.cu.gptr.toNat then writeGroup s else .ok s) =
      .ok (s.afterWriting (if 1 < s.cu.gptr.toNat then s.cu.groupBytes else [])) := by
    split
    · rename_i h
      rw [if_pos h] at hc
      exact writeGroup_ok hp (by omega)
    · rw [State.afterWriting_nil]
  rw [cuTrailer_eq, if_pos hl, hgroup, Res.ok_bind, streamWriteAll_ok, Res.ok_bind, State.afterWriting_append,
    finish_eq]
  rw [State.afterWriting_outCount (by omega)]
  exact hc

/-- The parts of a token after its bytes have joined the group: it is closed, then the window advances; both answer
while the counters have room (42_compress R109, R110). -/
theorem closeToken_advance_ok {o : Config.TreeOrder} {s : State} (n : Nat) (hw : s.WalkOk o)
    (hin : s.regs.inCount.toNat ≤ s.src.pos) (hlen : s.src.bytes.length < 2 ^ 32) (hp : s.cu.gptr.toNat ≤ 17)
    (hc : s.cu.gmask <<< 1 = 0 → s.regs.outCount.toNat + s.cu.groupBytes.length < 2 ^ 32) :
    ∃ u t, closeToken s = .ok u ∧ advance o n u = .ok t := by
  have hsame : s.SameFinder s := ⟨rfl, rfl, rfl, rfl, rfl, rfl⟩
  by_cases hz : s.cu.gmask <<< 1 = 0
  · obtain ⟨t, ht⟩ := advance_ok (o := o) n
      (s := (s.afterWriting s.cu.groupBytes).withGroup (s.cu.gbuf.set 0 0) 1 1)
      (State.SameFinder.walkOk (s := s) hsame hw) hin hlen
    exact ⟨_, t, closeToken_full hz hp (hc hz), ht⟩
  · obtain ⟨t, ht⟩ := advance_ok (o := o) n (s := s.withGroup s.cu.gbuf s.cu.gptr (s.cu.gmask <<< 1))
      (State.SameFinder.walkOk (s := s) hsame hw) hin hlen
    exact ⟨_, t, closeToken_open hz, ht⟩

/-! ## The text a `COMP` has written -/

/-- What is pending and the open group are the text of `out`, the flag byte complete up to the last token. -/
def State.TextOf (s : State) (out : List Byte) : Prop :=
  ∃ kinds tokens, Wire s.snk.pending kinds tokens out ∧ kinds.length < 8 ∧ s.cu.gmask = 1#8 <<< kinds.length ∧
    s.cu.groupBytes = s.cu.gbuf[0] :: tokens ∧ ∀ i, s.cu.gbuf[0].getLsbD i = kinds.getD i false

/-- The same with a last token whose bytes and flag bit have joined the group, the mask still at its bit. -/
def State.Joined (s : State) (out : List Byte) : Prop :=
  ∃ kinds kind tokens, Wire s.snk.pending (kinds ++ [kind]) tokens out ∧ kinds.length < 8 ∧
    s.cu.gmask = 1#8 <<< kinds.length ∧ s.cu.groupBytes = s.cu.gbuf[0] :: tokens ∧
    ∀ i, s.cu.gbuf[0].getLsbD i = (kinds ++ [kind]).getD i false

/-- Between groups what is pending is the text (42_compress R103, R109). -/
theorem textOf_emptyGroup {s : State} {out : List Byte} (hw : Wire s.snk.pending [] [] out) (hf : s.cu.gbuf[0] = 0)
    (hp : s.cu.gptr = 1) (hm : s.cu.gmask = 1) : s.TextOf out := by
  refine ⟨[], [], hw, by decide, hm, ?_, fun i => ?_⟩
  · rw [CU.groupBytes, hp, show (1 : BitVec 5).toNat = 1 from rfl, List.take_one]
    simp [List.head?_eq_getElem?]
  · rw [hf]
    exact BitVec.getLsbD_zero

/-- The flag mask leaves the byte at the eighth token (42_compress R109). -/
theorem gmask_shift_eq_zero {k : Nat} (h : k < 8) : (1#8 <<< k) <<< 1 = 0 ↔ k = 7 := by
  revert k
  decide

/-- A bit more at the end of a list of kinds. -/
theorem getD_concat (kinds : List Bool) (kind : Bool) (i : Nat) :
    (kinds ++ [kind]).getD i false = if i = kinds.length then kind else kinds.getD i false := by
  rcases Nat.lt_trichotomy i kinds.length with h | h | h
  · rw [List.getD_append _ _ _ _ h, if_neg (Nat.ne_of_lt h)]
  · rw [List.getD_append_right _ _ _ _ (Nat.le_of_eq h.symm), if_pos h, h, Nat.sub_self, List.getD_cons_zero]
  · rw [List.getD_eq_default _ _ (by simp; omega), if_neg (Nat.ne_of_gt h), List.getD_eq_default _ _ (Nat.le_of_lt h)]

/-- A reference leaves its flag bit 0 (42_compress R108). -/
theorem flagBits_reference {f : Byte} {kinds : List Bool} (h : ∀ i, f.getLsbD i = kinds.getD i false) (i : Nat) :
    f.getLsbD i = (kinds ++ [false]).getD i false := by
  rw [h, getD_concat]
  split
  · next e => exact List.getD_eq_default _ _ (Nat.le_of_eq e.symm)
  · rfl

/-- A literal sets its flag bit (42_compress R107). -/
theorem flagBits_literal {f : Byte} {kinds : List Bool} (h : ∀ i, f.getLsbD i = kinds.getD i false)
    (hk : kinds.length < 8) (i : Nat) :
    (f ||| 1#8 <<< kinds.length).getLsbD i = (kinds ++ [true]).getD i false := by
  rw [BitVec.getLsbD_or, h, getD_concat, BitVec.getLsbD_shiftLeft, BitVec.getLsbD_one]
  split
  · next e => simp [e, hk]
  · next e =>
    have : i < kinds.length ∨ i - kinds.length ≠ 0 := by omega
    rcases this with hlt | hne
    · simp [hlt]
    · simp [hne]

/-- Closing the token moves the mask on, or closes the group (42_compress R109). -/
theorem State.Joined.closeToken {s t : State} {out : List Byte} (hj : s.Joined out) (h : closeToken s = .ok t) :
    t.TextOf out := by
  obtain ⟨kinds, kind, tokens, hw, hk, hm, hg, hf⟩ := hj
  have hlen : (kinds ++ [kind]).length = kinds.length + 1 := by simp
  rcases closeToken_cases h with ⟨hz, rfl⟩ | ⟨hz, -, -, rfl⟩
  · rw [hm, ne_eq, gmask_shift_eq_zero hk] at hz
    refine ⟨_, _, hw, by omega, ?_, hg, hf⟩
    change s.cu.gmask <<< 1 = _
    rw [hm, hlen, BitVec.shiftLeft_add]
  · rw [hm, gmask_shift_eq_zero hk] at hz
    refine textOf_emptyGroup ?_ (Vector.getElem_set_self ..) rfl rfl
    change Wire (s.snk.pending ++ s.cu.groupBytes) _ _ _
    rw [hg]
    exact .close hw (by omega) fun i _ => hf i

/-- A group that its last token fills has at most a byte for each byte of the data, and one for every eight. -/
theorem State.Joined.full_length {s : State} {out : List Byte} (hj : s.Joined out) (hz : s.cu.gmask <<< 1 = 0) :
    s.snk.pending.length + s.cu.groupBytes.length ≤ out.length + out.length / 8 := by
  obtain ⟨kinds, kind, tokens, hw, hk, hm, hg, -⟩ := hj
  rw [hm, gmask_shift_eq_zero hk] at hz
  obtain ⟨hsize, -⟩ := hw.length_le
  rw [List.length_append, List.length_singleton] at hsize
  rw [hg, List.length_cons]
  omega

theorem advanceStep_running {o : Config.TreeOrder} {s t : State} (h : advanceStep o s = .ok t) :
    t.running = s.running := by
  rcases advanceStep_cases h with ⟨b, f, g, -, -, -, -, rfl⟩ | ⟨f, g, -, -, -, rfl⟩ <;> rfl

theorem advance_running {o : Config.TreeOrder} {n : Nat} {s t : State} (h : advance o n s = .ok t) :
    t.running = s.running :=
  advance_induct (fun t => t.running = s.running) (fun _ _ hu h => (advanceStep_running h).trans hu) rfl h

theorem advance_snk {o : Config.TreeOrder} {n : Nat} {s t : State} (h : advance o n s = .ok t) : t.snk = s.snk :=
  advance_induct (fun t => t.snk = s.snk) (fun _ _ hu h => (advanceStep_snk h).trans hu) rfl h

/-- The advance leaves the text alone. -/
theorem State.TextOf.advance {o : Config.TreeOrder} {n : Nat} {s t : State} {out : List Byte} (h : s.TextOf out)
    (ha : advance o n s = .ok t) : t.TextOf out := by
  obtain ⟨hbuf, hptr, hmask⟩ := advance_group ha
  unfold State.TextOf CU.groupBytes
  rw [advance_snk ha, hbuf, hptr, hmask]
  exact h

/-- What gathering a token's bytes leaves alone in a `COMP` (42_compress R107 to R109). -/
def State.Gathers (s t : State) : Prop :=
  s.SameFinder t ∧ t.src = s.src ∧ t.running = s.running ∧ t.snk.committed = s.snk.committed

/-- The first half of a token step of `s`, before it closes the token: `u` has the token's bytes in its group, and with
them the text of `out` (42_compress R107, R108). -/
structure State.TakesToken (s u : State) (out : List Byte) (n : Nat) : Prop where
  gathers : s.Gathers u
  snk : u.snk = s.snk
  outCount : u.regs.outCount = s.regs.outCount
  gptr : u.cu.gptr.toNat ≤ 17
  joined : u.Joined out
  step : step s = (closeToken u >>= advance Config.treeOrder n).outcome

theorem State.Gathers.closeToken {s t u : State} (h : s.Gathers t) (hc : closeToken t = .ok u) : s.Gathers u :=
  closeToken_keeps s.Gathers (fun _ _ _ _ h => h) (fun _ _ h _ => h) h hc

/-! ## A `COMP` that runs -/

/-- `c` is a state of the `COMP` that `s` started: what it has encoded is the first part of the data, and its text so
far stands for that (42_compress R98, R114, R115). -/
structure State.Compressing (s c : State) : Prop where
  inv : c.Inv
  running : c.running = some .comp
  queue : c.port.queue = []
  bytes : c.src.bytes = s.src.bytes
  pos : c.src.pos = s.src.pos + c.regs.inCount.toNat
  committed : c.snk.committed = s.snk.committed
  signed : c.sampled.signed = s.regs.signed
  cursor : c.curR = Config.cursorInit + BitVec.ofNat 12 c.encodedCount
  text : c.TextOf (s.src.unread.take c.encodedCount)
  small : s.src.bytes.length < 2 ^ 32
  room : s.src.unread.length + (s.src.unread.length + 7) / 8 + 4 < 2 ^ 32

/-- The match that counts is within the lookahead and no longer than that of the finder (42_compress R106). -/
theorem clamped_ml_toNat_le (c : State) :
    c.clamped.cu.finder.ml.toNat ≤ c.cu.len.toNat ∧ c.clamped.cu.finder.ml.toNat ≤ c.cu.finder.ml.toNat := by
  change (if _ then _ else _ : BitVec 5).toNat ≤ _ ∧ (if _ then _ else _ : BitVec 5).toNat ≤ _
  split <;> omega

section Compressing
variable {s c : State} (h : s.Compressing c)
include h

theorem State.Compressing.consumed : c.consumed = s.src.unread.take c.regs.inCount.toNat := by
  rw [State.consumed, h.pos, h.bytes, Nat.add_sub_cancel, List.drop_take, Nat.add_sub_cancel_left]
  rfl

theorem State.Compressing.counts :
    c.encodedCount + c.cu.len.toNat = c.regs.inCount.toNat ∧ c.regs.inCount.toNat ≤ s.src.unread.length := by
  obtain ⟨hpos, -⟩ := h.inv.status.2.2.2
  obtain ⟨hlen, -⟩ := h.inv.compWindow h.running
  rw [h.pos, h.bytes] at hpos
  rw [h.consumed, List.length_take] at hlen
  rw [State.encodedCount, Source.unread_length]
  omega

theorem State.Compressing.encoded : c.encoded = s.src.unread.take c.encodedCount := by
  obtain ⟨h1, h2⟩ := h.counts
  rw [State.encoded, h.consumed, List.take_take, List.length_take]
  congr 1
  omega

/-- The bytes at the cursor are the next of the data (42_compress R115 item 2). -/
theorem State.Compressing.ahead {j : Nat} (hj : j < c.cu.len.toNat) :
    c.winAt (c.curR + BitVec.ofNat 12 j) = s.src.unread.getD (c.encodedCount + j) 0 := by
  obtain ⟨-, hahead, -⟩ := h.inv.compWindow h.running
  obtain ⟨h1, h2⟩ := h.counts
  rw [hahead j hj, h.consumed, List.length_take, Nat.min_eq_left h2, ← h1, Nat.add_sub_cancel,
    List.getD_eq_getElem _ _ (by rw [List.length_take]; omega), List.getElem_take, List.getD_eq_getElem]

/-- Behind the cursor lie the encoded bytes (42_compress R115 item 4). -/
theorem State.Compressing.behindCursor {k : Nat} (hk : k < 4078) :
    c.winAt (c.curR - 1 - BitVec.ofNat 12 k) = (s.src.unread.take c.encodedCount).reverse.getD k Config.fill := by
  obtain ⟨-, -, hbehind⟩ := h.inv.compWindow h.running
  rw [hbehind k hk, h.encoded]

/-- A key read with plain indices is the window read on the circle (20_memory R46, 43_match_finder R122). -/
theorem State.Compressing.read_plain (a : Cursor) {i : Nat} (hi : i < 18) :
    Memory.read c.win (a.toNat + i) = c.winAt (a + BitVec.ofNat 12 i) := by
  obtain ⟨-, -, -, -, -, -, hmirror⟩ := h.inv.comp h.running
  have ha := a.isLt
  have hsum : (a + BitVec.ofNat 12 i).toNat = (a.toNat + i) % 4096 := by
    rw [BitVec.toNat_add, BitVec.toNat_ofNat]
    omega
  rw [State.winAt, hsum]
  by_cases hlt : a.toNat + i < 4096
  · rw [Nat.mod_eq_of_lt hlt]
  · have := hmirror (a.toNat + i - 4096) (by omega)
    rw [show 4096 + (a.toNat + i - 4096) = a.toNat + i by omega] at this
    rw [this, show (a.toNat + i) % 4096 = a.toNat + i - 4096 by omega]

/-- The place `i` on from one `d` behind the cursor holds the byte of the data `d` before byte `i` of what comes next,
be it encoded or ahead (42_compress R115). -/
theorem State.Compressing.history {d : Cursor} (hd : d ≠ 0) (hfar : d.toNat ≤ 4078) {i : Nat}
    (hi : i < c.cu.len.toNat) :
    c.winAt (c.curR - d + BitVec.ofNat 12 i) =
      (s.src.unread.take (c.encodedCount + i)).reverse.getD (d.toNat - 1) Config.fill := by
  obtain ⟨h1, h2⟩ := h.counts
  have hpos : d.toNat ≠ 0 := fun e => hd (BitVec.eq_of_toNat_eq e)
  obtain ⟨-, hlen18, -⟩ := h.inv.comp h.running
  have hlen18 : c.cu.len.toNat ≤ 18 := hlen18
  rw [List.take_add, List.reverse_append]
  have hl : (((s.src.unread.drop c.encodedCount).take i).reverse).length = i := by
    rw [List.length_reverse, List.length_take, List.length_drop]
    omega
  by_cases hlt : i < d.toNat
  · rw [List.getD_append_right _ _ _ _ (by omega), hl,
      show c.curR - d + BitVec.ofNat 12 i = c.curR - 1 - BitVec.ofNat 12 (d.toNat - 1 - i) by bv_omega]
    exact h.behindCursor (by omega)
  · rw [List.getD_append _ _ _ _ (by omega),
      show c.curR - d + BitVec.ofNat 12 i = c.curR + BitVec.ofNat 12 (i - d.toNat) by bv_omega,
      h.ahead (by omega)]
    rw [List.getD_eq_getElem _ _ (by omega), List.getD_eq_getElem _ _ (by omega), List.getElem_reverse,
      List.getElem_take, List.getElem_drop]
    congr 1
    simp only [List.length_take, List.length_drop]
    omega

/-- The next `n` bytes of the data, byte by byte. -/
theorem State.Compressing.next {n k : Nat} (hn : n ≤ c.cu.len.toNat) (hk : k < n) :
    ((s.src.unread.drop c.encodedCount).take n).getD k 0 = c.winAt (c.curR + BitVec.ofNat 12 k) := by
  obtain ⟨h1, h2⟩ := h.counts
  rw [h.ahead (by omega), List.getD_eq_getElem _ _ (by simp; omega), List.getD_eq_getElem _ _ (by omega),
    List.getElem_take, List.getElem_drop]

/-- The literal of the byte at the cursor stands for the next byte of the data (42_compress R107). -/
theorem State.Compressing.literal (hl : c.cu.len ≠ 0) :
    Token (s.src.unread.take c.encodedCount) true [c.winAt c.curR] ((s.src.unread.drop c.encodedCount).take 1) := by
  have hpos : 0 < c.cu.len.toNat := Nat.pos_of_ne_zero fun e => hl (BitVec.eq_of_toNat_eq e)
  obtain ⟨h1, h2⟩ := h.counts
  have hone : ((s.src.unread.drop c.encodedCount).take 1).length = 1 := by
    rw [List.length_take, List.length_drop]
    omega
  obtain ⟨b, hb⟩ := List.length_eq_one_iff.1 hone
  have := h.next (n := 1) hpos Nat.one_pos
  rw [hb, List.getD_cons_zero, BitVec.add_zero] at this
  rw [hb, ← this]
  exact .lit b

/-- The reference to the match stands for the next bytes of the data: the key at the cursor is that at the match
(42_compress R108, R115 item 5). -/
theorem State.Compressing.reference (hl : c.cu.len ≠ 0) (hm : 2 < c.clamped.cu.finder.ml.toNat) :
    Token (s.src.unread.take c.encodedCount) false
      (refBytes (c.curR - c.cu.finder.mp) c.clamped.cu.finder.ml.toNat)
      ((s.src.unread.drop c.encodedCount).take c.clamped.cu.finder.ml.toNat) := by
  obtain ⟨hlen, hml⟩ := clamped_ml_toNat_le c
  generalize c.clamped.cu.finder.ml.toNat = n at *
  obtain ⟨h1, h2⟩ := h.counts
  obtain ⟨-, hlen18, -⟩ := h.inv.comp h.running
  have hlen18 : c.cu.len.toNat ≤ 18 := hlen18
  obtain ⟨-, -, -, hfound⟩ := h.inv.forest h.running
  have hlongest := (hfound hl).2
  have hz : c.cu.finder.ml ≠ 0 := fun e => by rw [e] at hml; change n ≤ 0 at hml; omega
  obtain ⟨-, hagree, -⟩ := hlongest.agree hz
  obtain ⟨hnear, hfar, -⟩ := hlongest.2 hz
  unfold State.behind at hnear hfar
  have hd : c.curR - c.cu.finder.mp ≠ 0 := fun e => by rw [e] at hnear; exact absurd hnear (by decide)
  have hn : ((s.src.unread.drop c.encodedCount).take n).length = n := by
    rw [List.length_take, List.length_drop]
    omega
  have htok := Token.ref (out := s.src.unread.take c.encodedCount) (c.curR - c.cu.finder.mp)
    ((s.src.unread.drop c.encodedCount).take n) hd (by omega) (by omega) fun k hk => ?_
  · rwa [hn] at htok
  · rw [hn] at hk
    have hmp : c.curR - (c.curR - c.cu.finder.mp) = c.cu.finder.mp := by bv_omega
    rw [h.next hlen hk, List.take_take, Nat.min_eq_left (Nat.le_of_lt hk), ← List.take_add,
      ← h.history hd hfar (by omega), hmp, ← h.read_plain _ (by omega), ← h.read_plain _ (by omega)]
    exact hagree k (by omega)

/-- The literal joins the group (42_compress R107). -/
theorem State.Compressing.takesLiteral (hl : c.cu.len ≠ 0) (hml : c.clamped.cu.finder.ml.toNat ≤ 2) :
    ∃ u, c.TakesToken u (s.src.unread.take (c.encodedCount + 1)) 1 := by
  obtain ⟨-, -, -, -, ⟨k, hk8, -, hlo, hhi, -⟩, -, -⟩ := h.inv.comp h.running
  obtain ⟨kinds, tokens, hw, hk, hm, hg, hf⟩ := h.text
  obtain ⟨gbuf, h0, hbytes, heq⟩ := cuLit_eq Config.treeOrder (c.winAt c.curR) (s := c.clamped) hl
    (by change 1 ≤ c.cu.gptr.toNat; omega) (by change c.cu.gptr.toNat ≤ 16; omega)
  change gbuf[0] = c.cu.gbuf[0] ||| c.cu.gmask at h0
  change _ = (c.cu.gbuf[0] ||| c.cu.gmask) :: c.cu.groupBytes.tail ++ _ at hbytes
  have hptr : (c.cu.gptr + 1).toNat = c.cu.gptr.toNat + 1 := by bv_omega
  have hw' := hw.token hk (h.literal hl)
  rw [← List.take_add] at hw'
  refine ⟨(c.clamped.withFinder { c.clamped.cu.finder with ml := 1 }).withGroup gbuf (c.cu.gptr + 1) c.cu.gmask,
    ⟨⟨rfl, rfl, rfl, rfl, rfl, rfl⟩, rfl, rfl, rfl⟩, rfl, rfl, ?_, ⟨kinds, true, _, hw', hk, hm, ?_, ?_⟩, ?_⟩
  · change (c.cu.gptr + 1).toNat ≤ 17
    omega
  · change gbuf.toList.take (c.cu.gptr + 1).toNat = gbuf[0] :: _
    rw [hptr, h0]
    refine hbytes.trans ?_
    rw [hg]
    rfl
  · change ∀ i, gbuf[0].getLsbD i = _
    rw [h0, hm]
    exact flagBits_literal hf hk
  · rw [step_comp h.queue h.running, cuElement_lit hl hml, exec_lit_comp (s := c.clamped) _ h.running, heq]
    rfl

/-- The reference joins the group (42_compress R108). -/
theorem State.Compressing.takesReference (hl : c.cu.len ≠ 0) (hml : 2 < c.clamped.cu.finder.ml.toNat) :
    ∃ u, c.TakesToken u (s.src.unread.take (c.encodedCount + c.clamped.cu.finder.ml.toNat))
      c.clamped.cu.finder.ml.toNat := by
  obtain ⟨-, -, -, -, ⟨k, hk8, -, hlo, hhi, -⟩, -, -⟩ := h.inv.comp h.running
  obtain ⟨kinds, tokens, hw, hk, hm, hg, hf⟩ := h.text
  obtain ⟨gbuf, h0, hbytes, heq⟩ := cuRef_eq Config.treeOrder (c.curR - c.cu.finder.mp) (s := c.clamped) hml
    (clamped_ml_toNat_le c).1 (by change 1 ≤ c.cu.gptr.toNat; omega) (by change c.cu.gptr.toNat ≤ 15; omega)
  change gbuf[0] = c.cu.gbuf[0] at h0
  change _ = c.cu.groupBytes ++ _ at hbytes
  have hptr : (c.cu.gptr + 2).toNat = c.cu.gptr.toNat + 2 := by bv_omega
  have hw' := hw.token hk (h.reference hl hml)
  rw [← List.take_add] at hw'
  refine ⟨c.clamped.withGroup gbuf (c.cu.gptr + 2) c.cu.gmask,
    ⟨⟨rfl, rfl, rfl, rfl, rfl, rfl⟩, rfl, rfl, rfl⟩, rfl, rfl, ?_, ⟨kinds, false, _, hw', hk, hm, ?_, ?_⟩, ?_⟩
  · change (c.cu.gptr + 2).toNat ≤ 17
    omega
  · change gbuf.toList.take (c.cu.gptr + 2).toNat = gbuf[0] :: _
    rw [hptr, h0]
    refine hbytes.trans ?_
    rw [hg]
    rfl
  · change ∀ i, gbuf[0].getLsbD i = _
    rw [h0]
    exact flagBits_reference hf
  · rw [step_comp h.queue h.running, cuElement_ref hl hml, exec_ref_comp (s := c.clamped) _ _ h.running, heq]
    rfl

/-- The advance moves the cursor over `n` bytes of the data and reads as many, as far as there are
(42_compress R110). -/
theorem State.Compressing.advance_counts {v t : State} {n : Nat} (hv : c.Gathers v) (hn : n ≤ c.cu.len.toNat)
    (hadv : advance Config.treeOrder n v = .ok t) :
    t.src.bytes = s.src.bytes ∧ t.src.pos = s.src.pos + t.regs.inCount.toNat ∧
      t.encodedCount = c.encodedCount + n ∧ t.curR = Config.cursorInit + BitVec.ofNat 12 t.encodedCount := by
  obtain ⟨⟨hvwin, hvcur, -, hvlen, hvin, -⟩, hvsrc, -⟩ := hv
  obtain ⟨hin, hinle⟩ := h.counts
  obtain ⟨-, hlen18, -⟩ := h.inv.comp h.running
  have hlen18 : c.cu.len.toNat ≤ 18 := hlen18
  have hsmall := h.small
  obtain ⟨htcur, -, htsrc, htin, -, -, htlen, -⟩ := advance_law n (by omega) (hvwin ▸ h.inv.storage.1) hadv
  rw [hvcur] at htcur
  rw [hvsrc] at htsrc htin htlen
  rw [hvin] at htin
  rw [hvlen] at htlen
  have hread : (c.src.unread.take n).length ≤ n ∧
      c.regs.inCount.toNat + (c.src.unread.take n).length ≤ s.src.unread.length := by
    rw [List.length_take, Source.unread_length, Source.unread_length, h.pos, h.bytes]
    rw [Source.unread_length] at hinle
    omega
  rw [Source.unread_length] at hread
  generalize (c.src.unread.take n).length = m at *
  have htin' : t.regs.inCount.toNat = c.regs.inCount.toNat + m := htin ▸ word_add_toNat (by omega)
  have htlen' : t.cu.len.toNat = c.cu.len.toNat - (n - m) := by
    rw [htlen]
    bv_omega
  have henc : t.encodedCount = c.encodedCount + n := by
    rw [State.encodedCount, htin', htlen']
    omega
  refine ⟨?_, ?_, henc, ?_⟩
  · rw [htsrc]
    exact h.bytes
  · rw [htsrc, htin', ← Nat.add_assoc, ← h.pos]
  · rw [htcur, h.cursor, henc, BitVec.ofNat_add, BitVec.add_assoc]

/-- The second half of a token step: the token is closed and the window advances; `n` more bytes of the data are encoded
(42_compress R109, R110). -/
theorem State.Compressing.advanced {u : State} {n : Nat} (hn : n ≤ c.cu.len.toNat)
    (hu : c.TakesToken u (s.src.unread.take (c.encodedCount + n)) n) :
    ∃ t, step c = .next t ∧ s.Compressing t ∧ t.encodedCount = c.encodedCount + n := by
  obtain ⟨hgathers, hsnk, hout, hptr, hjoined, hstep⟩ := hu
  have ⟨hsame, husrc, _, _⟩ := hgathers
  have ⟨_, _, _, _, huin, _⟩ := hsame
  obtain ⟨-, -, hpend, hinpos⟩ := h.inv.status.2.1 (State.busy_of_running h.running)
  have hwalk := hsame.walkOk (h.inv.forest.walkOk h.inv.storage h.inv.comp h.running)
  have hroom : u.cu.gmask <<< 1 = 0 → u.regs.outCount.toNat + u.cu.groupBytes.length < 2 ^ 32 := fun hz => by
    have hfull := hjoined.full_length hz
    have hblock := h.room
    rw [hsnk, hpend, List.length_take] at hfull
    rw [hout]
    omega
  obtain ⟨v, t, hclose, hadv⟩ := closeToken_advance_ok (o := Config.treeOrder) n hwalk
    (by rw [huin, husrc]; exact hinpos) (by rw [husrc, h.bytes]; exact h.small) hptr hroom
  rw [hclose, Res.ok_bind, hadv, Res.outcome_ok] at hstep
  have hv := hgathers.closeToken hclose
  have ⟨_, _, hvrun, hvcom⟩ := hv
  obtain ⟨hbytes, hpos, henc, hcursor⟩ := h.advance_counts hv hn hadv
  obtain ⟨hblock, hqueue⟩ := step_quiet_busy h.queue (State.busy_of_running h.running) hstep
  obtain ⟨-, hsampled, -⟩ := blockStep_grows hblock
  refine ⟨t, hstep,
    { inv := step_keeps_inv h.inv hstep
      running := (advance_running hadv).trans (hvrun.trans h.running)
      queue := hqueue
      bytes := hbytes
      pos := hpos
      committed := by rw [advance_snk hadv, hvcom, h.committed]
      signed := by rw [hsampled, h.signed]
      cursor := hcursor
      text := henc ▸ (hjoined.closeToken hclose).advance hadv
      small := h.small
      room := h.room }, henc⟩

/-- A `COMP` with bytes left emits a token, and more of its data is encoded (42_compress R102, R106 to R108). -/
theorem State.Compressing.token (hl : c.cu.len ≠ 0) :
    ∃ t, step c = .next t ∧ s.Compressing t ∧ c.encodedCount < t.encodedCount := by
  have hpos : 0 < c.cu.len.toNat := Nat.pos_of_ne_zero fun e => hl (BitVec.eq_of_toNat_eq e)
  by_cases hml : c.clamped.cu.finder.ml.toNat ≤ 2
  · obtain ⟨u, hu⟩ := h.takesLiteral hl hml
    obtain ⟨t, hstep, ht, henc⟩ := h.advanced hpos hu
    exact ⟨t, hstep, ht, by omega⟩
  · obtain ⟨u, hu⟩ := h.takesReference hl (Nat.lt_of_not_le hml)
    obtain ⟨t, hstep, ht, henc⟩ := h.advanced (clamped_ml_toNat_le c).1 hu
    exact ⟨t, hstep, ht, by omega⟩

/-- A `COMP` goes on until nothing is left to encode (42_compress R102). -/
theorem State.Compressing.runs :
    ∃ k t, Reaches k c t ∧ s.Compressing t ∧ t.cu.len = 0 := by
  induction hn : s.src.unread.length - c.encodedCount using Nat.strong_induction_on generalizing c with
  | h n ih =>
    subst hn
    by_cases hl : c.cu.len = 0
    · exact ⟨0, c, reaches_zero.2 rfl, h, hl⟩
    · obtain ⟨t, hstep, ht, hmore⟩ := h.token hl
      obtain ⟨hsum, hin⟩ := ht.counts
      obtain ⟨k, v, hreach, hv⟩ := ih _ (by omega) ht rfl
      exact ⟨k + 1, v, reaches_succ.2 ⟨t, hstep, hreach⟩, hv⟩

/-- With nothing left to encode all of the data is (42_compress R115 item 1). -/
theorem State.Compressing.all_encoded (hl : c.cu.len = 0) :
    c.encodedCount = s.src.unread.length ∧ c.regs.inCount.toNat = s.src.unread.length := by
  obtain ⟨hsum, hin⟩ := h.counts
  obtain ⟨-, -, hends, -⟩ := h.inv.comp h.running
  obtain ⟨-, heos⟩ := h.inv.status.2.2.2
  have hend := heos (hends (by rw [hl]; decide))
  rw [h.pos, h.bytes] at hend
  rw [hl] at hsum
  change _ + 0 = _ at hsum
  have := Source.unread_length s.src
  omega

/-- Then `CSUM` is the checksum of all the data (42_compress R113). -/
theorem State.Compressing.all_summed (hl : c.cu.len = 0) : c.regs.csum = checksum s.regs.signed s.src.unread := by
  obtain ⟨-, -, -, -, -, hcsum, -⟩ := h.inv.comp h.running
  rw [hcsum, h.consumed, (h.all_encoded hl).2, List.take_length, h.signed]

/-- The last step of a `COMP` commits the block: the text of the data, then its checksum (42_compress R112). -/
theorem State.Compressing.ends (hl : c.cu.len = 0) :
    ∃ kinds tokens bytes, Wire c.snk.pending kinds tokens s.src.unread ∧ FlagBits c.cu.gbuf[0] kinds ∧
      bytes = openGroup c.cu.gbuf[0] kinds tokens ++ bytesOfWord (checksum s.regs.signed s.src.unread) ∧
      step c = .next ((c.afterWriting bytes).doneWith (c.afterWriting bytes).regs.outCount) := by
  obtain ⟨kinds, tokens, hw, -, -, hg, hf⟩ := h.text
  rw [(h.all_encoded hl).1, List.take_length] at hw
  obtain ⟨-, -, -, -, ⟨k, hk8, -, -, hhi, -⟩, -, -⟩ := h.inv.comp h.running
  obtain ⟨-, -, hpend, -⟩ := h.inv.status.2.1 (State.busy_of_running h.running)
  obtain ⟨-, hkinds, -, htokens⟩ := hw.length_le
  have hptr : c.cu.gptr.toNat = tokens.length + 1 := by
    have := congrArg List.length hg
    rw [CU.groupBytes, List.length_take, Vector.length_toList, List.length_cons] at this
    omega
  have hgroup : (if 1 < c.cu.gptr.toNat then c.cu.groupBytes else []) = openGroup c.cu.gbuf[0] kinds tokens := by
    by_cases hk : kinds = []
    · rw [hk, openGroup_nil, if_neg (by rw [hptr, htokens hk]; simp)]
    · have := List.length_pos_of_ne_nil hk
      rw [openGroup_of_ne _ _ hk, if_pos (by omega), hg]
  have hsize := hw.text_length_le c.cu.gbuf[0]
  have hblock := h.room
  rw [List.length_append] at hsize
  have htrailer := cuTrailer_ok c.regs.csum hl (by omega) (by rw [hgroup, ← hpend]; omega)
  rw [hgroup] at htrailer
  refine ⟨kinds, tokens, _, hw, fun i _ => hf i, rfl, ?_⟩
  rw [step_comp h.queue h.running, cuElement_trailer hl, exec_trailer_comp _ h.running, htrailer, Res.outcome_ok,
    h.all_summed hl]

end Compressing

/-- The setup leaves a `COMP` that has encoded nothing (42_compress R103, R104). -/
theorem State.SetUpOk.compressing {s : State} {win : List Host.Cell} {f : Finder} (h : s.SetUpOk win f)
    (hq : s.port.queue = []) (hsrc : s.src.InRange) (hsmall : s.src.bytes.length < 2 ^ 32)
    (hroom : s.src.unread.length + (s.src.unread.length + 7) / 8 + 4 < 2 ^ 32) : s.Compressing (s.setUp win f) := by
  have hr : (s.setUp win f).running = some .comp := rfl
  have hin : (s.setUp win f).regs.inCount.toNat = (s.src.unread.take 18).length := by
    change ((0 : Word) + BitVec.ofNat 32 (s.src.unread.take 18).length).toNat = _
    simp
  have henc : (s.setUp win f).encodedCount = 0 := by
    rw [State.encodedCount, hin, State.setUp_len, Nat.sub_self]
  refine
    { inv :=
        { storage := ⟨h.walk.window, h.walk.canonical⟩
          status := (State.StreamsOk.setUp hsrc).statusOk
          vdec := running_ne hr (by decide)
          decomp := running_ne hr (by decide)
          decompWindow := running_ne hr (by decide)
          comp := h.compOk hsrc.1
          compWindow := h.compWindowOk hsrc.1
          forest := h.forestOk }
      running := hr
      queue := hq
      bytes := rfl
      pos := by rw [hin]; rfl
      committed := rfl
      signed := rfl
      cursor := by rw [henc]; rfl
      text := ?_
      small := hsmall
      room := hroom }
  rw [henc, List.take_zero]
  exact textOf_emptyGroup .nil (Vector.getElem_set_self ..) rfl rfl

/-- Settles O59: a `COMP` commits a text of its data with the checksum after it, and a `DECOMP` decodes every text. -/
theorem decompUndoesComp : Obligations.DecompUndoesComp := by
  intro s hstatus hb hlen hblock
  obtain ⟨win, f, hset, hstart⟩ := step_startComp hb
  obtain ⟨k, c, hreach, hc, hl⟩ := (hset.compressing rfl hstatus.2.2.2 hlen hblock).runs
  obtain ⟨kinds, tokens, bytes, hw, hf, hbytes, hstep⟩ := hc.ends hl
  refine ⟨_, _, c.snk.pending ++ bytes, reaches_succ.2 ⟨_, hstart, reaches_step hreach hstep⟩, rfl, ?_,
    fun u rest hu hsigned harg hunread => ?_⟩
  · change c.snk.committed ++ (c.snk.pending ++ bytes) = _
    rw [hc.committed]
    rfl
  · have hblocklen : (c.snk.pending ++ bytes).length < 2 ^ 32 := by
      have hsize : _ ≤ s.src.unread.length + (s.src.unread.length + 7) / 8 := hw.text_length_le c.cu.gbuf[0]
      rw [hbytes, ← List.append_assoc, List.length_append (bs := bytesOfWord _)]
      exact Nat.lt_of_le_of_lt (Nat.add_le_add_right hsize 4) hblock
    obtain ⟨m, v, hv, hdone, hcom, hvin, hvcsum, hvcur, hvrest⟩ :=
      hw.decodes hf hu (by rw [hbytes, hsigned, List.append_assoc]; rfl) hunread harg hblocklen
    refine ⟨m, v, hv, hdone, hcom, hvin, ?_, ?_, hvrest⟩
    · rw [hvcsum, hsigned]
      exact (hc.all_summed hl).symm
    · rw [hvcur]
      exact (hc.cursor.trans (by rw [(hc.all_encoded hl).1])).symm

end Sys2Proof.Machine
end

section
/-! The compression unit (42_compress): the frame of a token, what it does to the group and to the window, the end of a
block, and from these what a whole `COMP` commits. -/
namespace Sys2Proof.Machine

/-! ## The setup -/

/-- `COMP` in a block that is not `BUSY` (42_compress R103, R104). -/
theorem exec_comp_idle {s : State} (hb : s.busy = false) :
    ∃ win f, s.SetUpOk win f ∧ exec .comp s = .next (s.setUp win f) := by
  obtain ⟨win, f, hset, hwin, hwalk, hml, hfound⟩ := cuSetup_law Config.treeOrder (s.started 5) rfl
  refine ⟨win, f, ⟨hwin, hwalk, hml, hfound⟩, ?_⟩
  rw [exec, execComp, runCommand_idle hb, hset]
  rfl

/-- An empty group is its flag byte alone, which is 0 (42_compress R103, R109). -/
theorem groupBytes_empty {c : CU} (hf : c.gbuf[0] = 0) (hp : c.gptr = 1) : c.groupBytes = [0] := by
  rw [CU.groupBytes, hp, show (1 : BitVec 5).toNat = 1 from rfl, List.take_one, List.head?_eq_getElem?,
    Vector.getElem?_toList, Vector.getElem?_eq_getElem (by decide), hf]
  rfl

/-- The group buffer holds a flag byte and the bytes of eight references (10_state R33). -/
theorem groupBytes_length_le (c : CU) : c.groupBytes.length ≤ 17 := by
  rw [CU.groupBytes, List.length_take, Vector.length_toList]
  exact Nat.min_le_right ..

/-- Settles O17: the setup written out. -/
theorem compStartsWithItsLookahead : Obligations.CompStartsWithItsLookahead := by
  intro s hb
  obtain ⟨win, f, hset, hexec⟩ := exec_comp_idle hb
  have hread : (s.src.unread.take 18).length = min 18 s.src.unread.length := List.length_take
  refine ⟨_, hexec, State.setUp_len.trans hread, rfl, rfl, rfl, groupBytes_empty (Vector.getElem_set_self ..) rfl,
    hset.window, ?_, ?_, rfl, rfl, rfl, rfl, rfl⟩
  · rw [← hread, ← BitVec.zero_add (BitVec.ofNat 32 _)]
    rfl
  · rw [← hread]
    rfl

/-! ## The frame of a token -/

/-- How many positions a token of a `COMP` advances: one for a literal, its count for a reference (42_compress R107,
R108). -/
def tokenPositions : Instr → Nat
  | .lit _ => 1
  | .ref _ count => count
  | _ => 0

/-- A token of a `COMP` ends with its advance; what its parts before that keep holds where the advance begins. -/
theorem exec_token_advances (motive : State → Prop)
    (group : ∀ s gbuf gptr gmask, motive s → motive (s.withGroup gbuf gptr gmask))
    (write : ∀ (s : State) (b : Byte), motive s → s.regs.outCount.toNat + 1 < 2 ^ 32 → motive (s.afterWriting [b]))
    (short : ∀ s : State, motive s → motive (s.withFinder { s.cu.finder with ml := 1 })) {s t : State} {i : Instr}
    (hr : s.running = some .comp) (hi : (∃ d, i = .lit d) ∨ ∃ offset count, i = .ref offset count) (hs : motive s)
    (h : exec i s = .next t) : ∃ u, motive u ∧ advance Config.treeOrder (tokenPositions i) u = .ok t := by
  rcases hi with ⟨d, rfl⟩ | ⟨offset, count, rfl⟩
  · rw [exec_lit_comp d hr, Res.outcome_eq_next] at h
    rw [cuLit, if_neg (cuLit_selected h)] at h
    simp only [Res.bind_eq_ok] at h
    obtain ⟨s1, hflag, s2, happend, u, hclose, hadv⟩ := h
    have h1 := gbufSet_keeps motive group (short s hs) hflag
    exact ⟨u, closeToken_keeps motive group write (gbufAppend_keeps motive group h1 happend) hclose, hadv⟩
  · rw [exec_ref_comp offset count hr, Res.outcome_eq_next] at h
    rw [cuRef, if_pos (cuRef_selected h)] at h
    simp only [Res.bind_eq_ok] at h
    obtain ⟨s1, happend, u, hclose, hadv⟩ := h
    exact ⟨u, closeToken_keeps motive group write (gbufAppend_keeps motive group hs happend) hclose, hadv⟩

/-- What a token of a `COMP` can change is the checksum, the counters, the compression unit, the window with its cursor
and the streams, and of these neither what was committed nor the bytes of the source. -/
def State.TokenFrame (s t : State) : Prop :=
  t.regs = { s.regs with csum := t.regs.csum, inCount := t.regs.inCount, outCount := t.regs.outCount } ∧
    t.sampled = s.sampled ∧ t.du = s.du ∧ t.vu = s.vu ∧ t.port = s.port ∧ t.snk.committed = s.snk.committed ∧
    t.src.bytes = s.src.bytes

theorem State.TokenFrame.afterWriting {s t : State} (h : s.TokenFrame t) (bs : List Byte) :
    s.TokenFrame (t.afterWriting bs) := by
  obtain ⟨hregs, hrest⟩ := h
  refine ⟨?_, hrest⟩
  rw [State.afterWriting, hregs]

theorem State.TokenFrame.advanceStep {o : Config.TreeOrder} {s t u : State} (h : s.TokenFrame t)
    (ha : advanceStep o t = .ok u) : s.TokenFrame u := by
  obtain ⟨hregs, hrest⟩ := h
  rcases advanceStep_cases ha with ⟨b, f, g, -, -, -, -, rfl⟩ | ⟨f, g, -, -, -, rfl⟩
  · refine ⟨?_, hrest⟩
    rw [State.advancedInput, hregs]
  · exact ⟨hregs, hrest⟩

/-- Settles O37: every part of a token stays within the frame. -/
theorem tokensOfCompLeaveTheRestAlone : Obligations.TokensOfCompLeaveTheRestAlone := by
  intro s t i hr hi h
  obtain ⟨u, hu, hadv⟩ := exec_token_advances s.TokenFrame (fun _ _ _ _ h => h) (fun _ b h _ => h.afterWriting [b])
    (fun _ h => h) hr hi ⟨rfl, rfl, rfl, rfl, rfl, rfl, rfl⟩ h
  exact advance_induct s.TokenFrame (fun _ _ h ha => h.advanceStep ha) hu hadv

/-! ## The group (42_compress R107 to R109) -/

/-- Closing a token before the eighth leaves its bytes in the group and moves the mask; closing the eighth sends the group
to the sink and begins a new one. -/
theorem closeToken_group {u v : State} (h : closeToken u = .ok v) :
    (u.cu.gmask <<< 1 ≠ 0 → v.cu.groupBytes = u.cu.groupBytes ∧ v.cu.gmask = u.cu.gmask <<< 1 ∧ v.snk = u.snk ∧
      v.regs.outCount = u.regs.outCount) ∧
    (u.cu.gmask <<< 1 = 0 → v.cu.groupBytes = [0] ∧ v.cu.gmask = 1 ∧
      v.snk = { u.snk with pending := u.snk.pending ++ u.cu.groupBytes } ∧
      v.regs.outCount = u.regs.outCount + BitVec.ofNat 32 u.cu.groupBytes.length) := by
  rcases closeToken_cases h with ⟨hz, rfl⟩ | ⟨hz, -, -, rfl⟩
  · exact ⟨fun _ => ⟨rfl, rfl, rfl, rfl⟩, fun e => absurd e hz⟩
  · exact ⟨fun e => absurd hz e, fun _ => ⟨groupBytes_empty (Vector.getElem_set_self ..) rfl, rfl, rfl, rfl⟩⟩

theorem advanceStep_outCount {o : Config.TreeOrder} {s t : State} (h : advanceStep o s = .ok t) :
    t.regs.outCount = s.regs.outCount := by
  rcases advanceStep_cases h with ⟨b, f, g, -, -, -, -, rfl⟩ | ⟨f, g, -, -, -, rfl⟩ <;> rfl

theorem advance_outCount {o : Config.TreeOrder} {n : Nat} {s t : State} (h : advance o n s = .ok t) :
    t.regs.outCount = s.regs.outCount :=
  advance_induct (fun t => t.regs.outCount = s.regs.outCount) (fun _ _ hu h => (advanceStep_outCount h).trans hu) rfl h

/-- The mask of one of eight flag bits: it moves up by doubling, and only from bit 7 it leaves the byte. -/
theorem gmask_shift {m : Byte} {k : Nat} (hk : k < 8) (hm : m = 1#8 <<< k) :
    (m ≠ 0x80 → m <<< 1 ≠ 0 ∧ (m <<< 1).toNat = 2 * m.toNat) ∧ (m = 0x80 → m <<< 1 = 0) := by
  subst hm
  revert k
  decide

/-- What a token does to the group, `u` being `s` with the token's bytes in its group. -/
theorem closeToken_advance_group {o : Config.TreeOrder} {s u t : State} {n : Nat} {bytes : List Byte}
    (h : (closeToken u >>= advance o n) = .ok t) (hg : s.cu.GroupOk) (hbytes : u.cu.groupBytes = bytes)
    (hmask : u.cu.gmask = s.cu.gmask) (hsnk : u.snk = s.snk) (hout : u.regs.outCount = s.regs.outCount) :
    (s.cu.gmask ≠ 0x80 → t.cu.groupBytes = bytes ∧ t.cu.gmask.toNat = 2 * s.cu.gmask.toNat ∧ t.snk = s.snk ∧
      t.regs.outCount = s.regs.outCount) ∧
    (s.cu.gmask = 0x80 → t.cu.groupBytes = [0] ∧ t.cu.gmask = 1 ∧
      t.snk = { s.snk with pending := s.snk.pending ++ bytes } ∧
      t.regs.outCount = s.regs.outCount + BitVec.ofNat 32 bytes.length) := by
  obtain ⟨k, hk, hm, -⟩ := hg
  obtain ⟨hopen, hfull⟩ := gmask_shift hk hm
  obtain ⟨v, hclose, hadv⟩ := (Res.bind_eq_ok _ _ _).1 h
  obtain ⟨hbuf, hptr, hmask'⟩ := advance_group hadv
  have hgroup : t.cu.groupBytes = v.cu.groupBytes := by rw [CU.groupBytes, CU.groupBytes, hbuf, hptr]
  rw [hgroup, hmask', advance_snk hadv, advance_outCount hadv]
  obtain ⟨hc1, hc2⟩ := closeToken_group hclose
  rw [hbytes, hmask, hsnk, hout] at hc1 hc2
  refine ⟨fun hne => ?_, fun he => hc2 (hfull he)⟩
  obtain ⟨hz, hdouble⟩ := hopen hne
  obtain ⟨hb, hm', hrest⟩ := hc1 hz
  exact ⟨hb, hm' ▸ hdouble, hrest⟩

/-- A reference of the spec stands for 3 to 18 bytes (00_scope R7). -/
theorem wellFormed_ref {offset : Cursor} {count : Nat} (h : (Instr.ref offset count).WellFormed) :
    3 ≤ count ∧ count ≤ 18 := by
  simpa [Instr.WellFormed, Instr.wf] using h

/-- The two bytes of a reference as numbers (30_encoding R65, R70). -/
theorem refBytes_eq (offset : Cursor) {count : Nat} (h : count ≤ 18) :
    refBytes offset count =
      [BitVec.ofNat 8 offset.toNat, BitVec.ofNat 8 (offset.toNat / 256 * 16 + (count - 3))] := by
  have hlow : (BitVec.ofNat 4 (count - 3)).toNat = count - 3 := by
    rw [BitVec.toNat_ofNat]
    omega
  have hhigh : (offset.extractLsb' 8 4).toNat = offset.toNat / 256 := by
    rw [BitVec.extractLsb'_toNat, Nat.shiftRight_eq_div_pow]
    omega
  have hbyte : offset.extractLsb' 8 4 ++ BitVec.ofNat 4 (count - 3) =
      BitVec.ofNat 8 (offset.toNat / 256 * 16 + (count - 3)) := by
    apply BitVec.eq_of_toNat_eq
    rw [BitVec.toNat_append, hlow, hhigh, ← Nat.shiftLeft_add_eq_or_of_lt (by omega), Nat.shiftLeft_eq,
      BitVec.toNat_ofNat]
    omega
  rw [refBytes, hbyte]
  rfl

/-- The flag byte is the first of the group's bytes (10_state R33). -/
theorem groupBytes_cons {c : CU} (h : 1 ≤ c.gptr.toNat) : c.groupBytes = c.gbuf[0] :: c.groupBytes.tail := by
  have hhead : c.groupBytes.head? = some c.gbuf[0] := by
    rw [CU.groupBytes, List.head?_take, if_neg (by omega), List.head?_eq_getElem?, Vector.getElem?_toList,
      Vector.getElem?_eq_getElem (by decide)]
  exact List.eq_cons_of_mem_head? hhead

/-- Settles O35: the token's bytes join the group, and then the token is closed. -/
theorem tokensGatherInGroupsOfEight : Obligations.TokensGatherInGroupsOfEight := by
  intro s t i bytes hr hg hi h
  have ⟨k, hk, _, hlo, hhi, _⟩ := hg
  rcases hi with ⟨d, rfl, rfl⟩ | ⟨offset, count, rfl, hwf, rfl⟩
  · rw [exec_lit_comp d hr, Res.outcome_eq_next] at h
    obtain ⟨gbuf, -, hbytes, heq⟩ :=
      cuLit_eq Config.treeOrder d (cuLit_selected h) (by omega : 1 ≤ s.cu.gptr.toNat) (by omega)
    rw [heq] at h
    refine closeToken_advance_group h hg ?_ rfl rfl rfl
    rw [← hbytes, show s.cu.gptr.toNat + 1 = (s.cu.gptr + 1).toNat by bv_omega]
    rfl
  · obtain ⟨h3, h18⟩ := wellFormed_ref hwf
    rw [exec_ref_comp offset count hr, Res.outcome_eq_next] at h
    obtain ⟨gbuf, -, hbytes, heq⟩ := cuRef_eq Config.treeOrder offset h3 (cuRef_selected h).2
      (by omega : 1 ≤ s.cu.gptr.toNat) (by omega)
    rw [heq] at h
    refine closeToken_advance_group h hg ?_ rfl rfl rfl
    rw [← groupBytes_cons (by omega), ← refBytes_eq offset h18, ← hbytes,
      show s.cu.gptr.toNat + 2 = (s.cu.gptr + 2).toNat by bv_omega]
    rfl

/-! ## The window (42_compress R110, R111, R113) -/

/-- What the window advance reads and changes is in `u` as in `s`. -/
def State.SameInput (s u : State) : Prop :=
  u.win = s.win ∧ u.curR = s.curR ∧ u.cu.curS = s.cu.curS ∧ u.cu.len = s.cu.len ∧ u.src = s.src ∧
    u.sampled = s.sampled ∧ u.regs.inCount = s.regs.inCount ∧ u.regs.csum = s.regs.csum

/-- Settles O36: the window is untouched up to the token's advance, and that does what `advance_law` says. -/
theorem tokensAdvanceTheWindow : Obligations.TokensAdvanceTheWindow := by
  intro s t i n hr hw hi h
  obtain ⟨htok, rfl, hn⟩ :
      ((∃ d, i = .lit d) ∨ ∃ offset count, i = .ref offset count) ∧ n = tokenPositions i ∧ n ≤ 18 := by
    rcases hi with ⟨d, rfl, rfl⟩ | ⟨offset, count, rfl, hwf, rfl⟩
    · exact ⟨.inl ⟨d, rfl⟩, rfl, by decide⟩
    · exact ⟨.inr ⟨offset, n, rfl⟩, rfl, (wellFormed_ref hwf).2⟩
  obtain ⟨u, ⟨hwin, hcur, hinput, hlen, hsrc, hsampled, hin, hcsum⟩, hadv⟩ := exec_token_advances s.SameInput
    (fun _ _ _ _ h => h) (fun _ _ h _ => h) (fun _ h => h) hr htok ⟨rfl, rfl, rfl, rfl, rfl, rfl, rfl, rfl⟩ h
  have hat : u.winAt = s.winAt := by
    funext a
    rw [State.winAt, State.winAt, hwin]
  obtain ⟨h1, h2, h3, h4, -, h6, h7, h8, h9, h10⟩ := advance_law _ hn (hwin ▸ hw) hadv
  rw [hcur] at h1
  rw [hinput] at h2 h8 h9
  rw [hsrc] at h3 h4 h6 h7 h8 h9
  rw [hin] at h4
  rw [hsampled, hcsum] at h6
  rw [hlen] at h7
  rw [hat] at h9
  rw [hwin] at h10
  exact ⟨h1, h2, h3, h4, h6, h7, h8, h9, h10⟩

/-! ## A token completes -/

/-- Closing a token and advancing, in a state of the invariants but for what a token changes before: both answer. -/
theorem exec_token_completes {s u : State} {i : Instr} {n : Nat} (hs : s.Inv) (hr : s.running = some .comp)
    (hsmall : s.src.bytes.length < 2 ^ 32) (hroom : s.regs.outCount.toNat + 17 < 2 ^ 32)
    (h : exec i s = (closeToken u >>= advance Config.treeOrder n).outcome) (hsame : s.SameFinder u)
    (hsrc : u.src = s.src) (hout : u.regs.outCount = s.regs.outCount) (hptr : u.cu.gptr.toNat ≤ 17) :
    ∃ t, exec i s = .next t := by
  have hwalk := hsame.walkOk (hs.forest.walkOk hs.storage hs.comp hr)
  obtain ⟨-, -, -, hpos⟩ := hs.status.2.1 (State.busy_of_running hr)
  have hgroup := groupBytes_length_le u.cu
  obtain ⟨-, -, -, -, hin, -⟩ := hsame
  obtain ⟨v, t, hclose, hadv⟩ := closeToken_advance_ok n hwalk (by rw [hin, hsrc]; exact hpos) (hsrc ▸ hsmall) hptr
    fun _ => by rw [hout]; omega
  rw [h, hclose, Res.ok_bind, hadv]
  exact ⟨t, rfl⟩

/-- Settles O38: the token's bytes have room in the group, and the rest of the token answers. -/
theorem tokensOfCompComplete : Obligations.TokensOfCompComplete := by
  intro s i hs hr hsmall hroom hi
  obtain ⟨-, -, -, -, ⟨k, hk, -, hlo, hhi, -⟩, -⟩ := hs.comp hr
  rcases hi with ⟨d, rfl, hl⟩ | ⟨offset, count, rfl, hwf, hl⟩
  · obtain ⟨gbuf, -, -, heq⟩ := cuLit_eq Config.treeOrder d hl (by omega : 1 ≤ s.cu.gptr.toNat) (by omega)
    have hptr : (s.cu.gptr + 1).toNat ≤ 17 := by bv_omega
    exact exec_token_completes hs hr hsmall hroom ((exec_lit_comp d hr).trans (congrArg Res.outcome heq))
      (State.SameFinder.ml s 1) rfl rfl hptr
  · obtain ⟨gbuf, -, -, heq⟩ := cuRef_eq Config.treeOrder offset (wellFormed_ref hwf).1 hl
      (by omega : 1 ≤ s.cu.gptr.toNat) (by omega)
    have hptr : (s.cu.gptr + 2).toNat ≤ 17 := by bv_omega
    exact exec_token_completes hs hr hsmall hroom ((exec_ref_comp offset count hr).trans (congrArg Res.outcome heq))
      ⟨rfl, rfl, rfl, rfl, rfl, rfl⟩ rfl rfl hptr

/-! ## The end of a block -/

/-- The bytes of a trailer as numbers (30_encoding R66). -/
theorem bytesOfWord_eq (w : Word) :
    bytesOfWord w = [BitVec.ofNat 8 w.toNat, BitVec.ofNat 8 (w.toNat / 2 ^ 8), BitVec.ofNat 8 (w.toNat / 2 ^ 16),
      BitVec.ofNat 8 (w.toNat / 2 ^ 24)] := by
  simp only [← Nat.shiftRight_eq_div_pow]
  rfl

theorem bytesOfWord_length (w : Word) : (bytesOfWord w).length = 4 := rfl

/-- A step of a `COMP` with nothing left to encode ends it (42_compress R112). -/
theorem step_compEnds {c : State} (hq : c.port.queue = []) (hr : c.running = some .comp) (hl : c.cu.len = 0)
    (hp : c.cu.gptr.toNat ≤ 17)
    (hc : c.regs.outCount.toNat + (if 1 < c.cu.gptr.toNat then c.cu.groupBytes else []).length + 4 < 2 ^ 32) :
    ∃ bytes, bytes = (if 1 < c.cu.gptr.toNat then c.cu.groupBytes else []) ++ bytesOfWord c.regs.csum ∧
      step c = .next ((c.afterWriting bytes).doneWith (c.afterWriting bytes).regs.outCount) := by
  refine ⟨_, rfl, ?_⟩
  rw [step_comp hq hr, cuElement_trailer hl, exec_trailer_comp _ hr, cuTrailer_ok _ hl hp hc, Res.outcome_ok]

/-- Settles O39: the block's end as `cuTrailer_ok` gives it, the trailer's bytes as numbers. -/
theorem trailerEndsTheBlock : Obligations.TrailerEndsTheBlock := by
  intro s w hr hl ⟨k, hk, _, _, hhi, _⟩ hroom
  have hgroup : (if 1 < s.cu.gptr.toNat then s.cu.groupBytes else []).length ≤ 17 := by
    split
    · exact groupBytes_length_le s.cu
    · exact Nat.zero_le _
  rw [exec_trailer_comp w hr, cuTrailer_ok w hl (by omega) (by omega), Res.outcome_ok, bytesOfWord_eq]
  rfl

/-- Settles O40: the setup reads nothing, and the step after it writes the trailer of an empty sum. -/
theorem compOfNothingIsTheTrailerAlone : Obligations.CompOfNothingIsTheTrailerAlone := by
  intro s hb hu
  obtain ⟨win, f, -, hstart⟩ := step_startComp hb
  have hread : (s.withQueue []).src.unread.take 18 = [] := by
    rw [show (s.withQueue []).src.unread = [] from hu]
    rfl
  have hl : ((s.withQueue []).setUp win f).cu.len = 0 := BitVec.eq_of_toNat_eq (by rw [State.setUp_len, hread]; rfl)
  have hcsum : ((s.withQueue []).setUp win f).regs.csum = 0 := congrArg (checksum s.regs.signed) hread
  have hin : ((s.withQueue []).setUp win f).regs.inCount = 0 :=
    congrArg (fun bs : List Byte => (0 : Word) + BitVec.ofNat 32 bs.length) hread
  obtain ⟨bytes, hbytes, hend⟩ := step_compEnds (c := (s.withQueue []).setUp win f) rfl rfl hl
    (by decide : (1 : BitVec 5).toNat ≤ 17) (by decide : 0 + ([] : List Byte).length + 4 < 2 ^ 32)
  rw [hcsum] at hbytes
  subst hbytes
  exact ⟨_, reaches_succ.2 ⟨_, hstart, reaches_succ.2 ⟨_, hend, reaches_zero.2 rfl⟩⟩, rfl, rfl, rfl, hin, hcsum⟩

/-- Settles O50: each token of a `COMP` keeps its window, and the setup lays the lookahead in it. -/
theorem everyStepKeepsTheEncoderWindow : Obligations.EveryStepKeepsTheEncoderWindow :=
  fun _ _ hsto hsta hcomp hwin h => step_keeps_compWindowOk hsto hsta hcomp hwin h

/-! ## A whole `COMP` -/

/-- Settles O58: the run of a `COMP` to its trailer, whose text has the length that its tokens allow. -/
theorem compAlwaysCommitsABlock : Obligations.CompAlwaysCommitsABlock := by
  intro s hstatus hb hlen hblock
  obtain ⟨win, f, hset, hstart⟩ := step_startComp hb
  obtain ⟨k, c, hreach, hc, hl⟩ := (hset.compressing rfl hstatus.2.2.2 hlen hblock).runs
  obtain ⟨kinds, tokens, bytes, hw, -, rfl, hend⟩ := hc.ends hl
  have hsize : _ ≤ s.src.unread.length + (s.src.unread.length + 7) / 8 := hw.text_length_le c.cu.gbuf[0]
  obtain ⟨-, -, hpend, -⟩ := hc.inv.status.2.1 (State.busy_of_running hc.running)
  obtain ⟨-, -, hlatch, -⟩ := hc.inv.comp hc.running
  have heos : c.src.eos = true := hlatch (by rw [hl]; decide)
  have hunread : c.src.unread = [] := by
    obtain ⟨-, hat⟩ := hc.inv.status.2.2.2
    exact List.drop_of_length_le (Nat.le_of_eq (hat heos).symm)
  refine ⟨_, _, c.snk.pending ++ openGroup c.cu.gbuf[0] kinds tokens,
    reaches_succ.2 ⟨_, hstart, reaches_step hreach hend⟩, rfl, ?_, rfl, ?_, hsize, (hc.all_encoded hl).2,
    hc.all_summed hl, heos, hunread⟩
  · change c.snk.committed ++ (c.snk.pending ++ (_ ++ _)) = _
    rw [hc.committed, List.append_assoc, List.append_assoc]
    rfl
  · rw [List.length_append] at hsize ⊢
    refine (State.afterWriting_outCount ?_).trans ?_ <;>
      rw [List.length_append, bytesOfWord_length, ← hpend] <;>
      omega

end Sys2Proof.Machine
end

section
/-! Data without a repeated string (42_compress R117): no match is long enough for a reference, so every token is a
literal, and the groups fill up one byte at a time. -/
namespace Sys2Proof.Machine

/-! ## No reference without a repeated string -/

/-- The data with the three fill bytes that count as the text before it (42_compress R117). -/
def withFillBefore (data : List Byte) : List Byte := [0x20, 0x20, 0x20] ++ data

/-- No 3-byte string occurs twice in the data, the fill bytes before it included (42_compress R117). -/
def NoStringTwice (data : List Byte) : Prop :=
  ∀ i j : Nat, i < j → j ≤ data.length →
    ((withFillBefore data).drop i).take 3 ≠ ((withFillBefore data).drop j).take 3

/-- Three bytes that agree one by one are the same string. -/
theorem take_three_eq {text : List Byte} {i j : Nat} (hi : i + 3 ≤ text.length) (hj : j + 3 ≤ text.length)
    (h : ∀ k < 3, text.getD (i + k) 0 = text.getD (j + k) 0) : (text.drop i).take 3 = (text.drop j).take 3 := by
  refine List.ext_getElem (by simp; omega) fun k h1 _ => ?_
  have hk : k < 3 := by
    rw [List.length_take] at h1
    omega
  have := h k hk
  rw [List.getD_eq_getElem _ _ (by omega), List.getD_eq_getElem _ _ (by omega)] at this
  simpa using this

theorem withFillBefore_length (data : List Byte) : (withFillBefore data).length = data.length + 3 := by
  rw [withFillBefore, List.length_append, Nat.add_comm]
  rfl

/-- A byte of the data, three places on. -/
theorem withFillBefore_data (data : List Byte) (m : Nat) : (withFillBefore data).getD (m + 3) 0 = data.getD m 0 := by
  rw [withFillBefore, List.getD_append_right _ _ _ _ (by simp)]
  rfl

theorem withFillBefore_fill (data : List Byte) {m : Nat} (h : m < 3) : (withFillBefore data).getD m 0 = Config.fill := by
  rw [withFillBefore, List.getD_append _ _ _ _ h]
  revert m
  decide

/-- The byte `d` places before the end of the first `m` bytes of the data. -/
theorem reverse_take_getD {data : List Byte} {m d : Nat} (hm : m ≤ data.length) (hd : d ≠ 0) :
    (data.take m).reverse.getD (d - 1) Config.fill = if d ≤ m then data.getD (m - d) 0 else Config.fill := by
  have hl : (data.take m).reverse.length = m := by rw [List.length_reverse, List.length_take, Nat.min_eq_left hm]
  split
  · rw [List.getD_eq_getElem _ _ (by omega), List.getD_eq_getElem _ _ (by omega), List.getElem_reverse,
      List.getElem_take]
    congr 1
    rw [List.length_take]
    omega
  · exact List.getD_eq_default _ _ (by omega)

/-- A reference to three bytes or more repeats a string of the data or of the fill before it. -/
theorem Copies.string_twice {data : List Byte} {e n : Nat} {offset : Cursor} (hn : 3 ≤ n) (he : e + n ≤ data.length)
    (hz : offset ≠ 0) (h : Copies (data.take e) offset ((data.drop e).take n)) : ¬ NoStringTwice data := by
  have hd : offset.toNat ≠ 0 := fun e => hz (BitVec.eq_of_toNat_eq e)
  have hl : ((data.drop e).take n).length = n := by
    rw [List.length_take, List.length_drop]
    omega
  refine fun hno => hno (e + 3 - offset.toNat) (e + 3) (by omega) (by omega)
    (take_three_eq ?_ ?_ fun k hk => ?_)
  · rw [withFillBefore_length]
    omega
  · rw [withFillBefore_length]
    omega
  · have hbyte := h k (by omega)
    rw [List.take_take, Nat.min_eq_left (by omega), ← List.take_add, reverse_take_getD (by omega) hd,
      List.getD_eq_getElem _ _ (by omega), List.getElem_take, List.getElem_drop,
      ← List.getD_eq_getElem _ 0 (by omega)] at hbyte
    rw [show e + 3 + k = e + k + 3 by omega, withFillBefore_data, hbyte]
    split
    · rw [show e + 3 - offset.toNat + k = e + k - offset.toNat + 3 by omega, withFillBefore_data]
    · exact withFillBefore_fill _ (by omega)

/-- A reference stands for at least three bytes, copied from somewhere before (30_encoding R65). -/
theorem Token.reference_copies {out bytes bs : List Byte} (h : Token out false bytes bs) :
    ∃ offset : Cursor, offset ≠ 0 ∧ 3 ≤ bs.length ∧ Copies out offset bs := by
  cases h with
  | ref offset _ hz h3 _ hcopies => exact ⟨offset, hz, h3, hcopies⟩

section Compressing
variable {s c : State} (h : s.Compressing c)
include h

/-- With no string twice the match is too short for a reference (42_compress R107, R117). -/
theorem State.Compressing.match_short (hno : NoStringTwice s.src.unread) (hl : c.cu.len ≠ 0) :
    c.clamped.cu.finder.ml.toNat ≤ 2 := by
  by_contra hml
  obtain ⟨hin, hinle⟩ := h.counts
  have hlen := (clamped_ml_toNat_le c).1
  obtain ⟨offset, hz, -, hcopies⟩ := (h.reference hl (by omega)).reference_copies
  exact hcopies.string_twice (by omega) (by omega) hz hno

end Compressing

/-! ## Literals fill the groups -/

/-- All that has been encoded are literals: eight make a closed group of nine bytes, the rest are in the open one. -/
structure State.LiteralGroups (c : State) : Prop where
  mask : c.cu.gmask.toNat = 2 ^ (c.encodedCount % 8)
  group : c.cu.groupBytes.length = c.encodedCount % 8 + 1
  closed : c.snk.pending.length = 9 * (c.encodedCount / 8)

/-- One more literal fills the groups on. -/
theorem State.LiteralGroups.literal {c t : State} {d : Byte} (h : c.LiteralGroups) (hr : c.running = some .comp)
    (hg : c.cu.GroupOk) (he : t.encodedCount = c.encodedCount + 1) (hstep : exec (.lit d) c.clamped = .next t) :
    t.LiteralGroups := by
  obtain ⟨hmask, hgroup, hclosed⟩ := h
  obtain ⟨hopen, hfull⟩ := tokensGatherInGroupsOfEight c.clamped t (.lit d) _ hr hg (.inl ⟨d, rfl, rfl⟩) hstep
  have hbytes : ((c.cu.gbuf[0] ||| c.cu.gmask) :: c.cu.groupBytes.tail ++ [d]).length =
      c.encodedCount % 8 + 2 := by
    rw [List.length_append, List.length_cons, List.length_tail, hgroup]
    rfl
  have heighth : c.cu.gmask = 0x80 ↔ c.encodedCount % 8 = 7 := by
    rw [← BitVec.toNat_inj, hmask]
    exact Nat.pow_right_inj (n := 7) (Nat.le_refl 2)
  by_cases h7 : c.encodedCount % 8 = 7
  · obtain ⟨hb, hm, hs, -⟩ := hfull (heighth.2 h7)
    have hs : t.snk.pending = c.snk.pending ++ _ := congrArg Sink.pending hs
    refine ⟨?_, ?_, ?_⟩
    · rw [hm, he, show (c.encodedCount + 1) % 8 = 0 by omega]
      rfl
    · rw [hb, he, show (c.encodedCount + 1) % 8 = 0 by omega]
      rfl
    · rw [hs, List.length_append, hclosed, he]
      refine (congrArg _ hbytes).trans ?_
      omega
  · obtain ⟨hb, hm, hs, -⟩ := hopen fun e => h7 (heighth.1 e)
    have hnext : (c.encodedCount + 1) % 8 = c.encodedCount % 8 + 1 := by omega
    refine ⟨?_, ?_, ?_⟩
    · rw [hm, he, hnext, pow_succ, Nat.mul_comm]
      exact congrArg (· * 2) hmask
    · rw [hb, he, hnext]
      exact hbytes
    · rw [hs, he, show (c.encodedCount + 1) / 8 = c.encodedCount / 8 by omega]
      exact hclosed

section Compressing
variable {s c : State} (h : s.Compressing c)
include h

/-- A `COMP` of data with no string twice emits a literal while bytes are left (42_compress R107, R117). -/
theorem State.Compressing.emits_literal (hno : NoStringTwice s.src.unread) (hg : c.LiteralGroups) (hl : c.cu.len ≠ 0) :
    ∃ t, step c = .next t ∧ s.Compressing t ∧ t.LiteralGroups ∧ t.encodedCount = c.encodedCount + 1 := by
  have hml := h.match_short hno hl
  have hpos : 1 ≤ c.cu.len.toNat := Nat.pos_of_ne_zero fun e => hl (BitVec.eq_of_toNat_eq e)
  obtain ⟨u, hu⟩ := h.takesLiteral hl hml
  obtain ⟨t, hstep, ht, he⟩ := h.advanced hpos hu
  have hexec : exec (.lit (c.winAt c.curR)) c.clamped = .next t := by
    rw [← hstep, step_comp h.queue h.running, cuElement_lit hl hml]
  obtain ⟨-, -, -, -, hgroup, -⟩ := h.inv.comp h.running
  exact ⟨t, hstep, ht, hg.literal h.running hgroup he hexec, he⟩

/-- It goes on so to the end of the data. -/
theorem State.Compressing.runs_literally (hno : NoStringTwice s.src.unread) (hg : c.LiteralGroups) :
    ∃ k t, Reaches k c t ∧ s.Compressing t ∧ t.LiteralGroups ∧ t.cu.len = 0 := by
  induction hn : s.src.unread.length - c.encodedCount generalizing c with
  | zero =>
    refine ⟨0, c, reaches_zero.2 rfl, h, hg, BitVec.eq_of_toNat_eq ?_⟩
    obtain ⟨hin, hinle⟩ := h.counts
    change _ = 0
    omega
  | succ n ih =>
    have hl : c.cu.len ≠ 0 := fun hl => by
      have := (h.all_encoded hl).1
      omega
    obtain ⟨t, hstep, ht, hgt, he⟩ := h.emits_literal hno hg hl
    obtain ⟨k, v, hreach, hv⟩ := ih ht hgt (by omega)
    exact ⟨k + 1, v, reaches_succ.2 ⟨t, hstep, hreach⟩, hv⟩

/-- The block then ends with a flag byte for every eight bytes of the data, or part of eight, and the trailer. -/
theorem State.Compressing.ends_literally (hg : c.LiteralGroups) (hl : c.cu.len = 0) :
    ∃ t, step c = .next t ∧ t.regs.state = .done ∧
      t.regs.result.toNat = s.src.unread.length + (s.src.unread.length + 7) / 8 + 4 := by
  obtain ⟨-, hgroup, hclosed⟩ := hg
  rw [(h.all_encoded hl).1] at hgroup hclosed
  obtain ⟨-, -, -, -, ⟨k, hk, -, -, hhi, -⟩, -⟩ := h.inv.comp h.running
  obtain ⟨-, -, hpend, -⟩ := h.inv.status.2.1 (State.busy_of_running h.running)
  have hptr : c.cu.gptr.toNat = c.cu.groupBytes.length := by
    rw [CU.groupBytes, List.length_take, Vector.length_toList]
    omega
  have hblock := h.room
  have hwaiting : (if 1 < c.cu.gptr.toNat then c.cu.groupBytes else []).length =
      s.src.unread.length % 8 + (s.src.unread.length % 8 + 7) / 8 := by
    split
    · omega
    · rw [List.length_nil]
      omega
  obtain ⟨bytes, hbytes, hend⟩ := step_compEnds h.queue h.running hl (by omega) (by omega)
  refine ⟨_, hend, rfl, (State.afterWriting_outCount ?_).trans ?_⟩ <;>
    rw [hbytes, List.length_append, bytesOfWord_length, hwaiting, ← hpend, hclosed] <;>
    omega

end Compressing

/-- The setup leaves an empty group and nothing encoded. -/
theorem State.setUp_literalGroups (s : State) (win : List Host.Cell) (f : Finder) : (s.setUp win f).LiteralGroups := by
  have he : (s.setUp win f).encodedCount = 0 := by
    have hin : (s.setUp win f).regs.inCount.toNat = (s.src.unread.take 18).length := by
      change ((0 : Word) + BitVec.ofNat 32 (s.src.unread.take 18).length).toNat = _
      simp
    rw [State.encodedCount, hin, State.setUp_len, Nat.sub_self]
  refine ⟨by rw [he]; rfl, ?_, by rw [he]; rfl⟩
  rw [groupBytes_empty (Vector.getElem_set_self ..) rfl, he]
  rfl

/-- Settles O60: every token is a literal, so the block's length is that of its groups and the trailer. -/
theorem incompressibleDataGrowsByItsFlags : Obligations.IncompressibleDataGrowsByItsFlags := by
  intro s hstatus hb hlen hblock hno
  obtain ⟨win, f, hset, hstart⟩ := step_startComp hb
  obtain ⟨k, c, hreach, hc, hg, hl⟩ := (hset.compressing rfl hstatus.2.2.2 hlen hblock).runs_literally hno
    (State.setUp_literalGroups _ win f)
  obtain ⟨t, hend, hdone, hresult⟩ := hc.ends_literally hg hl
  exact ⟨_, t, reaches_succ.2 ⟨_, hstart, reaches_step hreach hend⟩, hdone, hresult⟩

end Sys2Proof.Machine
end

section
/-! The match finder (43_match_finder R122 to R127): what `insert_node` and `delete_node` do to a forest and which match is
reported, read off their laws; and the forest that every step of a `COMP` keeps. -/
namespace Sys2Proof.Machine

section Insert
variable {o : Config.TreeOrder} {win : List Host.Cell} {f g : Finder}

/-- Of the other positions an insertion costs only the one that a full match replaces (43_match_finder R126). -/
theorem Inserted.member_other {n m : Nat} (h : Inserted o win n f g) (hm : m ≠ n) :
    g.Member m ↔ f.Member m ∧ ¬ (g.ml = 18 ∧ m = g.mp.toNat) := by
  rw [h.member, or_iff_right hm, ← BitVec.toNat_inj]
  rfl

/-- Whatever `insert_node` of a position that is no member answers, from a forest, is what its law says. -/
theorem inserted_of_insertNode {n : Cursor} (hc : f.Canonical) (ht : f.TreeOk win) (hn : ¬ f.Member n.toNat)
    (h : insertNode o win n f = .ok g) : Inserted o win n.toNat f g := by
  obtain ⟨g', hg', hins⟩ := insertNode_law o win hc ht n hn
  obtain rfl : g' = g := Except.ok.inj (hg'.symm.trans h)
  exact hins

end Insert

/-- Settles O41: the law of `insert_node`, the new position being a member and the others as `Inserted.member_other` says. -/
theorem insertNodeKeepsTheForest : Obligations.InsertNodeKeepsTheForest := by
  intro o win n f hleft hright hparent htree hn
  obtain ⟨g, hg, hins⟩ := insertNode_law o win ⟨hleft, hright, hparent⟩ htree n hn
  exact ⟨g, hg, hins.tree, (hins.member _).2 (.inl rfl), fun _ hm => hins.member_other hm, hins.ordered⟩

/-- Settles O42: the match is the best of the candidates met, and in an ordered forest what the descent passes by shares no
more. -/
theorem insertNodeReportsATrueMatch : Obligations.InsertNodeReportsATrueMatch := by
  intro o win n f g hleft hright hparent htree hn hg
  have hins := inserted_of_insertNode ⟨hleft, hright, hparent⟩ htree hn hg
  exact ⟨hins.le, hins.none_iff, hins.kept, hins.found, hins.longest⟩

/-- Settles O43: the law of `delete_node`, its membership clause read at `p` and at the other positions. -/
theorem deleteNodeKeepsTheForest : Obligations.DeleteNodeKeepsTheForest := by
  intro win p f hleft hright hparent htree
  obtain ⟨g, hg, -, htree', hmember, hml, hmp, hsame, hordered⟩ := deleteNode_law ⟨hleft, hright, hparent⟩ htree p
  exact ⟨g, hg, htree', fun h => ((hmember _).1 h).2 rfl, fun m hm => (hmember m).trans (and_iff_left hm), hml, hmp,
    hsame, hordered⟩

/-- Settles O51: each position a token advances by keeps the forest, and the setup of a `COMP` builds one. -/
theorem everyStepKeepsTheForest : Obligations.EveryStepKeepsTheForest :=
  fun _ _ hstorage _ hcomp hforest h => step_keeps_forestOk hstorage hcomp hforest h

end Sys2Proof.Machine
end

section
/-! No step faults from a state that meets the invariants (60_exceptions R143, 20_memory R45, 43_match_finder R129):
what the parts of a token of a `COMP` can stop for, then the element that each unit runs, then every action of the
host. -/
namespace Sys2Proof.Machine

/-! ## Stops that are no faults -/

/-- An inner operation that stops for a counter without room at most (10_state R21; log 6). -/
def Res.NoFault {α : Type} (x : Res α) : Prop := ∀ e, x = .error e → e = .refused .beyondCounters

theorem Res.noFault_of_ok {α : Type} {x : Res α} {a : α} (h : x = .ok a) : Res.NoFault x := by
  rintro e rfl
  cases h

theorem Res.NoFault.bind {α β : Type} {x : Res α} {f : α → Res β} (hx : Res.NoFault x)
    (hf : ∀ a, x = .ok a → Res.NoFault (f a)) : Res.NoFault (x >>= f) := by
  intro e h
  rcases (Res.bind_eq_error _ _ _).1 h with h | ⟨a, ha, h⟩
  · exact hx e h
  · exact hf a ha e h

theorem Res.NoFault.safeOutcome {x : Res State} (hx : Res.NoFault x) : SafeOutcome x.outcome := by
  intro r h
  cases hx _ ((Res.outcome_eq_fault x r).1 h)

theorem safeOutcome_of_next {o : Host.Outcome State Fault Refusal} {t : State} (h : o = .next t) : SafeOutcome o := by
  rw [h]
  exact nofun

theorem streamWrite_noFault (b : Byte) (s : State) : Res.NoFault (streamWrite b s) := fun _ he => streamWrite_error he

theorem streamWriteAll_noFault (bs : List Byte) (s : State) : Res.NoFault (streamWriteAll bs s) :=
  fun _ he => streamWriteAll_error he

/-! ## The window advance -/

section Advance
variable {o : Config.TreeOrder} {s : State}

/-- An advance step stops only where the read at its head does: the forest answers (43_match_finder R129). -/
theorem advanceStep_noFault (hw : s.WalkOk o) : Res.NoFault (advanceStep o s) := by
  intro e he
  have hparts := he
  rw [advanceStep] at hparts
  rcases (Res.bind_eq_error _ _ _).1 hparts with hread | ⟨r, hread, -⟩
  · exact streamRead_error hread
  · have room : s.src.bytes[s.src.pos]? ≠ none → s.regs.inCount.toNat + 1 < 2 ^ 32 := fun hne => by
      rcases streamRead_cases hread with ⟨b, -, hc, -⟩ | ⟨hnone, -⟩
      · exact hc
      · exact absurd hnone hne
    obtain ⟨t, ht, -⟩ := advanceStep_law o hw room
    cases ht.symm.trans he

theorem advanceStep_walkOk {t : State} (hw : s.WalkOk o) (h : advanceStep o s = .ok t) : t.WalkOk o := by
  have room : s.src.bytes[s.src.pos]? ≠ none → s.regs.inCount.toNat + 1 < 2 ^ 32 := fun hne => by
    rcases advanceStep_cases h with ⟨b, f, g, -, hc, -⟩ | ⟨f, g, hnone, -⟩
    · exact hc
    · exact absurd hnone hne
  obtain ⟨u, hu, hwalk, -⟩ := advanceStep_law o hw room
  cases hu.symm.trans h
  exact hwalk

theorem advance_noFault (n : Nat) (hw : s.WalkOk o) : Res.NoFault (advance o n s) := by
  induction n generalizing s with
  | zero => exact Res.noFault_of_ok rfl
  | succ n ih => exact (advanceStep_noFault hw).bind fun t ht => ih (advanceStep_walkOk hw ht)

/-- A token after its bytes have joined the group: closing it leaves the forest alone, and then the window advances
(42_compress R109, R110). -/
theorem closeToken_advance_noFault {u : State} (n : Nat) (hw : s.WalkOk o) (hsame : s.SameFinder u)
    (hp : u.cu.gptr.toNat ≤ 17) : Res.NoFault (closeToken u >>= advance o n) := by
  refine Res.NoFault.bind (fun e he => closeToken_error hp he) fun t ht => advance_noFault n ?_
  exact (closeToken_keeps s.SameFinder State.SameFinder.withGroup State.SameFinder.afterWriting hsame ht).walkOk hw

/-- The end of a block stops only for its writes (42_compress R112). -/
theorem cuTrailer_noFault (w : Word) (hl : s.cu.len = 0) (hp : s.cu.gptr.toNat ≤ 17) :
    Res.NoFault (cuTrailer w s) := by
  rw [cuTrailer_eq, if_pos hl]
  have hgroup : Res.NoFault (if 1 < s.cu.gptr.toNat then writeGroup s else .ok s) := by
    split
    · exact fun e he => writeGroup_error hp he
    · exact Res.noFault_of_ok rfl
  refine hgroup.bind fun t _ => (streamWriteAll_noFault _ t).bind fun _ _ => Res.noFault_of_ok rfl

end Advance

/-! ## The element that a unit runs -/

/-- The element that a `VENC` emits is the one that its value selects (40_varint R78). -/
theorem exec_vencElement_safe {s : State} (hr : s.running = some .venc) : SafeOutcome (exec (vencElement s) s) := by
  by_cases hv : 127 < s.vu.vv.toNat
  · rw [vencElement_more hv, exec, execVcont, hr]
    simp only [if_pos ((moreGroups_iff _).2 hv)]
    exact ((streamWrite_noFault _ s).bind fun _ _ => Res.noFault_of_ok rfl).safeOutcome
  · rw [vencElement_last (Nat.le_of_not_lt hv), exec, execVlast, hr]
    simp only [if_neg (mt (moreGroups_iff _).1 hv)]
    exact ((streamWrite_noFault _ s).bind fun _ _ => Res.noFault_of_ok rfl).safeOutcome

/-- A varint byte that a `VDEC` has read (40_varint R81, R82). -/
theorem exec_varint_safe {s : State} {i : Instr} {used : List Byte} (hr : s.running = some .vdec)
    (henc : encode i = .element .varint used) : SafeOutcome (exec i s) := by
  cases i with
  | vcont p => exact safeOutcome_of_next (exec_vcont_vdec p hr)
  | vlast p => exact safeOutcome_of_next (exec_vlast_vdec p hr)
  | _ => cases henc

/-- The element that a `COMP` emits is the one that `LEN` and the clamped match select; its bytes have room in the group
(42_compress R102, R106 to R108, R112). -/
theorem exec_cuElement_safe {s : State} (hw : s.WalkOk Config.treeOrder) (hg : s.cu.GroupOk)
    (hr : s.running = some .comp) : SafeOutcome (exec (cuElement s).1 (cuElement s).2) := by
  obtain ⟨k, hk, -, hlo, hhi, -⟩ := hg
  have hclamp : s.SameFinder s.clamped := State.SameFinder.ml s _
  have h1 : 1 ≤ s.clamped.cu.gptr.toNat := show 1 ≤ s.cu.gptr.toNat by omega
  have h15 : s.clamped.cu.gptr.toNat ≤ 15 := show s.cu.gptr.toNat ≤ 15 by omega
  by_cases hl : s.cu.len = 0
  · rw [cuElement_trailer hl, exec_trailer_comp _ hr]
    exact (cuTrailer_noFault _ hl (by omega)).safeOutcome
  · by_cases hm : s.clamped.cu.finder.ml.toNat ≤ 2
    · obtain ⟨gbuf, -, -, heq⟩ :=
        cuLit_eq Config.treeOrder (s.winAt s.curR) (s := s.clamped) hl h1 (by omega)
      rw [cuElement_lit hl hm, exec_lit_comp (s := s.clamped) _ hr, heq]
      have hptr : (s.clamped.cu.gptr + 1).toNat ≤ 17 := by bv_omega
      exact (closeToken_advance_noFault 1 hw ((State.SameFinder.ml s 1).withGroup _ gbuf _ _) hptr).safeOutcome
    · obtain ⟨gbuf, -, -, heq⟩ :=
        cuRef_eq Config.treeOrder (s.curR - s.cu.finder.mp) (s := s.clamped) (Nat.lt_of_not_le hm)
          (clamped_ml_toNat_le s).1 h1 h15
      rw [cuElement_ref hl (Nat.lt_of_not_le hm), exec_ref_comp (s := s.clamped) _ _ hr, heq]
      have hptr : (s.clamped.cu.gptr + 2).toNat ≤ 17 := by bv_omega
      exact (closeToken_advance_noFault _ hw (hclamp.withGroup _ gbuf _ _) hptr).safeOutcome

/-! ## The steps of the block -/

/-- An element that is read from the source runs as selected; a source that ends inside it is a failure of the
operation and no fault (60_exceptions R136). -/
theorem State.Selects.engineStep_safe {s s1 : State} {sel : Select} (h : s.Selects sel s1)
    (hexec : ∀ i used, encode i = .element sel used → SafeOutcome (exec i (s1.afterReading sel.length))) :
    SafeOutcome (engineStep s) := by
  obtain ⟨hb, hfetch⟩ := h.fetch
  rw [engineStep, if_pos hb, hfetch]
  cases hread : fetchElement sel s1 with
  | error e =>
    rw [fetchElement_error hread]
    exact nofun
  | ok r =>
    rcases fetchElement_cases hread with ⟨-, -, i, hdec, rfl⟩ | ⟨-, -, rfl⟩
    · obtain ⟨-, used, henc, -⟩ := encode_of_decodeElement hdec
      exact hexec i used henc
    · exact nofun

/-- The element that a running `DECOMP` selects is one that its state, the flag bit taken, lets run (30_encoding R71,
41_decompress R88, R90). -/
theorem State.Selects.decomp {s s1 : State} {sel : Select} (h : s.Selects sel s1) (hr : s.running = some .decomp)
    (hcount : s.CountersOk) :
    s1.running = some .decomp ∧ s1.CountersOk ∧
      (sel = .trailer ∧ s1.du.rem = 0 ∨ sel = .flag ∧ s1.du.rem ≠ 0 ∧ s1.du.fcnt = 0 ∨
        (∃ bit, sel = .token bit) ∧ s1.du.rem ≠ 0) := by
  rcases h with ⟨hv, -⟩ | ⟨-, ⟨hz, rfl, rfl⟩ | ⟨hz, hf, rfl, rfl⟩ | ⟨hz, hf, rfl, rfl⟩⟩
  · exact running_ne hv (by decide) hr
  · exact ⟨hr, hcount, .inl ⟨rfl, hz⟩⟩
  · exact ⟨hr, hcount, .inr (.inl ⟨rfl, hz, hf⟩)⟩
  · exact ⟨hr, hcount.flagTaken hf, .inr (.inr ⟨⟨_, rfl⟩, hz⟩)⟩

/-- Without an operation in progress the block waits (70_reset R147). -/
theorem engineStep_idle {s : State} (hb : s.busy = false) : engineStep s = .next s := if_neg (by simp [hb])

theorem engineStep_safe {s : State} (hs : s.Inv) : SafeOutcome (engineStep s) := by
  cases hb : s.busy with
  | false => exact safeOutcome_of_next (engineStep_idle hb)
  | true =>
    obtain ⟨hruns, -⟩ := hs.status.2.1 hb
    cases hr : s.running with
    | none => exact absurd hr hruns
    | some op =>
      cases op with
      | venc =>
        rw [engineStep_of_fetch hb (by rw [fetch, hr])]
        exact exec_vencElement_safe hr
      | vdec =>
        have hsel : s.Selects .varint s := .inl ⟨hr, rfl, rfl⟩
        exact hsel.engineStep_safe fun i used henc => exec_varint_safe (s := s.afterReading 1) hr henc
      | decomp =>
        have hsel := duSelect_selects hr
        obtain ⟨hr1, hcount, hselected⟩ := hsel.decomp hr (hs.decomp hr)
        refine hsel.engineStep_safe fun i used henc => ?_
        obtain ⟨t, ht, -⟩ :=
          exec_decomp_answers (s := (duSelect s).2.afterReading (duSelect s).1.length) hr1 hcount henc hselected
        exact safeOutcome_of_next ht
      | comp =>
        obtain ⟨-, -, -, -, hgroup, -⟩ := hs.comp hr
        rw [engineStep_of_fetch hb (by rw [fetch, hr])]
        exact exec_cuElement_safe (hs.forest.walkOk hs.storage hs.comp hr) hgroup hr

/-! ## All steps -/

/-- The invariants do not look at the host's port. -/
theorem State.Inv.withPort {s : State} (h : s.Inv) (p : Port) : ({ s with port := p } : State).Inv :=
  ⟨h.storage, h.status, h.vdec, h.decomp, h.decompWindow, h.comp, h.compWindow, h.forest⟩

/-- A written command word always answers (60_exceptions R131, 70_reset R160). -/
theorem hostCommand_safe (w : Word) (s : State) : SafeOutcome (hostCommand w s) := by
  cases hb : s.busy with
  | true => exact safeOutcome_of_next (hostCommand_busy w hb)
  | false =>
    obtain ⟨t, ht, -⟩ := hostCommand_idle w hb
    exact safeOutcome_of_next ht

theorem hostStep_safe (a : HostAction) {s : State} (hs : s.Inv) : SafeOutcome (hostStep a s) := by
  cases a with
  | write r v =>
    cases r with
    | cmd => exact hostCommand_safe v s
    | _ => exact safeOutcome_of_next rfl
  | read r => exact safeOutcome_of_next rfl
  | wait =>
    rw [hostStep]
    split
    · exact engineStep_safe (hs.withPort _)
    · exact safeOutcome_of_next rfl
  | tick => exact engineStep_safe hs
  | hardReset => exact safeOutcome_of_next rfl
  | attach bytes =>
    rw [hostStep, attachSource]
    split <;> exact nofun

/-- Settles O53: in every state of the invariants the element that the block runs is the one selected, and the forest and
the group give its parts no other stop than a counter without room. -/
theorem noStepFaults : Obligations.NoStepFaults := by
  intro s hs
  rw [step]
  split
  · exact engineStep_safe hs
  · exact hostStep_safe _ (hs.withPort _)

end Sys2Proof.Machine
end

section
/-! How commands start and operations end (60_exceptions R131 to R142, 70_reset R148, R160): the commands in a block
that runs nothing and in one that is `BUSY`, the failures, and what a step of the block leaves alone. -/
namespace Sys2Proof.Machine

/-! ## The source ends inside an element -/

/-- Settles O30: the bytes there are read, then the latch is set, and the part is not decoded. -/
theorem sourceEndingInsideAnElementIsTruncated : Obligations.SourceEndingInsideAnElementIsTruncated := by
  intro s s1 sel hq hsel hl hc
  obtain ⟨hsrc, -⟩ := hsel.frame
  rw [hsel.step_short hq hl hc, State.afterReadUpTo_short (hsrc ▸ hl), hsrc]
  simp only [State.afterReading, hsrc]

/-! ## What a step of the block leaves alone -/

/-- In `t` the host's part of the registers, what was sampled, the source's bytes and the host's port are those of `s`,
and the source has not moved back. -/
def State.KeepsOperands (s t : State) : Prop :=
  t.regs.cmd = s.regs.cmd ∧ t.regs.signed = s.regs.signed ∧ t.regs.arg = s.regs.arg ∧ t.sampled = s.sampled ∧
    t.src.bytes = s.src.bytes ∧ s.src.pos ≤ t.src.pos ∧ t.port = s.port

theorem State.KeepsOperands.refl (s : State) : s.KeepsOperands s := ⟨rfl, rfl, rfl, rfl, rfl, Nat.le_refl _, rfl⟩

/-- Reads move the source on, and no part of a step moves it otherwise (20_memory R40). -/
theorem State.KeepsOperands.read {s u : State} (n : Nat) (h : s.KeepsOperands u) :
    s.KeepsOperands (u.afterReading n) := by
  obtain ⟨hcmd, hsigned, harg, hsampled, hbytes, hpos, hport⟩ := h
  exact ⟨hcmd, hsigned, harg, hsampled, hbytes, Nat.le_add_right_of_le hpos, hport⟩

theorem keptByParts_keepsOperands (s : State) : KeptByParts s.KeepsOperands where
  units _ _ _ _ h := h
  read _ n h _ _ := h.read n
  latch _ h _ := h
  write _ _ h _ := h
  emit _ _ h _ := h
  group _ _ _ _ h := h
  matchLength _ _ h := h
  advance u t h ha := by
    rcases advanceStep_cases ha with ⟨b, f, g, -, -, -, -, rfl⟩ | ⟨f, g, -, -, -, rfl⟩
    · exact (h.read 1 :)
    · exact h

/-- A completion and a failure change `RESULT`, `STATUS` and the sink (60_exceptions R132, R141). -/
theorem State.KeepsOperands.leaves {s u t : State} (h : s.KeepsOperands u) (hl : u.Leaves t) : s.KeepsOperands t := by
  cases hl <;> exact h

/-- Settles O54: the parts of a step keep the operands, and so do the ways in which it can end the operation. -/
theorem theBlockNeverWritesItsOperands : Obligations.TheBlockNeverWritesItsOperands := by
  intro s t hq h
  cases hb : s.busy with
  | true =>
    obtain ⟨u, hu, hl⟩ :=
      (keptByParts_keepsOperands s).blockStep (State.KeepsOperands.refl s) (step_quiet_busy hq hb h).1
    exact hu.leaves hl
  | false =>
    rw [step_quiet hq, engineStep_idle hb] at h
    cases h
    exact State.KeepsOperands.refl s

/-! ## The ways out of `BUSY` and `FAILED` -/

/-- Settles O56: of the kinds of step only one of the block, a command and a hard reset change `STATUS.STATE`; the block's
needs a running operation, the command needs none. -/
theorem onlyTheseEventsLeaveBusyAndFailed : Obligations.OnlyTheseEventsLeaveBusyAndFailed := by
  intro s t h
  cases step_cases h with
  | block p t _ hb hblock =>
    refine ⟨fun _ hne => ?_, fun hfailed => ?_⟩
    · exact ((blockStep_state (s := { s with port := p }) hb hblock).resolve_left hne).imp_right .inl
    · rw [s.busy_iff.1 hb] at hfailed
      cases hfailed
  | command w rest t hq hb =>
    exact ⟨fun hbusy => absurd hbusy (s.not_busy_iff.1 hb), fun _ _ => .inr ⟨w, by rw [hq]; rfl⟩⟩
  | reset p hq => exact ⟨fun _ _ => .inr (.inr hq), fun _ _ => .inl hq⟩
  | _ => exact ⟨fun hs hne => absurd hs hne, fun hs hne => absurd hs hne⟩

/-! ## Commands -/

theorem hostCommand_of_decodeCommand {w : Word} {i : Instr} (s : State) (h : decodeCommand w = .ok i) :
    hostCommand w s = exec i s := by
  rw [hostCommand, h]

theorem decodeCommand_reserved {w : Word} (h : 5 < w.toNat) : decodeCommand w = .error (.reservedCommand w) := by
  rcases decodeCommand_cases w with ⟨-, rfl⟩ | ⟨-, rfl⟩ | ⟨-, rfl⟩ | ⟨-, rfl⟩ | ⟨-, rfl⟩ | ⟨-, rfl⟩ | ⟨hw, -⟩
  iterate 6 exact absurd h (by decide)
  exact hw

/-- A reserved code, in a block that is not `BUSY` (60_exceptions R139). -/
theorem hostCommand_reserved {s : State} {w : Word} (hb : s.busy = false) (h : 5 < w.toNat) :
    hostCommand w s = .next ((s.started w).failedWith .badCommand 0) := by
  rw [hostCommand, decodeCommand_reserved h]
  simp only [badCommand, runCommand_idle hb, raise_eq, Res.outcome_ok]

/-- `NOP` in a block that is not `BUSY` (60_exceptions R133). -/
theorem exec_nop_idle {s : State} (hb : s.busy = false) :
    exec .nop s = .next { s.started 0 with regs := { (s.started 0).regs with state := .idle } } := by
  rw [exec, execNop, runCommand_idle hb, Res.outcome_ok]

/-- `DECOMP` in a block that is not `BUSY` (41_decompress R87). -/
theorem exec_decomp_idle {s : State} (hb : s.busy = false) : exec .decomp s = .next (duInit (s.started 4)) := by
  rw [exec, execDecomp, runCommand_idle hb, Res.outcome_ok]

/-- Settles O5. -/
theorem stepRunsTheCommandWritten : Obligations.StepRunsTheCommandWritten := by
  intro s w i rest hq hdec
  rw [step_write hq]
  exact hostCommand_of_decodeCommand _ hdec

/-- Settles O14. -/
theorem nopReturnsToIdle : Obligations.NopReturnsToIdle := fun _ hb => exec_nop_idle hb

/-- Settles O16: the window of a `DECOMP` starts with no byte listed, so every byte reads as the fill byte. -/
theorem unitsStartInitialised : Obligations.UnitsStartInitialised :=
  fun _ hb => ⟨exec_venc_idle hb, exec_vdec_idle hb, [], exec_decomp_idle hb, fun _ => rfl⟩

/-- Settles O18: each command is what its word decodes to, and a word written while `BUSY` changes nothing. -/
theorem commandsWhileBusyDoNothing : Obligations.CommandsWhileBusyDoNothing := by
  intro s hb i hi
  obtain ⟨w, hw⟩ : ∃ w, decodeCommand w = .ok i := by
    simp only [List.mem_cons, List.not_mem_nil, or_false] at hi
    rcases hi with rfl | rfl | rfl | rfl | rfl | rfl
    exacts [⟨0, rfl⟩, ⟨1, rfl⟩, ⟨2, rfl⟩, ⟨3, rfl⟩, ⟨4, rfl⟩, ⟨5, rfl⟩]
  rw [← hostCommand_of_decodeCommand s hw, hostCommand_busy w hb]

/-- Settles O19. -/
theorem reservedCommandsFailWithBadCommand : Obligations.ReservedCommandsFailWithBadCommand := by
  intro s w rest hb hw hq
  rw [step_write hq]
  exact hostCommand_reserved (s := s.withQueue rest) hb hw

end Sys2Proof.Machine
end

section
/-! Hard reset and the host while an operation runs or none does (70_reset R147, R149, R160, 10_state R17): what a reset
leaves, which writes are ignored, and how a block waits. -/
namespace Sys2Proof.Machine

/-! ## Hard reset -/

/-- Every register of a block that has been reset reads 0 (70_reset R147). -/
theorem readReg_of_reset {s : State} (h : s.regs = Regs.reset) (r : Reg) : s.readReg r = 0 := by
  have hb : s.busy = false := by rw [State.busy, h]; rfl
  cases r with
  | result => rw [readReg_result_idle hb, h]; rfl
  | _ => rw [State.readReg, h]; rfl

/-- Settles O8: what a reset leaves is written out in `hardReset`. -/
theorem hardResetClearsTheRegisters : Obligations.HardResetClearsTheRegisters := by
  refine ⟨readReg_of_reset rfl, rfl, rfl, fun s rest hq => ⟨hardReset (s.withQueue rest), ?_, readReg_of_reset rfl,
    rfl, rfl, rfl, rfl, rfl, rfl, rfl, rfl⟩⟩
  rw [step, hq]
  rfl

/-- Settles O44: the arrays are empty, and nothing runs. -/
theorem invariantsHoldAtReset : Obligations.InvariantsHoldAtReset where
  storage := ⟨by decide, by decide, by decide, by decide⟩
  status := ⟨by decide, nofun, fun _ => rfl, Nat.le_refl 0, nofun⟩
  vdec := nofun
  decomp := nofun
  decompWindow := nofun
  comp := nofun
  compWindow := nofun
  forest := nofun

/-! ## Writes that are ignored -/

theorem hostWrite_busy {s : State} (r : Reg) (v : Word) (hb : s.busy = true) : hostWrite r v s = .next s := by
  cases r with
  | cmd => exact hostCommand_busy v hb
  | mode => rw [hostWrite, if_pos hb]
  | arg => rw [hostWrite, if_pos hb]
  | _ => rfl

theorem hostWrite_readOnly {r : Reg} (hc : r ≠ .cmd) (hm : r ≠ .mode) (ha : r ≠ .arg) (v : Word) (s : State) :
    hostWrite r v s = .next s := by
  cases r with
  | cmd => exact absurd rfl hc
  | mode => exact absurd rfl hm
  | arg => exact absurd rfl ha
  | _ => rfl

/-- Settles O9. -/
theorem writesWhileBusyAreIgnored : Obligations.WritesWhileBusyAreIgnored := by
  intro s r v rest hq h
  rw [step_write hq]
  rcases h with hb | ⟨hc, hm, ha⟩
  · exact hostWrite_busy r v hb
  · exact hostWrite_readOnly hc hm ha v _

/-! ## Waiting -/

/-- Settles O13. -/
theorem theBlockWaitsWhenNotBusy : Obligations.TheBlockWaitsWhenNotBusy := by
  intro s rest hb
  refine ⟨fun hq => (step_quiet hq).trans (engineStep_idle hb), fun hq => ?_⟩
  rw [step, hq]
  exact if_neg (Bool.eq_false_iff.1 hb)

end Sys2Proof.Machine
end

section
/-! An operation depends on its operands alone (70_reset R148). Two blocks are alike to a running operation when they
agree on what it sees: the registers, the unread bytes, the pending bytes and the state of its own unit. Every part of a
step, in the order of the model, answers in the second block where it answers in the first, and leaves the two alike. -/
namespace Sys2Proof.Machine

/-! ## Answers that follow each other -/

/-- Wherever `x` answers, `y` answers too, and the two answers are related. -/
def Res.Follows {α β : Type} (R : α → β → Prop) (x : Res α) (y : Res β) : Prop :=
  ∀ a, x = .ok a → ∃ b, y = .ok b ∧ R a b

section Follows
variable {α β γ δ : Type} {R : α → β → Prop} {S : γ → δ → Prop}

theorem Res.Follows.ok {a : α} {b : β} (h : R a b) : Res.Follows R (.ok a) (.ok b) := by
  rintro _ ⟨⟩
  exact ⟨b, rfl, h⟩

theorem Res.Follows.error (e : Stop) (y : Res β) : Res.Follows R (.error e) y := nofun

theorem Res.Follows.bind {x : Res α} {y : Res β} {f : α → Res γ} {g : β → Res δ} (hx : Res.Follows R x y)
    (hf : ∀ a b, R a b → Res.Follows S (f a) (g b)) : Res.Follows S (x >>= f) (y >>= g) := by
  intro c h
  obtain ⟨a, ha, hc⟩ := (Res.bind_eq_ok _ _ _).1 h
  obtain ⟨b, hb, hab⟩ := hx a ha
  obtain ⟨d, hd, hcd⟩ := hf a b hab c hc
  exact ⟨d, (Res.bind_eq_ok _ _ _).2 ⟨b, hb, hd⟩, hcd⟩

theorem Res.Follows.ite {p q : Prop} [Decidable p] [Decidable q] (hpq : p ↔ q) {x x' : Res α} {y y' : Res β}
    (hx : Res.Follows R x y) (hx' : Res.Follows R x' y') :
    Res.Follows R (if p then x else x') (if q then y else y') := by
  by_cases hp : p
  · rwa [if_pos hp, if_pos (hpq.1 hp)]
  · rwa [if_neg hp, if_neg (mt hpq.2 hp)]

theorem Res.Follows.outcome {R : State → State → Prop} {x y : Res State} (h : Res.Follows R x y) {s : State}
    (hx : x.outcome = .next s) : ∃ t, y.outcome = .next t ∧ R s t := by
  obtain ⟨t, ht, hst⟩ := h s ((Res.outcome_eq_next _ _).1 hx)
  exact ⟨t, (Res.outcome_eq_next _ _).2 ht, hst⟩

end Follows

/-! ## What an operation sees -/

/-- What the operation `run` sees of the block, but for its source and the bytes of its group: the registers, what was
sampled, what is pending and the state of its own unit; all else as after hard reset. With no operation in progress no
unit is seen. -/
def State.seen (run : Option Operation) (s : State) : State :=
  let common : State := { State.reset with
    regs := s.regs, sampled := s.sampled, snk := { committed := [], pending := s.snk.pending } }
  match run with
  | none => common
  | some .venc => { common with vu := { vacc := 0, vidx := 0, vv := s.vu.vv } }
  | some .vdec => { common with vu := { vacc := s.vu.vacc, vidx := s.vu.vidx, vv := 0 } }
  | some .decomp => { common with win := s.win, curR := s.curR, du := s.du }
  | some .comp => { common with win := s.win, curR := s.curR, cu := { s.cu with gbuf := State.reset.cu.gbuf } }

theorem State.seen_regs (run : Option Operation) (s : State) : (s.seen run).regs = s.regs := by
  rcases run with _ | _ | _ | _ | _ <;> rfl

theorem State.seen_sampled (run : Option Operation) (s : State) : (s.seen run).sampled = s.sampled := by
  rcases run with _ | _ | _ | _ | _ <;> rfl

theorem State.seen_pending (run : Option Operation) (s : State) : (s.seen run).snk.pending = s.snk.pending := by
  rcases run with _ | _ | _ | _ | _ <;> rfl

/-- Two blocks that the operation `run` cannot tell apart; `c` and `d` are what they had committed before it. -/
structure State.Alike (run : Option Operation) (c d : List Byte) (s t : State) : Prop where
  /-- What is seen is the same. -/
  seen : s.seen run = t.seen run
  /-- The same bytes are still to be read. -/
  unread : s.src.unread = t.src.unread
  /-- The flag byte and the token bytes of the group are the same; the rest of `GBUF` is stale (10_state R33). -/
  group : run = some .comp → ∀ i (hi : i < 17), i = 0 ∨ i < s.cu.gptr.toNat → s.cu.gbuf[i] = t.cu.gbuf[i]
  /-- The same has been committed since. -/
  output : ∃ out, s.snk.committed = c ++ out ∧ t.snk.committed = d ++ out

section Alike
variable {run : Option Operation} {c d : List Byte} {s t : State}

theorem State.Alike.regs (h : s.Alike run c d t) : s.regs = t.regs := by
  rw [← s.seen_regs run, h.seen, t.seen_regs]

theorem State.Alike.sampled (h : s.Alike run c d t) : s.sampled = t.sampled := by
  rw [← s.seen_sampled run, h.seen, t.seen_sampled]

theorem State.Alike.pending (h : s.Alike run c d t) : s.snk.pending = t.snk.pending := by
  rw [← s.seen_pending run, h.seen, t.seen_pending]

theorem State.Alike.running (h : s.Alike run c d t) : s.running = t.running :=
  State.running_congr (congrArg Regs.cmd h.regs) (congrArg Regs.state h.regs)

theorem Source.getElem?_pos (src : Source) : src.bytes[src.pos]? = src.unread[0]? := by
  rw [Source.unread, List.getElem?_drop, Nat.add_zero]

theorem State.Alike.nextByte (h : s.Alike run c d t) : s.src.bytes[s.src.pos]? = t.src.bytes[t.src.pos]? := by
  rw [Source.getElem?_pos, h.unread, Source.getElem?_pos]

/-! ### Changes that every operation makes -/

theorem State.Alike.withRegs (f : Regs → Regs) (h : s.Alike run c d t) :
    ({ s with regs := f s.regs } : State).Alike run c d { t with regs := f t.regs } := by
  refine ⟨?_, h.unread, h.group, h.output⟩
  rcases run with _ | _ | _ | _ | _ <;> exact congrArg (fun u : State => { u with regs := f u.regs }) h.seen

theorem State.Alike.afterReading (n : Nat) (h : s.Alike run c d t) :
    (s.afterReading n).Alike run c d (t.afterReading n) := by
  refine ⟨(h.withRegs fun r => { r with inCount := r.inCount + BitVec.ofNat 32 n }).seen, ?_, h.group, h.output⟩
  rw [State.afterReading_unread, State.afterReading_unread, h.unread]

/-- No operation sees the latch of its source. -/
theorem State.Alike.latched (h : s.Alike run c d t) :
    ({ s with src := { s.src with eos := true } } : State).Alike run c d { t with src := { t.src with eos := true } } :=
  ⟨h.seen, h.unread, h.group, h.output⟩

theorem State.Alike.afterWriting (bs : List Byte) (h : s.Alike run c d t) :
    (s.afterWriting bs).Alike run c d (t.afterWriting bs) := by
  refine ⟨?_, h.unread, h.group, h.output⟩
  rcases run with _ | _ | _ | _ | _ <;> exact congrArg (State.afterWriting · bs) h.seen

/-- Equal pending bytes are committed on both sides (20_memory R43). -/
theorem State.Alike.doneWith (v : Word) (h : s.Alike run c d t) : (s.doneWith v).Alike run c d (t.doneWith v) := by
  obtain ⟨out, hc, hd⟩ := h.output
  refine ⟨?_, h.unread, h.group, out ++ s.snk.pending, ?_, ?_⟩
  · rcases run with _ | _ | _ | _ | _ <;>
      exact congrArg (fun u : State => { u.doneWith v with snk := { committed := [], pending := [] } }) h.seen
  · simp [State.doneWith, hc]
  · simp [State.doneWith, hd, h.pending]

theorem State.Alike.failedWith (k : ErrKind) (info : Word) (h : s.Alike run c d t) :
    (s.failedWith k info).Alike run c d (t.failedWith k info) := by
  refine ⟨?_, h.unread, h.group, h.output⟩
  rcases run with _ | _ | _ | _ | _ <;> exact congrArg (State.failedWith · k info) h.seen

/-- Once the operation has ended, no unit is seen. -/
theorem State.Alike.ended (h : s.Alike run c d t) : s.Alike none c d t := by
  refine ⟨?_, h.unread, nofun, h.output⟩
  simp only [State.seen, h.regs, h.sampled, h.pending]

/-! ### Streams and elements -/

theorem State.Alike.streamRead (h : s.Alike run c d t) :
    Res.Follows (fun p q : Option Byte × State => p.1 = q.1 ∧ p.2.Alike run c d q.2) (streamRead s) (streamRead t) := by
  intro p hp
  rcases streamRead_cases hp with ⟨b, hb, hc, rfl⟩ | ⟨hn, rfl⟩
  · exact ⟨_, streamRead_some (h.nextByte ▸ hb) (h.regs ▸ hc), rfl, h.afterReading 1⟩
  · exact ⟨_, streamRead_none (h.nextByte ▸ hn), rfl, h.latched⟩

theorem State.Alike.streamWrite (b : Byte) (h : s.Alike run c d t) :
    Res.Follows (State.Alike run c d) (streamWrite b s) (streamWrite b t) := by
  intro u hu
  obtain ⟨hc, rfl⟩ := streamWrite_cases hu
  exact ⟨_, streamWrite_ok b (h.regs ▸ hc), h.afterWriting [b]⟩

theorem State.Alike.streamWriteAll (bs : List Byte) (h : s.Alike run c d t) :
    Res.Follows (State.Alike run c d) (streamWriteAll bs s) (streamWriteAll bs t) := by
  intro u hu
  obtain ⟨hc, rfl⟩ := streamWriteAll_cases hu
  exact ⟨_, streamWriteAll_ok bs (h.regs ▸ hc), h.afterWriting bs⟩

/-- The same element to run, or the same end of the source, in states that are alike. -/
inductive Fetched.Alike (run : Option Operation) (c d : List Byte) : Fetched → Fetched → Prop
  | element (i : Instr) {s t : State} : s.running = run → s.Alike run c d t →
      Fetched.Alike run c d (.element i s) (.element i t)
  | ended {s t : State} : s.Alike run c d t → Fetched.Alike run c d (.ended s) (.ended t)

theorem State.Alike.fetchElement (sel : Select) (hr : s.running = run) (h : s.Alike run c d t) :
    Res.Follows (Fetched.Alike run c d) (fetchElement sel s) (fetchElement sel t) := by
  intro r hs
  rcases fetchElement_cases hs with ⟨hl, hc, i, hdec, rfl⟩ | ⟨hl, hc, rfl⟩
  · obtain ⟨j, hfirst, hall⟩ := decodeElement_full hl
    cases hfirst.symm.trans hdec
    exact ⟨_, fetchElement_of_decodeElement (h.unread ▸ hall) (h.regs ▸ hc), .element i hr (h.afterReading _)⟩
  · refine ⟨_, fetchElement_of_short (h.unread ▸ hl) (h.unread ▸ h.regs ▸ hc), .ended (State.Alike.failedWith _ _ ?_)⟩
    rw [State.afterReadUpTo_short hl, State.afterReadUpTo_short (h.unread ▸ hl), h.unread]
    exact (h.afterReading _).latched

end Alike

section Units
variable {c d : List Byte} {s t : State}

/-! ## The varint unit (40_varint R78, R83) -/

theorem State.Alike.vv (h : s.Alike (some .venc) c d t) : s.vu.vv = t.vu.vv :=
  (congrArg (fun u : State => u.vu.vv) h.seen :)

theorem State.Alike.dropGroup (h : s.Alike (some .venc) c d t) :
    ({ s with vu := { s.vu with vv := s.vu.vv >>> 7 } } : State).Alike (some .venc) c d
      { t with vu := { t.vu with vv := t.vu.vv >>> 7 } } :=
  ⟨congrArg (fun u : State => { u with vu := { u.vu with vv := u.vu.vv >>> 7 } }) h.seen, h.unread, nofun, h.output⟩

theorem State.Alike.vacc (h : s.Alike (some .vdec) c d t) : s.vu.vacc = t.vu.vacc :=
  (congrArg (fun u : State => u.vu.vacc) h.seen :)

theorem accumulate_seen (p : BitVec 7) (s : State) :
    (accumulate p s).seen (some .vdec) = accumulate p (s.seen (some .vdec)) := by
  unfold accumulate
  by_cases hv : s.vu.vidx < 5
  · rw [if_pos hv, if_pos (show (s.seen (some .vdec)).vu.vidx < 5 from hv)]
    rfl
  · rw [if_neg hv, if_neg (show ¬ (s.seen (some .vdec)).vu.vidx < 5 from hv)]
    rfl

theorem State.Alike.accumulate (p : BitVec 7) (h : s.Alike (some .vdec) c d t) :
    (accumulate p s).Alike (some .vdec) c d (accumulate p t) := by
  refine ⟨?_, by simpa using h.unread, nofun, by simpa using h.output⟩
  rw [accumulate_seen, h.seen, accumulate_seen]

/-! ## The decompression unit (41_decompress R89 to R95) -/

theorem State.Alike.du (h : s.Alike (some .decomp) c d t) : s.du = t.du := (congrArg State.du h.seen :)

theorem State.Alike.withDu (f : DU → DU) (h : s.Alike (some .decomp) c d t) :
    ({ s with du := f s.du } : State).Alike (some .decomp) c d { t with du := f t.du } :=
  ⟨congrArg (fun u : State => { u with du := f u.du }) h.seen, h.unread, nofun, h.output⟩

theorem State.Alike.duSelect (h : s.Alike (some .decomp) c d t) :
    (duSelect s).1 = (duSelect t).1 ∧ (duSelect s).2.Alike (some .decomp) c d (duSelect t).2 := by
  have hdu := h.du
  by_cases hz : s.du.rem = 0
  · rw [duSelect_trailer hz, duSelect_trailer (hdu ▸ hz)]
    exact ⟨rfl, h⟩
  · by_cases hf : s.du.fcnt = 0
    · rw [duSelect_flag hz hf, duSelect_flag (hdu ▸ hz) (hdu ▸ hf)]
      exact ⟨rfl, h⟩
    · rw [duSelect_token hz hf, duSelect_token (hdu ▸ hz) (hdu ▸ hf), hdu]
      exact ⟨rfl, h.withDu fun u => { u with flags := u.flags >>> 1, fcnt := u.fcnt - 1 }⟩

theorem State.Alike.emit (b : Byte) (h : s.Alike (some .decomp) c d t) :
    Res.Follows (State.Alike (some .decomp) c d) (emit b s) (emit b t) := by
  intro u hu
  obtain ⟨hc, rfl⟩ := emit_cases hu
  exact ⟨_, emit_ok b (h.regs ▸ hc), congrArg (State.emitted · b) h.seen, h.unread, nofun, h.output⟩

theorem State.Alike.copyRun (src : Cursor) (count : Nat) (h : s.Alike (some .decomp) c d t) :
    Res.Follows (State.Alike (some .decomp) c d) (copyRun src count s) (copyRun src count t) := by
  induction count generalizing src s t with
  | zero => exact .ok h
  | succ k ih =>
    have hbyte : s.winAt src = t.winAt src := (congrArg (State.winAt · src) h.seen :)
    rw [Machine.copyRun, Machine.copyRun, hbyte]
    exact (h.emit _).bind fun _ _ h1 => ih (src + 1) h1

theorem State.Alike.duFlag (f : Byte) (h : s.Alike (some .decomp) c d t) :
    Res.Follows (State.Alike (some .decomp) c d) (duFlag f s) (duFlag f t) :=
  .ite (by rw [h.du]) (.ok (h.withDu fun u => { u with flags := f, fcnt := 8 })) (.error _ _)

theorem State.Alike.duLit (b : Byte) (h : s.Alike (some .decomp) c d t) :
    Res.Follows (State.Alike (some .decomp) c d) (duLit b s) (duLit b t) :=
  .ite (by rw [h.du]) (h.emit b) (.error _ _)

theorem State.Alike.duRef (offset : Cursor) (count : Nat) (h : s.Alike (some .decomp) c d t) :
    Res.Follows (State.Alike (some .decomp) c d) (duRef offset count s) (duRef offset count t) := by
  have hcur : s.curR = t.curR := (congrArg State.curR h.seen :)
  rw [Machine.duRef, Machine.duRef, hcur]
  exact .ite (by rw [h.du]) (.ite (by rw [h.du]) (.ok (h.failedWith .overflow _)) (h.copyRun _ _)) (.error _ _)

theorem State.Alike.duTrailer (w : Word) (h : s.Alike (some .decomp) c d t) :
    Res.Follows (State.Alike (some .decomp) c d) (duTrailer w s) (duTrailer w t) := by
  rw [Machine.duTrailer, Machine.duTrailer, State.argOperand, State.argOperand, h.sampled]
  exact .ite (by rw [h.du]) (.ite (by rw [h.regs]) (.ok (h.doneWith _)) (.ok (h.failedWith .malformedStream w)))
    (.error _ _)

/-! ## The compression unit -/

variable {o : Config.TreeOrder}

theorem State.Alike.win (h : s.Alike (some .comp) c d t) : s.win = t.win := (congrArg State.win h.seen :)

theorem State.Alike.curR (h : s.Alike (some .comp) c d t) : s.curR = t.curR := (congrArg State.curR h.seen :)

theorem State.Alike.curS (h : s.Alike (some .comp) c d t) : s.cu.curS = t.cu.curS :=
  (congrArg (fun u : State => u.cu.curS) h.seen :)

theorem State.Alike.len (h : s.Alike (some .comp) c d t) : s.cu.len = t.cu.len :=
  (congrArg (fun u : State => u.cu.len) h.seen :)

theorem State.Alike.gptr (h : s.Alike (some .comp) c d t) : s.cu.gptr = t.cu.gptr :=
  (congrArg (fun u : State => u.cu.gptr) h.seen :)

theorem State.Alike.gmask (h : s.Alike (some .comp) c d t) : s.cu.gmask = t.cu.gmask :=
  (congrArg (fun u : State => u.cu.gmask) h.seen :)

theorem State.Alike.finder (h : s.Alike (some .comp) c d t) : s.cu.finder = t.cu.finder :=
  (congrArg (fun u : State => u.cu.finder) h.seen :)

theorem State.Alike.withFinder {f f' : Finder} (hf : f = f') (h : s.Alike (some .comp) c d t) :
    (s.withFinder f).Alike (some .comp) c d (t.withFinder f') := by
  subst hf
  exact ⟨congrArg (State.withFinder · f) h.seen, h.unread, h.group, h.output⟩

theorem State.Alike.withGroup {g g' : Vector Byte 17} {p p' : BitVec 5} {m m' : Byte} (hp : p = p') (hm : m = m')
    (hg : ∀ i (hi : i < 17), i = 0 ∨ i < p.toNat → g[i] = g'[i]) (h : s.Alike (some .comp) c d t) :
    (s.withGroup g p m).Alike (some .comp) c d (t.withGroup g' p' m') := by
  subst hp hm
  exact ⟨congrArg (State.withGroup · State.reset.cu.gbuf p m) h.seen, h.unread, fun _ => hg, h.output⟩

/-! ### The group (42_compress R107 to R109) -/

/-- Two buffers agree where the same byte was set, and elsewhere where they agreed before. -/
theorem getElem_set_congr {g g' : Vector Byte 17} {i j : Nat} (b : Byte) (hi : i < 17) (hj : j < 17)
    (h : j ≠ i → g[j] = g'[j]) : (g.set i b)[j] = (g'.set i b)[j] := by
  rw [Vector.getElem_set, Vector.getElem_set]
  split
  · rfl
  · exact h (Ne.symm ‹_›)

/-- An empty group is its flag byte alone. -/
theorem emptyGroup_congr (g g' : Vector Byte 17) (i : Nat) (hi : i < 17) (hseen : i = 0 ∨ i < (1 : BitVec 5).toNat) :
    (g.set 0 0)[i] = (g'.set 0 0)[i] :=
  getElem_set_congr 0 (by decide) hi fun hne => absurd (hseen.elim id Nat.lt_one_iff.1) hne

theorem State.Alike.groupBytes (h : s.Alike (some .comp) c d t) : s.cu.groupBytes = t.cu.groupBytes := by
  apply List.ext_getElem
  · simp [CU.groupBytes, h.gptr]
  · intro i hi _
    simp only [CU.groupBytes, List.length_take, Vector.length_toList] at hi
    simp only [CU.groupBytes, List.getElem_take, Vector.getElem_toList]
    exact h.group rfl i (by omega) (.inr (by omega))

theorem State.Alike.gbufSet (i : Nat) {b b' : Byte} (hb : b = b') (h : s.Alike (some .comp) c d t) :
    Res.Follows (State.Alike (some .comp) c d) (gbufSet i b s) (gbufSet i b' t) := by
  subst hb
  intro u hu
  obtain ⟨hi, rfl⟩ := gbufSet_cases hu
  exact ⟨_, gbufSet_ok hi, h.withGroup h.gptr h.gmask fun j hj hseen =>
    getElem_set_congr b hi hj fun _ => h.group rfl j hj hseen⟩

/-- The byte set at `GPTR` makes up for the place that `GPTR + 1` adds to what is seen. -/
theorem State.Alike.gbufAppend (bs : List Byte) (h : s.Alike (some .comp) c d t) :
    Res.Follows (State.Alike (some .comp) c d) (gbufAppend bs s) (gbufAppend bs t) := by
  induction bs generalizing s t with
  | nil => exact .ok h
  | cons b rest ih =>
    intro u hu
    simp only [Machine.gbufAppend, Res.bind_eq_ok] at hu ⊢
    obtain ⟨s1, h1, hu⟩ := hu
    obtain ⟨hi, rfl⟩ := gbufSet_cases h1
    obtain ⟨v, hv, huv⟩ := ih (h.withGroup (g' := t.cu.gbuf.set s.cu.gptr.toNat b) (by rw [h.gptr]) h.gmask
      fun j hj hseen => getElem_set_congr b hi hj fun hne => h.group rfl j hj (by bv_omega)) u hu
    exact ⟨v, ⟨_, gbufSet_ok (h.gptr ▸ hi), by simpa [State.withGroup, h.gptr] using hv⟩, huv⟩

theorem State.Alike.writeGroup (h : s.Alike (some .comp) c d t) :
    Res.Follows (State.Alike (some .comp) c d) (writeGroup s) (writeGroup t) := by
  intro u hu
  obtain ⟨hp, hc, rfl⟩ := writeGroup_cases hu
  refine ⟨_, writeGroup_ok (h.gptr ▸ hp) (h.groupBytes ▸ h.regs ▸ hc), ?_⟩
  rw [← h.groupBytes]
  exact h.afterWriting _

theorem State.Alike.closeToken (h : s.Alike (some .comp) c d t) :
    Res.Follows (State.Alike (some .comp) c d) (closeToken s) (closeToken t) := by
  intro u hu
  rcases closeToken_cases hu with ⟨hz, rfl⟩ | ⟨hz, hp, hc, rfl⟩
  · exact ⟨_, closeToken_open (h.gmask ▸ hz), h.withGroup h.gptr (by rw [h.gmask]) (h.group rfl)⟩
  · refine ⟨_, closeToken_full (h.gmask ▸ hz) (h.gptr ▸ hp) (h.groupBytes ▸ h.regs ▸ hc), ?_⟩
    rw [← h.groupBytes]
    exact (h.afterWriting _).withGroup rfl rfl (emptyGroup_congr _ _)

/-! ### The window advance (42_compress R110, R111) -/

theorem State.Alike.advanceStep (h : s.Alike (some .comp) c d t) :
    Res.Follows (State.Alike (some .comp) c d) (advanceStep o s) (advanceStep o t) := by
  intro u hu
  rcases advanceStep_cases hu with ⟨b, f, g, hb, hc, hf, hg, rfl⟩ | ⟨f, g, hb, hf, hg, rfl⟩
  · rw [h.curS, h.finder] at hf
    rw [h.win, h.curS, h.curR] at hg
    refine ⟨_, advanceStep_input (h.nextByte ▸ hb) (h.regs ▸ hc) hf hg, ?_, (h.afterReading 1).unread, h.group,
      h.output⟩
    exact congrArg (fun u : State => { u.advancedInput b g with src := State.reset.src }) h.seen
  · rw [h.curS, h.finder] at hf
    rw [h.len, h.win, h.curR] at hg
    refine ⟨_, advanceStep_drain (h.nextByte ▸ hb) hf hg, ?_, h.unread, h.group, h.output⟩
    exact congrArg (fun u : State => { u.advancedDrain g with src := State.reset.src }) h.seen

theorem State.Alike.advance (n : Nat) (h : s.Alike (some .comp) c d t) :
    Res.Follows (State.Alike (some .comp) c d) (advance o n s) (advance o n t) := by
  induction n generalizing s t with
  | zero => exact .ok h
  | succ n ih => exact h.advanceStep.bind fun _ _ h1 => ih h1

/-! ### The elements emitted (42_compress R106 to R108, R112) -/

theorem State.Alike.cuElement (h : s.Alike (some .comp) c d t) :
    (cuElement s).1 = (cuElement t).1 ∧ (cuElement s).2.Alike (some .comp) c d (cuElement t).2 := by
  have hclamp : s.clamped.Alike (some .comp) c d t.clamped := h.withFinder (by rw [h.len, h.finder])
  by_cases hl : s.cu.len = 0
  · rw [cuElement_trailer hl, cuElement_trailer (h.len ▸ hl), h.regs]
    exact ⟨rfl, h⟩
  · by_cases hm : s.clamped.cu.finder.ml.toNat ≤ 2
    · rw [cuElement_lit hl hm, cuElement_lit (h.len ▸ hl) (hclamp.finder ▸ hm), State.winAt, State.winAt, h.win, h.curR]
      exact ⟨rfl, hclamp⟩
    · have hm := Nat.lt_of_not_le hm
      rw [cuElement_ref hl hm, cuElement_ref (h.len ▸ hl) (hclamp.finder ▸ hm), hclamp.finder, h.curR, h.finder]
      exact ⟨rfl, hclamp⟩

theorem State.Alike.cuLit (b : Byte) (h : s.Alike (some .comp) c d t) :
    Res.Follows (State.Alike (some .comp) c d) (cuLit o b s) (cuLit o b t) := by
  have hflag : s.cu.gbuf[0] = t.cu.gbuf[0] := h.group rfl 0 (by decide) (.inl rfl)
  have hml : (s.withFinder { s.cu.finder with ml := 1 }).Alike (some .comp) c d
    (t.withFinder { t.cu.finder with ml := 1 }) := h.withFinder (by rw [h.finder])
  exact .ite (by rw [h.len]) (.error _ _) ((hml.gbufSet 0 (congrArg₂ (· ||| ·) hflag h.gmask)).bind fun _ _ h1 =>
    (h1.gbufAppend [b]).bind fun _ _ h2 => h2.closeToken.bind fun _ _ h3 => h3.advance 1)

theorem State.Alike.cuRef (offset : Cursor) (count : Nat) (h : s.Alike (some .comp) c d t) :
    Res.Follows (State.Alike (some .comp) c d) (cuRef o offset count s) (cuRef o offset count t) :=
  .ite (by rw [h.len]) ((h.gbufAppend _).bind fun _ _ h1 => h1.closeToken.bind fun _ _ h2 => h2.advance count)
    (.error _ _)

theorem State.Alike.cuTrailer (w : Word) (h : s.Alike (some .comp) c d t) :
    Res.Follows (State.Alike (some .comp) c d) (cuTrailer w s) (cuTrailer w t) := by
  rw [cuTrailer_eq, cuTrailer_eq]
  refine .ite (by rw [h.len]) (.bind (.ite (by rw [h.gptr]) h.writeGroup (.ok h)) fun _ _ h1 =>
    (h1.streamWriteAll _).bind fun _ _ h2 => .ok ?_) (.error _ _)
  rw [← h2.regs]
  exact h2.doneWith _

/-! ### The setup (42_compress R104) -/

theorem State.Alike.fillLookahead (k : Nat) (h : s.Alike (some .comp) c d t) :
    Res.Follows (State.Alike (some .comp) c d) (fillLookahead k s) (fillLookahead k t) := by
  induction k generalizing s t with
  | zero => exact .ok h
  | succ k ih =>
    refine h.streamRead.bind ?_
    rintro ⟨b, s1⟩ ⟨_, t1⟩ ⟨rfl, h1⟩
    cases b with
    | none => exact .ok h1
    | some b =>
      refine ih ⟨?_, h1.unread, h1.group, h1.output⟩
      exact congrArg (fun u : State => { addToCsum b u with
        win := Memory.write u.win (Config.cursorInit.toNat + u.cu.len.toNat) b
        cu := { u.cu with len := u.cu.len + 1 } }) h1.seen

theorem State.Alike.insertAll (ns : List Cursor) (h : s.Alike (some .comp) c d t) :
    Res.Follows (State.Alike (some .comp) c d) (insertAll o ns s) (insertAll o ns t) := by
  induction ns generalizing s t with
  | nil => exact .ok h
  | cons n rest ih =>
    exact Res.Follows.bind (R := Eq) (fun f hf => ⟨f, h.win ▸ h.finder ▸ hf, rfl⟩) fun _ _ hf => ih (h.withFinder hf)

theorem State.Alike.cuSetup (h : s.Alike (some .comp) c d t) :
    Res.Follows (State.Alike (some .comp) c d) (cuSetup o s) (cuSetup o t) :=
  (h.fillLookahead 18).bind fun _ _ h1 => .ite (by rw [h1.len]) (.ok h1) (h1.insertAll setupPositions)

/-! ## The steps of the block -/

/-- The element runs in the unit in progress: its own lemma above for each unit that knows it; no other unit answers. -/
theorem State.Alike.exec {op : Operation} {u : State} (i : Instr) (hr : s.running = some op)
    (h : s.Alike (some op) c d t) (hu : exec i s = .next u) :
    ∃ v, exec i t = .next v ∧ u.Alike (some op) c d v := by
  have hrt : t.running = some op := h.running ▸ hr
  cases i with
  | flag f =>
    rw [Machine.exec, execFlag, hr] at hu
    rw [Machine.exec, execFlag, hrt]
    cases op with
    | decomp => exact (h.duFlag f).outcome hu
    | _ => cases hu
  | lit b =>
    rw [Machine.exec, execLit, hr] at hu
    rw [Machine.exec, execLit, hrt]
    cases op with
    | decomp => exact (h.duLit b).outcome hu
    | comp => exact (h.cuLit b).outcome hu
    | _ => cases hu
  | ref offset count =>
    rw [Machine.exec, execRef, hr] at hu
    rw [Machine.exec, execRef, hrt]
    cases op with
    | decomp => exact (h.duRef offset count).outcome hu
    | comp => exact (h.cuRef offset count).outcome hu
    | _ => cases hu
  | trailer w =>
    rw [Machine.exec, execTrailer, hr] at hu
    rw [Machine.exec, execTrailer, hrt]
    cases op with
    | decomp => exact (h.duTrailer w).outcome hu
    | comp => exact (h.cuTrailer w).outcome hu
    | _ => cases hu
  | vcont p =>
    rw [Machine.exec, execVcont, hr] at hu
    rw [Machine.exec, execVcont, hrt]
    cases op with
    | vdec => exact (Res.Follows.ok (h.accumulate p)).outcome hu
    | venc =>
      exact (Res.Follows.ite (by rw [h.vv]) ((h.streamWrite _).bind fun _ _ h1 => .ok h1.dropGroup)
        (.error _ _)).outcome hu
    | _ => cases hu
  | vlast p =>
    rw [Machine.exec, execVlast, hr] at hu
    rw [Machine.exec, execVlast, hrt]
    cases op with
    | vdec =>
      have h1 := h.accumulate p
      rw [← h1.vacc]
      exact (Res.Follows.ok (h1.doneWith _)).outcome hu
    | venc =>
      refine (Res.Follows.ite (by rw [h.vv]) (.error _ _) ((h.streamWrite _).bind fun _ _ h1 => .ok ?_)).outcome hu
      rw [← h1.regs]
      exact h1.doneWith _
    | _ => cases hu
  | _ =>
    rw [commandsWhileBusyDoNothing s (State.busy_of_running hr) _ (by simp)] at hu
    rw [commandsWhileBusyDoNothing t (State.busy_of_running hrt) _ (by simp)]
    cases hu
    exact ⟨t, rfl, h⟩

theorem duSelect_running {s : State} (hr : s.running = some .decomp) : (duSelect s).2.running = some .decomp := by
  obtain ⟨-, hregs⟩ := (duSelect_selects hr).frame
  exact (State.running_congr (congrArg Regs.cmd hregs) (congrArg Regs.state hregs)).trans hr

theorem cuElement_running (s : State) : (cuElement s).2.running = s.running := by
  by_cases hl : s.cu.len = 0
  · rw [cuElement_trailer hl]
  · by_cases hm : s.clamped.cu.finder.ml.toNat ≤ 2
    · rw [cuElement_lit hl hm]
      rfl
    · rw [cuElement_ref hl (Nat.lt_of_not_le hm)]
      rfl

theorem State.Alike.fetch {op : Operation} (hr : s.running = some op) (h : s.Alike (some op) c d t) :
    Res.Follows (Fetched.Alike (some op) c d) (fetch s) (fetch t) := by
  have hrt : t.running = some op := h.running ▸ hr
  rw [Machine.fetch, hr, Machine.fetch, hrt]
  cases op with
  | venc =>
    rw [vencElement, vencElement, h.vv]
    exact .ok (.element _ hr h)
  | vdec => exact h.fetchElement .varint hr
  | decomp =>
    obtain ⟨hsel, h1⟩ := h.duSelect
    simp only [← hsel]
    exact h1.fetchElement _ (duSelect_running hr)
  | comp =>
    obtain ⟨helem, h1⟩ := h.cuElement
    simp only [← helem]
    exact .ok (.element _ ((cuElement_running s).trans hr) h1)

theorem State.Alike.engineStep {op : Operation} {u : State} (hr : s.running = some op) (h : s.Alike (some op) c d t)
    (hu : engineStep s = .next u) : ∃ v, engineStep t = .next v ∧ u.Alike (some op) c d v := by
  rw [Machine.engineStep, if_pos (State.busy_of_running hr)] at hu
  rw [Machine.engineStep, if_pos (State.busy_of_running (h.running ▸ hr))]
  cases hs : Machine.fetch s with
  | error e =>
    rw [hs] at hu
    rcases e with e | e <;> cases hu
  | ok r =>
    obtain ⟨r', ht, halike⟩ := h.fetch hr r hs
    rw [hs] at hu
    rw [ht]
    cases halike with
    | element i hr1 h1 => exact h1.exec i hr1 hu
    | ended h1 =>
      cases hu
      exact ⟨_, rfl, h1⟩

/-- A `BUSY` block that takes a step has an operation in progress (log 12). -/
theorem running_of_engineStep {u : State} (hb : s.busy = true) (hu : engineStep s = .next u) :
    ∃ op, s.running = some op := by
  cases hr : s.running with
  | some op => exact ⟨op, rfl⟩
  | none =>
    rw [engineStep, if_pos hb, fetch, hr] at hu
    cases hu

/-- Blocks that are alike to the operation in progress take the same step: it goes on in both or has ended in both. -/
theorem State.Alike.step {u : State} (hqs : s.port.queue = []) (hqt : t.port.queue = [])
    (h : s.Alike s.running c d t) (hu : step s = .next u) : ∃ v, step t = .next v ∧ u.Alike u.running c d v := by
  rw [step_quiet hqs] at hu
  rw [step_quiet hqt]
  cases hb : s.busy with
  | false =>
    have hbt : t.busy = false := by rwa [State.busy, ← h.regs]
    rw [engineStep_idle hb] at hu
    cases hu
    exact ⟨t, engineStep_idle hbt, h⟩
  | true =>
    obtain ⟨op, hr⟩ := running_of_engineStep hb hu
    rw [hr] at h
    obtain ⟨v, hv, huv⟩ := h.engineStep hr hu
    refine ⟨v, hv, ?_⟩
    rcases blockStep_running (engineStep_blockStep hb hu) with hrun | hrun
    · rwa [hrun, hr]
    · rw [hrun]
      exact huv.ended

theorem State.Alike.reaches {k : Nat} {u : State} (hqs : s.port.queue = []) (hqt : t.port.queue = [])
    (h : s.Alike s.running c d t) (hu : Reaches k s u) : ∃ v, Reaches k t v ∧ u.Alike u.running c d v := by
  induction k generalizing s t with
  | zero =>
    cases reaches_zero.1 hu
    exact ⟨t, reaches_zero.2 rfl, h⟩
  | succ k ih =>
    obtain ⟨s1, hs, hu⟩ := reaches_succ.1 hu
    obtain ⟨t1, ht, h1⟩ := h.step hqs hqt hs
    obtain ⟨-, -, -, -, -, -, hports⟩ := theBlockNeverWritesItsOperands s s1 hqs hs
    obtain ⟨-, -, -, -, -, -, hportt⟩ := theBlockNeverWritesItsOperands t t1 hqt ht
    obtain ⟨v, hv, huv⟩ := ih (hports ▸ hqs) (hportt ▸ hqt) h1 hu
    exact ⟨v, reaches_succ.2 ⟨t1, ht, hv⟩, huv⟩

end Units

/-! ## The start of an operation -/

/-- The operands of a command are the same (70_reset R148). -/
structure State.SameOperands (s t : State) : Prop where
  signed : s.regs.signed = t.regs.signed
  arg : s.regs.arg = t.regs.arg
  unread : s.src.unread = t.src.unread

section Start
variable {s t : State}

/-- The common start clears or samples every register (60_exceptions R131). -/
theorem State.SameOperands.started (h : s.SameOperands t) (w : Word) :
    (s.started w).Alike none s.snk.committed t.snk.committed (t.started w) := by
  refine ⟨?_, h.unread, nofun, [], (List.append_nil _).symm, (List.append_nil _).symm⟩
  simp only [State.seen, State.started, h.signed, h.arg]

theorem State.SameOperands.vencStart (h : s.SameOperands t) :
    ((s.started 1).withValue s.regs.arg).Alike (some .venc) s.snk.committed t.snk.committed
      ((t.started 1).withValue t.regs.arg) := by
  have hst := h.started 1
  rw [h.arg]
  exact ⟨congrArg (State.withValue · t.regs.arg) hst.seen, hst.unread, nofun, hst.output⟩

/-- The working copy that `VLEN` leaves is not seen. -/
theorem State.SameOperands.vlenDone (h : s.SameOperands t) (vv vv' : Word) :
    (({ s.started 2 with vu := { s.vu with vv := vv } } : State).doneWith
        (BitVec.ofNat 32 (varintLength s.regs.arg))).Alike none s.snk.committed t.snk.committed
      (({ t.started 2 with vu := { t.vu with vv := vv' } } : State).doneWith
        (BitVec.ofNat 32 (varintLength t.regs.arg))) := by
  have hst := h.started 2
  rw [h.arg]
  exact State.Alike.doneWith _ ⟨hst.seen, hst.unread, nofun, hst.output⟩

theorem State.SameOperands.vdecStart (h : s.SameOperands t) :
    ((s.started 3).decodedGroups []).Alike (some .vdec) s.snk.committed t.snk.committed
      ((t.started 3).decodedGroups []) := by
  have hst := h.started 3
  exact ⟨congrArg (State.decodedGroups · []) hst.seen, hst.unread, nofun, hst.output⟩

theorem State.SameOperands.decompStart (h : s.SameOperands t) :
    (duInit (s.started 4)).Alike (some .decomp) s.snk.committed t.snk.committed (duInit (t.started 4)) := by
  have hst := h.started 4
  exact ⟨congrArg duInit hst.seen, hst.unread, nofun, hst.output⟩

theorem State.SameOperands.compStart (h : s.SameOperands t) :
    (cuInit (s.started 5)).Alike (some .comp) s.snk.committed t.snk.committed (cuInit (t.started 5)) := by
  have hst := h.started 5
  exact ⟨(congrArg (fun u : State => (cuInit u).seen (some .comp)) hst.seen :), hst.unread,
    fun _ => emptyGroup_congr _ _, hst.output⟩

/-- A command word leaves blocks with the same operands alike to the operation that it starts. -/
theorem State.SameOperands.hostCommand (h : s.SameOperands t) (hbs : s.busy = false) (hbt : t.busy = false) (w : Word) :
    ∃ u v, hostCommand w s = .next u ∧ hostCommand w t = .next v ∧
      u.Alike u.running s.snk.committed t.snk.committed v := by
  have both {i : Instr} {u v : State} (hw : decodeCommand w = .ok i) (hs : exec i s = .next u)
      (ht : exec i t = .next v) (halike : u.Alike u.running s.snk.committed t.snk.committed v) :
      ∃ u v, Machine.hostCommand w s = .next u ∧ Machine.hostCommand w t = .next v ∧
        u.Alike u.running s.snk.committed t.snk.committed v :=
    ⟨u, v, (hostCommand_of_decodeCommand s hw).trans hs, (hostCommand_of_decodeCommand t hw).trans ht, halike⟩
  rcases decodeCommand_cases w with ⟨hw, -⟩ | ⟨hw, -⟩ | ⟨hw, -⟩ | ⟨hw, -⟩ | ⟨hw, -⟩ | ⟨hw, -⟩ | ⟨-, hw⟩
  · exact both hw (exec_nop_idle hbs) (exec_nop_idle hbt) ((h.started 0).withRegs fun r => { r with state := .idle })
  · exact both hw (exec_venc_idle hbs) (exec_venc_idle hbt) h.vencStart
  · obtain ⟨vv, hs⟩ := vlenGivesTheMinimalLength s hbs
    obtain ⟨vv', ht⟩ := vlenGivesTheMinimalLength t hbt
    exact both hw hs ht (h.vlenDone vv vv')
  · exact both hw (exec_vdec_idle hbs) (exec_vdec_idle hbt) h.vdecStart
  · exact both hw (exec_decomp_idle hbs) (exec_decomp_idle hbt) h.decompStart
  · obtain ⟨win, f, -, hs⟩ := exec_comp_idle hbs
    have hset := hs
    rw [exec, execComp, runCommand_idle hbs] at hset
    obtain ⟨v, hv, halike⟩ := h.compStart.cuSetup.outcome hset
    refine both hw hs ?_ halike
    rwa [exec, execComp, runCommand_idle hbt]
  · exact ⟨_, _, hostCommand_reserved hbs hw, hostCommand_reserved hbt hw, (h.started w).failedWith .badCommand 0⟩

theorem hostCommand_port {u : State} {w : Word} (hb : s.busy = false) (hu : hostCommand w s = .next u) :
    u.port = s.port := by
  obtain ⟨v, hv, hstep⟩ := hostCommand_idle w hb
  cases hu.symm.trans hv
  cases hstep <;> rfl

end Start

/-- Settles O57: the command leaves the two blocks alike to the operation that it starts, and every step keeps them
so. -/
theorem operationsDependOnlyOnTheirOperands : Obligations.OperationsDependOnlyOnTheirOperands := by
  intro s1 s2 t1 w k hb1 hb2 hsigned harg hunread hrun
  have hb1' : (s1.withQueue []).busy = false := hb1
  have hb2' : (s2.withQueue []).busy = false := hb2
  have hoperands : (s1.withQueue []).SameOperands (s2.withQueue []) := ⟨hsigned, harg, hunread⟩
  obtain ⟨u1, u2, hu1, hu2, halike⟩ := hoperands.hostCommand hb1' hb2' w
  obtain ⟨u, hfirst, hrest⟩ := reaches_succ.1 hrun
  cases hu1.symm.trans hfirst
  have hq1 : u1.port.queue = [] := by rw [hostCommand_port hb1' hu1]; rfl
  have hq2 : u2.port.queue = [] := by rw [hostCommand_port hb2' hu2]; rfl
  obtain ⟨t2, hrest2, hend⟩ := halike.reaches hq1 hq2 hrest
  obtain ⟨out, hout1, hout2⟩ := hend.output
  exact ⟨t2, out, reaches_succ.2 ⟨u2, hu2, hrest2⟩, hend.regs, hend.unread, hend.pending, hout1, hout2⟩

end Sys2Proof.Machine
end
